-- ==== Sys2Proof/Word.lean ====
section
/-! DEFINITION. The word types of the Paged Transfer Sequencer.

The block moves single bytes (20_memory.md R60) and takes and returns whole 32-bit words
(30_encoding.md R100). Every other number of the rules is an unbounded natural (00_scope.md R15). -/

namespace Sys2Proof

/-- One byte of EEPROM or host memory (`VALUE_W` = 8, 00_scope.md R7). -/
abbrev Byte := BitVec 8

/-- One 32-bit word of a descriptor, of a response or of STAT (30_encoding.md R100). -/
abbrev Word := BitVec 32

end Sys2Proof
end

