-- ==== Sys2Proof/Config.lean ====
section
/-! DEFINITION. What is fixed for one machine: the constants of 00_scope.md R7, the parameters of
R8, and the free values, which have no body so that no proof can see them. -/

namespace Sys2Proof

/-- `CAPACITY`, in bytes (00_scope.md R7). -/
abbrev capacity : Nat := 65536

/-- `PAGE`, in bytes (00_scope.md R7). -/
abbrev page : Nat := 128

/-- `NPAGES` = CAPACITY / PAGE (00_scope.md R7). -/
abbrev npages : Nat := 512

/-- `WORD_SIZE`, in bytes (00_scope.md R7). -/
abbrev wordSize : Nat := 1

/-- `CHUNK_POLICY` (00_scope.md R2, R8): the default, and the source's reference behaviour. -/
inductive Policy where
  | aligned
  | stride
deriving DecidableEq, Repr

/-- The parameters 00_scope.md R8 leaves open. The rules take them as arguments of the step relation
(10_state.md R20); the state carries them unchanged, so every statement holds for all of them.
`LENGTH_W` and `ERR_W` are 32, the width of `Word`. -/
structure Params where
  /-- `N_PORTS`, 1 to 256. -/
  nPorts : Nat
  /-- `F_CLK`, ticks per second. -/
  fClk   : Nat
  /-- `CHUNK_POLICY`. -/
  policy : Policy
  /-- `HOST_AW`, 1 to 32. -/
  hostAw : Nat
  /-- `T_WC`, the EEPROM's write-cycle time in ticks. -/
  tWc    : Nat
deriving DecidableEq, Repr

/-- The configuration of 95_test_vectors.md section 1. DESIGN CHOICE (log 1): `State.reset` is a
machine with these parameters, since R8 leaves them open. -/
def Params.vectors : Params :=
  { nPorts := 2, fClk := 1000000, policy := .aligned, hostAw := 32, tWc := 3000 }

/-- A drawn byte where no draw was given: a free value of the rules' `any value`
(93_implementation_defined.md), number n of the run. Log 4. -/
opaque Config.freeByte : Nat → Byte

/-- The EEPROM byte at an address that nothing has written: any value (20_memory.md R67). Log 5. -/
opaque Config.initialEeprom : Nat → Byte

/-- The host byte at an address that nothing has written: the host's own (10_state.md R36). Log 5. -/
opaque Config.initialHost : Nat → Byte

end Sys2Proof
end

