-- ==== Sys2Proof/Syntax.lean ====
section
/-! DEFINITION. The four commands of the opcode map (30_encoding.md R104) and the raw descriptor
(R101). -/

namespace Sys2Proof

/-- One constructor per row of the opcode map (30_encoding.md R104). The operands of READ and WRITE
are the descriptor's words W1, W2 and W3 (R105, R107); ATTACH and DETACH have none. -/
inductive Instr where
  | attach
  | detach
  | read  (offset length bufaddr : Word)
  | write (offset length bufaddr : Word)
deriving DecidableEq, Repr

/-- DESC, the four words of a command descriptor, W0 first (30_encoding.md R101). -/
structure Desc where
  w0 : Word
  w1 : Word
  w2 : Word
  w3 : Word
deriving DecidableEq, Repr

/-- What one line of the assembler writes (30_encoding.md R109): a command, or any four words. -/
inductive AsmCommand where
  | cmd  (i : Instr)
  | desc (w0 w1 w2 w3 : Word)
deriving DecidableEq, Repr

/-- One line of the assembler, on a command port, 0 where the line names none (30_encoding.md R109). -/
structure AsmLine where
  port : Nat := 0
  cmd  : AsmCommand
deriving DecidableEq, Repr

/-- Why a descriptor is no command: the cases (a), (b) and (c) of 30_encoding.md R106. -/
inductive Illegal where
  /-- (a) OP is 0x0 or in 0x5 to 0xF. -/
  | opcode
  /-- (b) `W0[31:4] != 0`. -/
  | reserved
  /-- (c) ATTACH or DETACH with a nonzero W1, W2 or W3. -/
  | operands
deriving DecidableEq, Repr

/-- What the decoder answers: a command, or the reason there is none. -/
inductive Decoded where
  | command (i : Instr)
  | illegal (why : Illegal)
deriving DecidableEq, Repr

end Sys2Proof
end

