-- ==== Sys2Proof/WellFormed.lean ====
section
/-! DEFINITION. The checks on terms: on a descriptor the three cases of 30_encoding.md R106, on the
parameters the ranges of 00_scope.md R8. A term of `Instr` has nothing to check: every value of
its operands has an encoding (30_encoding.md R107). -/

namespace Sys2Proof

/-- OP, `W0[3:0]` (30_encoding.md R101). -/
def Desc.op (d : Desc) : BitVec 4 := d.w0.extractLsb' 0 4

/-- RSVD, `W0[31:4]` (30_encoding.md R101). -/
def Desc.rsvd (d : Desc) : BitVec 28 := d.w0.extractLsb' 4 28

/-- Not case (a) of R106. -/
def Desc.opcodeOk (d : Desc) : Bool := 1 ≤ d.op.toNat && d.op.toNat ≤ 4

/-- Not case (b) of R106. -/
def Desc.reservedOk (d : Desc) : Bool := d.rsvd == 0

/-- Not case (c) of R106. -/
def Desc.operandsOk (d : Desc) : Bool :=
  !(d.op == 1 || d.op == 2) || (d.w1 == 0 && d.w2 == 0 && d.w3 == 0)

/-- A descriptor that is not illegal in the sense of 30_encoding.md R106. -/
def Desc.wellFormed (d : Desc) : Bool := d.opcodeOk && d.reservedOk && d.operandsOk

/-- `N_PORTS` is 1 to 256 (00_scope.md R8). -/
def Params.portsOk (P : Params) : Bool := 1 ≤ P.nPorts && P.nPorts ≤ 256

/-- `HOST_AW` is 1 to 32 (00_scope.md R8). -/
def Params.hostAwOk (P : Params) : Bool := 1 ≤ P.hostAw && P.hostAw ≤ 32

/-- Every command is well formed: its operands are words, and each value of them has an encoding
(30_encoding.md R107, R110). -/
def Instr.wellFormed : Instr → Bool
  | .attach => true
  | .detach => true
  | .read _ _ _ => true
  | .write _ _ _ => true

end Sys2Proof
end

