-- ==== Sys2Proof/Decode.lean ====
section
/-! DEFINITION. The decoder of 30_encoding.md R107, total on every descriptor, and the encoder of
R110. A descriptor is four whole words with no byte order (20_memory.md R60). -/

namespace Sys2Proof

/-- 30_encoding.md R107, in its order: the reserved bits, then the opcode, then the operands. -/
def decode (d : Desc) : Decoded :=
  if d.w0.extractLsb' 4 28 ≠ 0 then .illegal .reserved
  else if d.w0.extractLsb' 0 4 = 0x1#4 then
    if d.w1 = 0 ∧ d.w2 = 0 ∧ d.w3 = 0 then .command .attach else .illegal .operands
  else if d.w0.extractLsb' 0 4 = 0x2#4 then
    if d.w1 = 0 ∧ d.w2 = 0 ∧ d.w3 = 0 then .command .detach else .illegal .operands
  else if d.w0.extractLsb' 0 4 = 0x3#4 then .command (.read d.w1 d.w2 d.w3)
  else if d.w0.extractLsb' 0 4 = 0x4#4 then .command (.write d.w1 d.w2 d.w3)
  else .illegal .opcode

/-- 30_encoding.md R110. -/
def encode : Instr → Desc
  | .attach => ⟨0x00000001, 0, 0, 0⟩
  | .detach => ⟨0x00000002, 0, 0, 0⟩
  | .read o n b => ⟨0x00000003, o, n, b⟩
  | .write o n b => ⟨0x00000004, o, n, b⟩

/-- The descriptor an assembler line writes (30_encoding.md R109, R110). -/
def AsmCommand.enc : AsmCommand → Desc
  | .cmd i => encode i
  | .desc w0 w1 w2 w3 => ⟨w0, w1, w2, w3⟩

/-- The command of a decoded descriptor, if it is one. -/
def Decoded.instr? : Decoded → Option Instr
  | .command i => some i
  | .illegal _ => none

/-- A descriptor from its 128-bit number `{W3, W2, W1, W0}` (30_encoding.md R101). -/
def Desc.ofNat (w : Nat) : Desc :=
  ⟨BitVec.ofNat 32 w, BitVec.ofNat 32 (w / 2 ^ 32), BitVec.ofNat 32 (w / 2 ^ 64),
    BitVec.ofNat 32 (w / 2 ^ 96)⟩

/-- The 128-bit number `{W3, W2, W1, W0}` of a descriptor (30_encoding.md R101). -/
def Desc.toNat (d : Desc) : Nat :=
  d.w0.toNat + 2 ^ 32 * d.w1.toNat + 2 ^ 64 * d.w2.toNat + 2 ^ 96 * d.w3.toNat

/-- The command the decoder reads from an opcode-table word of `nbits` bits; the bits above are 0. -/
def decodeTableWord (nbits w : Nat) : Option Instr :=
  (decode (Desc.ofNat (w % 2 ^ nbits))).instr?

end Sys2Proof
end

