-- ==== Sys2Proof/Machine/State.lean ====
section
/-! DEFINITION. The state of the Paged Transfer Sequencer and of the environment its rules read
(10_state.md R20), as plain data, and the state after reset. -/

namespace Sys2Proof.Machine

/-- `ATTACH_STATE` (10_state.md R22). -/
inductive AttachState where
  | detached
  | attaching
  | attached
  | detaching
deriving DecidableEq, Repr

/-- The 2-bit value of `ATTACH_STATE` (10_state.md R22). -/
def AttachState.bits : AttachState → BitVec 2
  | .detached => 0
  | .attaching => 1
  | .attached => 2
  | .detaching => 3

/-- The phase `PH` of a port context (10_state.md R30). Its values 6 and 7 are unused. -/
inductive Phase where
  | idle
  | waitLock
  | active
  | bus
  | settle
  | collab
deriving DecidableEq, Repr

/-- The latched descriptor fields `D` of a port context (10_state.md R30). -/
structure Latch where
  op      : BitVec 4
  offset  : Word
  length  : Word
  bufaddr : Word
deriving DecidableEq, Repr

/-- RESP, the two words returned on a command port (30_encoding.md R102). -/
structure Resp where
  q0 : Word
  q1 : Word
deriving DecidableEq, Repr

/-- One command port: its context `P[p]` (10_state.md R30; the cursor fields are naturals whose widths
`Inv` bounds, log 7) and the host's side of the port (00_scope.md R10). -/
structure Port where
  /-- `PH`. -/
  ph     : Phase
  /-- `D`. -/
  d      : Latch
  /-- `cur`, the EEPROM address of the next chunk, 17 bits (R31). -/
  cur    : Nat
  /-- `rem`, the bytes not yet transferred, 17 bits. -/
  rem    : Nat
  /-- `buf`, the host address of the next chunk, HOST_AW + 1 bits. -/
  buf    : Nat
  /-- `clen`, the length of the current chunk, 8 bits. -/
  clen   : Nat
  /-- `k`, the index of the current chunk, 10 bits. -/
  k      : Nat
  /-- Environment: the descriptors the host has presented and the port has not taken, oldest first. -/
  reqs   : List Desc
  /-- Environment: the responses returned on the port, oldest first. -/
  resps  : List Resp
  /-- The model's own: host ranges (address, length) on which a host-memory race touches the command
  in flight (20_memory.md R86). Log 12. -/
  raced  : List (Nat × Nat)
deriving DecidableEq, Repr

/-- A port at reset (10_state.md R30, R32), with nothing on its host side. -/
def Port.reset : Port :=
  { ph := .idle, d := ⟨0, 0, 0, 0⟩, cur := 0, rem := 0, buf := 0, clen := 0, k := 0,
    reqs := [], resps := [], raced := [] }

/-- The bus operations of 00_scope.md R13. -/
inductive BusCmd where
  | recv  (n : Nat)
  | read  (a n : Nat)
  | write (a : Nat) (bytes : List Byte)
deriving DecidableEq, Repr

/-- A bus operation that was issued and not yet answered (00_scope.md R17; 10_state.md R28 (d)). -/
structure BusOp where
  /-- The context that issued it. -/
  port : Nat
  /-- `DEV_ADDR`, passed to the transport unchanged (00_scope.md R8). -/
  dev  : BitVec 16
  cmd  : BusCmd
  /-- It was issued while the device was in a write cycle (20_memory.md R74), or the device lost power
  while it was outstanding (log 19): its result is any result. -/
  hit  : Bool
deriving DecidableEq, Repr

/-- The result of an operation in the bus log (20_memory.md R64). `lost` is the model's mark for an
operation that a block reset dropped (70_reset_and_hazards.md R252). Log 11. -/
inductive Result where
  | ok  (bytes : List Byte)
  | err (e : Word)
  | lost
deriving DecidableEq, Repr

/-- The entries of `LOG`, each with the index of the issuing context (20_memory.md R64). -/
inductive LogEntry where
  | recv   (p n : Nat) (r : Result)
  | rd     (p a n : Nat) (r : Result)
  | wr     (p a : Nat) (bytes : List Byte) (r : Result)
  | settle (p ticks : Nat)
  | reg    (p cap ws : Nat) (r : Result)
  | unreg  (p : Nat)
deriving DecidableEq, Repr

/-- A call of the collaborator (00_scope.md R14). -/
inductive CollabCall where
  | register
  | unregister
deriving DecidableEq, Repr

/-- The write-cycle state `WC` of the EEPROM (20_memory.md R66). `busy t cells` has t ticks left, and
`cells` gives T and V: an address with a byte, or with `none` for `ANY`. -/
inductive WriteCycle where
  | idle
  | busy (t : Nat) (cells : List (Nat × Option Byte))
deriving DecidableEq, Repr

/-- Byte memory: pairs of address and byte, the addresses strictly rising. An unlisted address has no
byte of its own: it reads as the free value of its memory (log 5, log 6). -/
abbrev Memory := List Host.Cell

/-- The supply of drawn bytes (`draw`, 00_scope.md R16): the bytes given for this run, then the free
values from number `ctr` on. The model's own. Log 4. -/
structure Draws where
  given : List Byte
  ctr   : Nat
deriving DecidableEq, Repr

/-- What the environment answers and draws in one step of a context (00_scope.md R9, R16). A step uses
what its rule asks for. Log 3. -/
structure Choice where
  /-- The answer of the bus or of the collaborator: `Ok` if 0, else `Err(e)` with this nonzero e
  (00_scope.md R13). -/
  err    : Word := 0
  /-- The byte of an `Ok` answer of `BusRecv(1)`, or none for zero bytes (20_memory.md R75). -/
  probe  : Option Byte := none
  /-- The drawn settle count, brought into its window (60_exceptions.md R231). -/
  settle : Nat := 0
  /-- The drawn t of a write cycle that a failed or dropped write leaves running, 0 for none
  (20_memory.md R73), or that a loss of power leaves running (log 19). -/
  cycle  : Nat := 0
  /-- At a block reset: an outstanding collaborator operation takes effect in that step, and otherwise
  may still do so later (70_reset_and_hazards.md R252). Log 15. -/
  effect : Bool := false
deriving DecidableEq, Repr

/-- One atomic step of one agent (00_scope.md R9, R17; 70_reset_and_hazards.md R250). Log 2. -/
inductive Move where
  /-- Context p takes its next step, under the given answers and draws. -/
  | port (p : Nat) (c : Choice)
  /-- One period of the block clock. -/
  | tick
  /-- The block reset `rst`. -/
  | reset (c : Choice)
  /-- The host presents a descriptor on command port p. -/
  | present (p : Nat) (d : Desc)
  /-- The host writes bytes to its buffer memory. -/
  | hostWrite (a : Nat) (bytes : List Byte)
  /-- The host reads n bytes of its buffer memory. -/
  | hostRead (a n : Nat)
  /-- Call k of those that a block reset left at the collaborator takes effect. -/
  | collab (k : Nat)
  /-- The platform discards the collaborator's registration (70_reset_and_hazards.md R253). DESIGN CHOICE
  (log 17): at any time, or never. -/
  | discard
  /-- The EEPROM loses power, and has it back (20_memory.md R66, R76). Log 19. -/
  | powerLoss (c : Choice)
  /-- The platform sets the inputs `BUS_FULL_ADDR` and `DEV_ADDR`. -/
  | inputs (full : Bool) (dev : BitVec 16)
deriving DecidableEq, Repr

/-- The machine: the block's state (10_state.md R20), the environment its rules read, and the model's
own bookkeeping of whose step comes next and what it draws. -/
structure State where
  /-- The parameters (00_scope.md R8); no step changes them. -/
  params      : Params
  /-- `ATTACH_STATE` (R22). -/
  attachState : AttachState
  /-- `LOCKED` (R23). -/
  locked      : Bool
  /-- `LOCK_OWNER` (R23). -/
  lockOwner   : BitVec 8
  /-- `RM_VALID` (R24). -/
  rmValid     : Bool
  /-- `SETTLE_CNT` (R26), SETTLE_W bits; `Inv` bounds it. -/
  settleCnt   : Nat
  /-- The ports `P[0]` to `P[N_PORTS-1]` (R30). -/
  ports       : List Port
  /-- Input `BUS_FULL_ADDR` (00_scope.md R8). -/
  busFullAddr : Bool
  /-- Input `DEV_ADDR` (00_scope.md R8). -/
  devAddr     : BitVec 16
  /-- An input changed while the device was not detached (70_reset_and_hazards.md R262). Log 10. -/
  disturbed   : Bool
  /-- Environment: the outstanding bus operation (R28 (d)). -/
  bus         : Option BusOp
  /-- Environment: the array `E` (20_memory.md R66). -/
  eeprom      : Memory
  /-- Environment: the write-cycle state `WC` (20_memory.md R66). -/
  wc          : WriteCycle
  /-- Environment: the host buffer memory `HM` (R36). -/
  host        : Memory
  /-- Environment: the collaborator's `REGISTERED` (R38). -/
  registered  : Bool
  /-- Environment: the calls that a block reset left at the collaborator and that may still take effect
  there (70_reset_and_hazards.md R252), oldest first. Log 15. -/
  lingering   : List CollabCall
  /-- Observation: the bytes the host took in its last read of the buffer memory (20_memory.md R86).
  Log 12. -/
  seen        : List Byte
  /-- Observation: the bus log `LOG` (20_memory.md R64), oldest entry first. -/
  log         : List LogEntry
  /-- The model's own: the moves to come, the next one first. -/
  agenda      : List Move
  /-- The model's own: the context whose step this is. -/
  sel         : Nat
  /-- The model's own: what the environment answers and draws in this step. -/
  choice      : Choice
  /-- The model's own: the drawn bytes. -/
  draws       : Draws
deriving DecidableEq, Repr

/-- Why the machine stops. Each names a situation the rules derive to be unreachable, and that a model
which reaches it must stop on (20_memory.md R69). All are safe: no claim is proved of what follows. -/
inductive Fault where
  /-- READ or WRITE would issue a bus operation past the end of the EEPROM (20_memory.md R69). Safe. -/
  | beyondArray
  /-- READ or WRITE would access host memory past its end (10_state.md R36). Safe. -/
  | beyondHost
  /-- Any command: its context is in a phase that the command never enters (40_attach.md R132, R142;
  41_transfer.md R171, R181). Safe. -/
  | strayPhase
  /-- ATTACH, READ or WRITE: its context is in phase BUS and no operation of that command is outstanding
  (10_state.md R28 (d)). Safe. -/
  | strayBus
  /-- The fetch: a context in flight holds a latched descriptor that is no command (10_state.md R33).
  Safe. -/
  | strayLatch
deriving DecidableEq, Repr

/-- Why a step has no meaning. -/
inductive Refusal where
  /-- `exec` raises it for a command that has no meaning yet; no arm does. Safe. -/
  | notModelled (mnemonic : String)
deriving DecidableEq, Repr

/-- What a step of the machine answers. -/
abbrev Answer := Host.Outcome State Fault Refusal

/-- The machine right after reset (70_reset_and_hazards.md R251; 10_state.md R32): the block's state as
the rules give it, the parameters and inputs of 95_test_vectors.md section 1 (log 1), a device and a
host memory that nothing has written, and no move to come. -/
def State.reset : State :=
  { params := Params.vectors
    attachState := .detached
    locked := false
    lockOwner := 0
    rmValid := false
    settleCnt := 0
    ports := [Port.reset, Port.reset]
    busFullAddr := true
    devAddr := 0x0050
    disturbed := false
    bus := none
    eeprom := []
    wc := .idle
    host := []
    registered := false
    lingering := []
    seen := []
    log := []
    agenda := []
    sel := 0
    choice := {}
    draws := ⟨[], 0⟩ }

end Sys2Proof.Machine
end

