-- ==== Sys2Proof/Machine/Memory.lean ====
section
/-! DEFINITION. Byte memory and drawn bytes: the accesses of 10_state.md R36, the array of
20_memory.md R66, and `draw` of 00_scope.md R16. -/

namespace Sys2Proof.Machine

/-- The canonical form: addresses strictly rising. No entry can equal what an unlisted address holds,
since that holds no byte (log 6). -/
abbrev Memory.wf (m : Memory) : Prop := m.Pairwise (fun x y => x.1 < y.1)

/-- The byte listed at an address. -/
def Memory.get? : Memory → Nat → Option Byte
  | [], _ => none
  | (a, v) :: m, x => if x = a then some v else Memory.get? m x

/-- Writes one byte and keeps the canonical form. -/
def Memory.put : Memory → Nat → Byte → Memory
  | [], x, v => [(x, v)]
  | (a, w) :: m, x, v =>
    if x < a then (x, v) :: (a, w) :: m
    else if x = a then (x, v) :: m
    else (a, w) :: Memory.put m x v

/-- The cells that hold given bytes from an address on. -/
def byteCells : Nat → List Byte → List (Nat × Option Byte)
  | _, [] => []
  | a, b :: bs => (a, some b) :: byteCells (a + 1) bs

/-- The cells of n addresses from a on, each with `ANY` (20_memory.md R66). -/
def anyCells : Nat → Nat → List (Nat × Option Byte)
  | _, 0 => []
  | a, n + 1 => (a, none) :: anyCells (a + 1) n

/-- `draw` of one byte: the next given one, else the next free value (00_scope.md R16). -/
def Draws.byte (d : Draws) : Byte × Draws :=
  match d.given with
  | b :: bs => (b, { d with given := bs })
  | [] => (Config.freeByte d.ctr, { d with ctr := d.ctr + 1 })

/-- `draw` of n bytes. -/
def Draws.bytes : Nat → Draws → List Byte × Draws
  | 0, d => ([], d)
  | n + 1, d => (d.byte.1 :: (Draws.bytes n d.byte.2).1, (Draws.bytes n d.byte.2).2)

/-- Writes each cell in turn: its byte, or a drawn byte where it says `ANY` (20_memory.md R71). -/
def fill : List (Nat × Option Byte) → Memory → Draws → Memory × Draws
  | [], m, d => (m, d)
  | (a, some v) :: cs, m, d => fill cs (m.put a v) d
  | (a, none) :: cs, m, d => fill cs (m.put a d.byte.1) d.byte.2

/-- `E[a]` (00_scope.md R16): the listed byte, else the free initial value (20_memory.md R67). -/
def State.eepromByte (s : State) (a : Nat) : Byte := (s.eeprom.get? a).getD (Config.initialEeprom a)

/-- `HM[a]` (10_state.md R36): the listed byte, else the host's own. -/
def State.hostByte (s : State) (a : Nat) : Byte := (s.host.get? a).getD (Config.initialHost a)

/-- `E[a .. a+n)`. -/
def State.eepromBytes (s : State) : Nat → Nat → List Byte
  | _, 0 => []
  | a, n + 1 => s.eepromByte a :: State.eepromBytes s (a + 1) n

/-- `HM[a .. a+n)`. -/
def State.hostBytes (s : State) : Nat → Nat → List Byte
  | _, 0 => []
  | a, n + 1 => s.hostByte a :: State.hostBytes s (a + 1) n

/-- Writes cells to the EEPROM array. -/
def State.fillEeprom (cells : List (Nat × Option Byte)) (s : State) : State :=
  { s with eeprom := (fill cells s.eeprom s.draws).1, draws := (fill cells s.eeprom s.draws).2 }

/-- Writes cells to the host buffer memory. -/
def State.fillHost (cells : List (Nat × Option Byte)) (s : State) : State :=
  { s with host := (fill cells s.host s.draws).1, draws := (fill cells s.host s.draws).2 }

end Sys2Proof.Machine
end

