-- ==== Sys2Proof/Machine/Flags.lean ====
section
/-! DEFINITION. The words that report status. The block has no flags and no condition codes
(10_state.md R29): what it reports is the response of a command (60_exceptions.md R210) and the
read-only view STAT (10_state.md R25). -/

namespace Sys2Proof.Machine

/-- The status codes of 60_exceptions.md R210. -/
inductive Status where
  | ok
  | unsupportedBus
  | deviceNotResponding
  | outOfRange
  | transferFailed
  | registrationFailed
  | notAttached
  | illegalCommand
  | wrongAttachState
  | bufferRange
deriving DecidableEq, Repr

/-- `CODE` (60_exceptions.md R210). -/
def Status.code : Status → BitVec 4
  | .ok => 0x0
  | .unsupportedBus => 0x1
  | .deviceNotResponding => 0x2
  | .outOfRange => 0x3
  | .transferFailed => 0x4
  | .registrationFailed => 0x5
  | .notAttached => 0x6
  | .illegalCommand => 0x7
  | .wrongAttachState => 0x8
  | .bufferRange => 0x9

/-- RESP: `Q0 = zext_32(code)`, `Q1 = detail` (30_encoding.md R102; 60_exceptions.md R216). -/
def respOf (st : Status) (detail : Word) : Resp := ⟨st.code.setWidth 32, detail⟩

/-- STAT.SETTLING: `SETTLE_CNT != 0` (10_state.md R25). -/
def State.settling (s : State) : Bool := decide (s.settleCnt ≠ 0)

/-- STAT.POLICY: 0 for ALIGNED, 1 for STRIDE (10_state.md R25). -/
def policyBit : Policy → BitVec 1
  | .aligned => 0
  | .stride => 1

/-- STAT, what a read on the status read port returns; it has no effect (10_state.md R25, R27). -/
def State.stat (s : State) : Word :=
  (0#16 ++ s.lockOwner ++ 0#2 ++ policyBit s.params.policy ++ BitVec.ofBool s.rmValid
    ++ BitVec.ofBool s.settling ++ BitVec.ofBool s.locked ++ s.attachState.bits : BitVec 32)

end Sys2Proof.Machine
end

