-- ==== Sys2Proof/Machine/Operands.lean ====
section
/-! DEFINITION. The operands of the commands and the numbers computed from them: the latch, the
checks of 41_transfer.md R162 to R164, the chunker of R166, and the derived parameters of
00_scope.md R8. All arithmetic is on naturals and nothing wraps (00_scope.md R15). -/

namespace Sys2Proof.Machine

/-- The latched fields of a command's descriptor (10_state.md R30, R33; 30_encoding.md R110). -/
def latchOf (i : Instr) : Latch :=
  ⟨(encode i).w0.extractLsb' 0 4, (encode i).w1, (encode i).w2, (encode i).w3⟩

/-- The descriptor that latched fields came from; its reserved bits were 0 (30_encoding.md R106). -/
def Latch.desc (d : Latch) : Desc := ⟨d.op.setWidth 32, d.offset, d.length, d.bufaddr⟩

/-- The command of latched fields. -/
def Latch.instr? (d : Latch) : Option Instr := (decode d.desc).instr?

/-- The latched command is READ or WRITE (30_encoding.md R104). -/
def Latch.isTransfer (d : Latch) : Bool := d.op == 3 || d.op == 4

/-- `SETTLE_MIN_TICKS` = ceil(5 * F_CLK / 1000) (00_scope.md R8). -/
def settleMin (P : Params) : Nat := (5 * P.fClk + 999) / 1000

/-- `SETTLE_MAX_TICKS` = floor(6 * F_CLK / 1000) (00_scope.md R8). -/
def settleMax (P : Params) : Nat := 6 * P.fClk / 1000

/-- `SETTLE_W` = ceil(log2(SETTLE_MAX_TICKS + 1)) (10_state.md R26). -/
def settleW (P : Params) : Nat := if settleMax P = 0 then 0 else Nat.log2 (settleMax P) + 1

/-- The size of the host buffer address space, `2^HOST_AW` (10_state.md R36). -/
def hostSize (P : Params) : Nat := 2 ^ P.hostAw

/-- The parameters meet 00_scope.md R8, and `T_WC <= SETTLE_MIN_TICKS` as 20_memory.md R71 assumes. -/
abbrev paramsOk (P : Params) : Prop :=
  P.portsOk = true ∧ P.hostAwOk = true ∧ 0 < P.fClk ∧ settleMin P ≤ settleMax P ∧ P.tWc ≤ settleMin P

/-- The drawn settle count, in `[SETTLE_MIN_TICKS, SETTLE_MAX_TICKS]` (60_exceptions.md R231). -/
def settleDraw (P : Params) (c : Choice) : Nat := max (settleMin P) (min (settleMax P) c.settle)

/-- The request lies in the EEPROM (41_transfer.md R163). -/
def Latch.inRange (d : Latch) : Bool := decide (d.offset.toNat + d.length.toNat ≤ capacity)

/-- The buffer lies in the host space (41_transfer.md R164). -/
def Latch.inHost (P : Params) (d : Latch) : Bool :=
  decide (d.bufaddr.toNat + d.length.toNat ≤ hostSize P)

/-- The status a READ or WRITE gets at acceptance, in the order of 41_transfer.md R161, or none when it
goes on to wait for the lock. -/
def acceptStatus (s : State) (d : Latch) : Option Status :=
  if s.attachState ≠ .attached then some .notAttached
  else if d.length = 0 then some .ok
  else if d.inRange = false then some .outOfRange
  else if d.inHost s.params = false then some .bufferRange
  else none

/-- `ChunkLen(cur, rem)` (41_transfer.md R166). -/
def chunkLen (pol : Policy) (cur rem : Nat) : Nat :=
  match pol with
  | .aligned => min rem (page - cur % page)
  | .stride => min rem page

/-- The chunks of a request, by iterating `ChunkLen` (41_transfer.md R167). Each has at least one byte,
so `rem` iterations are enough. -/
def chunksFrom (pol : Policy) : Nat → Nat → Nat → List (Nat × Nat)
  | 0, _, _ => []
  | fuel + 1, cur, rem =>
    if rem = 0 then []
    else (cur, chunkLen pol cur rem) ::
      chunksFrom pol fuel (cur + chunkLen pol cur rem) (rem - chunkLen pol cur rem)

/-- The chunk list of a request at offset o of length n (41_transfer.md R167). -/
def chunks (pol : Policy) (o n : Nat) : List (Nat × Nat) := chunksFrom pol n o n

/-- The number of chunks, by the formulas of 41_transfer.md R167 and R187, for n >= 1. -/
def chunkCount (pol : Policy) (o n : Nat) : Nat :=
  match pol with
  | .aligned => (o + n - 1) / page - o / page + 1
  | .stride => (n + page - 1) / page

/-- `[a, a+n)` lies in one page (20_memory.md R70). -/
def inOnePage (a n : Nat) : Bool := decide (a / page = (a + n - 1) / page)

/-- The range R of a failed write: `[a, a+n)`, widened to the touched pages when it crosses a page
boundary (20_memory.md R73). As (address, length). -/
def writeRange (a n : Nat) : Nat × Nat :=
  if inOnePage a n then (a, n)
  else (a / page * page, ((a + n - 1) / page + 1) * page - a / page * page)

/-- Address x lies in the range (address, length). -/
def inRng (r : Nat × Nat) (x : Nat) : Bool := decide (r.1 ≤ x ∧ x < r.1 + r.2)

/-- Two ranges share an address. -/
def overlaps (r q : Nat × Nat) : Bool :=
  decide (0 < r.2 ∧ 0 < q.2 ∧ r.1 < q.1 + q.2 ∧ q.1 < r.1 + r.2)

/-- The host buffer of latched operands, as (address, length). -/
def Latch.buffer (d : Latch) : Nat × Nat := (d.bufaddr.toNat, d.length.toNat)

end Sys2Proof.Machine
end

