-- ==== Sys2Proof/Machine/Ops.lean ====
section
/-! DEFINITION. The operations every command shares: ports, the lock (20_memory.md R80 to R83), the end
of a command (60_exceptions.md R216), the latch, the host buffer (10_state.md R36), the settle timer
(60_exceptions.md R230), the cursor (10_state.md R31) and the fetch of a context's command. -/

namespace Sys2Proof.Machine

/-- `P[p]`. A port that does not exist reads as a port at reset. -/
def State.port (s : State) (p : Nat) : Port := s.ports.getD p Port.reset

/-- Writes `P[p]`. -/
def State.setPort (p : Nat) (c : Port) (s : State) : State := { s with ports := s.ports.set p c }

/-- `PH <- ph` in context p. -/
def State.setPhase (p : Nat) (ph : Phase) (s : State) : State := s.setPort p { s.port p with ph := ph }

/-- Appends an entry to `LOG` (20_memory.md R64). -/
def State.addLog (e : LogEntry) (s : State) : State := { s with log := s.log ++ [e] }

/-- `ATTACH_STATE <- a`, `RM_VALID <- v`. -/
def State.setAttach (a : AttachState) (v : Bool) (s : State) : State :=
  { s with attachState := a, rmValid := v }

/-! The lock. -/

/-- `LOCKED = 1 and LOCK_OWNER = p`. -/
def State.ownedBy (s : State) (p : Nat) : Bool := s.locked && s.lockOwner == BitVec.ofNat 8 p

/-- `Unlock()` (20_memory.md R83). -/
def State.unlock (s : State) : State := { s with locked := false, lockOwner := 0 }

/-- The step in which context p takes the free lock (20_memory.md R81). -/
def takeLock (p : Nat) (s : State) : State :=
  { s.setPhase p .active with locked := true, lockOwner := BitVec.ofNat 8 p }

/-- A step of context p in `await Lock()`: it takes the lock if it is free, and has no step otherwise
(20_memory.md R81), so the move passes over it. -/
def awaitLock (p : Nat) (s : State) : Answer :=
  if s.locked then .next s else .next (takeLock p s)

/-! Taking an exception: the block has no traps, and a command that fails ends with a status
(60_exceptions.md section 3). There is no return from it (R218): the port may take a new descriptor
in the next step. -/

/-- The lock part of `raise Status`: `Unlock()` if context p holds the lock (60_exceptions.md R216). -/
def release (p : Nat) (s : State) : State := if s.ownedBy p then s.unlock else s

/-- `raise Status(code, detail)` in context p (60_exceptions.md R216). -/
def raise (p : Nat) (st : Status) (detail : Word) (s : State) : State :=
  (release p s).setPort p
    { s.port p with ph := .idle, resps := (s.port p).resps ++ [respOf st detail], raced := [] }

/-! The descriptor latch and the host buffer. -/

/-- `D <- d` in context p (10_state.md R33). -/
def latch (p : Nat) (d : Latch) (s : State) : State := s.setPort p { s.port p with d := d }

/-- The command of port c is a transfer in flight whose buffer races with that of latched operands d:
one of the two is a READ and the other a WRITE, and the buffers overlap (41_transfer.md R174 (g)). -/
def clashes (d : Latch) (c : Port) : Bool :=
  c.ph != .idle && c.d.isTransfer && d.isTransfer && c.d.op != d.op && overlaps c.d.buffer d.buffer

/-- The buffers of the transfers in flight on other ports that race with the command of port p. -/
def clashRanges (p : Nat) (s : State) : List (Nat × Nat) :=
  (s.ports.mapIdx fun q c => if q ≠ p ∧ clashes (s.port p).d c then [c.d.buffer] else []).flatten

/-- Marks the races of the command that port p has just latched, on it and on the other ports
(20_memory.md R86; 41_transfer.md R174 (g)). DESIGN CHOICE (log 12): the race counts from here on, for the
accesses to come; bytes that either command has moved already stay as they are. -/
def markRaces (p : Nat) (s : State) : State :=
  { s with ports := s.ports.mapIdx fun q c =>
      if q = p then { c with raced := clashRanges p s }
      else if clashes (s.port p).d c then { c with raced := c.raced ++ [(s.port p).d.buffer] }
      else c }

/-- Address x of the buffer is touched by a race. -/
def isRaced (rs : List (Nat × Nat)) (x : Nat) : Bool := rs.any fun r => inRng r x

/-- The host range `[a, a+n)` lies in the host space (10_state.md R36). -/
def hostFits (s : State) (a n : Nat) : Bool := decide (a + n ≤ hostSize s.params)

/-- The bytes `MemRead(a, n)` takes: those of `HM`, or drawn ones where a race touches them
(10_state.md R36; 20_memory.md R86). -/
def sample (s : State) (rs : List (Nat × Nat)) : Nat → Nat → Draws → List Byte × Draws
  | _, 0, d => ([], d)
  | a, n + 1, d =>
    if isRaced rs a then
      (d.byte.1 :: (sample s rs (a + 1) n d.byte.2).1, (sample s rs (a + 1) n d.byte.2).2)
    else (s.hostByte a :: (sample s rs (a + 1) n d).1, (sample s rs (a + 1) n d).2)

/-- `MemRead(a, n)` by context p: the bytes. -/
def memReadBytes (p a n : Nat) (s : State) : List Byte := (sample s (s.port p).raced a n s.draws).1

/-- `MemRead(a, n)` by context p: the state after it, in which the draws are used. -/
def memRead (p a n : Nat) (s : State) : State :=
  { s with draws := (sample s (s.port p).raced a n s.draws).2 }

/-- The cells `MemWrite(a, n, v)` writes: the bytes, or `ANY` where a race touches them. -/
def raceCells (rs : List (Nat × Nat)) : Nat → List Byte → List (Nat × Option Byte)
  | _, [] => []
  | a, b :: bs => (a, if isRaced rs a then none else some b) :: raceCells rs (a + 1) bs

/-- `MemWrite(a, |v|, v)` by context p (10_state.md R36; 20_memory.md R86). -/
def memWrite (p a : Nat) (v : List Byte) (s : State) : State :=
  s.fillHost (raceCells (s.port p).raced a v)

/-! The cursor and the settle timer. -/

/-- `cur <- D.OFFSET; rem <- D.LENGTH; buf <- D.BUFADDR; k <- 0` (41_transfer.md R165). -/
def initCursor (p : Nat) (s : State) : State :=
  s.setPort p { s.port p with
    cur := (s.port p).d.offset.toNat, rem := (s.port p).d.length.toNat,
    buf := (s.port p).d.bufaddr.toNat, k := 0 }

/-- The cursor after a chunk of length `clen` (10_state.md R31), with `PH <- ACTIVE`. -/
def advance (p : Nat) (s : State) : State :=
  s.setPort p { s.port p with
    ph := .active, cur := (s.port p).cur + (s.port p).clen, rem := (s.port p).rem - (s.port p).clen,
    buf := (s.port p).buf + (s.port p).clen, k := (s.port p).k + 1 }

/-- The load step of `await Settle()` by context p: the drawn count, its `LOG` entry, and
`PH <- SETTLE` (60_exceptions.md R230; 41_transfer.md R181). -/
def loadSettle (p : Nat) (s : State) : State :=
  ({ s.setPhase p .settle with settleCnt := settleDraw s.params s.choice }).addLog
    (.settle p (settleDraw s.params s.choice))

/-! The fetch: what the next step of a context runs. -/

/-- What a step of a context finds to do. -/
inductive Fetched where
  /-- The step is complete, with this state. -/
  | done (s : State)
  /-- It runs this command from this state. -/
  | run (i : Instr) (s : State)
  /-- It cannot go on. -/
  | stop (f : Fault)
deriving DecidableEq, Repr

/-- An idle port p takes its next descriptor, if there is one (10_state.md R30, R33). An illegal one is
answered in this step, and changes nothing else (30_encoding.md R106). -/
def takeDescriptor (p : Nat) (s : State) : Fetched :=
  match (s.port p).reqs with
  | [] => .done s
  | d :: ds =>
    match decode d with
    | .command i => .run i (s.setPort p { s.port p with reqs := ds })
    | .illegal _ => .done (raise p .illegalCommand 0 (s.setPort p { s.port p with reqs := ds }))

/-- What the next step of context p runs: on an idle port the descriptor it takes, and otherwise the
latched command. A port that does not exist has no step. -/
def fetch (p : Nat) (s : State) : Fetched :=
  if s.ports.length ≤ p then .done s
  else match (s.port p).ph with
    | .idle => takeDescriptor p s
    | _ =>
      match (s.port p).d.instr? with
      | some i => .run i s
      | none => .stop .strayLatch

end Sys2Proof.Machine
end

