-- ==== Sys2Proof/Machine/Device.lean ====
section
/-! DEFINITION. The EEPROM as seen through the bus (20_memory.md section 4), the bus operations
(00_scope.md R13, R17) and the collaborator (R14). What the environment chooses is in
`State.choice`; what the rules call any value is drawn. -/

namespace Sys2Proof.Machine

/-- The device is in a write cycle. -/
def WriteCycle.isBusy : WriteCycle → Bool
  | .idle => false
  | .busy _ _ => true

/-- Effect (a) of 20_memory.md R74: V becomes `ANY` at every address of T. -/
def WriteCycle.corrupt : WriteCycle → WriteCycle
  | .idle => .idle
  | .busy t cells => .busy t (cells.map fun c => (c.1, none))

/-- The issue of a bus operation by context p, with `PH <- BUS` (00_scope.md R17). An operation issued
during a write cycle corrupts the cycle (20_memory.md R74). -/
def issue (p : Nat) (cmd : BusCmd) (s : State) : State :=
  { s.setPhase p .bus with
    bus := some { port := p, dev := s.devAddr, cmd := cmd, hit := s.wc.isBusy }
    wc := s.wc.corrupt }

/-- The outstanding operation has been answered. -/
def State.answered (s : State) : State := { s with bus := none }

/-- Starts a write cycle of t ticks; one of 0 ticks completes in this step (20_memory.md R71). -/
def startCycle (t : Nat) (cells : List (Nat × Option Byte)) (s : State) : State :=
  if t = 0 then { s.fillEeprom cells with wc := .idle } else { s with wc := .busy t cells }

/-- The write cycle that a failed or dropped write on range r may leave running: of the drawn t, at most
T_WC ticks, or none (20_memory.md R73). A cycle that is running goes on (R74). -/
def maybeCycle (r : Nat × Nat) (c : Choice) (s : State) : State :=
  match s.wc with
  | .busy _ _ => s
  | .idle =>
    if min c.cycle s.params.tWc = 0 then s
    else { s with wc := .busy (min c.cycle s.params.tWc) (anyCells r.1 r.2) }

/-- Every byte of the range takes any value. -/
def havoc (r : Nat × Nat) (s : State) : State := s.fillEeprom (anyCells r.1 r.2)

/-- The effect on the device of a write of n bytes at a that failed, or was dropped by a block reset
(20_memory.md R73; 70_reset_and_hazards.md R252). -/
def failedWrite (a n : Nat) (c : Choice) (s : State) : State :=
  maybeCycle (writeRange a n) c (havoc (writeRange a n) s)

/-- The effect on the device of a write that is answered `Ok`: R70 within one page, R72 across pages,
R74 (c) during a write cycle (20_memory.md), and 70_reset_and_hazards.md R262 after a change of the
inputs. -/
def okWrite (hit : Bool) (a : Nat) (b : List Byte) (s : State) : State :=
  if s.disturbed then failedWrite a b.length s.choice s
  else if hit then havoc (writeRange a b.length) s
  else if inOnePage a b.length then startCycle s.params.tWc (byteCells a b) s
  else startCycle s.params.tWc (anyCells (writeRange a b.length).1 (writeRange a b.length).2) s

/-- The effect on the array of a read of `[a, a+n)`: none (20_memory.md R68), but after a change of the
inputs any value over the range (70_reset_and_hazards.md R262). -/
def readEffect (a n : Nat) (s : State) : State := if s.disturbed then havoc (a, n) s else s

/-- The bytes of a read that is answered `Ok`: the stored ones (20_memory.md R68), or drawn ones where it
was issued during a write cycle (R74 (b)) or after a change of the inputs (70_reset_and_hazards.md
R262). -/
def readBytes (hit : Bool) (a n : Nat) (s : State) : List Byte :=
  if hit || s.disturbed then (Draws.bytes n s.draws).1 else s.eepromBytes a n

/-- The state after the bytes of `readBytes` are taken: the draws it made are used. -/
def readDraw (hit : Bool) (n : Nat) (s : State) : State :=
  if hit || s.disturbed then { s with draws := (Draws.bytes n s.draws).2 } else s

/-- The answer of `BusRecv(1)` (20_memory.md R75; the set is the same during a write cycle, R74). -/
def recvResult (c : Choice) : Result := if c.err = 0 then .ok c.probe.toList else .err c.err

/-- The answer of an operation with no data: `BusWrite`, `Register`. -/
def plainResult (c : Choice) : Result := if c.err = 0 then .ok [] else .err c.err

/-- One tick of the device: the write cycle counts down and completes at 0 (20_memory.md R71). -/
def tickDevice (s : State) : State :=
  match s.wc with
  | .idle => s
  | .busy t cells =>
    if t ≤ 1 then { s.fillEeprom cells with wc := .idle } else { s with wc := .busy (t - 1) cells }

/-- A write cycle that a loss of power meets: it is corrupted, and goes on for the drawn number of ticks,
at most those it had left, or ends in this step where that is 0. DESIGN CHOICE (log 19): 20_memory.md R66
and R76 speak of `E` and of completed cycles alone. -/
def cutCycle (c : Choice) (s : State) : State :=
  match s.wc with
  | .idle => s
  | .busy t cells => startCycle (min c.cycle t) (cells.map fun x => (x.1, none)) s

/-- The operation that a loss of power meets: its result is any result, as of one issued during a write
cycle (20_memory.md R74). DESIGN CHOICE (log 19). -/
def BusOp.powerLost (op : BusOp) : BusOp := { op with hit := true }

/-- The EEPROM loses power and has it back: `E` survives (20_memory.md R66), and with it every byte of a
completed write cycle (R76). -/
def powerLoss (c : Choice) (s : State) : State :=
  { cutCycle c s with bus := s.bus.map BusOp.powerLost }

/-- One tick of the block's clock (60_exceptions.md R230; 70_reset_and_hazards.md R250). -/
def tick (s : State) : State :=
  { tickDevice s with settleCnt := s.settleCnt - 1 }

end Sys2Proof.Machine
end

