-- ==== Sys2Proof/Machine/Lifecycle.lean ====
section
/-! DEFINITION. ATTACH and DETACH (40_attach.md R132, R142). Each call is one atomic step of the context
`s.sel` (00_scope.md R17): the phase of the context says where its command stands. -/

namespace Sys2Proof.Machine

/-- Acceptance of ATTACH or DETACH by context p: the latch and `PH <- WAIT_LOCK` (R132, R142). -/
def acceptLifecycle (p : Nat) (d : Latch) (s : State) : State := (latch p d s).setPhase p .waitLock

/-- ATTACH from the lock to the probe: the lifecycle check, step 1 and the issue of step 2 (R132 to
R134). -/
def attachChecks (p : Nat) (s : State) : State :=
  if s.attachState ≠ .detached then raise p .wrongAttachState 0 s
  else if s.busFullAddr = false then raise p .unsupportedBus 0 s
  else issue p (.recv 1) s

/-- ATTACH on the probe's answer: failure, or steps 3 and 4 and the call of step 5 (R134 to R137). -/
def attachProbed (p n : Nat) (s : State) : State :=
  if s.choice.err = 0 ∧ s.choice.probe.isSome then
    ((s.answered.addLog (.recv p n (recvResult s.choice))).setAttach .attaching true).unlock.setPhase p
      .collab
  else raise p .deviceNotResponding 0 (s.answered.addLog (.recv p n (recvResult s.choice)))

/-- ATTACH on the collaborator's answer (R137; `REGISTERED` is 10_state.md R38). -/
def attachRegistered (p : Nat) (s : State) : State :=
  if s.choice.err = 0 then
    raise p .ok 0 { (s.addLog (.reg p capacity wordSize (plainResult s.choice))).setAttach .attached
      s.rmValid with registered := true }
  else
    raise p .registrationFailed s.choice.err
      ((s.addLog (.reg p capacity wordSize (plainResult s.choice))).setAttach .detached false)

/-- ATTACH (40_attach.md R132). -/
def execAttach (s : State) : Answer :=
  match (s.port s.sel).ph with
  | .idle => .next (acceptLifecycle s.sel (latchOf .attach) s)
  | .waitLock => awaitLock s.sel s
  | .active => .next (attachChecks s.sel s)
  | .bus =>
    match s.bus with
    | some ⟨_, _, .recv n, _⟩ => .next (attachProbed s.sel n s)
    | _ => .fault .strayBus
  | .collab => .next (attachRegistered s.sel s)
  | .settle => .fault .strayPhase

/-- DETACH from the lock to the call of `Unregister` (R142). -/
def detachBegin (p : Nat) (s : State) : State :=
  if s.attachState ≠ .attached then raise p .wrongAttachState 0 s
  else (s.setAttach .detaching s.rmValid).unlock.setPhase p .collab

/-- DETACH on the return of `Unregister`, which is always `Ok` (R142; 00_scope.md R14). DESIGN CHOICE (log
18): the entry `UNREG`, which has no result, is written in this step and not in that of the call;
20_memory.md R64 does not say which. DESIGN CHOICE (log 20): it is this step that clears `REGISTERED`, and
the call leaves it; 10_state.md R38 and R142 do not say which. -/
def detachUnregistered (p : Nat) (s : State) : State :=
  raise p .ok 0 { (s.addLog (.unreg p)).setAttach .detached false with registered := false }

/-- DETACH (40_attach.md R142). -/
def execDetach (s : State) : Answer :=
  match (s.port s.sel).ph with
  | .idle => .next (acceptLifecycle s.sel (latchOf .detach) s)
  | .waitLock => awaitLock s.sel s
  | .active => .next (detachBegin s.sel s)
  | .collab => .next (detachUnregistered s.sel s)
  | .bus => .fault .strayPhase
  | .settle => .fault .strayPhase

end Sys2Proof.Machine
end

