-- ==== Sys2Proof/Machine/Transfer.lean ====
section
/-! DEFINITION. READ and WRITE (41_transfer.md R171, R181). Each call is one atomic step of the context
`s.sel` (00_scope.md R17): the phase of the context says where its command stands. From acceptance on
only the latched operands count (10_state.md R33). -/

namespace Sys2Proof.Machine

/-- `Accept(d)` by context p (R161). -/
def acceptTransfer (p : Nat) (d : Latch) (s : State) : State :=
  match acceptStatus s d with
  | some st => raise p st 0 (latch p d s)
  | none => (markRaces p (latch p d s)).setPhase p .waitLock

/-! READ. -/

/-- The head of READ's loop: the end of the command, or the issue of the next chunk (R171). -/
def readNext (p : Nat) (s : State) : Answer :=
  if (s.port p).rem = 0 then .next (raise p .ok 0 s)
  else if capacity < (s.port p).cur + chunkLen s.params.policy (s.port p).cur (s.port p).rem then
    .fault .beyondArray
  else .next (issue p (.read (s.port p).cur (chunkLen s.params.policy (s.port p).cur (s.port p).rem))
    (s.setPort p { s.port p with clen := chunkLen s.params.policy (s.port p).cur (s.port p).rem }))

/-- READ from the lock to its first chunk: the re-check and the cursor (R165). -/
def readBegin (p : Nat) (s : State) : Answer :=
  if s.attachState ≠ .attached then .next (raise p .notAttached 0 s)
  else readNext p (initCursor p s)

/-- The chunk's bytes arrive: `MemWrite`, the cursor, and the head of the loop (R171). Where the answered
bytes are drawn, DESIGN CHOICE (log 10): their draws come after those of the device's effect, so that the
two are independent (70_reset_and_hazards.md R262). -/
def readArrived (p : Nat) (hit : Bool) (a n : Nat) (s : State) : Answer :=
  readNext p (advance p (memWrite p (s.port p).buf (readBytes hit a n (readEffect a n s))
    ((readDraw hit n (readEffect a n s)).answered.addLog
      (.rd p a n (.ok (readBytes hit a n (readEffect a n s)))))))

/-- The chunk fails: its slice of the host buffer holds any value, and the command ends with the bus
error (R173). -/
def readFailed (p a n : Nat) (s : State) : State :=
  raise p .transferFailed s.choice.err
    (((readEffect a n s).answered.addLog (.rd p a n (.err s.choice.err))).fillHost
      (anyCells (s.port p).buf (s.port p).clen))

/-- READ on the answer of `BusRead(a, n)` (R171). -/
def readAnswered (p : Nat) (hit : Bool) (a n : Nat) (s : State) : Answer :=
  if hostFits s (s.port p).buf (max n (s.port p).clen) = false then .fault .beyondHost
  else if s.choice.err = 0 then readArrived p hit a n s
  else .next (readFailed p a n s)

/-- READ (41_transfer.md R171). -/
def execRead (offset length bufaddr : Word) (s : State) : Answer :=
  match (s.port s.sel).ph with
  | .idle => .next (acceptTransfer s.sel (latchOf (.read offset length bufaddr)) s)
  | .waitLock => awaitLock s.sel s
  | .active => readBegin s.sel s
  | .bus =>
    match s.bus with
    | some ⟨_, _, .read a n, hit⟩ => readAnswered s.sel hit a n s
    | _ => .fault .strayBus
  | .settle => .fault .strayPhase
  | .collab => .fault .strayPhase

/-! WRITE. -/

/-- The head of WRITE's loop: the end of the command, or `MemRead` and the issue of the next chunk
(R181; 20_memory.md R86). -/
def writeNext (p : Nat) (s : State) : Answer :=
  if (s.port p).rem = 0 then .next (raise p .ok 0 s)
  else if capacity < (s.port p).cur + chunkLen s.params.policy (s.port p).cur (s.port p).rem then
    .fault .beyondArray
  else if hostFits s (s.port p).buf (chunkLen s.params.policy (s.port p).cur (s.port p).rem) = false then
    .fault .beyondHost
  else .next (issue p
    (.write (s.port p).cur
      (memReadBytes p (s.port p).buf (chunkLen s.params.policy (s.port p).cur (s.port p).rem) s))
    ((memRead p (s.port p).buf (chunkLen s.params.policy (s.port p).cur (s.port p).rem) s).setPort p
      { s.port p with clen := chunkLen s.params.policy (s.port p).cur (s.port p).rem }))

/-- WRITE from the lock to its first chunk: the re-check and the cursor (R165). -/
def writeBegin (p : Nat) (s : State) : Answer :=
  if s.attachState ≠ .attached then .next (raise p .notAttached 0 s)
  else writeNext p (initCursor p s)

/-- The chunk is written: the device's effect and the settle (R181, R182). -/
def writeTaken (p : Nat) (hit : Bool) (a : Nat) (b : List Byte) (s : State) : State :=
  loadSettle p ((okWrite hit a b s).answered.addLog (.wr p a b (plainResult s.choice)))

/-- The chunk fails: the device's effect, no settle, and the command ends with the bus error (R183). -/
def writeFailed (p a : Nat) (b : List Byte) (s : State) : State :=
  raise p .transferFailed s.choice.err
    ((failedWrite a b.length s.choice s).answered.addLog (.wr p a b (plainResult s.choice)))

/-- WRITE on the answer of `BusWrite(a, b)` (R181). -/
def writeAnswered (p : Nat) (hit : Bool) (a : Nat) (b : List Byte) (s : State) : State :=
  if s.choice.err = 0 then writeTaken p hit a b s else writeFailed p a b s

/-- A step of WRITE in its settle: none while the count is nonzero (60_exceptions.md R230), so the move
passes over it; then the cursor and the head of the loop (R181). -/
def writeSettled (p : Nat) (s : State) : Answer :=
  if s.settleCnt ≠ 0 then .next s else writeNext p (advance p s)

/-- WRITE (41_transfer.md R181). -/
def execWrite (offset length bufaddr : Word) (s : State) : Answer :=
  match (s.port s.sel).ph with
  | .idle => .next (acceptTransfer s.sel (latchOf (.write offset length bufaddr)) s)
  | .waitLock => awaitLock s.sel s
  | .active => writeBegin s.sel s
  | .bus =>
    match s.bus with
    | some ⟨_, _, .write a b, hit⟩ => .next (writeAnswered s.sel hit a b s)
    | _ => .fault .strayBus
  | .settle => writeSettled s.sel s
  | .collab => .fault .strayPhase

end Sys2Proof.Machine
end

