-- ==== Sys2Proof/Machine/Dispatch.lean ====
section
/-! DEFINITION. One arm per command (30_encoding.md R104). -/

namespace Sys2Proof.Machine

-- One atomic step of the command i in the context s.sel (00_scope.md R17).
def exec (i : Instr) (s : State) : Host.Outcome State Fault Refusal :=
  match i with
  | .attach => Sys2Proof.Machine.execAttach s
  | .detach => Sys2Proof.Machine.execDetach s
  | .read offset length bufaddr => Sys2Proof.Machine.execRead offset length bufaddr s
  | .write offset length bufaddr => Sys2Proof.Machine.execWrite offset length bufaddr s

end Sys2Proof.Machine
end

