-- ==== Sys2Proof/Machine/Environment.lean ====
section
/-! DEFINITION. The steps of the environment that are no step of a context: the host
(00_scope.md R9), the configuration inputs, and the block reset (70_reset_and_hazards.md R250). -/

namespace Sys2Proof.Machine

/-- The host presents a descriptor on command port p (00_scope.md R10). It waits there until the port is
IDLE (30_encoding.md R109). -/
def present (p : Nat) (d : Desc) (s : State) : State :=
  s.setPort p { s.port p with reqs := (s.port p).reqs ++ [d] }

/-- The host's move for one line of the assembler (30_encoding.md R109). -/
def asmMove (l : AsmLine) : Move := .present l.port l.cmd.enc

/-- The buffer of a transfer in flight on port c holds address x. -/
def inFlightAt (c : Port) (x : Nat) : Bool :=
  c.ph != .idle && c.d.isTransfer && inRng c.d.buffer x

/-- The cells of a host write: its bytes, or `ANY` where a command in flight uses the address
(20_memory.md R86; 70_reset_and_hazards.md R258). -/
def hostCells (s : State) : Nat → List Byte → List (Nat × Option Byte)
  | _, [] => []
  | a, b :: bs =>
    (a, if s.ports.any (fun c => inFlightAt c a) then none else some b) :: hostCells s (a + 1) bs

/-- Marks a host access of range r on the commands in flight that f picks and whose buffer it touches. -/
def markHostRace (f : Latch → Bool) (r : Nat × Nat) (s : State) : State :=
  { s with ports := s.ports.map fun c =>
      if c.ph != .idle && f c.d && overlaps c.d.buffer r then { c with raced := c.raced ++ [r] }
      else c }

/-- The WRITE that has a chunk in hand: the lock owner in phase BUS or SETTLE (10_state.md R28 (e)). -/
def writer (s : State) : Option Port :=
  if s.locked && (s.port s.lockOwner.toNat).d.op == 4 &&
      ((s.port s.lockOwner.toNat).ph == .bus || (s.port s.lockOwner.toNat).ph == .settle) then
    some (s.port s.lockOwner.toNat)
  else none

/-- The EEPROM address y corresponds, in the request of WRITE c, to a host address in the range r
(20_memory.md R60). -/
def takenFrom (c : Port) (r : Nat × Nat) (y : Nat) : Bool :=
  inRng (c.d.offset.toNat, c.d.length.toNat) y &&
    inRng r (c.d.bufaddr.toNat + (y - c.d.offset.toNat))

/-- The bytes of WRITE c that the device has been given by an answered `BusWrite`, as a length from
`D.OFFSET` on: those before the cursor, and in phase SETTLE the chunk's (41_transfer.md R181). -/
def givenLength (c : Port) : Nat :=
  c.cur - c.d.offset.toNat + (if c.ph = .settle then c.clen else 0)

/-- Draws the bytes of a list, from address a on, at the addresses where f holds. -/
def redraw (f : Nat → Bool) : Nat → List Byte → Draws → List Byte × Draws
  | _, [], d => ([], d)
  | a, b :: bs, d =>
    if f a then (d.byte.1 :: (redraw f (a + 1) bs d.byte.2).1, (redraw f (a + 1) bs d.byte.2).2)
    else (b :: (redraw f (a + 1) bs d).1, (redraw f (a + 1) bs d).2)

/-- A write cycle with V set to `ANY` at the addresses where f holds. -/
def WriteCycle.blur (f : Nat → Bool) : WriteCycle → WriteCycle
  | .idle => .idle
  | .busy t cells => .busy t (cells.map fun c => if f c.1 then (c.1, none) else c)

/-- An outstanding operation whose written bytes are drawn anew at the addresses where f holds. -/
def BusOp.blur (f : Nat → Bool) (d : Draws) (op : BusOp) : BusOp :=
  match op.cmd with
  | .write a b => { op with cmd := .write a (redraw f a b d).1 }
  | _ => op

/-- The draws left after `BusOp.blur`. -/
def BusOp.blurDraws (f : Nat → Bool) (d : Draws) (op : BusOp) : Draws :=
  match op.cmd with
  | .write a b => (redraw f a b d).2
  | _ => d

/-- The bytes of an outstanding `BusWrite` are drawn anew where f holds. -/
def blurBus (f : Nat → Bool) (s : State) : State :=
  match s.bus with
  | none => s
  | some op => { s with bus := some (op.blur f s.draws), draws := op.blurDraws f s.draws }

/-- A host write on the range r races with bytes that a WRITE in flight has taken already: each is any
value on its way to the EEPROM and in it (20_memory.md R86; 93_implementation_defined.md U12). That
is the outstanding operation, the running write cycle, and the bytes of the chunks before. Log 12. -/
def raceTaken (r : Nat × Nat) (s : State) : State :=
  match writer s with
  | none => s
  | some c =>
    blurBus (takenFrom c r)
      { s.fillEeprom ((anyCells c.d.offset.toNat (givenLength c)).filter fun x => takenFrom c r x.1) with
        wc := s.wc.blur (takenFrom c r) }

/-- The host writes bytes to its buffer memory (10_state.md R36). Addresses past the end of the host
space do not exist, and a write that names one is passed over (log 13). -/
def hostWrite (a : Nat) (bytes : List Byte) (s : State) : State :=
  if hostFits s a bytes.length then
    markHostRace Latch.isTransfer (a, bytes.length)
      (raceTaken (a, bytes.length) (s.fillHost (hostCells s a bytes)))
  else s

/-- The command is a READ. -/
def Latch.isRead (d : Latch) : Bool := d.op == 3

/-- A READ in flight has its destination at host address x. -/
def readsInto (s : State) (x : Nat) : Bool := s.ports.any fun c => inFlightAt c x && c.d.isRead

/-- The bytes the host takes from n addresses from a on: those of `HM`, or drawn ones, each its own draw,
where a READ in flight has its destination (20_memory.md R86). -/
def hostSample (s : State) : Nat → Nat → Draws → List Byte × Draws
  | _, 0, d => ([], d)
  | a, n + 1, d =>
    if readsInto s a then
      (d.byte.1 :: (hostSample s (a + 1) n d.byte.2).1, (hostSample s (a + 1) n d.byte.2).2)
    else (s.hostByte a :: (hostSample s (a + 1) n d).1, (hostSample s (a + 1) n d).2)

/-- The cells of a host read of n addresses from a on: `ANY` where a READ in flight has its destination
(93_implementation_defined.md U12), and no other. -/
def readCells (s : State) (a n : Nat) : List (Nat × Option Byte) :=
  (anyCells a n).filter fun x => readsInto s x.1

/-- The host reads n bytes of its buffer memory (10_state.md R36). Where a READ in flight has its
destination that is a race: the bytes taken and, apart from them, the bytes in `HM` are any value
(20_memory.md R86; 93_implementation_defined.md U12), and so are those the READ still writes there. A read
that names an address past the end of the host space is passed over (log 13). -/
def hostRead (a n : Nat) (s : State) : State :=
  if hostFits s a n then
    markHostRace Latch.isRead (a, n) (State.fillHost (readCells s a n)
      { s with seen := (hostSample s a n s.draws).1, draws := (hostSample s a n s.draws).2 })
  else s

/-- The platform sets `BUS_FULL_ADDR` and `DEV_ADDR`. A change while the device is not detached makes
every later bus operation undefined (70_reset_and_hazards.md R262). DESIGN CHOICE (log 10): an operation
outstanding at the change counts as a later one, since it is answered after the change. -/
def setInputs (full : Bool) (dev : BitVec 16) (s : State) : State :=
  { s with
    busFullAddr := full
    devAddr := dev
    disturbed := s.disturbed ||
      (s.attachState != .detached && (full != s.busFullAddr || dev != s.devAddr)) }

/-- The device's side of a block reset: an outstanding operation is dropped (R252). -/
def dropBus (c : Choice) (s : State) : State :=
  match s.bus with
  | none => s
  | some ⟨p, _, .recv n, _⟩ => s.answered.addLog (.recv p n .lost)
  | some ⟨p, _, .read a n, _⟩ => (readEffect a n s).answered.addLog (.rd p a n .lost)
  | some ⟨p, _, .write a b, _⟩ => (failedWrite a b.length c s).answered.addLog (.wr p a b .lost)

/-- The context that is waiting for the collaborator. -/
def collabPort (s : State) : Option Nat := s.ports.findIdx? fun c => c.ph == .collab

/-- `REGISTERED` after a call that takes effect (10_state.md R38). -/
def CollabCall.registers : CollabCall → Bool
  | .register => true
  | .unregister => false

/-- A call takes effect at the collaborator. -/
def takeEffect (x : CollabCall) (s : State) : State := { s with registered := x.registers }

/-- A call that a block reset cut off takes effect in that step, or stays at the collaborator, where it
may still take effect after any number of steps, or never (R252). Log 15. -/
def cutOff (c : Choice) (x : CollabCall) (s : State) : State :=
  if c.effect then takeEffect x s else { s with lingering := s.lingering ++ [x] }

/-- The collaborator's side of a block reset: an outstanding `Register` or `Unregister` may still take
effect (R252, R253). -/
def dropCollab (c : Choice) (s : State) : State :=
  match collabPort s with
  | none => s
  | some p =>
    if (s.port p).d.op = 1 then cutOff c .register (s.addLog (.reg p capacity wordSize .lost))
    else cutOff c .unregister (s.addLog (.unreg p))

/-- Call k of those that block resets left at the collaborator takes effect. With no such call the move
is passed over. -/
def lateCollab (k : Nat) (s : State) : State :=
  match s.lingering[k]? with
  | none => s
  | some x => takeEffect x { s with lingering := s.lingering.eraseIdx k }

/-- The platform resets or discards the collaborator's registration, as it must after a block reset
(70_reset_and_hazards.md R253). The rule gives no time and no step for it: DESIGN CHOICE (log 17), a step
of its own at any time, which leaves a call that a block reset cut off. -/
def discardRegistration (s : State) : State := { s with registered := false }

/-- A port at a block reset: its context is as at reset (10_state.md R32); what stands on the host's side
of the port stays. -/
def Port.resetContext (c : Port) : Port := { Port.reset with reqs := c.reqs, resps := c.resps }

/-- The block's state at reset (R251). -/
def resetBlock (s : State) : State :=
  { s with
    attachState := .detached
    locked := false
    lockOwner := 0
    rmValid := false
    settleCnt := 0
    ports := s.ports.map Port.resetContext }

/-- The block reset `rst`, one atomic event (70_reset_and_hazards.md R250 to R253). DESIGN CHOICE (log
11): where it drops a bus operation and a collaborator call, the bus entry comes first in `LOG`. -/
def blockReset (c : Choice) (s : State) : State := resetBlock (dropCollab c (dropBus c s))

end Sys2Proof.Machine
end

