-- ==== Sys2Proof/Machine/Step.lean ====
section
/-! DEFINITION. One step of the machine: the next atomic step of one agent (00_scope.md R9, R17). -/

namespace Sys2Proof.Machine

/-- A step of context p, under the environment's answers and draws c. -/
def contextStep (p : Nat) (c : Choice) (s : State) : Answer :=
  match fetch p { s with sel := p, choice := c } with
  | .done t => .next t
  | .run i t => exec i t
  | .stop f => .fault f

/-- The step a move names. -/
def runMove (m : Move) (s : State) : Answer :=
  match m with
  | .port p c => contextStep p c s
  | .tick => .next (tick s)
  | .reset c => .next (blockReset c s)
  | .present p d => .next (present p d s)
  | .hostWrite a bytes => .next (hostWrite a bytes s)
  | .hostRead a n => .next (hostRead a n s)
  | .collab k => .next (lateCollab k s)
  | .discard => .next (discardRegistration s)
  | .powerLoss c => .next (powerLoss c s)
  | .inputs full dev => .next (setInputs full dev s)

/-- The next move of the agenda. With none left only the clock runs (log 2). -/
def step (s : State) : Host.Outcome State Fault Refusal :=
  match s.agenda with
  | [] => .next (tick s)
  | m :: rest => runMove m { s with agenda := rest }

/-- The opcode-table word as the first descriptor waiting on command port 0, that port idle, and the
next move a step of context 0: the next step takes the descriptor and runs its command. -/
def State.withFetchWord (s : State) (nbits w : Nat) : State :=
  { s.setPort 0 { s.port 0 with
      ph := .idle, reqs := Desc.ofNat (w % 2 ^ nbits) :: (s.port 0).reqs } with
    agenda := .port 0 {} :: s.agenda }

end Sys2Proof.Machine
end

