-- ==== Sys2Proof/Safety.lean ====
section
/-! DEFINITION. The terms claims use: the invariants of 10_state.md R28 and what else holds of every
state a run from reset reaches. -/

namespace Sys2Proof.Machine

/-- The phases in which a context holds the lock (10_state.md R28 (e)). -/
def holdsLock : Phase → Bool
  | .idle => false
  | .waitLock => false
  | .active => true
  | .bus => true
  | .settle => true
  | .collab => false

/-- The operands passed the acceptance checks (41_transfer.md R162 to R164). -/
abbrev acceptedOk (P : Params) (d : Latch) : Prop :=
  0 < d.length.toNat ∧ d.inRange = true ∧ d.inHost P = true

/-- The chunk cursor of a transfer with a chunk in hand (10_state.md R31; 41_transfer.md R166). -/
abbrev cursorOk (P : Params) (c : Port) : Prop :=
  c.cur + c.rem = c.d.offset.toNat + c.d.length.toNat ∧
  c.buf + c.rem = c.d.bufaddr.toNat + c.d.length.toNat ∧
  c.d.offset.toNat ≤ c.cur ∧ 0 < c.rem ∧
  c.clen = chunkLen P.policy c.cur c.rem ∧
  c.k = c.cur / page - c.d.offset.toNat / page

/-- What a context's phase says of its command and of `ATTACH_STATE`. -/
def portOk (P : Params) (st : AttachState) (c : Port) : Prop :=
  match c.ph with
  | .idle => True
  | .waitLock => c.d.instr?.isSome = true ∧ (c.d.isTransfer = true → acceptedOk P c.d)
  | .active => c.d.instr?.isSome = true ∧ (c.d.isTransfer = true → acceptedOk P c.d)
  | .bus =>
    (c.d.op = 1 ∧ c.d.instr?.isSome = true ∧ st = .detached) ∨
    (c.d.isTransfer = true ∧ acceptedOk P c.d ∧ cursorOk P c ∧ st = .attached)
  | .settle => c.d.op = 4 ∧ acceptedOk P c.d ∧ cursorOk P c ∧ st = .attached
  | .collab =>
    c.d.instr?.isSome = true ∧ (c.d.op = 1 ∧ st = .attaching ∨ c.d.op = 2 ∧ st = .detaching)

/-- The cursor fields fit their widths (10_state.md R30). -/
abbrev widthsOk (P : Params) (c : Port) : Prop :=
  c.cur ≤ capacity ∧ c.rem ≤ capacity ∧ c.buf ≤ hostSize P ∧ c.clen ≤ page ∧ c.k ≤ npages

/-- The operation a context in phase BUS waits for (40_attach.md R132; 41_transfer.md R171, R181). -/
def cmdOk (c : Port) : BusCmd → Prop
  | .recv n => c.d.op = 1 ∧ n = 1
  | .read a n => c.d.op = 3 ∧ a = c.cur ∧ n = c.clen
  | .write a b => c.d.op = 4 ∧ a = c.cur ∧ b.length = c.clen

/-- A running write cycle has between 1 and T_WC ticks left, and writes inside the array
(20_memory.md R71, R73). -/
def cycleOk (P : Params) : WriteCycle → Prop
  | .idle => True
  | .busy t cells => 1 ≤ t ∧ t ≤ P.tWc ∧ ∀ c ∈ cells, c.1 < capacity

/-- The write cycle ends within the count (20_memory.md R77; 60_exceptions.md R230). -/
def cycleWithin (n : Nat) : WriteCycle → Prop
  | .idle => True
  | .busy t _ => t ≤ n

/-- The invariants. -/
structure Inv (s : State) : Prop where
  /-- 00_scope.md R8, 20_memory.md R71. -/
  params      : paramsOk s.params
  /-- One context per port (10_state.md R30). -/
  nPorts      : s.ports.length = s.params.nPorts
  /-- R28 (a). -/
  ownerClear  : s.locked = false → s.lockOwner = 0
  /-- R28 (b). -/
  settleOwner : s.settleCnt ≠ 0 → s.locked = true ∧ (s.port s.lockOwner.toNat).ph = .settle
  /-- R28 (c). -/
  rmValid     : s.rmValid = true ↔ s.attachState ≠ .detached
  /-- R28 (d): the issuer of the outstanding operation is in phase BUS. -/
  busIssuer   : ∀ op, s.bus = some op → op.port < s.ports.length ∧ (s.port op.port).ph = .bus
  /-- A context in phase BUS waits for an operation of its own command. -/
  busWait     : ∀ p < s.ports.length, (s.port p).ph = .bus →
                  ∃ op, s.bus = some op ∧ op.port = p ∧ cmdOk (s.port p) op.cmd
  /-- R28 (e): a context in phase ACTIVE, BUS or SETTLE is the lock owner. -/
  lockHeld    : ∀ p < s.ports.length, holdsLock (s.port p).ph = true →
                  s.locked = true ∧ s.lockOwner.toNat = p
  /-- R28 (e): the lock owner is in phase ACTIVE, BUS or SETTLE. -/
  lockOwned   : s.locked = true →
                  s.lockOwner.toNat < s.ports.length ∧ holdsLock (s.port s.lockOwner.toNat).ph = true
  /-- The phases of the commands. -/
  phases      : ∀ p < s.ports.length, portOk s.params s.attachState (s.port p)
  /-- 10_state.md R30. -/
  widths      : ∀ p < s.ports.length, widthsOk s.params (s.port p)
  /-- 40_attach.md R146: one collaborator call at a time. -/
  oneCollab   : ∀ p < s.ports.length, ∀ q < s.ports.length,
                  (s.port p).ph = .collab → (s.port q).ph = .collab → p = q
  /-- 10_state.md R26: SETTLE_CNT fits its width. -/
  settleBound : s.settleCnt ≤ settleMax s.params
  /-- 20_memory.md R66. -/
  eepromWf    : s.eeprom.wf
  eepromIn    : ∀ x ∈ s.eeprom, x.1 < capacity
  /-- 10_state.md R36. -/
  hostWf      : s.host.wf
  hostIn      : ∀ x ∈ s.host, x.1 < hostSize s.params
  /-- 20_memory.md R71. -/
  cycle       : cycleOk s.params s.wc
  /-- 20_memory.md R77: a settle outlasts the write cycle it waits for. -/
  settleLong  : ∀ p < s.ports.length, (s.port p).ph = .settle → cycleWithin s.settleCnt s.wc

/-- Nothing is in flight: every context is IDLE, the lock is free, no operation is outstanding, no write
cycle runs, and the inputs did not change while attached. -/
structure Quiet (s : State) : Prop where
  idle   : ∀ p < s.ports.length, (s.port p).ph = .idle
  free   : s.locked = false
  noBus  : s.bus = none
  cycle  : s.wc = .idle
  stable : s.disturbed = false

/-! What a step leaves alone. -/

/-- The parameters and the configuration inputs. -/
abbrev sameConfig (s t : State) : Prop :=
  t.params = s.params ∧ t.busFullAddr = s.busFullAddr ∧ t.devAddr = s.devAddr ∧ t.disturbed = s.disturbed

/-- The lock. -/
abbrev sameLock (s t : State) : Prop := t.locked = s.locked ∧ t.lockOwner = s.lockOwner

/-- `ATTACH_STATE`, `RM_VALID` and the collaborator's `REGISTERED`. -/
abbrev sameLifecycle (s t : State) : Prop :=
  t.attachState = s.attachState ∧ t.rmValid = s.rmValid ∧ t.registered = s.registered

/-- Every byte of the EEPROM. -/
abbrev sameEeprom (s t : State) : Prop := ∀ a, t.eepromByte a = s.eepromByte a

/-- Every byte of the host memory. -/
abbrev sameHost (s t : State) : Prop := ∀ a, t.hostByte a = s.hostByte a

/-- Every other port. -/
abbrev sameOthers (p : Nat) (s t : State) : Prop :=
  t.ports.length = s.ports.length ∧ ∀ q, q ≠ p → t.port q = s.port q

/-- The latch and the cursor of context p. -/
abbrev sameOperands (p : Nat) (s t : State) : Prop :=
  (t.port p).d = (s.port p).d ∧ (t.port p).cur = (s.port p).cur ∧ (t.port p).rem = (s.port p).rem ∧
  (t.port p).buf = (s.port p).buf ∧ (t.port p).clen = (s.port p).clen ∧ (t.port p).k = (s.port p).k

/-- The host's side of port p. -/
abbrev sameQueues (p : Nat) (s t : State) : Prop :=
  (t.port p).reqs = (s.port p).reqs ∧ (t.port p).resps = (s.port p).resps

/-- Context p has ended its command with the response words q0 and q1 (30_encoding.md R102). -/
abbrev responds (p : Nat) (q0 q1 : Word) (s t : State) : Prop :=
  (t.port p).ph = .idle ∧ (t.port p).reqs = (s.port p).reqs ∧
  (t.port p).resps = (s.port p).resps ++ [⟨q0, q1⟩]

/-- The lock is free (20_memory.md R83). -/
abbrev lockFree (t : State) : Prop := t.locked = false ∧ t.lockOwner = 0

/-! Drawn bytes and host-memory races. -/

/-- Byte number k of those that d draws. -/
def Draws.nth : Nat → Draws → Byte
  | 0, d => d.byte.1
  | k + 1, d => Draws.nth k d.byte.2

/-- The bytes v at the addresses of which P holds are drawn from d, each its own draw (00_scope.md R16). -/
abbrev drawnApart (d : Draws) (P : Nat → Prop) (v : Nat → Byte) : Prop :=
  ∃ f : Nat → Nat, (∀ x y, P x → P y → f x = f y → x = y) ∧ ∀ x, P x → v x = d.nth (f x)

/-- The command of port c is marked for a race at host address x (20_memory.md R86; log 12). -/
abbrev racedAt (c : Port) (x : Nat) : Prop := ∃ r ∈ c.raced, r.1 ≤ x ∧ x < r.1 + r.2

/-- A READ or WRITE is in flight on port c, and its buffer holds host address x (20_memory.md R86). -/
abbrev usesHost (c : Port) (x : Nat) : Prop :=
  c.ph ≠ .idle ∧ (c.d.op = 3 ∨ c.d.op = 4) ∧
  c.d.bufaddr.toNat ≤ x ∧ x < c.d.bufaddr.toNat + c.d.length.toNat

/-- In the request of the transfer of port c, EEPROM address y corresponds to a host address in
`[a, a+n)` (20_memory.md R60). -/
abbrev correspondsTo (c : Port) (a n y : Nat) : Prop :=
  c.d.offset.toNat ≤ y ∧ y < c.d.offset.toNat + c.d.length.toNat ∧
  a ≤ c.d.bufaddr.toNat + (y - c.d.offset.toNat) ∧ c.d.bufaddr.toNat + (y - c.d.offset.toNat) < a + n

/-! The device. -/

/-- Address x lies in the range R of a write of n bytes at a: the bytes themselves, widened to every
touched page when they cross a page boundary (20_memory.md R73). -/
abbrev inWriteRange (a n x : Nat) : Prop :=
  if a / 128 = (a + n - 1) / 128 then a ≤ x ∧ x < a + n
  else a / 128 ≤ x / 128 ∧ x / 128 ≤ (a + n - 1) / 128

/-- A write cycle that leaves any value at exactly the addresses of R (20_memory.md R72, R73). -/
abbrev anyOver (a n : Nat) (cells : List (Nat × Option Byte)) : Prop :=
  (∀ c ∈ cells, c.2 = none) ∧ ∀ x, (∃ c ∈ cells, c.1 = x) ↔ inWriteRange a n x

/-- What a failed or dropped write leaves of the write cycle, under the draws c: a running one goes on,
and otherwise there is one over R of the drawn number of ticks, at most T_WC, or none where that is 0
(20_memory.md R73, R74). -/
abbrev mayLeaveCycle (a n : Nat) (c : Choice) (s t : State) : Prop :=
  (s.wc ≠ .idle → t.wc = s.wc) ∧
  (s.wc = .idle →
    (min c.cycle s.params.tWc = 0 → t.wc = .idle) ∧
    (0 < min c.cycle s.params.tWc →
      ∃ cells, t.wc = .busy (min c.cycle s.params.tWc) cells ∧ anyOver a n cells))

/-- The entry of a bus operation that a block reset drops (log 11). -/
def lostEntry (op : BusOp) : LogEntry :=
  match op.cmd with
  | .recv n => .recv op.port n .lost
  | .read a n => .rd op.port a n .lost
  | .write a v => .wr op.port a v .lost

/-! Schedules in which one port alone runs one command. -/

/-- n ticks of the clock. -/
def ticks : Nat → State → State
  | 0, s => s
  | n + 1, s => ticks n (tick s)

/-- The host presents a READ on port p and the context takes its steps: acceptance, the lock, the first
issue, and one answer for each of c chunks (41_transfer.md R171). -/
def readMoves (p : Nat) (d : Desc) (ch : Choice) (c : Nat) : List Move :=
  .present p d :: List.replicate (3 + c) (.port p ch)

/-- The moves of one written chunk: the answer, the settle of n ticks, the step after it
(41_transfer.md R181). -/
def writeChunkMoves (p : Nat) (ch : Choice) (n : Nat) : List Move :=
  .port p ch :: (List.replicate n .tick ++ [.port p ch])

/-- As `readMoves` for a WRITE of c chunks. -/
def writeMoves (p : Nat) (d : Desc) (ch : Choice) (n c : Nat) : List Move :=
  .present p d :: (List.replicate 3 (.port p ch) ++ (List.replicate c (writeChunkMoves p ch n)).flatten)

end Sys2Proof.Machine
end

