-- ==== Sys2Proof/Certificates/Slice0/Obligations.lean ====
section
/-! DEFINITION. The statements for the provers. -/

open Sys2Proof Sys2Proof.Machine

/-! ### Encoding -/

/-- 30_encoding.md R104 and R107 on words written out from the descriptor layout (R101), legal and
illegal ones (95_test_vectors.md E1 to E11). -/
def Obligations.DecoderReadsTheWrittenWords : Prop :=
  decode ⟨0x00000001, 0, 0, 0⟩ = .command .attach ∧
  decode ⟨0x00000002, 0, 0, 0⟩ = .command .detach ∧
  decode ⟨0x00000003, 0x10, 4, 0x2000⟩ = .command (.read 0x10 4 0x2000) ∧
  decode ⟨0x00000004, 0x10, 4, 0x1000⟩ = .command (.write 0x10 4 0x1000) ∧
  decode ⟨0x00000000, 0, 0, 0⟩ = .illegal .opcode ∧
  decode ⟨0x0000000F, 1, 2, 3⟩ = .illegal .opcode ∧
  decode ⟨0x80000003, 0, 1, 0⟩ = .illegal .reserved ∧
  decode ⟨0x00000001, 1, 0, 0⟩ = .illegal .operands ∧
  decode ⟨0x00000002, 0, 0, 5⟩ = .illegal .operands

/-- 30_encoding.md R110: a descriptor decodes to a command exactly when it is that command's encoding. -/
def Obligations.DecodeAndEncodeAreInverse : Prop :=
  ∀ (d : Desc) (i : Instr), decode d = .command i ↔ d = encode i

/-- The 128-bit number `{W3, W2, W1, W0}` of a command's encoding (30_encoding.md R101) decodes to that
command, for every value of the operands. -/
def Obligations.TableWordRoundTrip : Prop :=
  ∀ i : Instr, decodeTableWord 128 (encode i).toNat = some i ∧ Desc.ofNat (encode i).toNat = encode i

/-- The decoder refuses exactly the descriptors of 30_encoding.md R106 (a), (b) and (c). -/
def Obligations.IllegalDescriptorsAreTheThreeCases : Prop :=
  ∀ d : Desc, (∃ why, decode d = .illegal why) ↔
    (d.w0.toNat % 16 = 0 ∨ 5 ≤ d.w0.toNat % 16) ∨
    d.w0.toNat / 16 ≠ 0 ∨
    ((d.w0.toNat % 16 = 1 ∨ d.w0.toNat % 16 = 2) ∧ (d.w1 ≠ 0 ∨ d.w2 ≠ 0 ∨ d.w3 ≠ 0))

/-! ### The fetch -/

/-- A step of a context runs the decoded command: on an idle port the descriptor it takes, which leaves
the queue, and otherwise the latched one (10_state.md R30, R33). -/
def Obligations.StepRunsTheDecodedCommand : Prop :=
  ∀ (s : State) (p : Nat) (c : Choice) (rest : List Move),
    s.agenda = .port p c :: rest → p < s.ports.length →
    (∀ d ds i, (s.port p).ph = .idle → (s.port p).reqs = d :: ds → decode d = .command i →
      step s = exec i (({ s with agenda := rest, sel := p, choice := c } : State).setPort p
        { s.port p with reqs := ds })) ∧
    (∀ i, (s.port p).ph ≠ .idle → decode (s.port p).d.desc = .command i →
      step s = exec i { s with agenda := rest, sel := p, choice := c })

/-- The word of a command, stored where the machine takes its next command, is what the next step runs. -/
def Obligations.StepRunsThePlacedWord : Prop :=
  ∀ (s : State) (w : Nat) (i : Instr), 0 < s.ports.length → decodeTableWord 128 w = some i →
    step (s.withFetchWord 128 w) = exec i { s.setPort 0 { s.port 0 with ph := .idle } with
      sel := 0, choice := {} }

/-- An illegal descriptor completes in the acceptance step with ILLEGAL_COMMAND and DETAIL 0, and has no
other effect (30_encoding.md R106). -/
def Obligations.IllegalDescriptorIsAnsweredAtAcceptance : Prop :=
  ∀ (s : State) (p : Nat) (c : Choice) (rest : List Move) (d : Desc) (ds : List Desc),
    s.agenda = .port p c :: rest → p < s.ports.length → (s.port p).ph = .idle →
    s.ownedBy p = false → (s.port p).reqs = d :: ds →
    ((d.w0.toNat % 16 = 0 ∨ 5 ≤ d.w0.toNat % 16) ∨ d.w0.toNat / 16 ≠ 0 ∨
      ((d.w0.toNat % 16 = 1 ∨ d.w0.toNat % 16 = 2) ∧ (d.w1 ≠ 0 ∨ d.w2 ≠ 0 ∨ d.w3 ≠ 0))) →
    ∃ t, step s = .next t ∧ (t.port p).ph = .idle ∧ (t.port p).reqs = ds ∧
      (t.port p).resps = (s.port p).resps ++ [⟨0x7, 0⟩] ∧ sameOperands p s t ∧ sameOthers p s t ∧
      sameConfig s t ∧ sameLock s t ∧ sameLifecycle s t ∧ t.settleCnt = s.settleCnt ∧ sameEeprom s t ∧
      t.wc = s.wc ∧ sameHost s t ∧ t.bus = s.bus ∧ t.log = s.log

/-- The host presents a descriptor, from a line of the assembler or from anywhere (00_scope.md R10;
30_encoding.md R109): it waits on its port, behind those before it, and nothing else changes. -/
def Obligations.PresentedDescriptorsWait : Prop :=
  ∀ (s : State) (p : Nat) (cmd : AsmCommand) (rest : List Move),
    s.agenda = asmMove ⟨p, cmd⟩ :: rest → p < s.ports.length →
    ∃ t, step s = .next t ∧
      t.port p = { s.port p with reqs := (s.port p).reqs ++ [match cmd with
        | .cmd i => encode i
        | .desc w0 w1 w2 w3 => ⟨w0, w1, w2, w3⟩] } ∧
      sameOthers p s t ∧ sameConfig s t ∧ sameLock s t ∧ sameLifecycle s t ∧
      t.settleCnt = s.settleCnt ∧ sameEeprom s t ∧ t.wc = s.wc ∧ sameHost s t ∧ t.bus = s.bus ∧
      t.log = s.log

/-! ### Acceptance, the lock, the end of a command -/

/-- ATTACH and DETACH at acceptance: the descriptor is latched, the context waits for the lock, and
nothing else changes (40_attach.md R132, R142; 10_state.md R33). -/
def Obligations.LifecycleCommandsAreAccepted : Prop :=
  ∀ (s : State) (i : Instr), (i = .attach ∨ i = .detach) → s.sel < s.ports.length →
    (s.port s.sel).ph = .idle →
    ∃ t, exec i s = .next t ∧
      t.port s.sel = { s.port s.sel with
        ph := .waitLock, d := ⟨if i = .attach then 1 else 2, 0, 0, 0⟩ } ∧
      sameOthers s.sel s t ∧ sameConfig s t ∧ sameLock s t ∧ sameLifecycle s t ∧
      t.settleCnt = s.settleCnt ∧ sameEeprom s t ∧ t.wc = s.wc ∧ sameHost s t ∧ t.bus = s.bus ∧
      t.log = s.log

/-- READ and WRITE at acceptance (41_transfer.md R161 to R164): the descriptor is latched, the checks are
made in their order with exact sums, the first that applies is answered, and otherwise the context
waits for the lock. A command that goes on to wait is marked for a race at exactly the host addresses of
its buffer that a transfer of the other kind in flight on another port uses too, and that transfer is
marked there as well (R174 (g); 20_memory.md R86). None of the outcomes takes the lock or has any other
effect outside the port. That the race counts from this step on, so that bytes which the other transfer
has moved before stay as they are, in both memories, the write cycle and an outstanding operation, is the
model's choice (log 12): R174 (g) does not say from when. -/
def Obligations.TransfersAreCheckedAtAcceptance : Prop :=
  ∀ (s : State) (o n b : Word) (i : Instr), (i = .read o n b ∨ i = .write o n b) →
    s.sel < s.ports.length → (s.port s.sel).ph = .idle → s.ownedBy s.sel = false →
    ∃ t, exec i s = .next t ∧
      (t.port s.sel).d = ⟨if i = .read o n b then 3 else 4, o, n, b⟩ ∧
      (if s.attachState ≠ .attached then responds s.sel 0x6 0 s t
        else if n = 0 then responds s.sel 0x0 0 s t
        else if o.toNat + n.toNat > 65536 then responds s.sel 0x3 0 s t
        else if b.toNat + n.toNat > 2 ^ s.params.hostAw then responds s.sel 0x9 0 s t
        else (t.port s.sel).ph = .waitLock ∧ sameQueues s.sel s t ∧
          (∀ x, b.toNat ≤ x → x < b.toNat + n.toNat →
            (racedAt (t.port s.sel) x ↔ ∃ q, q ≠ s.sel ∧ q < s.ports.length ∧ usesHost (s.port q) x ∧
              (s.port q).d.op = if i = .read o n b then 4 else 3)) ∧
          ∀ q x, q ≠ s.sel → q < s.ports.length → usesHost (s.port q) x →
            (racedAt (t.port q) x ↔ racedAt (s.port q) x ∨
              b.toNat ≤ x ∧ x < b.toNat + n.toNat ∧
                (s.port q).d.op = if i = .read o n b then 4 else 3)) ∧
      t.ports.length = s.ports.length ∧
      (∀ q, q ≠ s.sel → ∃ r, t.port q = { s.port q with raced := r }) ∧
      sameConfig s t ∧ sameLock s t ∧ sameLifecycle s t ∧ t.settleCnt = s.settleCnt ∧
      sameEeprom s t ∧ t.wc = s.wc ∧ sameHost s t ∧ t.bus = s.bus ∧ t.log = s.log

/-- `await Lock()` (20_memory.md R81), for every command: a waiting context has no step while the lock is
held, and any waiting context may take the free lock. -/
def Obligations.WaitingContextTakesTheFreeLock : Prop :=
  ∀ (s : State) (i : Instr), s.sel < s.ports.length → (s.port s.sel).ph = .waitLock →
    (s.locked = true → exec i s = .next s) ∧
    (s.locked = false → ∃ t, exec i s = .next t ∧
      t.locked = true ∧ t.lockOwner = BitVec.ofNat 8 s.sel ∧
      t.port s.sel = { s.port s.sel with ph := .active } ∧ sameOthers s.sel s t ∧ sameConfig s t ∧
      sameLifecycle s t ∧ t.settleCnt = s.settleCnt ∧ sameEeprom s t ∧ t.wc = s.wc ∧ sameHost s t ∧
      t.bus = s.bus ∧ t.log = s.log)

/-- `raise Status(code, detail)` in context p (60_exceptions.md R216): the lock is freed if p holds it, the
response is returned, the context becomes IDLE, and nothing else changes. -/
def Obligations.RaiseStatusEndsTheCommand : Prop :=
  ∀ (s : State) (p : Nat) (st : Status) (e : Word), p < s.ports.length →
    responds p (st.code.setWidth 32) e s (raise p st e s) ∧
    (s.ownedBy p = true → lockFree (raise p st e s)) ∧
    (s.ownedBy p = false → sameLock s (raise p st e s)) ∧
    sameOperands p s (raise p st e s) ∧ sameOthers p s (raise p st e s) ∧
    sameConfig s (raise p st e s) ∧ sameLifecycle s (raise p st e s) ∧
    (raise p st e s).settleCnt = s.settleCnt ∧ sameEeprom s (raise p st e s) ∧
    (raise p st e s).wc = s.wc ∧ sameHost s (raise p st e s) ∧ (raise p st e s).bus = s.bus ∧
    (raise p st e s).log = s.log

/-! ### ATTACH and DETACH -/

/-- ATTACH once it holds the lock (40_attach.md R132 to R134): the lifecycle check, the capability check,
and the issue of the presence probe, which corrupts a running write cycle (20_memory.md R74; that it does
so in the step of the issue is DEDUCED, log 9). Nothing but the lock and the port changes on a failure. -/
def Obligations.AttachChecksThenProbes : Prop :=
  ∀ s : State, s.sel < s.ports.length → (s.port s.sel).ph = .active → s.ownedBy s.sel = true →
    ∃ t, exec .attach s = .next t ∧
      (s.attachState ≠ .detached → responds s.sel 0x8 0 s t ∧ lockFree t ∧ t.bus = s.bus ∧ t.wc = s.wc) ∧
      (s.attachState = .detached → s.busFullAddr = false →
        responds s.sel 0x1 0 s t ∧ lockFree t ∧ t.bus = s.bus ∧ t.wc = s.wc) ∧
      (s.attachState = .detached → s.busFullAddr = true →
        (t.port s.sel).ph = .bus ∧ sameQueues s.sel s t ∧ sameLock s t ∧
        t.bus = some ⟨s.sel, s.devAddr, .recv 1, decide (s.wc ≠ .idle)⟩ ∧ t.wc = s.wc.corrupt) ∧
      sameOperands s.sel s t ∧ sameOthers s.sel s t ∧ sameConfig s t ∧ sameLifecycle s t ∧
      t.settleCnt = s.settleCnt ∧ sameEeprom s t ∧ sameHost s t ∧ t.log = s.log

/-- ATTACH on the probe's answer (40_attach.md R134 to R136): exactly one byte, of any value, lets it go on
to steps 3 and 4 in the same step; zero bytes or an error is DEVICE_NOT_RESPONDING. -/
def Obligations.AttachNeedsOneProbeByte : Prop :=
  ∀ (s : State) (q : Nat) (dev : BitVec 16) (hit : Bool), s.sel < s.ports.length →
    (s.port s.sel).ph = .bus → s.ownedBy s.sel = true → s.bus = some ⟨q, dev, .recv 1, hit⟩ →
    ∃ t, exec .attach s = .next t ∧ t.bus = none ∧ lockFree t ∧
      (∀ v, s.choice.err = 0 → s.choice.probe = some v →
        t.attachState = .attaching ∧ t.rmValid = true ∧ (t.port s.sel).ph = .collab ∧
        sameQueues s.sel s t ∧ t.log = s.log ++ [.recv s.sel 1 (.ok [v])]) ∧
      (s.choice.err = 0 → s.choice.probe = none →
        responds s.sel 0x2 0 s t ∧ t.attachState = s.attachState ∧ t.rmValid = s.rmValid ∧
        t.log = s.log ++ [.recv s.sel 1 (.ok [])]) ∧
      (s.choice.err ≠ 0 →
        responds s.sel 0x2 0 s t ∧ t.attachState = s.attachState ∧ t.rmValid = s.rmValid ∧
        t.log = s.log ++ [.recv s.sel 1 (.err s.choice.err)]) ∧
      t.registered = s.registered ∧ sameOperands s.sel s t ∧ sameOthers s.sel s t ∧ sameConfig s t ∧
      t.settleCnt = s.settleCnt ∧ sameEeprom s t ∧ t.wc = s.wc ∧ sameHost s t

/-- ATTACH completes on the collaborator's answer (40_attach.md R137), which it awaits without the lock. -/
def Obligations.AttachCompletesOnRegistration : Prop :=
  ∀ s : State, s.sel < s.ports.length → (s.port s.sel).ph = .collab → s.ownedBy s.sel = false →
    ∃ t, exec .attach s = .next t ∧
      (s.choice.err = 0 → responds s.sel 0x0 0 s t ∧ t.attachState = .attached ∧
        t.rmValid = s.rmValid ∧ t.registered = true ∧ t.log = s.log ++ [.reg s.sel 65536 1 (.ok [])]) ∧
      (s.choice.err ≠ 0 → responds s.sel 0x5 s.choice.err s t ∧ t.attachState = .detached ∧
        t.rmValid = false ∧ t.registered = s.registered ∧
        t.log = s.log ++ [.reg s.sel 65536 1 (.err s.choice.err)]) ∧
      sameOperands s.sel s t ∧ sameOthers s.sel s t ∧ sameConfig s t ∧ sameLock s t ∧
      t.settleCnt = s.settleCnt ∧ sameEeprom s t ∧ t.wc = s.wc ∧ sameHost s t ∧ t.bus = s.bus

/-- DETACH once it holds the lock (40_attach.md R142): WRONG_ATTACH_STATE unless ATTACHED; else DETACHING,
the lock freed, and the wait for the collaborator. That the log is unchanged at the call of `Unregister`
is the model's choice (log 18): its entry is written at the return, and 20_memory.md R64 does not say
which. That `REGISTERED` is unchanged at the call is the model's choice too (log 20): it is cleared at the
return, and 10_state.md R38 and R142 do not say which. -/
def Obligations.DetachBeginsUnderTheLock : Prop :=
  ∀ s : State, s.sel < s.ports.length → (s.port s.sel).ph = .active → s.ownedBy s.sel = true →
    ∃ t, exec .detach s = .next t ∧ lockFree t ∧
      (s.attachState ≠ .attached → responds s.sel 0x8 0 s t ∧ t.attachState = s.attachState) ∧
      (s.attachState = .attached →
        (t.port s.sel).ph = .collab ∧ sameQueues s.sel s t ∧ t.attachState = .detaching) ∧
      t.rmValid = s.rmValid ∧ t.registered = s.registered ∧
      sameOperands s.sel s t ∧ sameOthers s.sel s t ∧ sameConfig s t ∧ t.settleCnt = s.settleCnt ∧
      sameEeprom s t ∧ t.wc = s.wc ∧ sameHost s t ∧ t.bus = s.bus ∧ t.log = s.log

/-- DETACH completes when `Unregister` returns (40_attach.md R142): the Register Map and the instance are
released, and it answers OK. Two things are the model's choice: that the entry `UNREG` is written in this
step, and not at the call (log 18), and that `REGISTERED` is cleared in it, and not at the call (log 20). -/
def Obligations.DetachCompletesOnUnregister : Prop :=
  ∀ s : State, s.sel < s.ports.length → (s.port s.sel).ph = .collab → s.ownedBy s.sel = false →
    ∃ t, exec .detach s = .next t ∧ responds s.sel 0x0 0 s t ∧ t.attachState = .detached ∧
      t.rmValid = false ∧ t.registered = false ∧ t.log = s.log ++ [.unreg s.sel] ∧
      sameOperands s.sel s t ∧ sameOthers s.sel s t ∧ sameConfig s t ∧ sameLock s t ∧
      t.settleCnt = s.settleCnt ∧ sameEeprom s t ∧ t.wc = s.wc ∧ sameHost s t ∧ t.bus = s.bus

/-! ### READ -/

/-- READ and WRITE once they hold the lock (41_transfer.md R165): the re-check, which answers NOT_ATTACHED
after a DETACH won the lock; the cursor; and the first chunk's operation, whose issue corrupts a running
write cycle (20_memory.md R74; in the step of the issue: DEDUCED, log 9). A WRITE takes the stored bytes,
and at the addresses it is marked for a race at any bytes, each its own draw (R86). -/
def Obligations.TransferBeginsWithTheRecheck : Prop :=
  ∀ (s : State) (o n b : Word) (i : Instr), (i = .read o n b ∨ i = .write o n b) →
    s.sel < s.ports.length → (s.port s.sel).ph = .active → s.ownedBy s.sel = true →
    0 < (s.port s.sel).d.length.toNat →
    (s.port s.sel).d.offset.toNat + (s.port s.sel).d.length.toNat ≤ 65536 →
    (s.port s.sel).d.bufaddr.toNat + (s.port s.sel).d.length.toNat ≤ 2 ^ s.params.hostAw →
    ∃ t, exec i s = .next t ∧
      (s.attachState ≠ .attached → responds s.sel 0x6 0 s t ∧ lockFree t ∧ t.bus = s.bus ∧
        t.wc = s.wc ∧ sameOperands s.sel s t) ∧
      (s.attachState = .attached →
        (t.port s.sel).ph = .bus ∧ sameQueues s.sel s t ∧ sameLock s t ∧
        (t.port s.sel).d = (s.port s.sel).d ∧ (t.port s.sel).raced = (s.port s.sel).raced ∧
        (t.port s.sel).cur = (s.port s.sel).d.offset.toNat ∧
        (t.port s.sel).rem = (s.port s.sel).d.length.toNat ∧
        (t.port s.sel).buf = (s.port s.sel).d.bufaddr.toNat ∧ (t.port s.sel).k = 0 ∧
        (t.port s.sel).clen = chunkLen s.params.policy (t.port s.sel).cur (t.port s.sel).rem ∧
        t.wc = s.wc.corrupt ∧
        (i = .read o n b → t.bus = some ⟨s.sel, s.devAddr,
          .read (t.port s.sel).cur (t.port s.sel).clen, decide (s.wc ≠ .idle)⟩) ∧
        (i = .write o n b → ∃ v, v.length = (t.port s.sel).clen ∧
          (∀ j (h : j < v.length), ¬ racedAt (s.port s.sel) ((t.port s.sel).buf + j) →
            v[j] = s.hostByte ((t.port s.sel).buf + j)) ∧
          drawnApart s.draws (fun j => j < v.length ∧ racedAt (s.port s.sel) ((t.port s.sel).buf + j))
            (fun j => v.getD j 0) ∧
          t.bus = some ⟨s.sel, s.devAddr, .write (t.port s.sel).cur v, decide (s.wc ≠ .idle)⟩)) ∧
      sameOthers s.sel s t ∧ sameConfig s t ∧ sameLifecycle s t ∧ t.settleCnt = s.settleCnt ∧
      sameEeprom s t ∧ sameHost s t ∧ t.log = s.log

/-- A READ chunk that is not the last arrives (41_transfer.md R171; 20_memory.md R68, R74 (b)): the
answered bytes v are in the chunk's host slice in the same step, no other host byte changes, the cursor
moves on, and the next `BusRead` is issued. v is the stored bytes, unless the operation was issued during
a write cycle, or met a loss of power (log 19), or the inputs changed while attached, and then drawn bytes; where the port is marked for a
race the slice holds any bytes, each its own draw (R86). The issue corrupts a running write cycle in its
step (DEDUCED, log 9). -/
def Obligations.ReadChunkArrives : Prop :=
  ∀ (s : State) (o n b : Word) (q : Nat) (dev : BitVec 16) (hit : Bool), s.sel < s.ports.length →
    (s.port s.sel).ph = .bus →
    s.bus = some ⟨q, dev, .read (s.port s.sel).cur (s.port s.sel).clen, hit⟩ →
    s.choice.err = 0 → (s.port s.sel).clen < (s.port s.sel).rem →
    (s.port s.sel).cur + (s.port s.sel).rem ≤ 65536 →
    (s.port s.sel).buf + (s.port s.sel).rem ≤ 2 ^ s.params.hostAw →
    ∃ t v, exec (.read o n b) s = .next t ∧ v.length = (s.port s.sel).clen ∧
      (hit = false → s.disturbed = false →
        ∀ j (h : j < v.length), v[j] = s.eepromByte ((s.port s.sel).cur + j)) ∧
      (hit = true ∨ s.disturbed = true → v = (Draws.bytes (s.port s.sel).clen
        (readEffect (s.port s.sel).cur (s.port s.sel).clen s).draws).1) ∧
      (∀ j (h : j < v.length), ¬ racedAt (s.port s.sel) ((s.port s.sel).buf + j) →
        t.hostByte ((s.port s.sel).buf + j) = v[j]) ∧
      drawnApart s.draws (fun x => (s.port s.sel).buf ≤ x ∧ x < (s.port s.sel).buf + (s.port s.sel).clen ∧
        racedAt (s.port s.sel) x) t.hostByte ∧
      (∀ a, (a < (s.port s.sel).buf ∨ (s.port s.sel).buf + (s.port s.sel).clen ≤ a) →
        t.hostByte a = s.hostByte a) ∧
      t.log = s.log ++ [.rd s.sel (s.port s.sel).cur (s.port s.sel).clen (.ok v)] ∧
      (t.port s.sel).ph = .bus ∧
      (t.port s.sel).cur = (s.port s.sel).cur + (s.port s.sel).clen ∧
      (t.port s.sel).rem = (s.port s.sel).rem - (s.port s.sel).clen ∧
      (t.port s.sel).buf = (s.port s.sel).buf + (s.port s.sel).clen ∧
      (t.port s.sel).k = (s.port s.sel).k + 1 ∧
      (t.port s.sel).clen = chunkLen s.params.policy (t.port s.sel).cur (t.port s.sel).rem ∧
      (t.port s.sel).d = (s.port s.sel).d ∧ (t.port s.sel).raced = (s.port s.sel).raced ∧
      sameQueues s.sel s t ∧
      t.bus = some ⟨s.sel, s.devAddr, .read (t.port s.sel).cur (t.port s.sel).clen, decide (s.wc ≠ .idle)⟩ ∧
      sameOthers s.sel s t ∧ sameConfig s t ∧ sameLock s t ∧ sameLifecycle s t ∧
      t.settleCnt = s.settleCnt ∧ (s.disturbed = false → sameEeprom s t) ∧ t.wc = s.wc.corrupt

/-- READ completes when its last chunk arrives (41_transfer.md R171): the answered bytes v are in the
chunk's host slice, no other host byte changes, the lock is freed and it answers OK. v is as in
`ReadChunkArrives`. -/
def Obligations.ReadCompletesOnTheLastChunk : Prop :=
  ∀ (s : State) (o n b : Word) (q : Nat) (dev : BitVec 16) (hit : Bool), s.sel < s.ports.length →
    (s.port s.sel).ph = .bus → s.ownedBy s.sel = true →
    s.bus = some ⟨q, dev, .read (s.port s.sel).cur (s.port s.sel).clen, hit⟩ →
    s.choice.err = 0 → (s.port s.sel).clen = (s.port s.sel).rem →
    (s.port s.sel).buf + (s.port s.sel).rem ≤ 2 ^ s.params.hostAw →
    ∃ t v, exec (.read o n b) s = .next t ∧ v.length = (s.port s.sel).clen ∧
      (hit = false → s.disturbed = false →
        ∀ j (h : j < v.length), v[j] = s.eepromByte ((s.port s.sel).cur + j)) ∧
      (hit = true ∨ s.disturbed = true → v = (Draws.bytes (s.port s.sel).clen
        (readEffect (s.port s.sel).cur (s.port s.sel).clen s).draws).1) ∧
      (∀ j (h : j < v.length), ¬ racedAt (s.port s.sel) ((s.port s.sel).buf + j) →
        t.hostByte ((s.port s.sel).buf + j) = v[j]) ∧
      drawnApart s.draws (fun x => (s.port s.sel).buf ≤ x ∧ x < (s.port s.sel).buf + (s.port s.sel).clen ∧
        racedAt (s.port s.sel) x) t.hostByte ∧
      (∀ a, (a < (s.port s.sel).buf ∨ (s.port s.sel).buf + (s.port s.sel).clen ≤ a) →
        t.hostByte a = s.hostByte a) ∧
      t.log = s.log ++ [.rd s.sel (s.port s.sel).cur (s.port s.sel).clen (.ok v)] ∧
      responds s.sel 0x0 0 s t ∧ lockFree t ∧ t.bus = none ∧
      (t.port s.sel).cur = (s.port s.sel).cur + (s.port s.sel).clen ∧ (t.port s.sel).rem = 0 ∧
      (t.port s.sel).buf = (s.port s.sel).buf + (s.port s.sel).clen ∧
      (t.port s.sel).k = (s.port s.sel).k + 1 ∧ (t.port s.sel).d = (s.port s.sel).d ∧
      sameOthers s.sel s t ∧ sameConfig s t ∧ sameLifecycle s t ∧ t.settleCnt = s.settleCnt ∧
      (s.disturbed = false → sameEeprom s t) ∧ t.wc = s.wc

/-- READ on a bus error (41_transfer.md R173): TRANSFER_FAILED with the error unchanged, no further chunk,
the lock freed, the EEPROM unchanged unless the inputs changed while attached (70_reset_and_hazards.md
R262; log 10), no host byte outside the chunk's slice changed, and any bytes in the slice, each its own
draw. -/
def Obligations.ReadFailsWithTheBusError : Prop :=
  ∀ (s : State) (o n b : Word) (q : Nat) (dev : BitVec 16) (hit : Bool), s.sel < s.ports.length →
    (s.port s.sel).ph = .bus → s.ownedBy s.sel = true →
    s.bus = some ⟨q, dev, .read (s.port s.sel).cur (s.port s.sel).clen, hit⟩ →
    s.choice.err ≠ 0 →
    (s.port s.sel).buf + (s.port s.sel).clen ≤ 2 ^ s.params.hostAw →
    ∃ t, exec (.read o n b) s = .next t ∧ responds s.sel 0x4 s.choice.err s t ∧ lockFree t ∧
      t.bus = none ∧ sameOperands s.sel s t ∧
      (∀ a, (a < (s.port s.sel).buf ∨ (s.port s.sel).buf + (s.port s.sel).clen ≤ a) →
        t.hostByte a = s.hostByte a) ∧
      drawnApart s.draws (fun a => (s.port s.sel).buf ≤ a ∧ a < (s.port s.sel).buf + (s.port s.sel).clen)
        t.hostByte ∧
      t.log = s.log ++ [.rd s.sel (s.port s.sel).cur (s.port s.sel).clen (.err s.choice.err)] ∧
      sameOthers s.sel s t ∧ sameConfig s t ∧ sameLifecycle s t ∧ t.settleCnt = s.settleCnt ∧
      (s.disturbed = false → sameEeprom s t) ∧ t.wc = s.wc

/-! ### WRITE -/

/-- A WRITE chunk is answered Ok (41_transfer.md R181, R182; 60_exceptions.md R230, R231): a settle drawn
from its window is loaded, both entries are in the log, the lock is held, and no host byte changes. With
the inputs stable and the operation issued outside a write cycle, the device starts a write cycle of T_WC
ticks: inside one page with exactly the chunk's bytes (20_memory.md R70), and across pages with any value
over every touched page (R72); one of 0 ticks ends in the same step (R71). An operation issued during a
cycle (or one that met a loss of power, which carries the same mark, log 19) leaves the device's cycle as it
is: one that runs goes on (R74), and that none is started where it
has ended by the answer is DEDUCED (log 9). An operation issued during a cycle, or answered after a change
of the inputs, leaves any bytes in the range R, each its own draw, in the step of its answer (R74 (c), the
step DEDUCED, log 9; 70_reset_and_hazards.md R262).
In every case no EEPROM byte outside R changes. That after a change of the inputs the write cycle is left
as by a failed write is the model's choice (log 10): R262 speaks of the result and of the EEPROM alone. -/
def Obligations.WriteChunkStartsCycleAndSettle : Prop :=
  ∀ (s : State) (o n b : Word) (q a : Nat) (dev : BitVec 16) (v : List Byte) (hit : Bool),
    s.sel < s.ports.length → (s.port s.sel).ph = .bus → s.bus = some ⟨q, dev, .write a v, hit⟩ →
    s.choice.err = 0 → 0 < v.length → settleMin s.params ≤ settleMax s.params →
    ∃ t, exec (.write o n b) s = .next t ∧ t.port s.sel = { s.port s.sel with ph := .settle } ∧
      t.bus = none ∧
      settleMin s.params ≤ t.settleCnt ∧ t.settleCnt ≤ settleMax s.params ∧
      t.log = s.log ++ [.wr s.sel a v (.ok []), .settle s.sel t.settleCnt] ∧
      (s.disturbed = false → hit = false → 0 < s.params.tWc → a / 128 = (a + v.length - 1) / 128 →
        t.wc = .busy s.params.tWc (byteCells a v) ∧ sameEeprom s t) ∧
      (s.disturbed = false → hit = false → 0 < s.params.tWc → a / 128 ≠ (a + v.length - 1) / 128 →
        (∃ cells, t.wc = .busy s.params.tWc cells ∧ anyOver a v.length cells) ∧ sameEeprom s t) ∧
      (s.disturbed = false → hit = false → s.params.tWc = 0 → t.wc = .idle ∧
        (a / 128 = (a + v.length - 1) / 128 → ∀ j (h : j < v.length), t.eepromByte (a + j) = v[j]) ∧
        (a / 128 ≠ (a + v.length - 1) / 128 →
          drawnApart s.draws (inWriteRange a v.length) t.eepromByte)) ∧
      (s.disturbed = false → hit = true → t.wc = s.wc) ∧
      (hit = true ∨ s.disturbed = true → drawnApart s.draws (inWriteRange a v.length) t.eepromByte) ∧
      (s.disturbed = true → mayLeaveCycle a v.length s.choice s t) ∧
      (∀ x, ¬ inWriteRange a v.length x → t.eepromByte x = s.eepromByte x) ∧
      sameOthers s.sel s t ∧ sameConfig s t ∧ sameLock s t ∧ sameLifecycle s t ∧ sameHost s t

/-- WRITE on a bus error (41_transfer.md R183; 20_memory.md R73): TRANSFER_FAILED with the error unchanged,
no settle, the lock freed, no host byte changed, and no EEPROM byte outside the range R changed, where R
is the chunk, widened to its pages when it crosses a page boundary; the bytes in R are any bytes, each its
own draw. A running cycle goes on; otherwise there is one of the drawn number of ticks, at most T_WC, that
leaves any value over exactly R, or none where that number is 0. That this holds too of a write that was
issued during a cycle which has ended by the answer is the model's choice (log 9). -/
def Obligations.WriteFailsWithTheBusError : Prop :=
  ∀ (s : State) (o n b : Word) (q a : Nat) (dev : BitVec 16) (v : List Byte) (hit : Bool),
    s.sel < s.ports.length → (s.port s.sel).ph = .bus → s.ownedBy s.sel = true →
    s.bus = some ⟨q, dev, .write a v, hit⟩ → s.choice.err ≠ 0 →
    ∃ t, exec (.write o n b) s = .next t ∧ responds s.sel 0x4 s.choice.err s t ∧ lockFree t ∧
      t.bus = none ∧ sameOperands s.sel s t ∧
      (∀ x, ¬ inWriteRange a v.length x → t.eepromByte x = s.eepromByte x) ∧
      drawnApart s.draws (inWriteRange a v.length) t.eepromByte ∧
      mayLeaveCycle a v.length s.choice s t ∧
      t.log = s.log ++ [.wr s.sel a v (.err s.choice.err)] ∧ t.settleCnt = s.settleCnt ∧
      sameOthers s.sel s t ∧ sameConfig s t ∧ sameLifecycle s t ∧ sameHost s t

/-- A settling WRITE has no step while the count is nonzero (60_exceptions.md R230); then, with bytes left,
it moves the cursor on and issues the next `BusWrite` with the bytes the host memory holds in that step
(41_transfer.md R181; 20_memory.md R86), or with any bytes, each its own draw, where the port is marked
for a race. The issue corrupts
a running write cycle in its step (R74; DEDUCED, log 9). -/
def Obligations.WriteGoesOnAfterTheSettle : Prop :=
  ∀ (s : State) (o n b : Word), s.sel < s.ports.length → (s.port s.sel).ph = .settle →
    (s.settleCnt ≠ 0 → exec (.write o n b) s = .next s) ∧
    (s.settleCnt = 0 → (s.port s.sel).clen < (s.port s.sel).rem →
      (s.port s.sel).cur + (s.port s.sel).rem ≤ 65536 →
      (s.port s.sel).buf + (s.port s.sel).rem ≤ 2 ^ s.params.hostAw →
      ∃ t v, exec (.write o n b) s = .next t ∧ (t.port s.sel).ph = .bus ∧
        (t.port s.sel).cur = (s.port s.sel).cur + (s.port s.sel).clen ∧
        (t.port s.sel).rem = (s.port s.sel).rem - (s.port s.sel).clen ∧
        (t.port s.sel).buf = (s.port s.sel).buf + (s.port s.sel).clen ∧
        (t.port s.sel).k = (s.port s.sel).k + 1 ∧
        (t.port s.sel).clen = chunkLen s.params.policy (t.port s.sel).cur (t.port s.sel).rem ∧
        (t.port s.sel).d = (s.port s.sel).d ∧ (t.port s.sel).raced = (s.port s.sel).raced ∧
        sameQueues s.sel s t ∧
        v.length = (t.port s.sel).clen ∧
        (∀ j (h : j < v.length), ¬ racedAt (s.port s.sel) ((t.port s.sel).buf + j) →
          v[j] = s.hostByte ((t.port s.sel).buf + j)) ∧
        drawnApart s.draws (fun j => j < v.length ∧ racedAt (s.port s.sel) ((t.port s.sel).buf + j))
          (fun j => v.getD j 0) ∧
        t.bus = some ⟨s.sel, s.devAddr, .write (t.port s.sel).cur v, decide (s.wc ≠ .idle)⟩ ∧
        sameOthers s.sel s t ∧ sameConfig s t ∧ sameLock s t ∧ sameLifecycle s t ∧
        t.settleCnt = s.settleCnt ∧ sameEeprom s t ∧ sameHost s t ∧ t.log = s.log ∧
        t.wc = s.wc.corrupt)

/-- WRITE completes after the settle of its last chunk (41_transfer.md R181, R182): it answers OK and
frees the lock. -/
def Obligations.WriteCompletesAfterTheLastSettle : Prop :=
  ∀ (s : State) (o n b : Word), s.sel < s.ports.length → (s.port s.sel).ph = .settle →
    s.ownedBy s.sel = true → s.settleCnt = 0 → (s.port s.sel).clen = (s.port s.sel).rem →
    ∃ t, exec (.write o n b) s = .next t ∧ responds s.sel 0x0 0 s t ∧ lockFree t ∧
      (t.port s.sel).cur = (s.port s.sel).cur + (s.port s.sel).clen ∧ (t.port s.sel).rem = 0 ∧
      (t.port s.sel).buf = (s.port s.sel).buf + (s.port s.sel).clen ∧
      (t.port s.sel).k = (s.port s.sel).k + 1 ∧ (t.port s.sel).d = (s.port s.sel).d ∧
      sameOthers s.sel s t ∧ sameConfig s t ∧ sameLifecycle s t ∧ t.settleCnt = s.settleCnt ∧
      sameEeprom s t ∧ t.wc = s.wc ∧ sameHost s t ∧ t.bus = s.bus ∧ t.log = s.log

/-! ### Whole commands, one port alone -/

/-- A READ that runs alone from a quiet, attached machine, every bus operation answered Ok, completes
with OK (41_transfer.md R171, R172, R187): the destination mirrors the device, no other host byte and no
EEPROM byte changes, there is one `RD` per chunk and no settle, and the machine is quiet again. -/
def Obligations.ReadRunMirrorsTheDevice : Prop :=
  ∀ (s : State) (p : Nat) (o n b : Word), Inv s → Quiet s → p < s.ports.length →
    s.attachState = .attached → (s.port p).reqs = [] → 0 < n.toNat → o.toNat + n.toNat ≤ 65536 →
    b.toNat + n.toNat ≤ 2 ^ s.params.hostAw →
    s.agenda = readMoves p (encode (.read o n b)) {} (chunks s.params.policy o.toNat n.toNat).length →
    ∃ t, Host.Core.run Sys2Proof.core s.agenda.length s = .next t ∧ responds p 0x0 0 s t ∧ Quiet t ∧
      (∀ j, j < n.toNat → t.hostByte (b.toNat + j) = s.eepromByte (o.toNat + j)) ∧
      (∀ a, (a < b.toNat ∨ b.toNat + n.toNat ≤ a) → t.hostByte a = s.hostByte a) ∧
      sameEeprom s t ∧ sameConfig s t ∧ sameLifecycle s t ∧ sameOthers p s t ∧ t.settleCnt = 0 ∧
      t.log = s.log ++ (chunks s.params.policy o.toNat n.toNat).map
        (fun c => .rd p c.1 c.2 (.ok (s.eepromBytes c.1 c.2)))

/-- A WRITE that runs alone from a quiet, attached machine, every bus operation answered Ok and no chunk
crossing a page, completes with OK (41_transfer.md R181, R182, R187; 20_memory.md R85 (d)): the EEPROM range
holds the source bytes, no other EEPROM byte and no host byte changes, `WR` and `SETTLE` alternate with
one settle after every chunk, the last included, and no write cycle is left running. That rests on
T_WC <= SETTLE_MIN_TICKS, which 20_memory.md R71 assumes (92_eei_decisions.md D26) and `Inv` holds in
`paramsOk`. -/
def Obligations.WriteRunStoresTheSource : Prop :=
  ∀ (s : State) (p : Nat) (o n b : Word) (ch : Choice), Inv s → Quiet s → p < s.ports.length →
    s.attachState = .attached → (s.port p).reqs = [] → 0 < n.toNat → o.toNat + n.toNat ≤ 65536 →
    b.toNat + n.toNat ≤ 2 ^ s.params.hostAw → ch.err = 0 →
    (∀ c ∈ chunks s.params.policy o.toNat n.toNat, c.1 / 128 = (c.1 + c.2 - 1) / 128) →
    s.agenda = writeMoves p (encode (.write o n b)) ch (settleDraw s.params ch)
      (chunks s.params.policy o.toNat n.toNat).length →
    ∃ t, Host.Core.run Sys2Proof.core s.agenda.length s = .next t ∧ responds p 0x0 0 s t ∧ Quiet t ∧
      (∀ j, j < n.toNat → t.eepromByte (o.toNat + j) = s.hostByte (b.toNat + j)) ∧
      (∀ a, (a < o.toNat ∨ o.toNat + n.toNat ≤ a) → t.eepromByte a = s.eepromByte a) ∧
      sameHost s t ∧ sameConfig s t ∧ sameLifecycle s t ∧ sameOthers p s t ∧ t.settleCnt = 0 ∧
      t.log = s.log ++ ((chunks s.params.policy o.toNat n.toNat).map
        (fun c => [.wr p c.1 (s.hostBytes (b.toNat + (c.1 - o.toNat)) c.2) (.ok []),
          .settle p (settleDraw s.params ch)])).flatten

/-- The round trip (20_memory.md R77): after a WRITE as in `WriteRunStoresTheSource`, a READ of the same
range on any port, as in `ReadRunMirrorsTheDevice`, answers OK and puts the WRITE's bytes into its
destination, wherever that is. That rests on T_WC <= SETTLE_MIN_TICKS, which R71 assumes
(92_eei_decisions.md D26) and `Inv` holds in `paramsOk`. -/
def Obligations.WrittenBytesAreReadBack : Prop :=
  ∀ (s : State) (p q : Nat) (o n b b' : Word) (ch : Choice), Inv s → Quiet s → p < s.ports.length →
    q < s.ports.length → s.attachState = .attached → (s.port p).reqs = [] → (s.port q).reqs = [] →
    0 < n.toNat → o.toNat + n.toNat ≤ 65536 → b.toNat + n.toNat ≤ 2 ^ s.params.hostAw →
    b'.toNat + n.toNat ≤ 2 ^ s.params.hostAw → ch.err = 0 →
    (∀ c ∈ chunks s.params.policy o.toNat n.toNat, c.1 / 128 = (c.1 + c.2 - 1) / 128) →
    s.agenda = writeMoves p (encode (.write o n b)) ch (settleDraw s.params ch)
      (chunks s.params.policy o.toNat n.toNat).length →
    ∃ t, Host.Core.run Sys2Proof.core s.agenda.length s = .next t ∧ responds p 0x0 0 s t ∧
      ∀ c, c = (chunks s.params.policy o.toNat n.toNat).length →
        ∃ u, Host.Core.run Sys2Proof.core (4 + c)
          ({ t with agenda := readMoves q (encode (.read o n b')) {} c } : State) = .next u ∧
          responds q 0x0 0 t u ∧
          ∀ j, j < n.toNat → u.hostByte (b'.toNat + j) = s.hostByte (b.toNat + j)

/-- An ATTACH, and a DETACH, that runs alone from a quiet machine in the right lifecycle state, with good
answers, completes with OK (40_attach.md R132, R141, R142, R145). -/
def Obligations.LifecycleRunsComplete : Prop :=
  ∀ (s : State) (p : Nat) (v : Byte), Inv s → Quiet s → p < s.ports.length → (s.port p).reqs = [] →
    (s.attachState = .detached → s.busFullAddr = true →
      s.agenda = .present p (encode .attach) :: List.replicate 5 (.port p { probe := some v }) →
      ∃ t, Host.Core.run Sys2Proof.core 6 s = .next t ∧ responds p 0x0 0 s t ∧ Quiet t ∧
        t.attachState = .attached ∧ t.rmValid = true ∧ t.registered = true ∧
        t.log = s.log ++ [.recv p 1 (.ok [v]), .reg p 65536 1 (.ok [])] ∧
        sameEeprom s t ∧ sameHost s t ∧ sameConfig s t ∧ sameOthers p s t) ∧
    (s.attachState = .attached →
      s.agenda = .present p (encode .detach) :: List.replicate 4 (.port p {}) →
      ∃ t, Host.Core.run Sys2Proof.core 5 s = .next t ∧ responds p 0x0 0 s t ∧ Quiet t ∧
        t.attachState = .detached ∧ t.rmValid = false ∧ t.registered = false ∧
        t.log = s.log ++ [.unreg p] ∧ sameEeprom s t ∧ sameHost s t ∧ sameConfig s t ∧ sameOthers p s t)

/-! ### The chunker -/

/-- `ChunkLen` (41_transfer.md R166): at least 1 byte, at most the rest and PAGE; under ALIGNED a chunk
lies in one page (R184). -/
def Obligations.ChunksFitThePage : Prop :=
  ∀ (pol : Policy) (cur rem : Nat), 0 < rem →
    0 < chunkLen pol cur rem ∧ chunkLen pol cur rem ≤ rem ∧ chunkLen pol cur rem ≤ 128 ∧
    (pol = .aligned → cur / 128 = (cur + chunkLen pol cur rem - 1) / 128 ∧
      (chunkLen pol cur rem < rem → (cur + chunkLen pol cur rem) % 128 = 0)) ∧
    (pol = .stride → chunkLen pol cur rem < rem → chunkLen pol cur rem = 128)

/-- The chunk list (41_transfer.md R167) has the counts of R187, and chunk i starts where the chunks before
it end, so that together they are exactly `[o, o+n)` in ascending order. -/
def Obligations.ChunkListCoversTheRequest : Prop :=
  ∀ (pol : Policy) (o n : Nat), 0 < n →
    (chunks pol o n).length = chunkCount pol o n ∧
    ((chunks pol o n).map Prod.snd).sum = n ∧
    (∀ i (h : i < (chunks pol o n).length),
      (chunks pol o n)[i].1 = o + (((chunks pol o n).take i).map Prod.snd).sum ∧
      0 < (chunks pol o n)[i].2 ∧ (chunks pol o n)[i].2 ≤ 128) ∧
    (o + n ≤ 65536 → (chunks pol o n).length ≤ 512)

/-! ### The device and the settle timer -/

/-- A write inside one page (20_memory.md R70, R71): until T_WC ticks have passed the array is unchanged,
and then it holds exactly the written bytes and nothing else changed. -/
def Obligations.InPageWriteCommitsAfterItsCycle : Prop :=
  ∀ (s : State) (a : Nat) (b : List Byte), s.wc = .idle → s.disturbed = false → 0 < b.length →
    a + b.length ≤ 65536 → a / 128 = (a + b.length - 1) / 128 →
    (∀ k, k < s.params.tWc → sameEeprom s (ticks k (okWrite false a b s))) ∧
    (ticks s.params.tWc (okWrite false a b s)).wc = .idle ∧
    (∀ j (h : j < b.length), (ticks s.params.tWc (okWrite false a b s)).eepromByte (a + j) = b[j]) ∧
    (∀ x, (x < a ∨ a + b.length ≤ x) →
      (ticks s.params.tWc (okWrite false a b s)).eepromByte x = s.eepromByte x)

/-- A write across a page boundary (20_memory.md R72) changes no byte outside the pages it touches, then
or while its cycle runs. When its T_WC ticks have passed, the touched pages hold any bytes, each its own
draw. -/
def Obligations.PageCrossingWriteStaysInItsPages : Prop :=
  ∀ (s : State) (a k : Nat) (b : List Byte), s.wc = .idle → s.disturbed = false → 0 < b.length →
    a + b.length ≤ 65536 → a / 128 ≠ (a + b.length - 1) / 128 →
    (∀ x, (x / 128 < a / 128 ∨ (a + b.length - 1) / 128 < x / 128) →
      (ticks k (okWrite false a b s)).eepromByte x = s.eepromByte x) ∧
    (ticks s.params.tWc (okWrite false a b s)).wc = .idle ∧
    drawnApart s.draws (fun x => a / 128 ≤ x / 128 ∧ x / 128 ≤ (a + b.length - 1) / 128)
      (ticks s.params.tWc (okWrite false a b s)).eepromByte

/-- An operation issued during a write cycle corrupts the cycle: every address it writes is left with any
value, and the count is unchanged (20_memory.md R74 (a); in the step of the issue: DEDUCED, log 9).
It is marked as issued during a cycle exactly if one is running. Outside a cycle the device is unchanged.
A read issued during one answers drawn bytes (b), and a write issued during one and answered Ok leaves any
bytes in its range R, each its own draw, and no other byte changed (c), and the device's cycle as it is:
one that runs goes on (R74), and that none is started where it has ended by the answer, and that the bytes
are drawn in the step of the answer, is DEDUCED (log 9). -/
def Obligations.OperationDuringCycleCorruptsIt : Prop :=
  ∀ (s : State) (p : Nat) (cmd : BusCmd),
    (∀ t cells, s.wc = .busy t cells →
      (issue p cmd s).bus = some ⟨p, s.devAddr, cmd, true⟩ ∧
      ∃ cells', (issue p cmd s).wc = .busy t cells' ∧ cells'.map Prod.fst = cells.map Prod.fst ∧
        ∀ c ∈ cells', c.2 = none) ∧
    (s.wc = .idle →
      (issue p cmd s).bus = some ⟨p, s.devAddr, cmd, false⟩ ∧ (issue p cmd s).wc = .idle) ∧
    sameEeprom s (issue p cmd s) ∧
    (∀ a n, readBytes true a n s = (Draws.bytes n s.draws).1) ∧
    (∀ a b, s.disturbed = false → (okWrite true a b s).wc = s.wc ∧
      drawnApart s.draws (inWriteRange a b.length) (okWrite true a b s).eepromByte ∧
      ∀ x, ¬ inWriteRange a b.length x → (okWrite true a b s).eepromByte x = s.eepromByte x)

/-- Each settle is drawn from `[SETTLE_MIN_TICKS, SETTLE_MAX_TICKS]`, and every count in the range is
admitted (60_exceptions.md R231). -/
def Obligations.SettleIsDrawnFromItsWindow : Prop :=
  ∀ P : Params, settleMin P ≤ settleMax P →
    (∀ c, settleMin P ≤ settleDraw P c ∧ settleDraw P c ≤ settleMax P) ∧
    (∀ n, settleMin P ≤ n → n ≤ settleMax P → ∃ c, settleDraw P c = n)

/-- The bounds of the settle in ticks lie inside the window of 5 ms to 6 ms, and no wider bounds do
(00_scope.md R8). -/
def Obligations.SettleBoundsRoundInwards : Prop :=
  ∀ P : Params,
    5 * P.fClk ≤ settleMin P * 1000 ∧ (∀ m, 5 * P.fClk ≤ m * 1000 → settleMin P ≤ m) ∧
    settleMax P * 1000 ≤ 6 * P.fClk ∧ (∀ m, m * 1000 ≤ 6 * P.fClk → m ≤ settleMax P)

/-- Once loaded, a settle is shortened by the clock and by a block reset alone, and no step but a block
reset skips it: the context that settles stays in SETTLE, its cursor where it is and with no response
(60_exceptions.md R232). -/
def Obligations.SettleIsNotCancelled : Prop :=
  ∀ s t : State, Inv s → s.settleCnt ≠ 0 → step s = .next t →
    ((s.agenda = [] ∨ ∃ rest, s.agenda = .tick :: rest) → t.settleCnt = s.settleCnt - 1) ∧
    ((∃ c rest, s.agenda = .reset c :: rest) → t.settleCnt = 0) ∧
    (s.agenda ≠ [] → (∀ rest, s.agenda ≠ .tick :: rest) → (∀ c rest, s.agenda ≠ .reset c :: rest) →
      t.settleCnt = s.settleCnt) ∧
    ((∀ c rest, s.agenda ≠ .reset c :: rest) → t.locked = true ∧ t.lockOwner = s.lockOwner ∧
      (t.port s.lockOwner.toNat).ph = .settle ∧ sameOperands s.lockOwner.toNat s t ∧
      (t.port s.lockOwner.toNat).resps = (s.port s.lockOwner.toNat).resps)

/-- When a WRITE's settle is over no write cycle is running (20_memory.md R85 (d), R77). That rests on
T_WC <= SETTLE_MIN_TICKS, which R71 assumes (92_eei_decisions.md D26) and `Inv` holds in `paramsOk`. -/
def Obligations.NoCycleRunsAfterTheSettle : Prop :=
  ∀ (s : State) (p : Nat), Inv s → p < s.ports.length → (s.port p).ph = .settle → s.settleCnt = 0 →
    s.wc = .idle

/-- One tick (60_exceptions.md R230; 20_memory.md R71): the settle count and the write cycle go down by
one, a cycle that reaches 0 writes its cells, their bytes or, where they say any value, drawn ones, each
its own draw, and no other byte and no other state changes. -/
def Obligations.TickCountsDown : Prop :=
  ∀ s : State,
    (tick s).settleCnt = s.settleCnt - 1 ∧
    (s.wc = .idle → (tick s).wc = .idle ∧ sameEeprom s (tick s)) ∧
    (∀ n cells, s.wc = .busy n cells → 1 < n →
      (tick s).wc = .busy (n - 1) cells ∧ sameEeprom s (tick s)) ∧
    (∀ a v, s.wc = .busy 1 (byteCells a v) → (tick s).wc = .idle ∧
      (∀ j (h : j < v.length), (tick s).eepromByte (a + j) = v[j]) ∧
      (∀ x, (x < a ∨ a + v.length ≤ x) → (tick s).eepromByte x = s.eepromByte x)) ∧
    (∀ cells, s.wc = .busy 1 cells → (tick s).wc = .idle ∧
      (∀ x, (∀ c ∈ cells, c.1 ≠ x) → (tick s).eepromByte x = s.eepromByte x) ∧
      (∀ x b, (x, some b) ∈ cells → (∀ c ∈ cells, c.1 = x → c.2 = some b) →
        (tick s).eepromByte x = b) ∧
      drawnApart s.draws (fun x => (x, none) ∈ cells ∧ ∀ c ∈ cells, c.1 = x → c.2 = none)
        (tick s).eepromByte) ∧
    (tick s).ports = s.ports ∧ sameConfig s (tick s) ∧ sameLock s (tick s) ∧ sameLifecycle s (tick s) ∧
    sameHost s (tick s) ∧ (tick s).bus = s.bus ∧ (tick s).log = s.log

/-- A change of `BUS_FULL_ADDR` or `DEV_ADDR` while not DETACHED, and only then, makes every later bus
operation any result (70_reset_and_hazards.md R262): a read answers drawn bytes, and a read or a write
answered Ok leaves any bytes in its range of the EEPROM, each its own draw, and the rest unchanged. A
write's range is that of 20_memory.md R73, widened to its pages only where it crosses a boundary. In the step
in which a READ's chunk is answered, the bytes left in the EEPROM are the first draws and the bytes
answered are the next ones, so neither binds the other. -/
def Obligations.ChangedInputsDisturbTheBus : Prop :=
  ∀ (s : State) (full : Bool) (dev : BitVec 16),
    ((setInputs full dev s).disturbed = true ↔ s.disturbed = true ∨
      (s.attachState ≠ .detached ∧ (full ≠ s.busFullAddr ∨ dev ≠ s.devAddr))) ∧
    (setInputs full dev s).busFullAddr = full ∧ (setInputs full dev s).devAddr = dev ∧
    (s.disturbed = true → ∀ hit a n b,
      readBytes hit a n s = (Draws.bytes n s.draws).1 ∧
      (∀ x, (x < a ∨ a + n ≤ x) → (readEffect a n s).eepromByte x = s.eepromByte x) ∧
      drawnApart s.draws (fun x => a ≤ x ∧ x < a + n) (readEffect a n s).eepromByte ∧
      (∀ x, ¬ inWriteRange a b.length x → (okWrite hit a b s).eepromByte x = s.eepromByte x) ∧
      drawnApart s.draws (inWriteRange a b.length) (okWrite hit a b s).eepromByte) ∧
    (s.disturbed = true → ∀ (o n b : Word) (q : Nat) (dv : BitVec 16) (hit : Bool),
      s.sel < s.ports.length → (s.port s.sel).ph = .bus →
      s.bus = some ⟨q, dv, .read (s.port s.sel).cur (s.port s.sel).clen, hit⟩ → s.choice.err = 0 →
      (s.port s.sel).clen ≤ (s.port s.sel).rem → (s.port s.sel).cur + (s.port s.sel).rem ≤ 65536 →
      (s.port s.sel).buf + (s.port s.sel).rem ≤ 2 ^ s.params.hostAw →
      ∃ t, exec (.read o n b) s = .next t ∧
        (∀ j, j < (s.port s.sel).clen → (Draws.bytes (s.port s.sel).clen s.draws).1[j]? =
          some (t.eepromByte ((s.port s.sel).cur + j))) ∧
        t.log = s.log ++ [.rd s.sel (s.port s.sel).cur (s.port s.sel).clen
          (.ok (Draws.bytes (s.port s.sel).clen (Draws.bytes (s.port s.sel).clen s.draws).2).1)])

/-! ### STAT and the host memory -/

/-- The layout of STAT (10_state.md R25), field by field, with the values of ATTACH_STATE (R22). -/
def Obligations.StatShowsTheSharedState : Prop :=
  ∀ s : State,
    s.stat.extractLsb' 0 2 = (match s.attachState with
      | .detached => 0
      | .attaching => 1
      | .attached => 2
      | .detaching => 3) ∧
    s.stat.getLsbD 2 = s.locked ∧
    s.stat.getLsbD 3 = decide (s.settleCnt ≠ 0) ∧
    s.stat.getLsbD 4 = s.rmValid ∧
    s.stat.getLsbD 5 = decide (s.params.policy = .stride) ∧
    s.stat.extractLsb' 6 2 = 0#2 ∧
    s.stat.extractLsb' 8 8 = s.lockOwner ∧
    s.stat.extractLsb' 16 16 = 0#16

/-- Host memory accesses (10_state.md R36; 20_memory.md R86): `MemWrite` sets exactly its bytes, and
`MemRead` takes exactly the stored ones, but that where the command is marked for a race the one leaves and
the other takes drawn bytes, each its own draw. Draws follow on each other, and any bytes at all can be the
drawn ones (00_scope.md R16; the supply is the model's, log 4). -/
def Obligations.HostAccessesMoveExactlyTheirBytes : Prop :=
  (∀ (s : State) (p a : Nat) (v : List Byte),
    (∀ j (h : j < v.length), ¬ racedAt (s.port p) (a + j) → (memWrite p a v s).hostByte (a + j) = v[j]) ∧
    drawnApart s.draws (fun x => a ≤ x ∧ x < a + v.length ∧ racedAt (s.port p) x)
      (memWrite p a v s).hostByte ∧
    (∀ x, (x < a ∨ a + v.length ≤ x) → (memWrite p a v s).hostByte x = s.hostByte x) ∧
    ∀ n, (memReadBytes p a n s).length = n ∧
      (∀ j (h : j < (memReadBytes p a n s).length), ¬ racedAt (s.port p) (a + j) →
        (memReadBytes p a n s)[j] = s.hostByte (a + j)) ∧
      drawnApart s.draws (fun j => j < n ∧ racedAt (s.port p) (a + j))
        (fun j => (memReadBytes p a n s).getD j 0)) ∧
  (∀ (d : Draws) (n j : Nat), (j < n → (Draws.bytes n d).1[j]? = some (d.nth j)) ∧
    (Draws.bytes n d).2.nth j = d.nth (n + j)) ∧
  ∀ (vs : List Byte) (k j : Nat) (h : j < vs.length), (⟨vs, k⟩ : Draws).nth j = vs[j]

/-- A host write (10_state.md R36): no byte outside its range changes, each byte of it that no transfer in
flight uses is set, and each that one uses is any byte, its own draw, and is marked for a race on that
transfer's port (20_memory.md R86; 93_implementation_defined.md U12). The block is otherwise left as it
is. The EEPROM, its write cycle and an outstanding operation change only by a race with a WRITE in flight,
and the array only where that WRITE's bytes correspond to the range. Of the WRITE that holds the lock with
a chunk in hand, the bytes it has taken from the range are any bytes on their way to the EEPROM and in it:
those outstanding, those of the running write cycle, and those answered Ok before (U12 for WRITE; the three
places are the model's choice, log 12). -/
def Obligations.HostWriteSetsItsBytes : Prop :=
  ∀ (s : State) (a : Nat) (v : List Byte), a + v.length ≤ 2 ^ s.params.hostAw →
    (∀ x, (x < a ∨ a + v.length ≤ x) → (hostWrite a v s).hostByte x = s.hostByte x) ∧
    (∀ j (h : j < v.length), (∀ c ∈ s.ports, ¬ usesHost c (a + j)) →
      (hostWrite a v s).hostByte (a + j) = v[j]) ∧
    drawnApart s.draws (fun x => a ≤ x ∧ x < a + v.length ∧ ∃ c ∈ s.ports, usesHost c x)
      (hostWrite a v s).hostByte ∧
    (∀ p x, p < s.ports.length → usesHost (s.port p) x →
      (racedAt ((hostWrite a v s).port p) x ↔ racedAt (s.port p) x ∨ a ≤ x ∧ x < a + v.length)) ∧
    (hostWrite a v s).ports.length = s.ports.length ∧
    (∀ p, ∃ r, (hostWrite a v s).port p = { s.port p with raced := r }) ∧
    ((∀ x, a ≤ x → x < a + v.length → ∀ c ∈ s.ports, ¬ usesHost c x) →
      (hostWrite a v s).ports = s.ports) ∧
    ((∀ x, a ≤ x → x < a + v.length → ∀ c ∈ s.ports, c.d.op = 4 → ¬ usesHost c x) →
      sameEeprom s (hostWrite a v s) ∧ (hostWrite a v s).wc = s.wc ∧ (hostWrite a v s).bus = s.bus) ∧
    (∀ y, (hostWrite a v s).eepromByte y ≠ s.eepromByte y → ∃ c ∈ s.ports, c.ph ≠ .idle ∧ c.d.op = 4 ∧
      correspondsTo c a v.length y) ∧
    (∀ c, s.locked = true → c = s.port s.lockOwner.toNat → c.d.op = 4 → (c.ph = .bus ∨ c.ph = .settle) →
      (∀ q dev y w hit, s.bus = some ⟨q, dev, .write y w, hit⟩ →
        ∃ w', (hostWrite a v s).bus = some ⟨q, dev, .write y w', hit⟩ ∧ w'.length = w.length ∧
          (∀ j, ¬ correspondsTo c a v.length (y + j) → w'[j]? = w[j]?) ∧
          drawnApart s.draws (fun j => j < w.length ∧ correspondsTo c a v.length (y + j))
            (fun j => w'.getD j 0)) ∧
      (∀ k cells, s.wc = .busy k cells → (hostWrite a v s).wc = .busy k
        (cells.map fun x => if correspondsTo c a v.length x.1 then (x.1, none) else x)) ∧
      drawnApart s.draws (fun y => correspondsTo c a v.length y ∧
        y < c.cur + if c.ph = .settle then c.clen else 0) (hostWrite a v s).eepromByte) ∧
    sameLock s (hostWrite a v s) ∧ sameLifecycle s (hostWrite a v s) ∧ sameConfig s (hostWrite a v s) ∧
    (hostWrite a v s).settleCnt = s.settleCnt ∧ (hostWrite a v s).lingering = s.lingering ∧
    (hostWrite a v s).stat = s.stat ∧ (hostWrite a v s).log = s.log

/-- A host read (10_state.md R36): the host takes the stored bytes. Where a READ in flight has its
destination it takes drawn bytes, each its own (20_memory.md R86), the bytes of the host memory there are
drawn too, after and apart from those (93_implementation_defined.md U12), and the READ is marked for a race
with the range. Nothing else changes, and what the host took changes by a host read alone. The mark, and
the order of the draws, are the model's (log 12). -/
def Obligations.HostReadsTheStoredBytes : Prop :=
  (∀ (s : State) (a n : Nat) (rest : List Move), s.agenda = .hostRead a n :: rest →
    a + n ≤ 2 ^ s.params.hostAw →
    ∃ t, step s = .next t ∧ t.seen.length = n ∧
      (∀ j (h : j < t.seen.length), (∀ c ∈ s.ports, usesHost c (a + j) → c.d.op ≠ 3) →
        t.seen[j] = s.hostByte (a + j)) ∧
      ((∀ j, j < n → ∃ c ∈ s.ports, usesHost c (a + j) ∧ c.d.op = 3) →
        t.seen = (Draws.bytes n s.draws).1 ∧
        ∀ j, j < n → (Draws.bytes n (Draws.bytes n s.draws).2).1[j]? = some (t.hostByte (a + j))) ∧
      drawnApart s.draws (fun j => j < n ∧ ∃ c ∈ s.ports, usesHost c (a + j) ∧ c.d.op = 3)
        (fun j => t.seen.getD j 0) ∧
      drawnApart s.draws (fun x => a ≤ x ∧ x < a + n ∧ ∃ c ∈ s.ports, usesHost c x ∧ c.d.op = 3)
        t.hostByte ∧
      (∀ x, (a ≤ x → x < a + n → ∀ c ∈ s.ports, usesHost c x → c.d.op ≠ 3) →
        t.hostByte x = s.hostByte x) ∧
      (∀ p x, p < s.ports.length → (s.port p).d.op = 3 → a ≤ x → x < a + n →
        usesHost (s.port p) x → (a, n) ∈ (t.port p).raced) ∧
      (∀ p, ∃ r, t.port p = { s.port p with raced := r }) ∧
      ((∀ x, a ≤ x → x < a + n → ∀ c ∈ s.ports, usesHost c x → c.d.op ≠ 3) →
        t.ports = s.ports) ∧
      t.ports.length = s.ports.length ∧ sameConfig s t ∧ sameLock s t ∧ sameLifecycle s t ∧
      t.settleCnt = s.settleCnt ∧ sameEeprom s t ∧ t.wc = s.wc ∧ t.bus = s.bus ∧
      t.lingering = s.lingering ∧ t.log = s.log) ∧
  (∀ s t : State, step s = .next t → t.seen ≠ s.seen → ∃ a n rest, s.agenda = .hostRead a n :: rest)

/-! ### The collaborator after a block reset -/

/-- A call that a block reset left at the collaborator takes effect there in a step of its own
(70_reset_and_hazards.md R252, R253), and nothing else changes. The calls that may still do so change by
such a step and by a block reset alone, and `REGISTERED` by these two, by the answer to a context in
COLLAB (10_state.md R38) and by the platform's discard (R253), which clears it and changes nothing else.
That a cut-off call may take effect at any time is the model's choice (log 15), and so are that the discard
may come at any time (log 17) and that an `Unregister` clears `REGISTERED` with its answer, not at its call
(log 20). -/
def Obligations.LateCallsTakeEffect : Prop :=
  (∀ (s : State) (k : Nat) (rest : List Move) (x : CollabCall), s.agenda = .collab k :: rest →
    s.lingering[k]? = some x →
    ∃ t, step s = .next t ∧ (t.registered = true ↔ x = .register) ∧
      t.lingering = s.lingering.eraseIdx k ∧ t.attachState = s.attachState ∧ t.rmValid = s.rmValid ∧
      t.ports = s.ports ∧ sameConfig s t ∧ sameLock s t ∧ t.settleCnt = s.settleCnt ∧ sameEeprom s t ∧
      t.wc = s.wc ∧ sameHost s t ∧ t.bus = s.bus ∧ t.log = s.log) ∧
  (∀ (s : State) (rest : List Move), s.agenda = .discard :: rest →
    ∃ t, step s = .next t ∧ t.registered = false ∧ t.lingering = s.lingering ∧
      t.attachState = s.attachState ∧ t.rmValid = s.rmValid ∧ t.ports = s.ports ∧ sameConfig s t ∧
      sameLock s t ∧ t.settleCnt = s.settleCnt ∧ sameEeprom s t ∧ t.wc = s.wc ∧ sameHost s t ∧
      t.bus = s.bus ∧ t.log = s.log) ∧
  (∀ s t : State, step s = .next t →
    (t.lingering ≠ s.lingering →
      (∃ k rest, s.agenda = .collab k :: rest) ∨ ∃ c rest, s.agenda = .reset c :: rest) ∧
    (t.registered ≠ s.registered →
      (∃ k rest, s.agenda = .collab k :: rest) ∨ (∃ c rest, s.agenda = .reset c :: rest) ∨
      (∃ rest, s.agenda = .discard :: rest) ∨
      ∃ p c rest, s.agenda = .port p c :: rest ∧ p < s.ports.length ∧ (s.port p).ph = .collab))

/-! ### Reset -/

/-- The state after reset (70_reset_and_hazards.md R251), for the default parameters. -/
def Obligations.ResetStateHasTheResetValues : Prop :=
  State.reset.attachState = .detached ∧ State.reset.locked = false ∧ State.reset.lockOwner = 0 ∧
  State.reset.rmValid = false ∧ State.reset.settleCnt = 0 ∧ State.reset.stat = 0x00000000 ∧
  State.reset.ports.length = State.reset.params.nPorts ∧
  ∀ c ∈ State.reset.ports, c.ph = .idle ∧ c.d = ⟨0, 0, 0, 0⟩ ∧ c.cur = 0 ∧ c.rem = 0 ∧ c.buf = 0 ∧
    c.clen = 0 ∧ c.k = 0

/-- A block reset, in any state (70_reset_and_hazards.md R251, R252): every piece of block state has its
reset value, no port gets a response, and the host memory and the inputs are unchanged. A dropped write
leaves any bytes in its range R, each its own draw, changes no other EEPROM byte, and may leave a write
cycle over R; a dropped read changes none, but if an input changed while attached leaves any bytes in its
range (R262); otherwise the device is unchanged. An outstanding collaborator call takes effect in this step,
or may still do so later, and until then `REGISTERED` is unchanged; R252 gives no time, so that the effect
comes in a step of its own is the model's choice (log 15), and so is that an outstanding `Unregister` has not
cleared `REGISTERED` before (log 20). Three more things are the model's choice, in no rule: that a dropped
write may leave a cycle where it was issued during one that has ended too (log 9); that the descriptors that wait on a port
stay there (log 8); and that the hazard of R262 takes in a dropped operation, which may have been
outstanding at the change, and outlasts the reset, so that its mark is kept (log 10). -/
def Obligations.BlockResetClearsTheBlock : Prop :=
  ∀ (s : State) (c : Choice) (rest : List Move), s.agenda = .reset c :: rest →
    ∃ t, step s = .next t ∧
    t.attachState = .detached ∧ t.locked = false ∧ t.lockOwner = 0 ∧ t.rmValid = false ∧
    t.settleCnt = 0 ∧ t.bus = none ∧
    t.stat = (if s.params.policy = .aligned then 0x00000000 else 0x00000020) ∧
    t.ports.length = s.ports.length ∧
    (∀ p, p < s.ports.length → (t.port p).ph = .idle ∧ (t.port p).d = ⟨0, 0, 0, 0⟩ ∧
      (t.port p).cur = 0 ∧ (t.port p).rem = 0 ∧ (t.port p).buf = 0 ∧ (t.port p).clen = 0 ∧
      (t.port p).k = 0 ∧ sameQueues p s t) ∧
    sameConfig s t ∧ sameHost s t ∧
    (s.disturbed = false → (∀ q dev a v hit, s.bus ≠ some ⟨q, dev, .write a v, hit⟩) → sameEeprom s t) ∧
    ((∀ q dev a v hit, s.bus ≠ some ⟨q, dev, .write a v, hit⟩) → t.wc = s.wc) ∧
    (∀ q dev a n hit, s.bus = some ⟨q, dev, .read a n, hit⟩ →
      (∀ x, (x < a ∨ a + n ≤ x) → t.eepromByte x = s.eepromByte x) ∧
      (s.disturbed = true → drawnApart s.draws (fun x => a ≤ x ∧ x < a + n) t.eepromByte)) ∧
    (∀ q dev a v hit, s.bus = some ⟨q, dev, .write a v, hit⟩ →
      (∀ x, ¬ inWriteRange a v.length x → t.eepromByte x = s.eepromByte x) ∧
      drawnApart s.draws (inWriteRange a v.length) t.eepromByte ∧
      mayLeaveCycle a v.length c s t) ∧
    ((∀ p, p < s.ports.length → (s.port p).ph ≠ .collab) →
      t.registered = s.registered ∧ t.lingering = s.lingering) ∧
    (∀ p, p < s.ports.length → (s.port p).ph = .collab →
      (∀ q, q < s.ports.length → (s.port q).ph = .collab → q = p) →
      (c.effect = true → t.registered = decide ((s.port p).d.op = 1) ∧ t.lingering = s.lingering) ∧
      (c.effect = false → t.registered = s.registered ∧
        t.lingering = s.lingering ++ [if (s.port p).d.op = 1 then .register else .unregister]))

/-! ### Invariants and whole-machine rules -/

/-- The state after reset meets the invariants. The parameters of that state are the model's choice (log
1), and so is that no write cycle runs in it (log 14). -/
def Obligations.ResetMeetsTheInvariants : Prop := Inv State.reset

/-- Every step keeps the invariants: 10_state.md R28, the widths of R30, the cursor bounds of R31, the
canonical form of both memories, and the write-cycle bounds of 20_memory.md R71 and R77. That a loss of
power makes no write cycle longer is the model's choice (log 19). -/
def Obligations.EveryStepKeepsTheInvariants : Prop :=
  ∀ s t : State, Inv s → step s = .next t → Inv t

/-- From a state that meets the invariants the machine never stops: the faults of 20_memory.md R69 and
their like are unreachable, and every command has a meaning in every phase it enters. -/
def Obligations.NoStepStops : Prop :=
  ∀ s : State, Inv s → ∃ t, step s = .next t

/-- 10_state.md R28 (a) to (e), in the words of the rule, follow from the invariants that every step
keeps. -/
def Obligations.SharedStateInvariants : Prop :=
  ∀ s : State, Inv s →
    (s.locked = false → s.lockOwner = 0) ∧
    (s.settleCnt ≠ 0 → s.locked = true ∧ (s.port s.lockOwner.toNat).ph = .settle) ∧
    (s.rmValid = true ↔ s.attachState ≠ .detached) ∧
    (∀ op, s.bus = some op → s.locked = true ∧ op.port = s.lockOwner.toNat ∧
      (s.port s.lockOwner.toNat).ph = .bus) ∧
    (∀ p, p < s.ports.length →
      ((s.port p).ph = .active ∨ (s.port p).ph = .bus ∨ (s.port p).ph = .settle) →
        s.locked = true ∧ s.lockOwner.toNat = p) ∧
    (∀ p, p < s.ports.length →
      ((s.port p).ph = .waitLock ∨ (s.port p).ph = .collab ∨ (s.port p).ph = .idle) →
        ¬ (s.locked = true ∧ s.lockOwner.toNat = p))

/-- The transitions of ATTACH_STATE (40_attach.md R146) are the only ones, each by its command, in its
phase, and with or without the lock as the table says. -/
def Obligations.AttachStateTransitions : Prop :=
  ∀ s t : State, Inv s → step s = .next t → t.attachState ≠ s.attachState →
    (∃ c rest, s.agenda = .reset c :: rest ∧ t.attachState = .detached) ∨
    (∃ p c rest, s.agenda = .port p c :: rest ∧ p < s.ports.length ∧
      ((s.attachState = .detached ∧ t.attachState = .attaching ∧ (s.port p).d.op = 1 ∧
          (s.port p).ph = .bus ∧ s.ownedBy p = true ∧ c.err = 0 ∧ c.probe.isSome = true) ∨
        (s.attachState = .attaching ∧ t.attachState = .attached ∧ (s.port p).d.op = 1 ∧
          (s.port p).ph = .collab ∧ s.ownedBy p = false ∧ c.err = 0) ∨
        (s.attachState = .attaching ∧ t.attachState = .detached ∧ (s.port p).d.op = 1 ∧
          (s.port p).ph = .collab ∧ s.ownedBy p = false ∧ c.err ≠ 0) ∨
        (s.attachState = .attached ∧ t.attachState = .detaching ∧ (s.port p).d.op = 2 ∧
          (s.port p).ph = .active ∧ s.ownedBy p = true) ∨
        (s.attachState = .detaching ∧ t.attachState = .detached ∧ (s.port p).d.op = 2 ∧
          (s.port p).ph = .collab ∧ s.ownedBy p = false)))

/-- What guards the bus (20_memory.md R82; 10_state.md R24): an outstanding operation is the lock owner's,
`BusRead` and `BusWrite` are outstanding only while RM_VALID is 1 and the probe only while it is 0, and
every operation lies inside the array (20_memory.md R69). -/
def Obligations.BusIsUsedUnderTheLock : Prop :=
  ∀ (s : State) (op : BusOp), Inv s → s.bus = some op →
    s.ownedBy op.port = true ∧
    (∀ n, op.cmd = .recv n → n = 1 ∧ s.rmValid = false ∧ (s.port op.port).d.op = 1) ∧
    (∀ a n, op.cmd = .read a n → s.rmValid = true ∧ (s.port op.port).d.op = 3 ∧
      1 ≤ n ∧ n ≤ 128 ∧ a + n ≤ 65536) ∧
    (∀ a v, op.cmd = .write a v → s.rmValid = true ∧ (s.port op.port).d.op = 4 ∧
      1 ≤ v.length ∧ v.length ≤ 128 ∧ a + v.length ≤ 65536)

/-- Under ALIGNED no outstanding `BusWrite` spans two pages (41_transfer.md R184). -/
def Obligations.AlignedWritesStayInOnePage : Prop :=
  ∀ (s : State) (q a : Nat) (dev : BitVec 16) (v : List Byte) (hit : Bool), Inv s →
    s.params.policy = .aligned → s.bus = some ⟨q, dev, .write a v, hit⟩ →
    a / 128 = (a + v.length - 1) / 128

/-- The cursor of a transfer with a chunk in hand never wraps (10_state.md R31). -/
def Obligations.CursorNeverWraps : Prop :=
  ∀ (s : State) (p : Nat), Inv s → p < s.ports.length →
    ((s.port p).d.op = 3 ∨ (s.port p).d.op = 4) → ((s.port p).ph = .bus ∨ (s.port p).ph = .settle) →
    (s.port p).cur + (s.port p).rem = (s.port p).d.offset.toNat + (s.port p).d.length.toNat ∧
    (s.port p).cur + (s.port p).rem ≤ 65536 ∧
    (s.port p).buf + (s.port p).rem = (s.port p).d.bufaddr.toNat + (s.port p).d.length.toNat ∧
    (s.port p).buf + (s.port p).rem ≤ 2 ^ s.params.hostAw ∧
    1 ≤ (s.port p).clen ∧ (s.port p).clen ≤ (s.port p).rem ∧ (s.port p).clen ≤ 128 ∧ (s.port p).k < 512

/-- The EEPROM is durable (20_memory.md R66, R76). With the inputs stable a byte of it changes only in the
step in which a write cycle that writes it ends, by the clock (R71) or by a loss of power; by a block reset
that drops a write (70_reset_and_hazards.md R252) and by the answer of a WRITE's chunk, each with the byte in
the range R of that write (R73); and by a host write that races with a WRITE in flight on the byte that it
takes from there (R86): no step of an ATTACH, a DETACH or a READ changes it, nor does the host otherwise
(40_attach.md R138; 41_transfer.md R171; R78). A loss of power, in any state, changes no byte outside a
running write cycle, and nothing of the block, the host memory or the collaborator.
The rules say of a loss of power only that `E` and the completed bytes survive it. The rest is the model's
choice (log 19): the running cycle is left with any value at its addresses, each byte its own draw, and goes
on for the drawn number of ticks, at most those it had left, or ends in that step where that is 0; and an
outstanding operation is marked as if issued during a cycle. That the acceptance of a READ that races with
a WRITE in flight changes no byte that it has written is the model's choice too (log 12). -/
def Obligations.OnlyWritesChangeTheEeprom : Prop :=
  (∀ (s t : State) (a : Nat), Inv s → s.disturbed = false → step s = .next t →
    t.eepromByte a ≠ s.eepromByte a →
    ((s.agenda = [] ∨ ∃ rest, s.agenda = .tick :: rest) ∧
      ∃ cells, s.wc = .busy 1 cells ∧ ∃ x ∈ cells, x.1 = a) ∨
    (∃ c rest q dev x v hit, s.agenda = .reset c :: rest ∧ s.bus = some ⟨q, dev, .write x v, hit⟩ ∧
      inWriteRange x v.length a) ∨
    (∃ x v rest, s.agenda = .hostWrite x v :: rest ∧ ∃ c ∈ s.ports, c.ph ≠ .idle ∧ c.d.op = 4 ∧
      correspondsTo c x v.length a) ∨
    (∃ p c rest dev x v hit, s.agenda = .port p c :: rest ∧ (s.port p).ph = .bus ∧
      (s.port p).d.op = 4 ∧ s.bus = some ⟨p, dev, .write x v, hit⟩ ∧ inWriteRange x v.length a) ∨
    (∃ c rest k cells, s.agenda = .powerLoss c :: rest ∧ s.wc = .busy k cells ∧ min c.cycle k = 0 ∧
      ∃ x ∈ cells, x.1 = a)) ∧
  ∀ (s : State) (c : Choice) (rest : List Move), s.agenda = .powerLoss c :: rest →
    ∃ t, step s = .next t ∧
      (s.wc = .idle → sameEeprom s t ∧ t.wc = .idle) ∧
      (∀ k cells, s.wc = .busy k cells →
        (∀ a, (∀ x ∈ cells, x.1 ≠ a) → t.eepromByte a = s.eepromByte a) ∧
        (min c.cycle k = 0 → t.wc = .idle ∧
          drawnApart s.draws (fun a => ∃ x ∈ cells, x.1 = a) t.eepromByte) ∧
        (0 < min c.cycle k → sameEeprom s t ∧ ∃ cells', t.wc = .busy (min c.cycle k) cells' ∧
          cells'.map Prod.fst = cells.map Prod.fst ∧ ∀ x ∈ cells', x.2 = none)) ∧
      (s.bus = none → t.bus = none) ∧
      (∀ q dev cmd hit, s.bus = some ⟨q, dev, cmd, hit⟩ → t.bus = some ⟨q, dev, cmd, true⟩) ∧
      t.ports = s.ports ∧ sameConfig s t ∧ sameLock s t ∧ sameLifecycle s t ∧
      t.settleCnt = s.settleCnt ∧ sameHost s t ∧ t.lingering = s.lingering ∧ t.log = s.log

/-- The host memory changes only by a host write in its range, by the answer of a READ's chunk inside that
command's buffer, and by a host read of the destination of a READ in flight: no step of an ATTACH, a DETACH
or a WRITE changes it (10_state.md R36; 41_transfer.md R181; 20_memory.md R86 with
93_implementation_defined.md U12). That the acceptance of a transfer that races with one in flight changes
no byte moved before is the model's choice (log 12). -/
def Obligations.OnlyReadsChangeTheHostMemory : Prop :=
  ∀ (s t : State) (a : Nat), Inv s → step s = .next t → t.hostByte a ≠ s.hostByte a →
    (∃ x v rest, s.agenda = .hostWrite x v :: rest ∧ x ≤ a ∧ a < x + v.length) ∨
    (∃ x n rest, s.agenda = .hostRead x n :: rest ∧ x ≤ a ∧ a < x + n ∧
      ∃ c ∈ s.ports, usesHost c a ∧ c.d.op = 3) ∨
    (∃ p c rest, s.agenda = .port p c :: rest ∧ (s.port p).ph = .bus ∧ (s.port p).d.op = 3 ∧
      (s.port p).d.bufaddr.toNat ≤ a ∧
      a < (s.port p).d.bufaddr.toNat + (s.port p).d.length.toNat)

/-- A context's fields are its own (60_exceptions.md R236), its descriptor once latched is beyond the
host's reach (10_state.md R33), and no command can be cancelled (70_reset_and_hazards.md R259): a step
that is no step of context p and no block reset changes none of its fields and returns no response. -/
def Obligations.ContextsAreIndependent : Prop :=
  ∀ (s t : State) (p : Nat), step s = .next t → (∀ c rest, s.agenda ≠ .port p c :: rest) →
    (∀ c rest, s.agenda ≠ .reset c :: rest) →
    (t.port p).ph = (s.port p).ph ∧ sameOperands p s t ∧ (t.port p).resps = (s.port p).resps

/-- The bus log only grows. A step of a context adds entries of that context alone, and entries of the
bus and of the settle timer only while it holds the lock (20_memory.md R64, R82, R85 (a)); a block reset
adds those of the operations it drops (log 11); no other step adds any. In which of its steps a context
adds the entry of an operation, UNREG among them, is the model's (log 18). -/
def Obligations.LogIsWrittenByTheLockOwner : Prop :=
  ∀ s t : State, Inv s → step s = .next t →
    ∃ es, t.log = s.log ++ es ∧
      (∀ p c rest, s.agenda = .port p c :: rest → ∀ e ∈ es,
        (∃ cap ws r, e = .reg p cap ws r) ∨ e = .unreg p ∨
        (s.ownedBy p = true ∧
          ((∃ n r, e = .recv p n r) ∨ (∃ a n r, e = .rd p a n r) ∨ (∃ a v r, e = .wr p a v r) ∨
            ∃ n, e = .settle p n))) ∧
      (∀ c rest, s.agenda = .reset c :: rest →
        (∀ op, s.bus = some op → lostEntry op ∈ es) ∧
        ∀ e ∈ es, (∃ op, s.bus = some op ∧ e = lostEntry op) ∨
          ∃ p, p < s.ports.length ∧ (s.port p).ph = .collab ∧
            (((s.port p).d.op = 1 ∧ e = .reg p 65536 1 .lost) ∨ ((s.port p).d.op = 2 ∧ e = .unreg p))) ∧
      ((∀ p c rest, s.agenda ≠ .port p c :: rest) → (∀ c rest, s.agenda ≠ .reset c :: rest) → es = [])

/-- No step changes the parameters (10_state.md R20). -/
def Obligations.ParametersNeverChange : Prop :=
  ∀ s t : State, step s = .next t → t.params = s.params
end

