-- ==== Sys2Proof/Laws/State.lean ====
section
/-! SUPPORT. Each field of the state after each primitive update, and the ports after a port write: what
later proofs cite instead of unfolding a record update. -/

namespace Sys2Proof.Machine

variable (s : State)

/-! `setPort`. -/

@[simp] theorem setPort_params (p : Nat) (c : Port) : (s.setPort p c).params = s.params := rfl
@[simp] theorem setPort_attachState (p : Nat) (c : Port) : (s.setPort p c).attachState = s.attachState := rfl
@[simp] theorem setPort_locked (p : Nat) (c : Port) : (s.setPort p c).locked = s.locked := rfl
@[simp] theorem setPort_lockOwner (p : Nat) (c : Port) : (s.setPort p c).lockOwner = s.lockOwner := rfl
@[simp] theorem setPort_rmValid (p : Nat) (c : Port) : (s.setPort p c).rmValid = s.rmValid := rfl
@[simp] theorem setPort_settleCnt (p : Nat) (c : Port) : (s.setPort p c).settleCnt = s.settleCnt := rfl
@[simp] theorem setPort_ports (p : Nat) (c : Port) : (s.setPort p c).ports = s.ports.set p c := rfl
@[simp] theorem setPort_busFullAddr (p : Nat) (c : Port) : (s.setPort p c).busFullAddr = s.busFullAddr := rfl
@[simp] theorem setPort_devAddr (p : Nat) (c : Port) : (s.setPort p c).devAddr = s.devAddr := rfl
@[simp] theorem setPort_disturbed (p : Nat) (c : Port) : (s.setPort p c).disturbed = s.disturbed := rfl
@[simp] theorem setPort_bus (p : Nat) (c : Port) : (s.setPort p c).bus = s.bus := rfl
@[simp] theorem setPort_eeprom (p : Nat) (c : Port) : (s.setPort p c).eeprom = s.eeprom := rfl
@[simp] theorem setPort_wc (p : Nat) (c : Port) : (s.setPort p c).wc = s.wc := rfl
@[simp] theorem setPort_host (p : Nat) (c : Port) : (s.setPort p c).host = s.host := rfl
@[simp] theorem setPort_registered (p : Nat) (c : Port) : (s.setPort p c).registered = s.registered := rfl
@[simp] theorem setPort_lingering (p : Nat) (c : Port) : (s.setPort p c).lingering = s.lingering := rfl
@[simp] theorem setPort_seen (p : Nat) (c : Port) : (s.setPort p c).seen = s.seen := rfl
@[simp] theorem setPort_log (p : Nat) (c : Port) : (s.setPort p c).log = s.log := rfl
@[simp] theorem setPort_agenda (p : Nat) (c : Port) : (s.setPort p c).agenda = s.agenda := rfl
@[simp] theorem setPort_sel (p : Nat) (c : Port) : (s.setPort p c).sel = s.sel := rfl
@[simp] theorem setPort_choice (p : Nat) (c : Port) : (s.setPort p c).choice = s.choice := rfl
@[simp] theorem setPort_draws (p : Nat) (c : Port) : (s.setPort p c).draws = s.draws := rfl

/-! `addLog`. -/

@[simp] theorem addLog_params (e : LogEntry) : (s.addLog e).params = s.params := rfl
@[simp] theorem addLog_attachState (e : LogEntry) : (s.addLog e).attachState = s.attachState := rfl
@[simp] theorem addLog_locked (e : LogEntry) : (s.addLog e).locked = s.locked := rfl
@[simp] theorem addLog_lockOwner (e : LogEntry) : (s.addLog e).lockOwner = s.lockOwner := rfl
@[simp] theorem addLog_rmValid (e : LogEntry) : (s.addLog e).rmValid = s.rmValid := rfl
@[simp] theorem addLog_settleCnt (e : LogEntry) : (s.addLog e).settleCnt = s.settleCnt := rfl
@[simp] theorem addLog_ports (e : LogEntry) : (s.addLog e).ports = s.ports := rfl
@[simp] theorem addLog_busFullAddr (e : LogEntry) : (s.addLog e).busFullAddr = s.busFullAddr := rfl
@[simp] theorem addLog_devAddr (e : LogEntry) : (s.addLog e).devAddr = s.devAddr := rfl
@[simp] theorem addLog_disturbed (e : LogEntry) : (s.addLog e).disturbed = s.disturbed := rfl
@[simp] theorem addLog_bus (e : LogEntry) : (s.addLog e).bus = s.bus := rfl
@[simp] theorem addLog_eeprom (e : LogEntry) : (s.addLog e).eeprom = s.eeprom := rfl
@[simp] theorem addLog_wc (e : LogEntry) : (s.addLog e).wc = s.wc := rfl
@[simp] theorem addLog_host (e : LogEntry) : (s.addLog e).host = s.host := rfl
@[simp] theorem addLog_registered (e : LogEntry) : (s.addLog e).registered = s.registered := rfl
@[simp] theorem addLog_lingering (e : LogEntry) : (s.addLog e).lingering = s.lingering := rfl
@[simp] theorem addLog_seen (e : LogEntry) : (s.addLog e).seen = s.seen := rfl
@[simp] theorem addLog_log (e : LogEntry) : (s.addLog e).log = s.log ++ [e] := rfl
@[simp] theorem addLog_agenda (e : LogEntry) : (s.addLog e).agenda = s.agenda := rfl
@[simp] theorem addLog_sel (e : LogEntry) : (s.addLog e).sel = s.sel := rfl
@[simp] theorem addLog_choice (e : LogEntry) : (s.addLog e).choice = s.choice := rfl
@[simp] theorem addLog_draws (e : LogEntry) : (s.addLog e).draws = s.draws := rfl

/-! `setAttach`. -/

@[simp] theorem setAttach_params (a : AttachState) (v : Bool) : (s.setAttach a v).params = s.params := rfl
@[simp] theorem setAttach_attachState (a : AttachState) (v : Bool) : (s.setAttach a v).attachState = a := rfl
@[simp] theorem setAttach_locked (a : AttachState) (v : Bool) : (s.setAttach a v).locked = s.locked := rfl
@[simp] theorem setAttach_lockOwner (a : AttachState) (v : Bool) : (s.setAttach a v).lockOwner = s.lockOwner := rfl
@[simp] theorem setAttach_rmValid (a : AttachState) (v : Bool) : (s.setAttach a v).rmValid = v := rfl
@[simp] theorem setAttach_settleCnt (a : AttachState) (v : Bool) : (s.setAttach a v).settleCnt = s.settleCnt := rfl
@[simp] theorem setAttach_ports (a : AttachState) (v : Bool) : (s.setAttach a v).ports = s.ports := rfl
@[simp] theorem setAttach_busFullAddr (a : AttachState) (v : Bool) : (s.setAttach a v).busFullAddr = s.busFullAddr := rfl
@[simp] theorem setAttach_devAddr (a : AttachState) (v : Bool) : (s.setAttach a v).devAddr = s.devAddr := rfl
@[simp] theorem setAttach_disturbed (a : AttachState) (v : Bool) : (s.setAttach a v).disturbed = s.disturbed := rfl
@[simp] theorem setAttach_bus (a : AttachState) (v : Bool) : (s.setAttach a v).bus = s.bus := rfl
@[simp] theorem setAttach_eeprom (a : AttachState) (v : Bool) : (s.setAttach a v).eeprom = s.eeprom := rfl
@[simp] theorem setAttach_wc (a : AttachState) (v : Bool) : (s.setAttach a v).wc = s.wc := rfl
@[simp] theorem setAttach_host (a : AttachState) (v : Bool) : (s.setAttach a v).host = s.host := rfl
@[simp] theorem setAttach_registered (a : AttachState) (v : Bool) : (s.setAttach a v).registered = s.registered := rfl
@[simp] theorem setAttach_lingering (a : AttachState) (v : Bool) : (s.setAttach a v).lingering = s.lingering := rfl
@[simp] theorem setAttach_seen (a : AttachState) (v : Bool) : (s.setAttach a v).seen = s.seen := rfl
@[simp] theorem setAttach_log (a : AttachState) (v : Bool) : (s.setAttach a v).log = s.log := rfl
@[simp] theorem setAttach_agenda (a : AttachState) (v : Bool) : (s.setAttach a v).agenda = s.agenda := rfl
@[simp] theorem setAttach_sel (a : AttachState) (v : Bool) : (s.setAttach a v).sel = s.sel := rfl
@[simp] theorem setAttach_choice (a : AttachState) (v : Bool) : (s.setAttach a v).choice = s.choice := rfl
@[simp] theorem setAttach_draws (a : AttachState) (v : Bool) : (s.setAttach a v).draws = s.draws := rfl

/-! `unlock`. -/

@[simp] theorem unlock_params : (s.unlock).params = s.params := rfl
@[simp] theorem unlock_attachState : (s.unlock).attachState = s.attachState := rfl
@[simp] theorem unlock_locked : (s.unlock).locked = false := rfl
@[simp] theorem unlock_lockOwner : (s.unlock).lockOwner = 0 := rfl
@[simp] theorem unlock_rmValid : (s.unlock).rmValid = s.rmValid := rfl
@[simp] theorem unlock_settleCnt : (s.unlock).settleCnt = s.settleCnt := rfl
@[simp] theorem unlock_ports : (s.unlock).ports = s.ports := rfl
@[simp] theorem unlock_busFullAddr : (s.unlock).busFullAddr = s.busFullAddr := rfl
@[simp] theorem unlock_devAddr : (s.unlock).devAddr = s.devAddr := rfl
@[simp] theorem unlock_disturbed : (s.unlock).disturbed = s.disturbed := rfl
@[simp] theorem unlock_bus : (s.unlock).bus = s.bus := rfl
@[simp] theorem unlock_eeprom : (s.unlock).eeprom = s.eeprom := rfl
@[simp] theorem unlock_wc : (s.unlock).wc = s.wc := rfl
@[simp] theorem unlock_host : (s.unlock).host = s.host := rfl
@[simp] theorem unlock_registered : (s.unlock).registered = s.registered := rfl
@[simp] theorem unlock_lingering : (s.unlock).lingering = s.lingering := rfl
@[simp] theorem unlock_seen : (s.unlock).seen = s.seen := rfl
@[simp] theorem unlock_log : (s.unlock).log = s.log := rfl
@[simp] theorem unlock_agenda : (s.unlock).agenda = s.agenda := rfl
@[simp] theorem unlock_sel : (s.unlock).sel = s.sel := rfl
@[simp] theorem unlock_choice : (s.unlock).choice = s.choice := rfl
@[simp] theorem unlock_draws : (s.unlock).draws = s.draws := rfl

/-! `answered`. -/

@[simp] theorem answered_params : (s.answered).params = s.params := rfl
@[simp] theorem answered_attachState : (s.answered).attachState = s.attachState := rfl
@[simp] theorem answered_locked : (s.answered).locked = s.locked := rfl
@[simp] theorem answered_lockOwner : (s.answered).lockOwner = s.lockOwner := rfl
@[simp] theorem answered_rmValid : (s.answered).rmValid = s.rmValid := rfl
@[simp] theorem answered_settleCnt : (s.answered).settleCnt = s.settleCnt := rfl
@[simp] theorem answered_ports : (s.answered).ports = s.ports := rfl
@[simp] theorem answered_busFullAddr : (s.answered).busFullAddr = s.busFullAddr := rfl
@[simp] theorem answered_devAddr : (s.answered).devAddr = s.devAddr := rfl
@[simp] theorem answered_disturbed : (s.answered).disturbed = s.disturbed := rfl
@[simp] theorem answered_bus : (s.answered).bus = none := rfl
@[simp] theorem answered_eeprom : (s.answered).eeprom = s.eeprom := rfl
@[simp] theorem answered_wc : (s.answered).wc = s.wc := rfl
@[simp] theorem answered_host : (s.answered).host = s.host := rfl
@[simp] theorem answered_registered : (s.answered).registered = s.registered := rfl
@[simp] theorem answered_lingering : (s.answered).lingering = s.lingering := rfl
@[simp] theorem answered_seen : (s.answered).seen = s.seen := rfl
@[simp] theorem answered_log : (s.answered).log = s.log := rfl
@[simp] theorem answered_agenda : (s.answered).agenda = s.agenda := rfl
@[simp] theorem answered_sel : (s.answered).sel = s.sel := rfl
@[simp] theorem answered_choice : (s.answered).choice = s.choice := rfl
@[simp] theorem answered_draws : (s.answered).draws = s.draws := rfl

/-! `fillEeprom`. -/

@[simp] theorem fillEeprom_params (cs : List (Nat × Option Byte)) : (s.fillEeprom cs).params = s.params := rfl
@[simp] theorem fillEeprom_attachState (cs : List (Nat × Option Byte)) : (s.fillEeprom cs).attachState = s.attachState := rfl
@[simp] theorem fillEeprom_locked (cs : List (Nat × Option Byte)) : (s.fillEeprom cs).locked = s.locked := rfl
@[simp] theorem fillEeprom_lockOwner (cs : List (Nat × Option Byte)) : (s.fillEeprom cs).lockOwner = s.lockOwner := rfl
@[simp] theorem fillEeprom_rmValid (cs : List (Nat × Option Byte)) : (s.fillEeprom cs).rmValid = s.rmValid := rfl
@[simp] theorem fillEeprom_settleCnt (cs : List (Nat × Option Byte)) : (s.fillEeprom cs).settleCnt = s.settleCnt := rfl
@[simp] theorem fillEeprom_ports (cs : List (Nat × Option Byte)) : (s.fillEeprom cs).ports = s.ports := rfl
@[simp] theorem fillEeprom_busFullAddr (cs : List (Nat × Option Byte)) : (s.fillEeprom cs).busFullAddr = s.busFullAddr := rfl
@[simp] theorem fillEeprom_devAddr (cs : List (Nat × Option Byte)) : (s.fillEeprom cs).devAddr = s.devAddr := rfl
@[simp] theorem fillEeprom_disturbed (cs : List (Nat × Option Byte)) : (s.fillEeprom cs).disturbed = s.disturbed := rfl
@[simp] theorem fillEeprom_bus (cs : List (Nat × Option Byte)) : (s.fillEeprom cs).bus = s.bus := rfl
@[simp] theorem fillEeprom_eeprom (cs : List (Nat × Option Byte)) : (s.fillEeprom cs).eeprom = (fill cs s.eeprom s.draws).1 := rfl
@[simp] theorem fillEeprom_wc (cs : List (Nat × Option Byte)) : (s.fillEeprom cs).wc = s.wc := rfl
@[simp] theorem fillEeprom_host (cs : List (Nat × Option Byte)) : (s.fillEeprom cs).host = s.host := rfl
@[simp] theorem fillEeprom_registered (cs : List (Nat × Option Byte)) : (s.fillEeprom cs).registered = s.registered := rfl
@[simp] theorem fillEeprom_lingering (cs : List (Nat × Option Byte)) : (s.fillEeprom cs).lingering = s.lingering := rfl
@[simp] theorem fillEeprom_seen (cs : List (Nat × Option Byte)) : (s.fillEeprom cs).seen = s.seen := rfl
@[simp] theorem fillEeprom_log (cs : List (Nat × Option Byte)) : (s.fillEeprom cs).log = s.log := rfl
@[simp] theorem fillEeprom_agenda (cs : List (Nat × Option Byte)) : (s.fillEeprom cs).agenda = s.agenda := rfl
@[simp] theorem fillEeprom_sel (cs : List (Nat × Option Byte)) : (s.fillEeprom cs).sel = s.sel := rfl
@[simp] theorem fillEeprom_choice (cs : List (Nat × Option Byte)) : (s.fillEeprom cs).choice = s.choice := rfl
@[simp] theorem fillEeprom_draws (cs : List (Nat × Option Byte)) : (s.fillEeprom cs).draws = (fill cs s.eeprom s.draws).2 := rfl

/-! `fillHost`. -/

@[simp] theorem fillHost_params (cs : List (Nat × Option Byte)) : (s.fillHost cs).params = s.params := rfl
@[simp] theorem fillHost_attachState (cs : List (Nat × Option Byte)) : (s.fillHost cs).attachState = s.attachState := rfl
@[simp] theorem fillHost_locked (cs : List (Nat × Option Byte)) : (s.fillHost cs).locked = s.locked := rfl
@[simp] theorem fillHost_lockOwner (cs : List (Nat × Option Byte)) : (s.fillHost cs).lockOwner = s.lockOwner := rfl
@[simp] theorem fillHost_rmValid (cs : List (Nat × Option Byte)) : (s.fillHost cs).rmValid = s.rmValid := rfl
@[simp] theorem fillHost_settleCnt (cs : List (Nat × Option Byte)) : (s.fillHost cs).settleCnt = s.settleCnt := rfl
@[simp] theorem fillHost_ports (cs : List (Nat × Option Byte)) : (s.fillHost cs).ports = s.ports := rfl
@[simp] theorem fillHost_busFullAddr (cs : List (Nat × Option Byte)) : (s.fillHost cs).busFullAddr = s.busFullAddr := rfl
@[simp] theorem fillHost_devAddr (cs : List (Nat × Option Byte)) : (s.fillHost cs).devAddr = s.devAddr := rfl
@[simp] theorem fillHost_disturbed (cs : List (Nat × Option Byte)) : (s.fillHost cs).disturbed = s.disturbed := rfl
@[simp] theorem fillHost_bus (cs : List (Nat × Option Byte)) : (s.fillHost cs).bus = s.bus := rfl
@[simp] theorem fillHost_eeprom (cs : List (Nat × Option Byte)) : (s.fillHost cs).eeprom = s.eeprom := rfl
@[simp] theorem fillHost_wc (cs : List (Nat × Option Byte)) : (s.fillHost cs).wc = s.wc := rfl
@[simp] theorem fillHost_host (cs : List (Nat × Option Byte)) : (s.fillHost cs).host = (fill cs s.host s.draws).1 := rfl
@[simp] theorem fillHost_registered (cs : List (Nat × Option Byte)) : (s.fillHost cs).registered = s.registered := rfl
@[simp] theorem fillHost_lingering (cs : List (Nat × Option Byte)) : (s.fillHost cs).lingering = s.lingering := rfl
@[simp] theorem fillHost_seen (cs : List (Nat × Option Byte)) : (s.fillHost cs).seen = s.seen := rfl
@[simp] theorem fillHost_log (cs : List (Nat × Option Byte)) : (s.fillHost cs).log = s.log := rfl
@[simp] theorem fillHost_agenda (cs : List (Nat × Option Byte)) : (s.fillHost cs).agenda = s.agenda := rfl
@[simp] theorem fillHost_sel (cs : List (Nat × Option Byte)) : (s.fillHost cs).sel = s.sel := rfl
@[simp] theorem fillHost_choice (cs : List (Nat × Option Byte)) : (s.fillHost cs).choice = s.choice := rfl
@[simp] theorem fillHost_draws (cs : List (Nat × Option Byte)) : (s.fillHost cs).draws = (fill cs s.host s.draws).2 := rfl

/-! Ports. -/

@[simp] theorem setPort_length (p : Nat) (c : Port) : (s.setPort p c).ports.length = s.ports.length :=
  List.length_set

theorem port_of_ge {p : Nat} (h : s.ports.length ≤ p) : s.port p = Port.reset := by
  simp [State.port, List.getD, List.getElem?_eq_none h]

theorem port_setPort (p q : Nat) (c : Port) :
    (s.setPort p c).port q = if q = p ∧ p < s.ports.length then c else s.port q := by
  unfold State.port State.setPort
  by_cases h : q = p
  · subst h
    by_cases hl : q < s.ports.length
    · simp [hl, List.getD]
    · simp [hl, List.getD]
  · simp [h, List.getD, Ne.symm h]

theorem port_setPort_self {p : Nat} (c : Port) (h : p < s.ports.length) : (s.setPort p c).port p = c := by
  simp [port_setPort, h]

theorem port_setPort_ne {p q : Nat} (c : Port) (h : q ≠ p) : (s.setPort p c).port q = s.port q := by
  simp [port_setPort, h]

@[simp] theorem setPort_setPort (p : Nat) (c d : Port) : (s.setPort p c).setPort p d = s.setPort p d := by
  simp [State.setPort]

@[simp] theorem addLog_port (e : LogEntry) (p : Nat) : (s.addLog e).port p = s.port p := rfl
@[simp] theorem setAttach_port (a : AttachState) (v : Bool) (p : Nat) : (s.setAttach a v).port p = s.port p := rfl
@[simp] theorem unlock_port (p : Nat) : (s.unlock).port p = s.port p := rfl
@[simp] theorem answered_port (p : Nat) : (s.answered).port p = s.port p := rfl
@[simp] theorem fillEeprom_port (cs : List (Nat × Option Byte)) (p : Nat) : (s.fillEeprom cs).port p = s.port p := rfl
@[simp] theorem fillHost_port (cs : List (Nat × Option Byte)) (p : Nat) : (s.fillHost cs).port p = s.port p := rfl

/-- Two states with the same ports read the same at every port. -/
theorem port_congr {s t : State} (h : s.ports = t.ports) (p : Nat) : s.port p = t.port p := by
  simp [State.port, h]

end Sys2Proof.Machine
end

