-- ==== Sys2Proof/Laws/Memory.lean ====
section
/-! SUPPORT. Byte memory: read after write, and every memory operation keeps the canonical form and the
bound on addresses. -/

namespace Sys2Proof.Machine

/-! One byte. -/

theorem mem_put {m : Memory} {a : Nat} {v : Byte} {x : Host.Cell} (h : x ∈ m.put a v) :
    x = (a, v) ∨ x ∈ m := by
  induction m with
  | nil => simpa [Memory.put] using h
  | cons c m ih =>
    obtain ⟨b, w⟩ := c
    rw [Memory.put] at h
    split at h
    · simpa using h
    · split at h
      · rcases List.mem_cons.1 h with h | h
        · exact .inl h
        · exact .inr (List.mem_cons_of_mem _ h)
      · rcases List.mem_cons.1 h with h | h
        · exact .inr (h ▸ List.mem_cons_self)
        · exact (ih h).imp_right (List.mem_cons_of_mem _)

theorem put_wf {m : Memory} (h : m.wf) (a : Nat) (v : Byte) : (m.put a v).wf := by
  induction m with
  | nil => simp [Memory.put]
  | cons c m ih =>
    obtain ⟨b, w⟩ := c
    obtain ⟨h1, h2⟩ := List.pairwise_cons.1 h
    rw [Memory.put]
    split
    · rename_i hb
      refine List.pairwise_cons.2 ⟨fun y hy => ?_, h⟩
      rcases List.mem_cons.1 hy with rfl | hy
      · exact hb
      · exact Nat.lt_trans hb (h1 y hy)
    · split
      · rename_i hb; subst hb
        exact List.pairwise_cons.2 ⟨h1, h2⟩
      · rename_i hb hb'
        refine List.pairwise_cons.2 ⟨fun y hy => ?_, ih h2⟩
        rcases mem_put hy with rfl | hy
        · show b < a; omega
        · exact h1 y hy

theorem get?_eq_none {m : Memory} {a : Nat} (h : ∀ y ∈ m, a < y.1) : m.get? a = none := by
  induction m with
  | nil => rfl
  | cons c m ih =>
    obtain ⟨b, w⟩ := c
    have hb : a < b := h (b, w) (by simp)
    rw [Memory.get?, if_neg (by omega)]
    exact ih fun y hy => h y (by simp [hy])

theorem get?_put {m : Memory} (a : Nat) (v : Byte) (x : Nat) :
    (m.put a v).get? x = if x = a then some v else m.get? x := by
  induction m with
  | nil => simp [Memory.put, Memory.get?]
  | cons c m ih =>
    obtain ⟨b, w⟩ := c
    rw [Memory.put]
    split
    · simp [Memory.get?]
    · split
      · rename_i hb; subst hb
        by_cases hx : x = a <;> simp [Memory.get?, hx]
      · rename_i hb hb'
        rw [Memory.get?, Memory.get?, ih]
        by_cases hx : x = b
        · simp [hx, Ne.symm hb']
        · simp [hx]

/-! Cells. -/

theorem mem_anyCells {a n : Nat} {x : Nat × Option Byte} (h : x ∈ anyCells a n) :
    a ≤ x.1 ∧ x.1 < a + n := by
  induction n generalizing a with
  | zero => simp [anyCells] at h
  | succ n ih =>
    rcases List.mem_cons.1 h with rfl | h
    · simp
    · have := ih h; omega

theorem mem_byteCells {a : Nat} {b : List Byte} {x : Nat × Option Byte} (h : x ∈ byteCells a b) :
    a ≤ x.1 ∧ x.1 < a + b.length := by
  induction b generalizing a with
  | nil => simp [byteCells] at h
  | cons b bs ih =>
    rcases List.mem_cons.1 h with rfl | h
    · simp
    · have := ih h; simp only [List.length_cons]; omega

theorem mem_raceCells {rs : List (Nat × Nat)} {a : Nat} {b : List Byte} {x : Nat × Option Byte}
    (h : x ∈ raceCells rs a b) : a ≤ x.1 ∧ x.1 < a + b.length := by
  induction b generalizing a with
  | nil => simp [raceCells] at h
  | cons b bs ih =>
    rcases List.mem_cons.1 h with rfl | h
    · simp
    · have := ih h; simp only [List.length_cons]; omega

theorem mem_hostCells {s : State} {a : Nat} {b : List Byte} {x : Nat × Option Byte}
    (h : x ∈ hostCells s a b) : a ≤ x.1 ∧ x.1 < a + b.length := by
  induction b generalizing a with
  | nil => simp [hostCells] at h
  | cons b bs ih =>
    rcases List.mem_cons.1 h with rfl | h
    · simp
    · have := ih h; simp only [List.length_cons]; omega

/-- With no race, `MemWrite` writes the bytes themselves. -/
theorem raceCells_nil (a : Nat) (b : List Byte) : raceCells [] a b = byteCells a b := by
  induction b generalizing a with
  | nil => rfl
  | cons b bs ih => simp [raceCells, byteCells, isRaced, ih]

/-! `fill`. -/

theorem fill_wf (cs : List (Nat × Option Byte)) {m : Memory} (h : m.wf) (d : Draws) :
    (fill cs m d).1.wf := by
  induction cs generalizing m d with
  | nil => exact h
  | cons c cs ih =>
    obtain ⟨a, v⟩ := c
    cases v with
    | none => exact ih (put_wf h _ _) _
    | some v => exact ih (put_wf h _ _) _

theorem fill_bound {B : Nat} (cs : List (Nat × Option Byte)) {m : Memory}
    (hm : ∀ x ∈ m, x.1 < B) (hc : ∀ c ∈ cs, c.1 < B) (d : Draws) : ∀ x ∈ (fill cs m d).1, x.1 < B := by
  induction cs generalizing m d with
  | nil => exact hm
  | cons c cs ih =>
    obtain ⟨a, v⟩ := c
    have ha : a < B := hc (a, v) (by simp)
    have step : ∀ w : Byte, ∀ x ∈ m.put a w, x.1 < B := by
      intro w x hx
      rcases mem_put hx with rfl | hx
      · exact ha
      · exact hm x hx
    cases v with
    | none => exact ih (step _) (fun c hc' => hc c (by simp [hc'])) _
    | some v => exact ih (step _) (fun c hc' => hc c (by simp [hc'])) _

/-- Every write to the EEPROM keeps its canonical form. -/
theorem fillEeprom_wf {s : State} (h : s.eeprom.wf) (cs : List (Nat × Option Byte)) :
    (s.fillEeprom cs).eeprom.wf := fill_wf cs h _

/-- Every write to the host memory keeps its canonical form. -/
theorem fillHost_wf {s : State} (h : s.host.wf) (cs : List (Nat × Option Byte)) :
    (s.fillHost cs).host.wf := fill_wf cs h _

/-- The memories at reset are in canonical form. -/
theorem reset_memories_wf : State.reset.eeprom.wf ∧ State.reset.host.wf := ⟨.nil, .nil⟩

/-- `fill` leaves every address without a cell alone. -/
theorem fill_get?_ne (cs : List (Nat × Option Byte)) {x : Nat} (h : ∀ c ∈ cs, c.1 ≠ x) (m : Memory)
    (d : Draws) : (fill cs m d).1.get? x = m.get? x := by
  induction cs generalizing m d with
  | nil => rfl
  | cons c cs ih =>
    obtain ⟨a, v⟩ := c
    have ha : x ≠ a := fun e => h (a, v) (by simp) e.symm
    have hc : ∀ c ∈ cs, c.1 ≠ x := fun c hc => h c (by simp [hc])
    cases v with
    | none => simp only [fill]; rw [ih hc, get?_put, if_neg ha]
    | some v => simp only [fill]; rw [ih hc, get?_put, if_neg ha]

/-- Filling cells that all carry a byte makes no draw. -/
theorem fill_byteCells_draws (a : Nat) (b : List Byte) (m : Memory) (d : Draws) :
    (fill (byteCells a b) m d).2 = d := by
  induction b generalizing a m with
  | nil => rfl
  | cons b bs ih => simp only [byteCells, fill]; exact ih _ _

/-- After the bytes b are filled in from a on, address a + j holds b[j]. -/
theorem fill_byteCells_get? (a : Nat) (b : List Byte) (m : Memory) (d : Draws) (j : Nat)
    (hj : j < b.length) : (fill (byteCells a b) m d).1.get? (a + j) = some b[j] := by
  induction b generalizing a m j with
  | nil => simp at hj
  | cons b bs ih =>
    simp only [byteCells, fill]
    cases j with
    | zero =>
      rw [fill_get?_ne, get?_put]
      · simp
      · intro c hc e
        have := mem_byteCells hc
        omega
    | succ j =>
      have := ih (a + 1) (m.put a b) j (by simpa using hj)
      rw [show a + (j + 1) = a + 1 + j by omega, this]
      simp

/-- The byte E[x] outside the filled cells is unchanged. -/
theorem eepromByte_fillEeprom_ne {s : State} {cs : List (Nat × Option Byte)} {x : Nat}
    (h : ∀ c ∈ cs, c.1 ≠ x) : (s.fillEeprom cs).eepromByte x = s.eepromByte x := by
  simp [State.eepromByte, fill_get?_ne cs h]

/-- The byte HM[x] outside the filled cells is unchanged. -/
theorem hostByte_fillHost_ne {s : State} {cs : List (Nat × Option Byte)} {x : Nat}
    (h : ∀ c ∈ cs, c.1 ≠ x) : (s.fillHost cs).hostByte x = s.hostByte x := by
  simp [State.hostByte, fill_get?_ne cs h]

/-! Reading ranges. -/

@[simp] theorem length_eepromBytes (s : State) (a n : Nat) : (s.eepromBytes a n).length = n := by
  induction n generalizing a with
  | zero => rfl
  | succ n ih => simp [State.eepromBytes, ih]

@[simp] theorem length_hostBytes (s : State) (a n : Nat) : (s.hostBytes a n).length = n := by
  induction n generalizing a with
  | zero => rfl
  | succ n ih => simp [State.hostBytes, ih]

theorem getElem_eepromBytes (s : State) (a n j : Nat) (h : j < (s.eepromBytes a n).length) :
    (s.eepromBytes a n)[j] = s.eepromByte (a + j) := by
  induction n generalizing a j with
  | zero => simp [State.eepromBytes] at h
  | succ n ih =>
    cases j with
    | zero => simp [State.eepromBytes]
    | succ j =>
      simp only [State.eepromBytes, List.getElem_cons_succ]
      rw [ih, show a + 1 + j = a + (j + 1) by omega]

theorem getElem_hostBytes (s : State) (a n j : Nat) (h : j < (s.hostBytes a n).length) :
    (s.hostBytes a n)[j] = s.hostByte (a + j) := by
  induction n generalizing a j with
  | zero => simp [State.hostBytes] at h
  | succ n ih =>
    cases j with
    | zero => simp [State.hostBytes]
    | succ j =>
      simp only [State.hostBytes, List.getElem_cons_succ]
      rw [ih, show a + 1 + j = a + (j + 1) by omega]

@[simp] theorem length_drawBytes (n : Nat) (d : Draws) : (Draws.bytes n d).1.length = n := by
  induction n generalizing d with
  | zero => rfl
  | succ n ih => simp [Draws.bytes, ih]

@[simp] theorem length_sample (s : State) (rs : List (Nat × Nat)) (a n : Nat) (d : Draws) :
    (sample s rs a n d).1.length = n := by
  induction n generalizing a d with
  | zero => rfl
  | succ n ih => simp only [sample]; split <;> simp [ih]

/-- With no race, `MemRead` takes the bytes of `HM` and makes no draw. -/
theorem sample_nil (s : State) (a n : Nat) (d : Draws) :
    sample s [] a n d = (s.hostBytes a n, d) := by
  induction n generalizing a d with
  | zero => rfl
  | succ n ih => simp [sample, isRaced, State.hostBytes, ih]

@[simp] theorem length_memReadBytes (p a n : Nat) (s : State) : (memReadBytes p a n s).length = n := by
  simp [memReadBytes]

@[simp] theorem length_readBytes (hit : Bool) (a n : Nat) (s : State) :
    (readBytes hit a n s).length = n := by
  unfold readBytes; split <;> simp

end Sys2Proof.Machine
end

