-- ==== Sys2Proof/Laws/Ops.lean ====
section
/-! SUPPORT. What each shared operation does to each field of the state and to each port, once: later
proofs cite these and do not unfold the operations. -/

namespace Sys2Proof.Machine

variable (s : State)

/-! `setPhase`. -/

@[simp] theorem setPhase_params (p : Nat) (ph : Phase) : (s.setPhase p ph).params = s.params := rfl
@[simp] theorem setPhase_attachState (p : Nat) (ph : Phase) : (s.setPhase p ph).attachState = s.attachState := rfl
@[simp] theorem setPhase_locked (p : Nat) (ph : Phase) : (s.setPhase p ph).locked = s.locked := rfl
@[simp] theorem setPhase_lockOwner (p : Nat) (ph : Phase) : (s.setPhase p ph).lockOwner = s.lockOwner := rfl
@[simp] theorem setPhase_rmValid (p : Nat) (ph : Phase) : (s.setPhase p ph).rmValid = s.rmValid := rfl
@[simp] theorem setPhase_settleCnt (p : Nat) (ph : Phase) : (s.setPhase p ph).settleCnt = s.settleCnt := rfl
@[simp] theorem setPhase_ports (p : Nat) (ph : Phase) : (s.setPhase p ph).ports = s.ports.set p { s.port p with ph := ph } := rfl
@[simp] theorem setPhase_busFullAddr (p : Nat) (ph : Phase) : (s.setPhase p ph).busFullAddr = s.busFullAddr := rfl
@[simp] theorem setPhase_devAddr (p : Nat) (ph : Phase) : (s.setPhase p ph).devAddr = s.devAddr := rfl
@[simp] theorem setPhase_disturbed (p : Nat) (ph : Phase) : (s.setPhase p ph).disturbed = s.disturbed := rfl
@[simp] theorem setPhase_bus (p : Nat) (ph : Phase) : (s.setPhase p ph).bus = s.bus := rfl
@[simp] theorem setPhase_eeprom (p : Nat) (ph : Phase) : (s.setPhase p ph).eeprom = s.eeprom := rfl
@[simp] theorem setPhase_wc (p : Nat) (ph : Phase) : (s.setPhase p ph).wc = s.wc := rfl
@[simp] theorem setPhase_host (p : Nat) (ph : Phase) : (s.setPhase p ph).host = s.host := rfl
@[simp] theorem setPhase_registered (p : Nat) (ph : Phase) : (s.setPhase p ph).registered = s.registered := rfl
@[simp] theorem setPhase_lingering (p : Nat) (ph : Phase) : (s.setPhase p ph).lingering = s.lingering := rfl
@[simp] theorem setPhase_seen (p : Nat) (ph : Phase) : (s.setPhase p ph).seen = s.seen := rfl
@[simp] theorem setPhase_log (p : Nat) (ph : Phase) : (s.setPhase p ph).log = s.log := rfl
@[simp] theorem setPhase_agenda (p : Nat) (ph : Phase) : (s.setPhase p ph).agenda = s.agenda := rfl
@[simp] theorem setPhase_sel (p : Nat) (ph : Phase) : (s.setPhase p ph).sel = s.sel := rfl
@[simp] theorem setPhase_choice (p : Nat) (ph : Phase) : (s.setPhase p ph).choice = s.choice := rfl
@[simp] theorem setPhase_draws (p : Nat) (ph : Phase) : (s.setPhase p ph).draws = s.draws := rfl

/-! `takeLock`. -/

@[simp] theorem takeLock_params (p : Nat) : (takeLock p s).params = s.params := rfl
@[simp] theorem takeLock_attachState (p : Nat) : (takeLock p s).attachState = s.attachState := rfl
@[simp] theorem takeLock_locked (p : Nat) : (takeLock p s).locked = true := rfl
@[simp] theorem takeLock_lockOwner (p : Nat) : (takeLock p s).lockOwner = BitVec.ofNat 8 p := rfl
@[simp] theorem takeLock_rmValid (p : Nat) : (takeLock p s).rmValid = s.rmValid := rfl
@[simp] theorem takeLock_settleCnt (p : Nat) : (takeLock p s).settleCnt = s.settleCnt := rfl
@[simp] theorem takeLock_ports (p : Nat) : (takeLock p s).ports = s.ports.set p { s.port p with ph := .active } := rfl
@[simp] theorem takeLock_busFullAddr (p : Nat) : (takeLock p s).busFullAddr = s.busFullAddr := rfl
@[simp] theorem takeLock_devAddr (p : Nat) : (takeLock p s).devAddr = s.devAddr := rfl
@[simp] theorem takeLock_disturbed (p : Nat) : (takeLock p s).disturbed = s.disturbed := rfl
@[simp] theorem takeLock_bus (p : Nat) : (takeLock p s).bus = s.bus := rfl
@[simp] theorem takeLock_eeprom (p : Nat) : (takeLock p s).eeprom = s.eeprom := rfl
@[simp] theorem takeLock_wc (p : Nat) : (takeLock p s).wc = s.wc := rfl
@[simp] theorem takeLock_host (p : Nat) : (takeLock p s).host = s.host := rfl
@[simp] theorem takeLock_registered (p : Nat) : (takeLock p s).registered = s.registered := rfl
@[simp] theorem takeLock_lingering (p : Nat) : (takeLock p s).lingering = s.lingering := rfl
@[simp] theorem takeLock_seen (p : Nat) : (takeLock p s).seen = s.seen := rfl
@[simp] theorem takeLock_log (p : Nat) : (takeLock p s).log = s.log := rfl
@[simp] theorem takeLock_agenda (p : Nat) : (takeLock p s).agenda = s.agenda := rfl
@[simp] theorem takeLock_sel (p : Nat) : (takeLock p s).sel = s.sel := rfl
@[simp] theorem takeLock_choice (p : Nat) : (takeLock p s).choice = s.choice := rfl
@[simp] theorem takeLock_draws (p : Nat) : (takeLock p s).draws = s.draws := rfl

/-! `release`. -/

@[simp] theorem release_params (p : Nat) : (release p s).params = s.params := by unfold release; split <;> simp_all [State.ownedBy]
@[simp] theorem release_attachState (p : Nat) : (release p s).attachState = s.attachState := by unfold release; split <;> simp_all [State.ownedBy]
@[simp] theorem release_locked (p : Nat) : (release p s).locked = (s.locked && !s.ownedBy p) := by unfold release; split <;> simp_all [State.ownedBy]
@[simp] theorem release_lockOwner (p : Nat) : (release p s).lockOwner = if s.ownedBy p then 0 else s.lockOwner := by unfold release; split <;> simp_all [State.ownedBy]
@[simp] theorem release_rmValid (p : Nat) : (release p s).rmValid = s.rmValid := by unfold release; split <;> simp_all [State.ownedBy]
@[simp] theorem release_settleCnt (p : Nat) : (release p s).settleCnt = s.settleCnt := by unfold release; split <;> simp_all [State.ownedBy]
@[simp] theorem release_ports (p : Nat) : (release p s).ports = s.ports := by unfold release; split <;> simp_all [State.ownedBy]
@[simp] theorem release_busFullAddr (p : Nat) : (release p s).busFullAddr = s.busFullAddr := by unfold release; split <;> simp_all [State.ownedBy]
@[simp] theorem release_devAddr (p : Nat) : (release p s).devAddr = s.devAddr := by unfold release; split <;> simp_all [State.ownedBy]
@[simp] theorem release_disturbed (p : Nat) : (release p s).disturbed = s.disturbed := by unfold release; split <;> simp_all [State.ownedBy]
@[simp] theorem release_bus (p : Nat) : (release p s).bus = s.bus := by unfold release; split <;> simp_all [State.ownedBy]
@[simp] theorem release_eeprom (p : Nat) : (release p s).eeprom = s.eeprom := by unfold release; split <;> simp_all [State.ownedBy]
@[simp] theorem release_wc (p : Nat) : (release p s).wc = s.wc := by unfold release; split <;> simp_all [State.ownedBy]
@[simp] theorem release_host (p : Nat) : (release p s).host = s.host := by unfold release; split <;> simp_all [State.ownedBy]
@[simp] theorem release_registered (p : Nat) : (release p s).registered = s.registered := by unfold release; split <;> simp_all [State.ownedBy]
@[simp] theorem release_lingering (p : Nat) : (release p s).lingering = s.lingering := by unfold release; split <;> simp_all [State.ownedBy]
@[simp] theorem release_seen (p : Nat) : (release p s).seen = s.seen := by unfold release; split <;> simp_all [State.ownedBy]
@[simp] theorem release_log (p : Nat) : (release p s).log = s.log := by unfold release; split <;> simp_all [State.ownedBy]
@[simp] theorem release_agenda (p : Nat) : (release p s).agenda = s.agenda := by unfold release; split <;> simp_all [State.ownedBy]
@[simp] theorem release_sel (p : Nat) : (release p s).sel = s.sel := by unfold release; split <;> simp_all [State.ownedBy]
@[simp] theorem release_choice (p : Nat) : (release p s).choice = s.choice := by unfold release; split <;> simp_all [State.ownedBy]
@[simp] theorem release_draws (p : Nat) : (release p s).draws = s.draws := by unfold release; split <;> simp_all [State.ownedBy]

/-! `raise`. -/

@[simp] theorem raise_params (p : Nat) (st : Status) (d : Word) : (raise p st d s).params = s.params := by simp [raise]
@[simp] theorem raise_attachState (p : Nat) (st : Status) (d : Word) : (raise p st d s).attachState = s.attachState := by simp [raise]
@[simp] theorem raise_locked (p : Nat) (st : Status) (d : Word) : (raise p st d s).locked = (s.locked && !s.ownedBy p) := by simp [raise]
@[simp] theorem raise_lockOwner (p : Nat) (st : Status) (d : Word) : (raise p st d s).lockOwner = if s.ownedBy p then 0 else s.lockOwner := by simp [raise]
@[simp] theorem raise_rmValid (p : Nat) (st : Status) (d : Word) : (raise p st d s).rmValid = s.rmValid := by simp [raise]
@[simp] theorem raise_settleCnt (p : Nat) (st : Status) (d : Word) : (raise p st d s).settleCnt = s.settleCnt := by simp [raise]
@[simp] theorem raise_ports (p : Nat) (st : Status) (d : Word) : (raise p st d s).ports = s.ports.set p { s.port p with ph := .idle, resps := (s.port p).resps ++ [respOf st d], raced := [] } := by simp [raise]
@[simp] theorem raise_busFullAddr (p : Nat) (st : Status) (d : Word) : (raise p st d s).busFullAddr = s.busFullAddr := by simp [raise]
@[simp] theorem raise_devAddr (p : Nat) (st : Status) (d : Word) : (raise p st d s).devAddr = s.devAddr := by simp [raise]
@[simp] theorem raise_disturbed (p : Nat) (st : Status) (d : Word) : (raise p st d s).disturbed = s.disturbed := by simp [raise]
@[simp] theorem raise_bus (p : Nat) (st : Status) (d : Word) : (raise p st d s).bus = s.bus := by simp [raise]
@[simp] theorem raise_eeprom (p : Nat) (st : Status) (d : Word) : (raise p st d s).eeprom = s.eeprom := by simp [raise]
@[simp] theorem raise_wc (p : Nat) (st : Status) (d : Word) : (raise p st d s).wc = s.wc := by simp [raise]
@[simp] theorem raise_host (p : Nat) (st : Status) (d : Word) : (raise p st d s).host = s.host := by simp [raise]
@[simp] theorem raise_registered (p : Nat) (st : Status) (d : Word) : (raise p st d s).registered = s.registered := by simp [raise]
@[simp] theorem raise_lingering (p : Nat) (st : Status) (d : Word) : (raise p st d s).lingering = s.lingering := by simp [raise]
@[simp] theorem raise_seen (p : Nat) (st : Status) (d : Word) : (raise p st d s).seen = s.seen := by simp [raise]
@[simp] theorem raise_log (p : Nat) (st : Status) (d : Word) : (raise p st d s).log = s.log := by simp [raise]
@[simp] theorem raise_agenda (p : Nat) (st : Status) (d : Word) : (raise p st d s).agenda = s.agenda := by simp [raise]
@[simp] theorem raise_sel (p : Nat) (st : Status) (d : Word) : (raise p st d s).sel = s.sel := by simp [raise]
@[simp] theorem raise_choice (p : Nat) (st : Status) (d : Word) : (raise p st d s).choice = s.choice := by simp [raise]
@[simp] theorem raise_draws (p : Nat) (st : Status) (d : Word) : (raise p st d s).draws = s.draws := by simp [raise]

/-! `latch`. -/

@[simp] theorem latch_params (p : Nat) (d : Latch) : (latch p d s).params = s.params := rfl
@[simp] theorem latch_attachState (p : Nat) (d : Latch) : (latch p d s).attachState = s.attachState := rfl
@[simp] theorem latch_locked (p : Nat) (d : Latch) : (latch p d s).locked = s.locked := rfl
@[simp] theorem latch_lockOwner (p : Nat) (d : Latch) : (latch p d s).lockOwner = s.lockOwner := rfl
@[simp] theorem latch_rmValid (p : Nat) (d : Latch) : (latch p d s).rmValid = s.rmValid := rfl
@[simp] theorem latch_settleCnt (p : Nat) (d : Latch) : (latch p d s).settleCnt = s.settleCnt := rfl
@[simp] theorem latch_ports (p : Nat) (d : Latch) : (latch p d s).ports = s.ports.set p { s.port p with d := d } := rfl
@[simp] theorem latch_busFullAddr (p : Nat) (d : Latch) : (latch p d s).busFullAddr = s.busFullAddr := rfl
@[simp] theorem latch_devAddr (p : Nat) (d : Latch) : (latch p d s).devAddr = s.devAddr := rfl
@[simp] theorem latch_disturbed (p : Nat) (d : Latch) : (latch p d s).disturbed = s.disturbed := rfl
@[simp] theorem latch_bus (p : Nat) (d : Latch) : (latch p d s).bus = s.bus := rfl
@[simp] theorem latch_eeprom (p : Nat) (d : Latch) : (latch p d s).eeprom = s.eeprom := rfl
@[simp] theorem latch_wc (p : Nat) (d : Latch) : (latch p d s).wc = s.wc := rfl
@[simp] theorem latch_host (p : Nat) (d : Latch) : (latch p d s).host = s.host := rfl
@[simp] theorem latch_registered (p : Nat) (d : Latch) : (latch p d s).registered = s.registered := rfl
@[simp] theorem latch_lingering (p : Nat) (d : Latch) : (latch p d s).lingering = s.lingering := rfl
@[simp] theorem latch_seen (p : Nat) (d : Latch) : (latch p d s).seen = s.seen := rfl
@[simp] theorem latch_log (p : Nat) (d : Latch) : (latch p d s).log = s.log := rfl
@[simp] theorem latch_agenda (p : Nat) (d : Latch) : (latch p d s).agenda = s.agenda := rfl
@[simp] theorem latch_sel (p : Nat) (d : Latch) : (latch p d s).sel = s.sel := rfl
@[simp] theorem latch_choice (p : Nat) (d : Latch) : (latch p d s).choice = s.choice := rfl
@[simp] theorem latch_draws (p : Nat) (d : Latch) : (latch p d s).draws = s.draws := rfl

/-! `markRaces`. -/

@[simp] theorem markRaces_params (p : Nat) : (markRaces p s).params = s.params := rfl
@[simp] theorem markRaces_attachState (p : Nat) : (markRaces p s).attachState = s.attachState := rfl
@[simp] theorem markRaces_locked (p : Nat) : (markRaces p s).locked = s.locked := rfl
@[simp] theorem markRaces_lockOwner (p : Nat) : (markRaces p s).lockOwner = s.lockOwner := rfl
@[simp] theorem markRaces_rmValid (p : Nat) : (markRaces p s).rmValid = s.rmValid := rfl
@[simp] theorem markRaces_settleCnt (p : Nat) : (markRaces p s).settleCnt = s.settleCnt := rfl
@[simp] theorem markRaces_busFullAddr (p : Nat) : (markRaces p s).busFullAddr = s.busFullAddr := rfl
@[simp] theorem markRaces_devAddr (p : Nat) : (markRaces p s).devAddr = s.devAddr := rfl
@[simp] theorem markRaces_disturbed (p : Nat) : (markRaces p s).disturbed = s.disturbed := rfl
@[simp] theorem markRaces_bus (p : Nat) : (markRaces p s).bus = s.bus := rfl
@[simp] theorem markRaces_eeprom (p : Nat) : (markRaces p s).eeprom = s.eeprom := rfl
@[simp] theorem markRaces_wc (p : Nat) : (markRaces p s).wc = s.wc := rfl
@[simp] theorem markRaces_host (p : Nat) : (markRaces p s).host = s.host := rfl
@[simp] theorem markRaces_registered (p : Nat) : (markRaces p s).registered = s.registered := rfl
@[simp] theorem markRaces_lingering (p : Nat) : (markRaces p s).lingering = s.lingering := rfl
@[simp] theorem markRaces_seen (p : Nat) : (markRaces p s).seen = s.seen := rfl
@[simp] theorem markRaces_log (p : Nat) : (markRaces p s).log = s.log := rfl
@[simp] theorem markRaces_agenda (p : Nat) : (markRaces p s).agenda = s.agenda := rfl
@[simp] theorem markRaces_sel (p : Nat) : (markRaces p s).sel = s.sel := rfl
@[simp] theorem markRaces_choice (p : Nat) : (markRaces p s).choice = s.choice := rfl
@[simp] theorem markRaces_draws (p : Nat) : (markRaces p s).draws = s.draws := rfl

/-! `memRead`. -/

@[simp] theorem memRead_params (p a n : Nat) : (memRead p a n s).params = s.params := rfl
@[simp] theorem memRead_attachState (p a n : Nat) : (memRead p a n s).attachState = s.attachState := rfl
@[simp] theorem memRead_locked (p a n : Nat) : (memRead p a n s).locked = s.locked := rfl
@[simp] theorem memRead_lockOwner (p a n : Nat) : (memRead p a n s).lockOwner = s.lockOwner := rfl
@[simp] theorem memRead_rmValid (p a n : Nat) : (memRead p a n s).rmValid = s.rmValid := rfl
@[simp] theorem memRead_settleCnt (p a n : Nat) : (memRead p a n s).settleCnt = s.settleCnt := rfl
@[simp] theorem memRead_ports (p a n : Nat) : (memRead p a n s).ports = s.ports := rfl
@[simp] theorem memRead_busFullAddr (p a n : Nat) : (memRead p a n s).busFullAddr = s.busFullAddr := rfl
@[simp] theorem memRead_devAddr (p a n : Nat) : (memRead p a n s).devAddr = s.devAddr := rfl
@[simp] theorem memRead_disturbed (p a n : Nat) : (memRead p a n s).disturbed = s.disturbed := rfl
@[simp] theorem memRead_bus (p a n : Nat) : (memRead p a n s).bus = s.bus := rfl
@[simp] theorem memRead_eeprom (p a n : Nat) : (memRead p a n s).eeprom = s.eeprom := rfl
@[simp] theorem memRead_wc (p a n : Nat) : (memRead p a n s).wc = s.wc := rfl
@[simp] theorem memRead_host (p a n : Nat) : (memRead p a n s).host = s.host := rfl
@[simp] theorem memRead_registered (p a n : Nat) : (memRead p a n s).registered = s.registered := rfl
@[simp] theorem memRead_lingering (p a n : Nat) : (memRead p a n s).lingering = s.lingering := rfl
@[simp] theorem memRead_seen (p a n : Nat) : (memRead p a n s).seen = s.seen := rfl
@[simp] theorem memRead_log (p a n : Nat) : (memRead p a n s).log = s.log := rfl
@[simp] theorem memRead_agenda (p a n : Nat) : (memRead p a n s).agenda = s.agenda := rfl
@[simp] theorem memRead_sel (p a n : Nat) : (memRead p a n s).sel = s.sel := rfl
@[simp] theorem memRead_choice (p a n : Nat) : (memRead p a n s).choice = s.choice := rfl
@[simp] theorem memRead_draws (p a n : Nat) : (memRead p a n s).draws = (sample s (s.port p).raced a n s.draws).2 := rfl

/-! `memWrite`. -/

@[simp] theorem memWrite_params (p a : Nat) (v : List Byte) : (memWrite p a v s).params = s.params := rfl
@[simp] theorem memWrite_attachState (p a : Nat) (v : List Byte) : (memWrite p a v s).attachState = s.attachState := rfl
@[simp] theorem memWrite_locked (p a : Nat) (v : List Byte) : (memWrite p a v s).locked = s.locked := rfl
@[simp] theorem memWrite_lockOwner (p a : Nat) (v : List Byte) : (memWrite p a v s).lockOwner = s.lockOwner := rfl
@[simp] theorem memWrite_rmValid (p a : Nat) (v : List Byte) : (memWrite p a v s).rmValid = s.rmValid := rfl
@[simp] theorem memWrite_settleCnt (p a : Nat) (v : List Byte) : (memWrite p a v s).settleCnt = s.settleCnt := rfl
@[simp] theorem memWrite_ports (p a : Nat) (v : List Byte) : (memWrite p a v s).ports = s.ports := rfl
@[simp] theorem memWrite_busFullAddr (p a : Nat) (v : List Byte) : (memWrite p a v s).busFullAddr = s.busFullAddr := rfl
@[simp] theorem memWrite_devAddr (p a : Nat) (v : List Byte) : (memWrite p a v s).devAddr = s.devAddr := rfl
@[simp] theorem memWrite_disturbed (p a : Nat) (v : List Byte) : (memWrite p a v s).disturbed = s.disturbed := rfl
@[simp] theorem memWrite_bus (p a : Nat) (v : List Byte) : (memWrite p a v s).bus = s.bus := rfl
@[simp] theorem memWrite_eeprom (p a : Nat) (v : List Byte) : (memWrite p a v s).eeprom = s.eeprom := rfl
@[simp] theorem memWrite_wc (p a : Nat) (v : List Byte) : (memWrite p a v s).wc = s.wc := rfl
@[simp] theorem memWrite_host (p a : Nat) (v : List Byte) : (memWrite p a v s).host = (fill (raceCells (s.port p).raced a v) s.host s.draws).1 := rfl
@[simp] theorem memWrite_registered (p a : Nat) (v : List Byte) : (memWrite p a v s).registered = s.registered := rfl
@[simp] theorem memWrite_lingering (p a : Nat) (v : List Byte) : (memWrite p a v s).lingering = s.lingering := rfl
@[simp] theorem memWrite_seen (p a : Nat) (v : List Byte) : (memWrite p a v s).seen = s.seen := rfl
@[simp] theorem memWrite_log (p a : Nat) (v : List Byte) : (memWrite p a v s).log = s.log := rfl
@[simp] theorem memWrite_agenda (p a : Nat) (v : List Byte) : (memWrite p a v s).agenda = s.agenda := rfl
@[simp] theorem memWrite_sel (p a : Nat) (v : List Byte) : (memWrite p a v s).sel = s.sel := rfl
@[simp] theorem memWrite_choice (p a : Nat) (v : List Byte) : (memWrite p a v s).choice = s.choice := rfl
@[simp] theorem memWrite_draws (p a : Nat) (v : List Byte) : (memWrite p a v s).draws = (fill (raceCells (s.port p).raced a v) s.host s.draws).2 := rfl

/-! `initCursor`. -/

@[simp] theorem initCursor_params (p : Nat) : (initCursor p s).params = s.params := rfl
@[simp] theorem initCursor_attachState (p : Nat) : (initCursor p s).attachState = s.attachState := rfl
@[simp] theorem initCursor_locked (p : Nat) : (initCursor p s).locked = s.locked := rfl
@[simp] theorem initCursor_lockOwner (p : Nat) : (initCursor p s).lockOwner = s.lockOwner := rfl
@[simp] theorem initCursor_rmValid (p : Nat) : (initCursor p s).rmValid = s.rmValid := rfl
@[simp] theorem initCursor_settleCnt (p : Nat) : (initCursor p s).settleCnt = s.settleCnt := rfl
@[simp] theorem initCursor_busFullAddr (p : Nat) : (initCursor p s).busFullAddr = s.busFullAddr := rfl
@[simp] theorem initCursor_devAddr (p : Nat) : (initCursor p s).devAddr = s.devAddr := rfl
@[simp] theorem initCursor_disturbed (p : Nat) : (initCursor p s).disturbed = s.disturbed := rfl
@[simp] theorem initCursor_bus (p : Nat) : (initCursor p s).bus = s.bus := rfl
@[simp] theorem initCursor_eeprom (p : Nat) : (initCursor p s).eeprom = s.eeprom := rfl
@[simp] theorem initCursor_wc (p : Nat) : (initCursor p s).wc = s.wc := rfl
@[simp] theorem initCursor_host (p : Nat) : (initCursor p s).host = s.host := rfl
@[simp] theorem initCursor_registered (p : Nat) : (initCursor p s).registered = s.registered := rfl
@[simp] theorem initCursor_lingering (p : Nat) : (initCursor p s).lingering = s.lingering := rfl
@[simp] theorem initCursor_seen (p : Nat) : (initCursor p s).seen = s.seen := rfl
@[simp] theorem initCursor_log (p : Nat) : (initCursor p s).log = s.log := rfl
@[simp] theorem initCursor_agenda (p : Nat) : (initCursor p s).agenda = s.agenda := rfl
@[simp] theorem initCursor_sel (p : Nat) : (initCursor p s).sel = s.sel := rfl
@[simp] theorem initCursor_choice (p : Nat) : (initCursor p s).choice = s.choice := rfl
@[simp] theorem initCursor_draws (p : Nat) : (initCursor p s).draws = s.draws := rfl

/-! `advance`. -/

@[simp] theorem advance_params (p : Nat) : (advance p s).params = s.params := rfl
@[simp] theorem advance_attachState (p : Nat) : (advance p s).attachState = s.attachState := rfl
@[simp] theorem advance_locked (p : Nat) : (advance p s).locked = s.locked := rfl
@[simp] theorem advance_lockOwner (p : Nat) : (advance p s).lockOwner = s.lockOwner := rfl
@[simp] theorem advance_rmValid (p : Nat) : (advance p s).rmValid = s.rmValid := rfl
@[simp] theorem advance_settleCnt (p : Nat) : (advance p s).settleCnt = s.settleCnt := rfl
@[simp] theorem advance_busFullAddr (p : Nat) : (advance p s).busFullAddr = s.busFullAddr := rfl
@[simp] theorem advance_devAddr (p : Nat) : (advance p s).devAddr = s.devAddr := rfl
@[simp] theorem advance_disturbed (p : Nat) : (advance p s).disturbed = s.disturbed := rfl
@[simp] theorem advance_bus (p : Nat) : (advance p s).bus = s.bus := rfl
@[simp] theorem advance_eeprom (p : Nat) : (advance p s).eeprom = s.eeprom := rfl
@[simp] theorem advance_wc (p : Nat) : (advance p s).wc = s.wc := rfl
@[simp] theorem advance_host (p : Nat) : (advance p s).host = s.host := rfl
@[simp] theorem advance_registered (p : Nat) : (advance p s).registered = s.registered := rfl
@[simp] theorem advance_lingering (p : Nat) : (advance p s).lingering = s.lingering := rfl
@[simp] theorem advance_seen (p : Nat) : (advance p s).seen = s.seen := rfl
@[simp] theorem advance_log (p : Nat) : (advance p s).log = s.log := rfl
@[simp] theorem advance_agenda (p : Nat) : (advance p s).agenda = s.agenda := rfl
@[simp] theorem advance_sel (p : Nat) : (advance p s).sel = s.sel := rfl
@[simp] theorem advance_choice (p : Nat) : (advance p s).choice = s.choice := rfl
@[simp] theorem advance_draws (p : Nat) : (advance p s).draws = s.draws := rfl

/-! `loadSettle`. -/

@[simp] theorem loadSettle_params (p : Nat) : (loadSettle p s).params = s.params := rfl
@[simp] theorem loadSettle_attachState (p : Nat) : (loadSettle p s).attachState = s.attachState := rfl
@[simp] theorem loadSettle_locked (p : Nat) : (loadSettle p s).locked = s.locked := rfl
@[simp] theorem loadSettle_lockOwner (p : Nat) : (loadSettle p s).lockOwner = s.lockOwner := rfl
@[simp] theorem loadSettle_rmValid (p : Nat) : (loadSettle p s).rmValid = s.rmValid := rfl
@[simp] theorem loadSettle_settleCnt (p : Nat) : (loadSettle p s).settleCnt = settleDraw s.params s.choice := rfl
@[simp] theorem loadSettle_ports (p : Nat) : (loadSettle p s).ports = s.ports.set p { s.port p with ph := .settle } := rfl
@[simp] theorem loadSettle_busFullAddr (p : Nat) : (loadSettle p s).busFullAddr = s.busFullAddr := rfl
@[simp] theorem loadSettle_devAddr (p : Nat) : (loadSettle p s).devAddr = s.devAddr := rfl
@[simp] theorem loadSettle_disturbed (p : Nat) : (loadSettle p s).disturbed = s.disturbed := rfl
@[simp] theorem loadSettle_bus (p : Nat) : (loadSettle p s).bus = s.bus := rfl
@[simp] theorem loadSettle_eeprom (p : Nat) : (loadSettle p s).eeprom = s.eeprom := rfl
@[simp] theorem loadSettle_wc (p : Nat) : (loadSettle p s).wc = s.wc := rfl
@[simp] theorem loadSettle_host (p : Nat) : (loadSettle p s).host = s.host := rfl
@[simp] theorem loadSettle_registered (p : Nat) : (loadSettle p s).registered = s.registered := rfl
@[simp] theorem loadSettle_lingering (p : Nat) : (loadSettle p s).lingering = s.lingering := rfl
@[simp] theorem loadSettle_seen (p : Nat) : (loadSettle p s).seen = s.seen := rfl
@[simp] theorem loadSettle_log (p : Nat) : (loadSettle p s).log = s.log ++ [.settle p (settleDraw s.params s.choice)] := rfl
@[simp] theorem loadSettle_agenda (p : Nat) : (loadSettle p s).agenda = s.agenda := rfl
@[simp] theorem loadSettle_sel (p : Nat) : (loadSettle p s).sel = s.sel := rfl
@[simp] theorem loadSettle_choice (p : Nat) : (loadSettle p s).choice = s.choice := rfl
@[simp] theorem loadSettle_draws (p : Nat) : (loadSettle p s).draws = s.draws := rfl

/-! `issue`. -/

@[simp] theorem issue_params (p : Nat) (cmd : BusCmd) : (issue p cmd s).params = s.params := rfl
@[simp] theorem issue_attachState (p : Nat) (cmd : BusCmd) : (issue p cmd s).attachState = s.attachState := rfl
@[simp] theorem issue_locked (p : Nat) (cmd : BusCmd) : (issue p cmd s).locked = s.locked := rfl
@[simp] theorem issue_lockOwner (p : Nat) (cmd : BusCmd) : (issue p cmd s).lockOwner = s.lockOwner := rfl
@[simp] theorem issue_rmValid (p : Nat) (cmd : BusCmd) : (issue p cmd s).rmValid = s.rmValid := rfl
@[simp] theorem issue_settleCnt (p : Nat) (cmd : BusCmd) : (issue p cmd s).settleCnt = s.settleCnt := rfl
@[simp] theorem issue_ports (p : Nat) (cmd : BusCmd) : (issue p cmd s).ports = s.ports.set p { s.port p with ph := .bus } := rfl
@[simp] theorem issue_busFullAddr (p : Nat) (cmd : BusCmd) : (issue p cmd s).busFullAddr = s.busFullAddr := rfl
@[simp] theorem issue_devAddr (p : Nat) (cmd : BusCmd) : (issue p cmd s).devAddr = s.devAddr := rfl
@[simp] theorem issue_disturbed (p : Nat) (cmd : BusCmd) : (issue p cmd s).disturbed = s.disturbed := rfl
@[simp] theorem issue_bus (p : Nat) (cmd : BusCmd) : (issue p cmd s).bus = some ⟨p, s.devAddr, cmd, s.wc.isBusy⟩ := rfl
@[simp] theorem issue_eeprom (p : Nat) (cmd : BusCmd) : (issue p cmd s).eeprom = s.eeprom := rfl
@[simp] theorem issue_wc (p : Nat) (cmd : BusCmd) : (issue p cmd s).wc = s.wc.corrupt := rfl
@[simp] theorem issue_host (p : Nat) (cmd : BusCmd) : (issue p cmd s).host = s.host := rfl
@[simp] theorem issue_registered (p : Nat) (cmd : BusCmd) : (issue p cmd s).registered = s.registered := rfl
@[simp] theorem issue_lingering (p : Nat) (cmd : BusCmd) : (issue p cmd s).lingering = s.lingering := rfl
@[simp] theorem issue_seen (p : Nat) (cmd : BusCmd) : (issue p cmd s).seen = s.seen := rfl
@[simp] theorem issue_log (p : Nat) (cmd : BusCmd) : (issue p cmd s).log = s.log := rfl
@[simp] theorem issue_agenda (p : Nat) (cmd : BusCmd) : (issue p cmd s).agenda = s.agenda := rfl
@[simp] theorem issue_sel (p : Nat) (cmd : BusCmd) : (issue p cmd s).sel = s.sel := rfl
@[simp] theorem issue_choice (p : Nat) (cmd : BusCmd) : (issue p cmd s).choice = s.choice := rfl
@[simp] theorem issue_draws (p : Nat) (cmd : BusCmd) : (issue p cmd s).draws = s.draws := rfl

/-! `startCycle`. -/

@[simp] theorem startCycle_params (t : Nat) (cs : List (Nat × Option Byte)) : (startCycle t cs s).params = s.params := by unfold startCycle; split <;> simp
@[simp] theorem startCycle_attachState (t : Nat) (cs : List (Nat × Option Byte)) : (startCycle t cs s).attachState = s.attachState := by unfold startCycle; split <;> simp
@[simp] theorem startCycle_locked (t : Nat) (cs : List (Nat × Option Byte)) : (startCycle t cs s).locked = s.locked := by unfold startCycle; split <;> simp
@[simp] theorem startCycle_lockOwner (t : Nat) (cs : List (Nat × Option Byte)) : (startCycle t cs s).lockOwner = s.lockOwner := by unfold startCycle; split <;> simp
@[simp] theorem startCycle_rmValid (t : Nat) (cs : List (Nat × Option Byte)) : (startCycle t cs s).rmValid = s.rmValid := by unfold startCycle; split <;> simp
@[simp] theorem startCycle_settleCnt (t : Nat) (cs : List (Nat × Option Byte)) : (startCycle t cs s).settleCnt = s.settleCnt := by unfold startCycle; split <;> simp
@[simp] theorem startCycle_ports (t : Nat) (cs : List (Nat × Option Byte)) : (startCycle t cs s).ports = s.ports := by unfold startCycle; split <;> simp
@[simp] theorem startCycle_busFullAddr (t : Nat) (cs : List (Nat × Option Byte)) : (startCycle t cs s).busFullAddr = s.busFullAddr := by unfold startCycle; split <;> simp
@[simp] theorem startCycle_devAddr (t : Nat) (cs : List (Nat × Option Byte)) : (startCycle t cs s).devAddr = s.devAddr := by unfold startCycle; split <;> simp
@[simp] theorem startCycle_disturbed (t : Nat) (cs : List (Nat × Option Byte)) : (startCycle t cs s).disturbed = s.disturbed := by unfold startCycle; split <;> simp
@[simp] theorem startCycle_bus (t : Nat) (cs : List (Nat × Option Byte)) : (startCycle t cs s).bus = s.bus := by unfold startCycle; split <;> simp
@[simp] theorem startCycle_host (t : Nat) (cs : List (Nat × Option Byte)) : (startCycle t cs s).host = s.host := by unfold startCycle; split <;> simp
@[simp] theorem startCycle_registered (t : Nat) (cs : List (Nat × Option Byte)) : (startCycle t cs s).registered = s.registered := by unfold startCycle; split <;> simp
@[simp] theorem startCycle_lingering (t : Nat) (cs : List (Nat × Option Byte)) : (startCycle t cs s).lingering = s.lingering := by unfold startCycle; split <;> simp
@[simp] theorem startCycle_seen (t : Nat) (cs : List (Nat × Option Byte)) : (startCycle t cs s).seen = s.seen := by unfold startCycle; split <;> simp
@[simp] theorem startCycle_log (t : Nat) (cs : List (Nat × Option Byte)) : (startCycle t cs s).log = s.log := by unfold startCycle; split <;> simp
@[simp] theorem startCycle_agenda (t : Nat) (cs : List (Nat × Option Byte)) : (startCycle t cs s).agenda = s.agenda := by unfold startCycle; split <;> simp
@[simp] theorem startCycle_sel (t : Nat) (cs : List (Nat × Option Byte)) : (startCycle t cs s).sel = s.sel := by unfold startCycle; split <;> simp
@[simp] theorem startCycle_choice (t : Nat) (cs : List (Nat × Option Byte)) : (startCycle t cs s).choice = s.choice := by unfold startCycle; split <;> simp

/-! `maybeCycle`. -/

@[simp] theorem maybeCycle_params (r : Nat × Nat) (c : Choice) : (maybeCycle r c s).params = s.params := by unfold maybeCycle; (repeat' split) <;> rfl
@[simp] theorem maybeCycle_attachState (r : Nat × Nat) (c : Choice) : (maybeCycle r c s).attachState = s.attachState := by unfold maybeCycle; (repeat' split) <;> rfl
@[simp] theorem maybeCycle_locked (r : Nat × Nat) (c : Choice) : (maybeCycle r c s).locked = s.locked := by unfold maybeCycle; (repeat' split) <;> rfl
@[simp] theorem maybeCycle_lockOwner (r : Nat × Nat) (c : Choice) : (maybeCycle r c s).lockOwner = s.lockOwner := by unfold maybeCycle; (repeat' split) <;> rfl
@[simp] theorem maybeCycle_rmValid (r : Nat × Nat) (c : Choice) : (maybeCycle r c s).rmValid = s.rmValid := by unfold maybeCycle; (repeat' split) <;> rfl
@[simp] theorem maybeCycle_settleCnt (r : Nat × Nat) (c : Choice) : (maybeCycle r c s).settleCnt = s.settleCnt := by unfold maybeCycle; (repeat' split) <;> rfl
@[simp] theorem maybeCycle_ports (r : Nat × Nat) (c : Choice) : (maybeCycle r c s).ports = s.ports := by unfold maybeCycle; (repeat' split) <;> rfl
@[simp] theorem maybeCycle_busFullAddr (r : Nat × Nat) (c : Choice) : (maybeCycle r c s).busFullAddr = s.busFullAddr := by unfold maybeCycle; (repeat' split) <;> rfl
@[simp] theorem maybeCycle_devAddr (r : Nat × Nat) (c : Choice) : (maybeCycle r c s).devAddr = s.devAddr := by unfold maybeCycle; (repeat' split) <;> rfl
@[simp] theorem maybeCycle_disturbed (r : Nat × Nat) (c : Choice) : (maybeCycle r c s).disturbed = s.disturbed := by unfold maybeCycle; (repeat' split) <;> rfl
@[simp] theorem maybeCycle_bus (r : Nat × Nat) (c : Choice) : (maybeCycle r c s).bus = s.bus := by unfold maybeCycle; (repeat' split) <;> rfl
@[simp] theorem maybeCycle_eeprom (r : Nat × Nat) (c : Choice) : (maybeCycle r c s).eeprom = s.eeprom := by unfold maybeCycle; (repeat' split) <;> rfl
@[simp] theorem maybeCycle_host (r : Nat × Nat) (c : Choice) : (maybeCycle r c s).host = s.host := by unfold maybeCycle; (repeat' split) <;> rfl
@[simp] theorem maybeCycle_registered (r : Nat × Nat) (c : Choice) : (maybeCycle r c s).registered = s.registered := by unfold maybeCycle; (repeat' split) <;> rfl
@[simp] theorem maybeCycle_lingering (r : Nat × Nat) (c : Choice) : (maybeCycle r c s).lingering = s.lingering := by unfold maybeCycle; (repeat' split) <;> rfl
@[simp] theorem maybeCycle_seen (r : Nat × Nat) (c : Choice) : (maybeCycle r c s).seen = s.seen := by unfold maybeCycle; (repeat' split) <;> rfl
@[simp] theorem maybeCycle_log (r : Nat × Nat) (c : Choice) : (maybeCycle r c s).log = s.log := by unfold maybeCycle; (repeat' split) <;> rfl
@[simp] theorem maybeCycle_agenda (r : Nat × Nat) (c : Choice) : (maybeCycle r c s).agenda = s.agenda := by unfold maybeCycle; (repeat' split) <;> rfl
@[simp] theorem maybeCycle_sel (r : Nat × Nat) (c : Choice) : (maybeCycle r c s).sel = s.sel := by unfold maybeCycle; (repeat' split) <;> rfl
@[simp] theorem maybeCycle_choice (r : Nat × Nat) (c : Choice) : (maybeCycle r c s).choice = s.choice := by unfold maybeCycle; (repeat' split) <;> rfl
@[simp] theorem maybeCycle_draws (r : Nat × Nat) (c : Choice) : (maybeCycle r c s).draws = s.draws := by unfold maybeCycle; (repeat' split) <;> rfl

/-! `havoc`. -/

@[simp] theorem havoc_params (r : Nat × Nat) : (havoc r s).params = s.params := rfl
@[simp] theorem havoc_attachState (r : Nat × Nat) : (havoc r s).attachState = s.attachState := rfl
@[simp] theorem havoc_locked (r : Nat × Nat) : (havoc r s).locked = s.locked := rfl
@[simp] theorem havoc_lockOwner (r : Nat × Nat) : (havoc r s).lockOwner = s.lockOwner := rfl
@[simp] theorem havoc_rmValid (r : Nat × Nat) : (havoc r s).rmValid = s.rmValid := rfl
@[simp] theorem havoc_settleCnt (r : Nat × Nat) : (havoc r s).settleCnt = s.settleCnt := rfl
@[simp] theorem havoc_ports (r : Nat × Nat) : (havoc r s).ports = s.ports := rfl
@[simp] theorem havoc_busFullAddr (r : Nat × Nat) : (havoc r s).busFullAddr = s.busFullAddr := rfl
@[simp] theorem havoc_devAddr (r : Nat × Nat) : (havoc r s).devAddr = s.devAddr := rfl
@[simp] theorem havoc_disturbed (r : Nat × Nat) : (havoc r s).disturbed = s.disturbed := rfl
@[simp] theorem havoc_bus (r : Nat × Nat) : (havoc r s).bus = s.bus := rfl
@[simp] theorem havoc_wc (r : Nat × Nat) : (havoc r s).wc = s.wc := rfl
@[simp] theorem havoc_host (r : Nat × Nat) : (havoc r s).host = s.host := rfl
@[simp] theorem havoc_registered (r : Nat × Nat) : (havoc r s).registered = s.registered := rfl
@[simp] theorem havoc_lingering (r : Nat × Nat) : (havoc r s).lingering = s.lingering := rfl
@[simp] theorem havoc_seen (r : Nat × Nat) : (havoc r s).seen = s.seen := rfl
@[simp] theorem havoc_log (r : Nat × Nat) : (havoc r s).log = s.log := rfl
@[simp] theorem havoc_agenda (r : Nat × Nat) : (havoc r s).agenda = s.agenda := rfl
@[simp] theorem havoc_sel (r : Nat × Nat) : (havoc r s).sel = s.sel := rfl
@[simp] theorem havoc_choice (r : Nat × Nat) : (havoc r s).choice = s.choice := rfl

/-! `failedWrite`. -/

@[simp] theorem failedWrite_params (a n : Nat) (c : Choice) : (failedWrite a n c s).params = s.params := by simp [failedWrite]
@[simp] theorem failedWrite_attachState (a n : Nat) (c : Choice) : (failedWrite a n c s).attachState = s.attachState := by simp [failedWrite]
@[simp] theorem failedWrite_locked (a n : Nat) (c : Choice) : (failedWrite a n c s).locked = s.locked := by simp [failedWrite]
@[simp] theorem failedWrite_lockOwner (a n : Nat) (c : Choice) : (failedWrite a n c s).lockOwner = s.lockOwner := by simp [failedWrite]
@[simp] theorem failedWrite_rmValid (a n : Nat) (c : Choice) : (failedWrite a n c s).rmValid = s.rmValid := by simp [failedWrite]
@[simp] theorem failedWrite_settleCnt (a n : Nat) (c : Choice) : (failedWrite a n c s).settleCnt = s.settleCnt := by simp [failedWrite]
@[simp] theorem failedWrite_ports (a n : Nat) (c : Choice) : (failedWrite a n c s).ports = s.ports := by simp [failedWrite]
@[simp] theorem failedWrite_busFullAddr (a n : Nat) (c : Choice) : (failedWrite a n c s).busFullAddr = s.busFullAddr := by simp [failedWrite]
@[simp] theorem failedWrite_devAddr (a n : Nat) (c : Choice) : (failedWrite a n c s).devAddr = s.devAddr := by simp [failedWrite]
@[simp] theorem failedWrite_disturbed (a n : Nat) (c : Choice) : (failedWrite a n c s).disturbed = s.disturbed := by simp [failedWrite]
@[simp] theorem failedWrite_bus (a n : Nat) (c : Choice) : (failedWrite a n c s).bus = s.bus := by simp [failedWrite]
@[simp] theorem failedWrite_host (a n : Nat) (c : Choice) : (failedWrite a n c s).host = s.host := by simp [failedWrite]
@[simp] theorem failedWrite_registered (a n : Nat) (c : Choice) : (failedWrite a n c s).registered = s.registered := by simp [failedWrite]
@[simp] theorem failedWrite_lingering (a n : Nat) (c : Choice) : (failedWrite a n c s).lingering = s.lingering := by simp [failedWrite]
@[simp] theorem failedWrite_seen (a n : Nat) (c : Choice) : (failedWrite a n c s).seen = s.seen := by simp [failedWrite]
@[simp] theorem failedWrite_log (a n : Nat) (c : Choice) : (failedWrite a n c s).log = s.log := by simp [failedWrite]
@[simp] theorem failedWrite_agenda (a n : Nat) (c : Choice) : (failedWrite a n c s).agenda = s.agenda := by simp [failedWrite]
@[simp] theorem failedWrite_sel (a n : Nat) (c : Choice) : (failedWrite a n c s).sel = s.sel := by simp [failedWrite]
@[simp] theorem failedWrite_choice (a n : Nat) (c : Choice) : (failedWrite a n c s).choice = s.choice := by simp [failedWrite]

/-! `okWrite`. -/

@[simp] theorem okWrite_params (hit : Bool) (a : Nat) (b : List Byte) : (okWrite hit a b s).params = s.params := by unfold okWrite; (repeat' split) <;> simp
@[simp] theorem okWrite_attachState (hit : Bool) (a : Nat) (b : List Byte) : (okWrite hit a b s).attachState = s.attachState := by unfold okWrite; (repeat' split) <;> simp
@[simp] theorem okWrite_locked (hit : Bool) (a : Nat) (b : List Byte) : (okWrite hit a b s).locked = s.locked := by unfold okWrite; (repeat' split) <;> simp
@[simp] theorem okWrite_lockOwner (hit : Bool) (a : Nat) (b : List Byte) : (okWrite hit a b s).lockOwner = s.lockOwner := by unfold okWrite; (repeat' split) <;> simp
@[simp] theorem okWrite_rmValid (hit : Bool) (a : Nat) (b : List Byte) : (okWrite hit a b s).rmValid = s.rmValid := by unfold okWrite; (repeat' split) <;> simp
@[simp] theorem okWrite_settleCnt (hit : Bool) (a : Nat) (b : List Byte) : (okWrite hit a b s).settleCnt = s.settleCnt := by unfold okWrite; (repeat' split) <;> simp
@[simp] theorem okWrite_ports (hit : Bool) (a : Nat) (b : List Byte) : (okWrite hit a b s).ports = s.ports := by unfold okWrite; (repeat' split) <;> simp
@[simp] theorem okWrite_busFullAddr (hit : Bool) (a : Nat) (b : List Byte) : (okWrite hit a b s).busFullAddr = s.busFullAddr := by unfold okWrite; (repeat' split) <;> simp
@[simp] theorem okWrite_devAddr (hit : Bool) (a : Nat) (b : List Byte) : (okWrite hit a b s).devAddr = s.devAddr := by unfold okWrite; (repeat' split) <;> simp
@[simp] theorem okWrite_disturbed (hit : Bool) (a : Nat) (b : List Byte) : (okWrite hit a b s).disturbed = s.disturbed := by unfold okWrite; (repeat' split) <;> simp
@[simp] theorem okWrite_bus (hit : Bool) (a : Nat) (b : List Byte) : (okWrite hit a b s).bus = s.bus := by unfold okWrite; (repeat' split) <;> simp
@[simp] theorem okWrite_host (hit : Bool) (a : Nat) (b : List Byte) : (okWrite hit a b s).host = s.host := by unfold okWrite; (repeat' split) <;> simp
@[simp] theorem okWrite_registered (hit : Bool) (a : Nat) (b : List Byte) : (okWrite hit a b s).registered = s.registered := by unfold okWrite; (repeat' split) <;> simp
@[simp] theorem okWrite_lingering (hit : Bool) (a : Nat) (b : List Byte) : (okWrite hit a b s).lingering = s.lingering := by unfold okWrite; (repeat' split) <;> simp
@[simp] theorem okWrite_seen (hit : Bool) (a : Nat) (b : List Byte) : (okWrite hit a b s).seen = s.seen := by unfold okWrite; (repeat' split) <;> simp
@[simp] theorem okWrite_log (hit : Bool) (a : Nat) (b : List Byte) : (okWrite hit a b s).log = s.log := by unfold okWrite; (repeat' split) <;> simp
@[simp] theorem okWrite_agenda (hit : Bool) (a : Nat) (b : List Byte) : (okWrite hit a b s).agenda = s.agenda := by unfold okWrite; (repeat' split) <;> simp
@[simp] theorem okWrite_sel (hit : Bool) (a : Nat) (b : List Byte) : (okWrite hit a b s).sel = s.sel := by unfold okWrite; (repeat' split) <;> simp
@[simp] theorem okWrite_choice (hit : Bool) (a : Nat) (b : List Byte) : (okWrite hit a b s).choice = s.choice := by unfold okWrite; (repeat' split) <;> simp

/-! `readEffect`. -/

@[simp] theorem readEffect_params (a n : Nat) : (readEffect a n s).params = s.params := by unfold readEffect; split <;> simp
@[simp] theorem readEffect_attachState (a n : Nat) : (readEffect a n s).attachState = s.attachState := by unfold readEffect; split <;> simp
@[simp] theorem readEffect_locked (a n : Nat) : (readEffect a n s).locked = s.locked := by unfold readEffect; split <;> simp
@[simp] theorem readEffect_lockOwner (a n : Nat) : (readEffect a n s).lockOwner = s.lockOwner := by unfold readEffect; split <;> simp
@[simp] theorem readEffect_rmValid (a n : Nat) : (readEffect a n s).rmValid = s.rmValid := by unfold readEffect; split <;> simp
@[simp] theorem readEffect_settleCnt (a n : Nat) : (readEffect a n s).settleCnt = s.settleCnt := by unfold readEffect; split <;> simp
@[simp] theorem readEffect_ports (a n : Nat) : (readEffect a n s).ports = s.ports := by unfold readEffect; split <;> simp
@[simp] theorem readEffect_busFullAddr (a n : Nat) : (readEffect a n s).busFullAddr = s.busFullAddr := by unfold readEffect; split <;> simp
@[simp] theorem readEffect_devAddr (a n : Nat) : (readEffect a n s).devAddr = s.devAddr := by unfold readEffect; split <;> simp
@[simp] theorem readEffect_disturbed (a n : Nat) : (readEffect a n s).disturbed = s.disturbed := by unfold readEffect; split <;> simp
@[simp] theorem readEffect_bus (a n : Nat) : (readEffect a n s).bus = s.bus := by unfold readEffect; split <;> simp
@[simp] theorem readEffect_wc (a n : Nat) : (readEffect a n s).wc = s.wc := by unfold readEffect; split <;> simp
@[simp] theorem readEffect_host (a n : Nat) : (readEffect a n s).host = s.host := by unfold readEffect; split <;> simp
@[simp] theorem readEffect_registered (a n : Nat) : (readEffect a n s).registered = s.registered := by unfold readEffect; split <;> simp
@[simp] theorem readEffect_lingering (a n : Nat) : (readEffect a n s).lingering = s.lingering := by unfold readEffect; split <;> simp
@[simp] theorem readEffect_seen (a n : Nat) : (readEffect a n s).seen = s.seen := by unfold readEffect; split <;> simp
@[simp] theorem readEffect_log (a n : Nat) : (readEffect a n s).log = s.log := by unfold readEffect; split <;> simp
@[simp] theorem readEffect_agenda (a n : Nat) : (readEffect a n s).agenda = s.agenda := by unfold readEffect; split <;> simp
@[simp] theorem readEffect_sel (a n : Nat) : (readEffect a n s).sel = s.sel := by unfold readEffect; split <;> simp
@[simp] theorem readEffect_choice (a n : Nat) : (readEffect a n s).choice = s.choice := by unfold readEffect; split <;> simp

/-! `readDraw`. -/

@[simp] theorem readDraw_params (hit : Bool) (n : Nat) : (readDraw hit n s).params = s.params := by unfold readDraw; split <;> rfl
@[simp] theorem readDraw_attachState (hit : Bool) (n : Nat) : (readDraw hit n s).attachState = s.attachState := by unfold readDraw; split <;> rfl
@[simp] theorem readDraw_locked (hit : Bool) (n : Nat) : (readDraw hit n s).locked = s.locked := by unfold readDraw; split <;> rfl
@[simp] theorem readDraw_lockOwner (hit : Bool) (n : Nat) : (readDraw hit n s).lockOwner = s.lockOwner := by unfold readDraw; split <;> rfl
@[simp] theorem readDraw_rmValid (hit : Bool) (n : Nat) : (readDraw hit n s).rmValid = s.rmValid := by unfold readDraw; split <;> rfl
@[simp] theorem readDraw_settleCnt (hit : Bool) (n : Nat) : (readDraw hit n s).settleCnt = s.settleCnt := by unfold readDraw; split <;> rfl
@[simp] theorem readDraw_ports (hit : Bool) (n : Nat) : (readDraw hit n s).ports = s.ports := by unfold readDraw; split <;> rfl
@[simp] theorem readDraw_busFullAddr (hit : Bool) (n : Nat) : (readDraw hit n s).busFullAddr = s.busFullAddr := by unfold readDraw; split <;> rfl
@[simp] theorem readDraw_devAddr (hit : Bool) (n : Nat) : (readDraw hit n s).devAddr = s.devAddr := by unfold readDraw; split <;> rfl
@[simp] theorem readDraw_disturbed (hit : Bool) (n : Nat) : (readDraw hit n s).disturbed = s.disturbed := by unfold readDraw; split <;> rfl
@[simp] theorem readDraw_bus (hit : Bool) (n : Nat) : (readDraw hit n s).bus = s.bus := by unfold readDraw; split <;> rfl
@[simp] theorem readDraw_eeprom (hit : Bool) (n : Nat) : (readDraw hit n s).eeprom = s.eeprom := by unfold readDraw; split <;> rfl
@[simp] theorem readDraw_wc (hit : Bool) (n : Nat) : (readDraw hit n s).wc = s.wc := by unfold readDraw; split <;> rfl
@[simp] theorem readDraw_host (hit : Bool) (n : Nat) : (readDraw hit n s).host = s.host := by unfold readDraw; split <;> rfl
@[simp] theorem readDraw_registered (hit : Bool) (n : Nat) : (readDraw hit n s).registered = s.registered := by unfold readDraw; split <;> rfl
@[simp] theorem readDraw_lingering (hit : Bool) (n : Nat) : (readDraw hit n s).lingering = s.lingering := by unfold readDraw; split <;> rfl
@[simp] theorem readDraw_seen (hit : Bool) (n : Nat) : (readDraw hit n s).seen = s.seen := by unfold readDraw; split <;> rfl
@[simp] theorem readDraw_log (hit : Bool) (n : Nat) : (readDraw hit n s).log = s.log := by unfold readDraw; split <;> rfl
@[simp] theorem readDraw_agenda (hit : Bool) (n : Nat) : (readDraw hit n s).agenda = s.agenda := by unfold readDraw; split <;> rfl
@[simp] theorem readDraw_sel (hit : Bool) (n : Nat) : (readDraw hit n s).sel = s.sel := by unfold readDraw; split <;> rfl
@[simp] theorem readDraw_choice (hit : Bool) (n : Nat) : (readDraw hit n s).choice = s.choice := by unfold readDraw; split <;> rfl

/-! `tickDevice`. -/

@[simp] theorem tickDevice_params : (tickDevice s).params = s.params := by unfold tickDevice; (repeat' split) <;> rfl
@[simp] theorem tickDevice_attachState : (tickDevice s).attachState = s.attachState := by unfold tickDevice; (repeat' split) <;> rfl
@[simp] theorem tickDevice_locked : (tickDevice s).locked = s.locked := by unfold tickDevice; (repeat' split) <;> rfl
@[simp] theorem tickDevice_lockOwner : (tickDevice s).lockOwner = s.lockOwner := by unfold tickDevice; (repeat' split) <;> rfl
@[simp] theorem tickDevice_rmValid : (tickDevice s).rmValid = s.rmValid := by unfold tickDevice; (repeat' split) <;> rfl
@[simp] theorem tickDevice_settleCnt : (tickDevice s).settleCnt = s.settleCnt := by unfold tickDevice; (repeat' split) <;> rfl
@[simp] theorem tickDevice_ports : (tickDevice s).ports = s.ports := by unfold tickDevice; (repeat' split) <;> rfl
@[simp] theorem tickDevice_busFullAddr : (tickDevice s).busFullAddr = s.busFullAddr := by unfold tickDevice; (repeat' split) <;> rfl
@[simp] theorem tickDevice_devAddr : (tickDevice s).devAddr = s.devAddr := by unfold tickDevice; (repeat' split) <;> rfl
@[simp] theorem tickDevice_disturbed : (tickDevice s).disturbed = s.disturbed := by unfold tickDevice; (repeat' split) <;> rfl
@[simp] theorem tickDevice_bus : (tickDevice s).bus = s.bus := by unfold tickDevice; (repeat' split) <;> rfl
@[simp] theorem tickDevice_host : (tickDevice s).host = s.host := by unfold tickDevice; (repeat' split) <;> rfl
@[simp] theorem tickDevice_registered : (tickDevice s).registered = s.registered := by unfold tickDevice; (repeat' split) <;> rfl
@[simp] theorem tickDevice_lingering : (tickDevice s).lingering = s.lingering := by unfold tickDevice; (repeat' split) <;> rfl
@[simp] theorem tickDevice_seen : (tickDevice s).seen = s.seen := by unfold tickDevice; (repeat' split) <;> rfl
@[simp] theorem tickDevice_log : (tickDevice s).log = s.log := by unfold tickDevice; (repeat' split) <;> rfl
@[simp] theorem tickDevice_agenda : (tickDevice s).agenda = s.agenda := by unfold tickDevice; (repeat' split) <;> rfl
@[simp] theorem tickDevice_sel : (tickDevice s).sel = s.sel := by unfold tickDevice; (repeat' split) <;> rfl
@[simp] theorem tickDevice_choice : (tickDevice s).choice = s.choice := by unfold tickDevice; (repeat' split) <;> rfl

/-! `tick`. -/

@[simp] theorem tick_params : (tick s).params = s.params := by simp [tick]
@[simp] theorem tick_attachState : (tick s).attachState = s.attachState := by simp [tick]
@[simp] theorem tick_locked : (tick s).locked = s.locked := by simp [tick]
@[simp] theorem tick_lockOwner : (tick s).lockOwner = s.lockOwner := by simp [tick]
@[simp] theorem tick_rmValid : (tick s).rmValid = s.rmValid := by simp [tick]
@[simp] theorem tick_settleCnt : (tick s).settleCnt = s.settleCnt - 1 := by simp [tick]
@[simp] theorem tick_ports : (tick s).ports = s.ports := by simp [tick]
@[simp] theorem tick_busFullAddr : (tick s).busFullAddr = s.busFullAddr := by simp [tick]
@[simp] theorem tick_devAddr : (tick s).devAddr = s.devAddr := by simp [tick]
@[simp] theorem tick_disturbed : (tick s).disturbed = s.disturbed := by simp [tick]
@[simp] theorem tick_bus : (tick s).bus = s.bus := by simp [tick]
@[simp] theorem tick_eeprom : (tick s).eeprom = (tickDevice s).eeprom := by simp [tick]
@[simp] theorem tick_wc : (tick s).wc = (tickDevice s).wc := by simp [tick]
@[simp] theorem tick_host : (tick s).host = s.host := by simp [tick]
@[simp] theorem tick_registered : (tick s).registered = s.registered := by simp [tick]
@[simp] theorem tick_lingering : (tick s).lingering = s.lingering := by simp [tick]
@[simp] theorem tick_seen : (tick s).seen = s.seen := by simp [tick]
@[simp] theorem tick_log : (tick s).log = s.log := by simp [tick]
@[simp] theorem tick_agenda : (tick s).agenda = s.agenda := by simp [tick]
@[simp] theorem tick_sel : (tick s).sel = s.sel := by simp [tick]
@[simp] theorem tick_choice : (tick s).choice = s.choice := by simp [tick]
@[simp] theorem tick_draws : (tick s).draws = (tickDevice s).draws := by simp [tick]

/-! Ports after each operation. -/

theorem setPhase_port (p q : Nat) (ph : Phase) : (s.setPhase p ph).port q =
    if q = p ∧ p < s.ports.length then { s.port p with ph := ph } else s.port q := port_setPort ..

theorem takeLock_port (p q : Nat) : (takeLock p s).port q =
    if q = p ∧ p < s.ports.length then { s.port p with ph := .active } else s.port q := port_setPort ..

@[simp] theorem release_port (p q : Nat) : (release p s).port q = s.port q := port_congr (by simp) q

theorem raise_port (p q : Nat) (st : Status) (d : Word) : (raise p st d s).port q =
    if q = p ∧ p < s.ports.length then
      { s.port p with ph := .idle, resps := (s.port p).resps ++ [respOf st d], raced := [] }
    else s.port q := by
  rw [raise, port_setPort]; simp

theorem latch_port (p q : Nat) (d : Latch) : (latch p d s).port q =
    if q = p ∧ p < s.ports.length then { s.port p with d := d } else s.port q := port_setPort ..

@[simp] theorem markRaces_length (p : Nat) : (markRaces p s).ports.length = s.ports.length := by
  simp [markRaces]

/-- The races of a command touch no field of a port but `raced`. -/
theorem markRaces_port (p q : Nat) : ∃ r, (markRaces p s).port q = { s.port q with raced := r } := by
  by_cases hq : q < s.ports.length
  · have h : (markRaces p s).port q =
        (fun q c => if q = p then { c with raced := clashRanges p s }
          else if clashes (s.port p).d c then { c with raced := c.raced ++ [(s.port p).d.buffer] }
          else c) q (s.port q) := by
      simp [markRaces, State.port, List.getD, List.getElem?_eq_getElem hq]
      rfl
    rw [h]
    dsimp only
    split
    · exact ⟨_, rfl⟩
    · split
      · exact ⟨_, rfl⟩
      · exact ⟨(s.port q).raced, rfl⟩
  · rw [port_of_ge _ (by simpa using hq), port_of_ge _ (by simpa using hq)]
    exact ⟨[], rfl⟩

theorem initCursor_port (p q : Nat) : (initCursor p s).port q =
    if q = p ∧ p < s.ports.length then
      { s.port p with
        cur := (s.port p).d.offset.toNat, rem := (s.port p).d.length.toNat,
        buf := (s.port p).d.bufaddr.toNat, k := 0 }
    else s.port q := port_setPort ..

@[simp] theorem initCursor_length (p : Nat) : (initCursor p s).ports.length = s.ports.length := by
  simp [initCursor]

theorem advance_port (p q : Nat) : (advance p s).port q =
    if q = p ∧ p < s.ports.length then
      { s.port p with
        ph := .active, cur := (s.port p).cur + (s.port p).clen, rem := (s.port p).rem - (s.port p).clen,
        buf := (s.port p).buf + (s.port p).clen, k := (s.port p).k + 1 }
    else s.port q := port_setPort ..

@[simp] theorem advance_length (p : Nat) : (advance p s).ports.length = s.ports.length := by
  simp [advance]

theorem loadSettle_port (p q : Nat) : (loadSettle p s).port q =
    if q = p ∧ p < s.ports.length then { s.port p with ph := .settle } else s.port q := by
  exact port_setPort ..

theorem issue_port (p q : Nat) (cmd : BusCmd) : (issue p cmd s).port q =
    if q = p ∧ p < s.ports.length then { s.port p with ph := .bus } else s.port q := port_setPort ..

@[simp] theorem memRead_port (p a n q : Nat) : (memRead p a n s).port q = s.port q := rfl
@[simp] theorem memWrite_port (p a q : Nat) (v : List Byte) : (memWrite p a v s).port q = s.port q := rfl
@[simp] theorem startCycle_port (t q : Nat) (cs : List (Nat × Option Byte)) :
    (startCycle t cs s).port q = s.port q := port_congr (by simp) q
@[simp] theorem havoc_port (r : Nat × Nat) (q : Nat) : (havoc r s).port q = s.port q := rfl
@[simp] theorem failedWrite_port (a n q : Nat) (c : Choice) : (failedWrite a n c s).port q = s.port q :=
  port_congr (by simp) q
@[simp] theorem okWrite_port (hit : Bool) (a q : Nat) (b : List Byte) :
    (okWrite hit a b s).port q = s.port q := port_congr (by simp) q
@[simp] theorem readEffect_port (a n q : Nat) : (readEffect a n s).port q = s.port q :=
  port_congr (by simp) q
@[simp] theorem readDraw_port (hit : Bool) (n q : Nat) : (readDraw hit n s).port q = s.port q :=
  port_congr (by simp) q
@[simp] theorem tick_port (q : Nat) : (tick s).port q = s.port q := port_congr (by simp) q

end Sys2Proof.Machine
end

