-- ==== Sys2Proof/Laws/Commands.lean ====
section
/-! SUPPORT. What the pieces of the commands do: decoding of latched fields, the chunker, ports, the device,
the loops of READ and WRITE, the clock. -/

namespace Sys2Proof.Machine

/-! Decoding. -/

/-- The reserved bits of a word made from an opcode are 0. -/
theorem opWord_rsvd (b : BitVec 4) : (b.setWidth 32).extractLsb' 4 28 = 0#28 := by revert b; decide

/-- The opcode of a word made from an opcode. -/
theorem opWord_op (b : BitVec 4) : (b.setWidth 32).extractLsb' 0 4 = b := by revert b; decide

/-- The command of latched fields, by its opcode. -/
theorem decode_latch (d : Latch) : d.instr? =
   if d.op = 1 then (if d.offset = 0 ∧ d.length = 0 ∧ d.bufaddr = 0 then some .attach else none)
   else if d.op = 2 then (if d.offset = 0 ∧ d.length = 0 ∧ d.bufaddr = 0 then some .detach else none)
   else if d.op = 3 then some (.read d.offset d.length d.bufaddr)
   else if d.op = 4 then some (.write d.offset d.length d.bufaddr) else none := by
  have e : ∀ (c : Prop) [Decidable c] (a b : Decoded),
    (if c then a else b).instr? = if c then a.instr? else b.instr? := by
    intro c _ a b; split <;> rfl
  unfold Latch.instr? Latch.desc decode; dsimp only
  rw [opWord_rsvd, opWord_op, if_neg (by simp)]
  rw [e, e, e, e, e, e]
  rfl

/-- Only ATTACH latches opcode 1, and so on for the other three. -/
theorem instr_attach {d : Latch} (h : d.instr? = some .attach) : d.op = 1 := by
  rw [decode_latch] at h; (repeat' split at h) <;> simp_all

theorem instr_detach {d : Latch} (h : d.instr? = some .detach) : d.op = 2 := by
  rw [decode_latch] at h; (repeat' split at h) <;> simp_all

theorem instr_read {d : Latch} {o n b} (h : d.instr? = some (.read o n b)) : d.op = 3 := by
  rw [decode_latch] at h; (repeat' split at h) <;> simp_all

theorem instr_write {d : Latch} {o n b} (h : d.instr? = some (.write o n b)) : d.op = 4 := by
  rw [decode_latch] at h; (repeat' split at h) <;> simp_all

/-- A latched command decodes to itself. -/
theorem latchOf_instr (i : Instr) : (latchOf i).instr? = some i := by
  rw [decode_latch]; cases i <;> simp [latchOf, encode]

/-- A word with zero reserved bits is its opcode. -/
theorem word_of_op (w : BitVec 32) : w.extractLsb' 4 28 = 0 → w = (w.extractLsb' 0 4).setWidth 32 := by
  intro h
  apply BitVec.eq_of_toNat_eq
  have h' := congrArg BitVec.toNat h
  have := w.isLt
  simp [BitVec.extractLsb'_toNat, Nat.shiftRight_eq_div_pow] at h' ⊢
  omega

/-! The chunker. -/

/-- A chunk has at least one byte. -/
theorem chunkLen_pos {pol cur rem} (h : 0 < rem) : 0 < chunkLen pol cur rem := by
  cases pol <;> simp only [chunkLen, page] <;> omega

/-- A chunk is no longer than the rest. -/
theorem chunkLen_le {pol cur rem} : chunkLen pol cur rem ≤ rem := by
  cases pol <;> simp only [chunkLen, page] <;> omega

/-- A chunk is no longer than a page. -/
theorem chunkLen_page {pol cur rem} : chunkLen pol cur rem ≤ 128 := by
  cases pol <;> simp only [chunkLen, page] <;> omega

/-- Enough fuel is enough. -/
theorem chunksFrom_stable (pol) : ∀ f g cur rem, rem ≤ f → rem ≤ g →
    chunksFrom pol f cur rem = chunksFrom pol g cur rem := by
  intro f
  induction f with
  | zero => intro g cur rem h1 h2; have : rem = 0 := by omega
            subst this; cases g <;> simp [chunksFrom]
  | succ f ih =>
    intro g cur rem h1 h2
    cases g with
    | zero => have : rem = 0 := by omega
              subst this; simp [chunksFrom]
    | succ g =>
      unfold chunksFrom; split
      · rfl
      · have := chunkLen_pos (pol := pol) (cur := cur) (rem := rem) (by omega)
        rw [ih g _ _ (by omega) (by omega)]

/-- The chunk list, from its first chunk. -/
theorem chunks_cons {pol o n} (h : 0 < n) : chunks pol o n = (o, chunkLen pol o n) ::
    chunks pol (o + chunkLen pol o n) (n - chunkLen pol o n) := by
  have hp := chunkLen_pos (pol := pol) (cur := o) h
  unfold chunks
  obtain ⟨m, rfl⟩ : ∃ m, n = m + 1 := ⟨n - 1, by omega⟩
  rw [chunksFrom, if_neg (by omega), chunksFrom_stable pol m (m + 1 - chunkLen pol o (m+1)) _ _
    (by omega) (by omega)]

theorem chunks_zero {pol o} : chunks pol o 0 = [] := rfl

/-! Ports. -/

/-- A port number fits LOCK_OWNER. -/
theorem toNat_ofNat8 {p : Nat} (h : p < 256) : (BitVec.ofNat 8 p).toNat = p := by
  simp; omega

/-- A port of a state whose ports were all changed. -/
theorem port_map (s : State) (f : Port → Port) (q : Nat) (hq : q < s.ports.length) :
    ({ s with ports := s.ports.map f } : State).port q = f (s.port q) := by
  simp [State.port, List.getD, List.getElem?_eq_getElem hq]

/-- `raise` leaves every other port alone. -/
theorem raise_other {s : State} {p q st d} (hq : q ≠ p) : (raise p st d s).port q = s.port q := by
  rw [raise_port, if_neg (fun e => hq e.1)]

/-- What `raise` leaves in the port. -/
theorem raise_self {s : State} {p st d} (hp : p < s.ports.length) :
    (raise p st d s).port p = { s.port p with ph := .idle, resps := (s.port p).resps ++ [respOf st d], raced := [] } := by
  rw [raise_port, if_pos ⟨rfl, hp⟩]

/-- What `latch` leaves in the port. -/
theorem latch_self {s : State} {p d} (hp : p < s.ports.length) :
    (latch p d s).port p = { s.port p with d := d } := by
  rw [latch_port, if_pos ⟨rfl, hp⟩]

/-- `latch` leaves every other port alone. -/
theorem latch_other {s : State} {p q d} (hq : q ≠ p) : (latch p d s).port q = s.port q := by
  rw [latch_port, if_neg (fun e => hq e.1)]

/-- What `initCursor` leaves in the port. -/
theorem initCursor_self {s : State} {p} (hp : p < s.ports.length) :
    (initCursor p s).port p = { s.port p with
        cur := (s.port p).d.offset.toNat, rem := (s.port p).d.length.toNat,
        buf := (s.port p).d.bufaddr.toNat, k := 0 } := by rw [initCursor_port, if_pos ⟨rfl, hp⟩]

/-- What `advance` leaves in the port. -/
theorem advance_self {s : State} {p} (hp : p < s.ports.length) : (advance p s).port p = { s.port p with
        ph := .active, cur := (s.port p).cur + (s.port p).clen, rem := (s.port p).rem - (s.port p).clen,
        buf := (s.port p).buf + (s.port p).clen, k := (s.port p).k + 1 } := by rw [advance_port,
          if_pos ⟨rfl, hp⟩]

/-! The bytes of equal memories. -/

theorem sameEeprom_of_eq {s t : State} (h : t.eeprom = s.eeprom) :
    sameEeprom s t := fun a => by simp [State.eepromByte, h]

theorem sameHost_of_eq {s t : State} (h : t.host = s.host) :
    sameHost s t := fun a => by simp [State.hostByte, h]

theorem eepromBytes_congr {s t : State} (h : sameEeprom s t) (a n) :
    t.eepromBytes a n = s.eepromBytes a n := by
  induction n generalizing a with
  | zero => rfl
  | succ n ih => simp [State.eepromBytes, ih, h a]

theorem hostBytes_congr {s t : State} (h : sameHost s t) (a n) : t.hostBytes a n = s.hostBytes a n := by
  induction n generalizing a with
  | zero => rfl
  | succ n ih => simp [State.hostBytes, ih, h a]

/-! The device. -/

theorem inOnePage_iff {a n : Nat} :
    inOnePage a n = true ↔ a / 128 = (a + n - 1) / 128 := by simp [inOnePage, page]

/-- An address outside the range R of a failed write, in the words of 20_memory.md R73. -/
theorem out_writeRange {a n x : Nat} (h1 : a / 128 = (a + n - 1) / 128 → x < a ∨ a + n ≤ x)
    (h2 : a / 128 ≠ (a + n - 1) / 128 → x / 128 < a / 128 ∨ (a + n - 1) / 128 < x / 128) :
    x < (writeRange a n).1 ∨ (writeRange a n).1 + (writeRange a n).2 ≤ x := by
  unfold writeRange
  by_cases c : a / 128 = (a + n - 1) / 128
  · rw [if_pos (inOnePage_iff.2 c)]; exact h1 c
  · rw [if_neg (mt inOnePage_iff.1 c)]; have := h2 c; simp only [page]; omega

/-- An address outside the pages of a write lies outside R. -/
theorem pages_out {a n x : Nat} (_hn : 0 < n) (h : x / 128 < a / 128 ∨ (a + n - 1) / 128 < x / 128) :
    x < (writeRange a n).1 ∨ (writeRange a n).1 + (writeRange a n).2 ≤ x :=
  out_writeRange (fun _ => by omega) (fun _ => h)

theorem anyCells_ne {r : Nat × Nat} {x : Nat} (h : x < r.1 ∨ r.1 + r.2 ≤ x) :
    ∀ c ∈ anyCells r.1 r.2, c.1 ≠ x := by
  intro c hc e; have := mem_anyCells hc; omega

theorem byteCells_ne {a : Nat} {b : List Byte} {x : Nat} (h : x < a ∨ a + b.length ≤ x) :
    ∀ c ∈ byteCells a b, c.1 ≠ x := by
  intro c hc e; have := mem_byteCells hc; omega

/-- Outside the range, `havoc` changes nothing. -/
theorem eepromByte_havoc {s : State} {r : Nat × Nat} {x : Nat} (h : x < r.1 ∨ r.1 + r.2 ≤ x) :
    (havoc r s).eepromByte x = s.eepromByte x :=
  eepromByte_fillEeprom_ne (anyCells_ne h)

/-- Outside R, a failed write changes nothing. -/
theorem eepromByte_failedWrite {s : State} {a n c x}
    (h : x < (writeRange a n).1 ∨ (writeRange a n).1 + (writeRange a n).2 ≤ x) :
    (failedWrite a n c s).eepromByte x = s.eepromByte x := by
  rw [← eepromByte_havoc (s := s) h]; unfold failedWrite State.eepromByte; simp

/-- R, by its bounds. -/
theorem inWriteRange_iff {a n x : Nat} : inWriteRange a n x ↔
    (writeRange a n).1 ≤ x ∧ x < (writeRange a n).1 + (writeRange a n).2 := by
  unfold inWriteRange writeRange
  by_cases c : a / 128 = (a + n - 1) / 128
  · rw [if_pos c, if_pos (inOnePage_iff.2 c)]
  · rw [if_neg c, if_neg (mt inOnePage_iff.1 c)]; simp only [page]; omega

/-- An address outside the pages of a write lies outside R. -/
theorem not_inWriteRange_of_pages {a n x : Nat} (hn : 0 < n)
    (h : x / 128 < a / 128 ∨ (a + n - 1) / 128 < x / 128) : ¬ inWriteRange a n x := by
  rw [inWriteRange_iff]; have := pages_out hn h; omega

/-- An address outside R lies below or above it. -/
theorem out_of_not_inWriteRange {a n x : Nat} (h : ¬ inWriteRange a n x) :
    x < (writeRange a n).1 ∨ (writeRange a n).1 + (writeRange a n).2 ≤ x := by
  rw [inWriteRange_iff] at h; omega

theorem anyCells_any {c : Nat × Option Byte} : ∀ {n a : Nat}, c ∈ anyCells a n → c.2 = none
  | 0, _, h => by cases h
  | n + 1, a, h => by
    rcases List.mem_cons.1 h with rfl | h
    · rfl
    · exact anyCells_any h

theorem mem_anyCells_of {x : Nat} : ∀ {n a : Nat}, a ≤ x → x < a + n → (x, none) ∈ anyCells a n
  | 0, _, h, h' => by omega
  | n + 1, a, h, h' => by
    by_cases e : x = a
    · rw [e]; exact List.mem_cons_self
    · exact List.mem_cons_of_mem _ (mem_anyCells_of (by omega) (by omega))

/-- The cells with `ANY` over R are exactly over R. -/
theorem anyOver_anyCells (a n : Nat) : anyOver a n (anyCells (writeRange a n).1 (writeRange a n).2) := by
  refine ⟨fun c hc => anyCells_any hc, fun x => ?_⟩
  rw [inWriteRange_iff]
  constructor
  · rintro ⟨c, hc, rfl⟩; exact mem_anyCells hc
  · intro h; exact ⟨_, mem_anyCells_of h.1 h.2, rfl⟩

/-- What a failed write leaves of the write cycle. -/
theorem failedWrite_leaves (a n : Nat) (c : Choice) (s : State) :
    mayLeaveCycle a n c s (failedWrite a n c s) := by
  have hw : (havoc (writeRange a n) s).wc = s.wc := rfl
  unfold failedWrite maybeCycle
  constructor
  · intro h
    split
    · exact hw
    · rename_i e; exact absurd (hw ▸ e) h
  · intro h
    split
    · rename_i e; rw [hw, h] at e; cases e
    · constructor
      · intro h0; rw [if_pos (by simpa using h0)]; exact h
      · intro h0; rw [if_neg (by simp only [havoc_params]; omega)]; exact ⟨_, rfl, anyOver_anyCells a n⟩

/-- Outside its cells, a write cycle changes nothing. -/
theorem eepromByte_startCycle {s : State} {t cs x} (h : ∀ c ∈ cs, c.1 ≠ x) :
    (startCycle t cs s).eepromByte x = s.eepromByte x := by
  unfold startCycle; split
  · exact eepromByte_fillEeprom_ne h
  · rfl

/-- Outside R, a write answered Ok changes nothing. -/
theorem eepromByte_okWrite {s : State} {hit a b x} (h : ¬ inWriteRange a b.length x) :
    (okWrite hit a b s).eepromByte x = s.eepromByte x := by
  have hw := out_of_not_inWriteRange h
  unfold okWrite
  split
  · exact eepromByte_failedWrite hw
  · split
    · exact eepromByte_havoc hw
    · split
      · rename_i h1
        rw [inWriteRange, if_pos (inOnePage_iff.1 h1)] at h
        exact eepromByte_startCycle (byteCells_ne (by omega))
      · exact eepromByte_startCycle (anyCells_ne hw)

/-- Outside its range, a read changes nothing. -/
theorem eepromByte_readEffect {s : State} {a n x} (h : x < a ∨ a + n ≤ x) :
    (readEffect a n s).eepromByte x = s.eepromByte x := by
  unfold readEffect; split
  · exact eepromByte_havoc h
  · rfl

/-- A read changes nothing. -/
theorem readEffect_clean {s : State} {a n} (h : s.disturbed = false) :
    readEffect a n s = s := by unfold readEffect; rw [h]; rfl

/-- A read returns the stored bytes. -/
theorem readBytes_clean {s : State} {hit a n} (h : hit = false) (h' : s.disturbed = false) :
    readBytes hit a n s = s.eepromBytes a n := by
  unfold readBytes; rw [h, h']; rfl

/-- With no race, `MemRead` takes the stored bytes. -/
theorem memReadBytes_clean {s : State} {p a n} (h : (s.port p).raced = []) :
    memReadBytes p a n s = s.hostBytes a n := by
  unfold memReadBytes; rw [h, sample_nil]

/-- After the bytes b are filled in from a on, the array holds them there and is unchanged elsewhere. -/
theorem eepromByte_filled {s u : State} {a : Nat} {b : List Byte}
    (h : u.eeprom = (fill (byteCells a b) s.eeprom d).1) :
   (∀ j (h : j < b.length), u.eepromByte (a + j) = b[j]) ∧
   (∀ x, (x < a ∨ a + b.length ≤ x) → u.eepromByte x = s.eepromByte x) := by
  constructor
  · intro j hj; unfold State.eepromByte; rw [h, fill_byteCells_get? _ _ _ _ _ hj]; rfl
  · intro x hx; unfold State.eepromByte; rw [h, fill_get?_ne _ (byteCells_ne hx)]

/-- The mark of an operation's issue (20_memory.md R74). -/
theorem isBusy_eq (w : WriteCycle) : w.isBusy = decide (w ≠ .idle) := by
  cases w <;> simp [WriteCycle.isBusy]

/-! The loops of READ and WRITE. -/

/-- A range inside the host space fits. -/
theorem hostFits_true {s : State} {a n} (h : a + n ≤ hostSize s.params) :
    hostFits s a n = true := by simpa [hostFits] using h

/-- READ ends when no byte is left. -/
theorem readNext_done {u : State} {p} (hr : (u.port p).rem = 0) :
    readNext p u = .next (raise p .ok 0 u) := by
  unfold readNext; rw [if_pos hr]

/-- READ issues its next chunk: everything the step does. -/
theorem readNext_more {u : State} {p} (hp : p < u.ports.length) (hr : (u.port p).rem ≠ 0)
    (hc : (u.port p).cur + (u.port p).rem ≤ 65536) :
    ∃ t, readNext p u = .next t ∧
      t.port p = { u.port p with ph := .bus, clen := chunkLen u.params.policy (u.port p).cur (u.port p).rem } ∧
     sameOthers p u t ∧ sameConfig u t ∧ sameLock u t ∧ sameLifecycle u t ∧ t.settleCnt = u.settleCnt ∧
       t.eeprom = u.eeprom ∧ t.host = u.host ∧ t.log = u.log ∧
     t.wc = u.wc.corrupt ∧ t.draws = u.draws ∧ t.agenda = u.agenda ∧
     t.bus = some ⟨p, u.devAddr,
       .read (u.port p).cur (chunkLen u.params.policy (u.port p).cur (u.port p).rem),
         decide (u.wc ≠ .idle)⟩ := by
  have hle := chunkLen_le (pol := u.params.policy) (cur := (u.port p).cur) (rem := (u.port p).rem)
  unfold readNext
  rw [if_neg hr, if_neg (by simp only [capacity]; omega)]
  refine ⟨_, rfl, ?_, ⟨by simp, fun q hq => ?_⟩, ⟨rfl,rfl,rfl,rfl⟩, ⟨rfl,rfl⟩, ⟨rfl,rfl,rfl⟩, rfl, rfl,
    rfl, rfl, rfl, rfl, rfl, by rw [← isBusy_eq]; rfl⟩
  · rw [issue_port, if_pos ⟨rfl, by simpa using hp⟩, port_setPort_self _ _ hp]
  · rw [issue_port, if_neg (fun e => hq e.1), port_setPort_ne _ _ hq]

/-- WRITE issues its next chunk: everything the step does. -/
theorem writeNext_more {u : State} {p} (hp : p < u.ports.length) (hr : (u.port p).rem ≠ 0)
    (hc : (u.port p).cur + (u.port p).rem ≤ 65536)
    (hb : (u.port p).buf + (u.port p).rem ≤ 2 ^ u.params.hostAw) :
    ∃ t, writeNext p u = .next t ∧
      t.port p = { u.port p with ph := .bus, clen := chunkLen u.params.policy (u.port p).cur (u.port p).rem } ∧
     sameOthers p u t ∧ sameConfig u t ∧ sameLock u t ∧ sameLifecycle u t ∧ t.settleCnt = u.settleCnt ∧
       t.eeprom = u.eeprom ∧ t.host = u.host ∧ t.log = u.log ∧
     t.wc = u.wc.corrupt ∧ t.agenda = u.agenda ∧
     t.bus = some ⟨p, u.devAddr,
       .write (u.port p).cur (memReadBytes p (u.port p).buf (chunkLen u.params.policy (u.port p).cur (u.port p).rem) u),
         decide (u.wc ≠ .idle)⟩ := by
  have hle := chunkLen_le (pol := u.params.policy) (cur := (u.port p).cur) (rem := (u.port p).rem)
  unfold writeNext
  rw [if_neg hr, if_neg (by simp only [capacity]; omega),
    if_neg (by rw [hostFits_true (by simp only [hostSize]; omega)]; simp)]
  refine ⟨_, rfl, ?_, ⟨by simp, fun q hq => ?_⟩, ⟨rfl,rfl,rfl,rfl⟩, ⟨rfl,rfl⟩, ⟨rfl,rfl,rfl⟩, rfl, rfl,
    rfl, rfl, rfl, rfl, by rw [← isBusy_eq]; rfl⟩
  · rw [issue_port, if_pos ⟨rfl, by simpa using hp⟩, port_setPort_self _ _ (by simpa using hp)]
  · rw [issue_port, if_neg (fun e => hq e.1), port_setPort_ne _ _ hq]; rfl

/-! A loss of power. -/

/-- A loss of power touches the array, the write cycle, the draws and the outstanding operation alone. -/
theorem powerLoss_frame (c : Choice) (s : State) :
    ∃ e w d, powerLoss c s = { s with
      eeprom := e, wc := w, draws := d, bus := s.bus.map BusOp.powerLost } := by
  unfold powerLoss cutCycle startCycle
  split
  · exact ⟨_, _, _, rfl⟩
  · split <;> exact ⟨_, _, _, rfl⟩

/-- Outside a write cycle it leaves the array and the write cycle. -/
theorem powerLoss_idle {c : Choice} {s : State} (h : s.wc = .idle) :
    (powerLoss c s).eeprom = s.eeprom ∧ (powerLoss c s).wc = .idle := by
  unfold powerLoss cutCycle; rw [h]; exact ⟨rfl, h⟩

/-- A running write cycle becomes one of the drawn ticks that leaves any value. -/
theorem powerLoss_busy {c : Choice} {s : State} {t cells} (h : s.wc = .busy t cells) :
    (powerLoss c s).eeprom = (startCycle (min c.cycle t) (cells.map fun x => (x.1, none)) s).eeprom ∧
    (powerLoss c s).wc = (startCycle (min c.cycle t) (cells.map fun x => (x.1, none)) s).wc := by
  unfold powerLoss cutCycle; rw [h]; exact ⟨rfl, rfl⟩

/-! The clock. -/

/-- A tick outside a write cycle. -/
theorem tick_idle {s : State} (h : s.wc = .idle) : (tick s).wc = .idle ∧
    (tick s).eeprom = s.eeprom := by
  unfold tick tickDevice; rw [h]; exact ⟨h, rfl⟩

/-- A tick that does not end the write cycle. -/
theorem tick_down {s : State} {n cells} (h : s.wc = .busy n cells) (hn : 1 < n) :
    (tick s).wc = .busy (n-1) cells ∧ (tick s).eeprom = s.eeprom := by
  unfold tick tickDevice; rw [h]; dsimp only; rw [if_neg (by omega)]; exact ⟨rfl, rfl⟩

/-- The tick that ends the write cycle. -/
theorem tick_last {s : State} {cells} (h : s.wc = .busy 1 cells) : (tick s).wc = .idle ∧
    (tick s).eeprom = (fill cells s.eeprom s.draws).1 := by
  unfold tick tickDevice; rw [h]; exact ⟨rfl, rfl⟩

/-- The last of n + 1 ticks, taken apart. -/
theorem ticks_succ' (n : Nat) (s : State) : ticks (n+1) s = tick (ticks n s) := by
  induction n generalizing s with
  | zero => rfl
  | succ n ih => rw [ticks, ih]; rfl

/-! Runs. -/

/-- One step of a run. -/
theorem run_next (M : Host.Core) {k : Nat} {s u : M.State} (h : M.step s = .next u) :
    M.run (k+1) s = M.run k u := by
  rw [Host.Core.run, h]

end Sys2Proof.Machine
end

