-- ==== Sys2Proof/Laws/Host.lean ====
section
/-! SUPPORT. What the host's moves and the collaborator's do: the race of a host write with the bytes of a
WRITE in flight, the bytes a host read takes, and the calls that a block reset cuts off. -/

namespace Sys2Proof.Machine

/-! Bytes drawn anew. -/

@[simp] theorem redraw_length (f : Nat → Bool) (a : Nat) (b : List Byte) (d : Draws) :
    (redraw f a b d).1.length = b.length := by
  induction b generalizing a d with
  | nil => rfl
  | cons x b ih => unfold redraw; split <;> simp [ih]

/-- Where f holds nowhere, nothing is drawn. -/
theorem redraw_none {f : Nat → Bool} (h : ∀ x, f x = false) (a : Nat) (b : List Byte) (d : Draws) :
    redraw f a b d = (b, d) := by
  induction b generalizing a with
  | nil => rfl
  | cons x b ih => unfold redraw; rw [if_neg (by simp [h]), ih]

theorem blur_none {f : Nat → Bool} (h : ∀ x, f x = false) (w : WriteCycle) : w.blur f = w := by
  cases w with
  | idle => rfl
  | busy t cells =>
    show WriteCycle.busy t (cells.map fun c => if f c.1 then (c.1, none) else c) = _
    simp [h]

theorem busBlur_none {f : Nat → Bool} (h : ∀ x, f x = false) (d : Draws) (op : BusOp) :
    op.blur f d = op ∧ op.blurDraws f d = d := by
  cases op with
  | mk p dev cmd hit => cases cmd <;> simp [BusOp.blur, BusOp.blurDraws, redraw_none h]

@[simp] theorem busBlur_port (f : Nat → Bool) (d : Draws) (op : BusOp) : (op.blur f d).port = op.port := by
  cases op with
  | mk p dev cmd hit => cases cmd <;> rfl

/-- An outstanding operation with bytes drawn anew is one of the same command. -/
theorem cmdOk_blur {c : Port} {f : Nat → Bool} {d : Draws} {op : BusOp} :
    cmdOk c (op.blur f d).cmd ↔ cmdOk c op.cmd := by
  cases op with
  | mk p dev cmd hit => cases cmd <;> simp [BusOp.blur, cmdOk]

theorem cycleOk_blur {P : Params} {f : Nat → Bool} {w : WriteCycle} (h : cycleOk P w) :
    cycleOk P (w.blur f) := by
  cases w with
  | idle => trivial
  | busy t cells =>
    refine ⟨h.1, h.2.1, fun c hc => ?_⟩
    obtain ⟨x, hx, rfl⟩ := List.mem_map.1 hc
    have := h.2.2 x hx
    split <;> exact this

theorem cycleWithin_blur {n : Nat} {f : Nat → Bool} {w : WriteCycle} :
    cycleWithin n (w.blur f) ↔ cycleWithin n w := by cases w <;> rfl

/-! The race of a host write. -/

/-- The WRITE with a chunk in hand is a port's, in flight. -/
theorem writer_some {s : State} {c : Port} (h : writer s = some c) :
    c ∈ s.ports ∧ c.ph ≠ .idle ∧ c.d.op = 4 := by
  unfold writer at h
  split at h
  · rename_i hc
    obtain rfl := Option.some.inj h
    simp only [Bool.and_eq_true, Bool.or_eq_true, beq_iff_eq] at hc
    obtain ⟨⟨-, h4⟩, hp⟩ := hc
    refine ⟨?_, by rcases hp with e | e <;> rw [e] <;> decide, h4⟩
    by_cases hl : s.lockOwner.toNat < s.ports.length
    · have : s.port s.lockOwner.toNat = s.ports[s.lockOwner.toNat] := by
        simp [State.port, List.getD, List.getElem?_eq_getElem hl]
      rw [this]; exact List.getElem_mem hl
    · rw [port_of_ge s (by omega)] at h4; cases h4
  · cases h

/-- What `takenFrom` says of an address. -/
theorem takenFrom_iff {c : Port} {r : Nat × Nat} {y : Nat} : takenFrom c r y = true ↔
    (c.d.offset.toNat ≤ y ∧ y < c.d.offset.toNat + c.d.length.toNat) ∧
    r.1 ≤ c.d.bufaddr.toNat + (y - c.d.offset.toNat) ∧
    c.d.bufaddr.toNat + (y - c.d.offset.toNat) < r.1 + r.2 := by
  simp [takenFrom, inRng]

/-- Everything a race does: each is left alone but at the addresses the WRITE took from the range. -/
theorem raceTaken_spec (r : Nat × Nat) (s : State) :
    ∃ f : Nat → Bool, (∃ d, (raceTaken r s).bus = s.bus.map (BusOp.blur f d)) ∧
      (raceTaken r s).wc = s.wc.blur f ∧
      (∃ cells, (raceTaken r s).eeprom = (fill cells s.eeprom s.draws).1 ∧
        ∀ x ∈ cells, f x.1 = true) ∧
      ∀ y, f y = true → ∃ c ∈ s.ports, c.ph ≠ .idle ∧ c.d.op = 4 ∧ takenFrom c r y = true := by
  unfold raceTaken
  cases hw : writer s with
  | none =>
    have e : ∀ x : Nat, (fun _ => false : Nat → Bool) x = false := fun _ => rfl
    refine ⟨fun _ => false, ⟨s.draws, ?_⟩, (blur_none e _).symm, ⟨[], rfl, by simp⟩, by simp⟩
    cases hb : s.bus with
    | none => simp
    | some op => simp [(busBlur_none e s.draws op).1]
  | some c =>
    obtain ⟨h1, h2, h3⟩ := writer_some hw
    refine ⟨takenFrom c r, ?_, ?_,
      ⟨(anyCells c.d.offset.toNat (givenLength c)).filter fun x => takenFrom c r x.1, ?_,
        fun x hx => (List.mem_filter.1 hx).2⟩, fun y hy => ⟨c, h1, h2, h3, hy⟩⟩
    · unfold blurBus; dsimp only
      cases hb : s.bus with
      | none => exact ⟨s.draws, by simp [hb]⟩
      | some op => exact ⟨_, by simp [hb]; rfl⟩
    · unfold blurBus; dsimp only; cases hb : s.bus <;> simp [hb]
    · unfold blurBus; dsimp only; cases hb : s.bus <;> simp [hb]

section
variable (r : Nat × Nat) (s : State)

/-- What a race leaves alone. -/
theorem raceTaken_frame : (raceTaken r s).params = s.params ∧
    (raceTaken r s).attachState = s.attachState ∧ (raceTaken r s).locked = s.locked ∧
    (raceTaken r s).lockOwner = s.lockOwner ∧ (raceTaken r s).rmValid = s.rmValid ∧
    (raceTaken r s).settleCnt = s.settleCnt ∧ (raceTaken r s).ports = s.ports ∧
    (raceTaken r s).busFullAddr = s.busFullAddr ∧ (raceTaken r s).devAddr = s.devAddr ∧
    (raceTaken r s).disturbed = s.disturbed ∧ (raceTaken r s).host = s.host ∧
    (raceTaken r s).registered = s.registered ∧ (raceTaken r s).lingering = s.lingering ∧
    (raceTaken r s).seen = s.seen ∧ (raceTaken r s).log = s.log ∧ (raceTaken r s).agenda = s.agenda ∧
    (raceTaken r s).sel = s.sel ∧ (raceTaken r s).choice = s.choice := by
  unfold raceTaken
  split
  · simp
  · unfold blurBus; dsimp only; split <;> simp

@[simp] theorem raceTaken_params : (raceTaken r s).params = s.params := (raceTaken_frame r s).1
@[simp] theorem raceTaken_attachState : (raceTaken r s).attachState = s.attachState :=
  (raceTaken_frame r s).2.1
@[simp] theorem raceTaken_locked : (raceTaken r s).locked = s.locked := (raceTaken_frame r s).2.2.1
@[simp] theorem raceTaken_lockOwner : (raceTaken r s).lockOwner = s.lockOwner :=
  (raceTaken_frame r s).2.2.2.1
@[simp] theorem raceTaken_rmValid : (raceTaken r s).rmValid = s.rmValid := (raceTaken_frame r s).2.2.2.2.1
@[simp] theorem raceTaken_settleCnt : (raceTaken r s).settleCnt = s.settleCnt :=
  (raceTaken_frame r s).2.2.2.2.2.1
@[simp] theorem raceTaken_ports : (raceTaken r s).ports = s.ports := (raceTaken_frame r s).2.2.2.2.2.2.1
@[simp] theorem raceTaken_busFullAddr : (raceTaken r s).busFullAddr = s.busFullAddr :=
  (raceTaken_frame r s).2.2.2.2.2.2.2.1
@[simp] theorem raceTaken_devAddr : (raceTaken r s).devAddr = s.devAddr :=
  (raceTaken_frame r s).2.2.2.2.2.2.2.2.1
@[simp] theorem raceTaken_disturbed : (raceTaken r s).disturbed = s.disturbed :=
  (raceTaken_frame r s).2.2.2.2.2.2.2.2.2.1
@[simp] theorem raceTaken_host : (raceTaken r s).host = s.host :=
  (raceTaken_frame r s).2.2.2.2.2.2.2.2.2.2.1
@[simp] theorem raceTaken_registered : (raceTaken r s).registered = s.registered :=
  (raceTaken_frame r s).2.2.2.2.2.2.2.2.2.2.2.1
@[simp] theorem raceTaken_lingering : (raceTaken r s).lingering = s.lingering :=
  (raceTaken_frame r s).2.2.2.2.2.2.2.2.2.2.2.2.1
@[simp] theorem raceTaken_seen : (raceTaken r s).seen = s.seen :=
  (raceTaken_frame r s).2.2.2.2.2.2.2.2.2.2.2.2.2.1
@[simp] theorem raceTaken_log : (raceTaken r s).log = s.log :=
  (raceTaken_frame r s).2.2.2.2.2.2.2.2.2.2.2.2.2.2.1
@[simp] theorem raceTaken_agenda : (raceTaken r s).agenda = s.agenda :=
  (raceTaken_frame r s).2.2.2.2.2.2.2.2.2.2.2.2.2.2.2.1
@[simp] theorem raceTaken_sel : (raceTaken r s).sel = s.sel :=
  (raceTaken_frame r s).2.2.2.2.2.2.2.2.2.2.2.2.2.2.2.2.1
@[simp] theorem raceTaken_choice : (raceTaken r s).choice = s.choice :=
  (raceTaken_frame r s).2.2.2.2.2.2.2.2.2.2.2.2.2.2.2.2.2

end

/-! The host's moves. -/

theorem markHostRace_port (f : Latch → Bool) (r : Nat × Nat) (s : State) (q : Nat) :
    ∃ x, (markHostRace f r s).port q = { s.port q with raced := x } := by
  by_cases hq : q < s.ports.length
  · unfold markHostRace
    rw [port_map _ _ _ hq]
    split
    · exact ⟨_, rfl⟩
    · exact ⟨_, rfl⟩
  · rw [port_of_ge _ (by simpa [markHostRace] using hq), port_of_ge s (by simpa using hq)]
    exact ⟨[], rfl⟩

/-- What a host write leaves alone of the block and the collaborator. -/
theorem hostWrite_frame (a : Nat) (v : List Byte) (s : State) : (hostWrite a v s).params = s.params ∧
    (hostWrite a v s).attachState = s.attachState ∧ (hostWrite a v s).locked = s.locked ∧
    (hostWrite a v s).lockOwner = s.lockOwner ∧ (hostWrite a v s).rmValid = s.rmValid ∧
    (hostWrite a v s).settleCnt = s.settleCnt ∧ (hostWrite a v s).ports.length = s.ports.length ∧
    (∀ q, ∃ r, (hostWrite a v s).port q = { s.port q with raced := r }) ∧
    (hostWrite a v s).busFullAddr = s.busFullAddr ∧ (hostWrite a v s).devAddr = s.devAddr ∧
    (hostWrite a v s).disturbed = s.disturbed ∧ (hostWrite a v s).registered = s.registered ∧
    (hostWrite a v s).lingering = s.lingering ∧ (hostWrite a v s).seen = s.seen ∧
    (hostWrite a v s).log = s.log := by
  unfold hostWrite
  split
  · refine ⟨by simp [markHostRace], by simp [markHostRace], by simp [markHostRace],
      by simp [markHostRace], by simp [markHostRace], by simp [markHostRace], by simp [markHostRace],
      fun q => ?_, by simp [markHostRace], by simp [markHostRace], by simp [markHostRace],
      by simp [markHostRace], by simp [markHostRace], by simp [markHostRace], by simp [markHostRace]⟩
    obtain ⟨x, hx⟩ :=
      markHostRace_port Latch.isTransfer (a, v.length) (raceTaken (a, v.length) (s.fillHost (hostCells s a v))) q
    exact ⟨x, by rw [hx, port_congr (s := raceTaken _ _) (t := s) (by simp)]⟩
  · exact ⟨rfl, rfl, rfl, rfl, rfl, rfl, rfl, fun q => ⟨_, rfl⟩, rfl, rfl, rfl, rfl, rfl, rfl, rfl⟩

/-- The host memory after a host write that fits. -/
theorem hostWrite_host {a : Nat} {v : List Byte} {s : State} (h : hostFits s a v.length = true) :
    (hostWrite a v s).host = (fill (hostCells s a v) s.host s.draws).1 := by
  unfold hostWrite; rw [if_pos h]; simp [markHostRace]

/-- What a host write changes on its way to the device: only what a WRITE in flight took from its range. -/
theorem hostWrite_device (a : Nat) (v : List Byte) (s : State) :
    ∃ f : Nat → Bool, (∃ d, (hostWrite a v s).bus = s.bus.map (BusOp.blur f d)) ∧
      (hostWrite a v s).wc = s.wc.blur f ∧
      (∃ cells d, (hostWrite a v s).eeprom = (fill cells s.eeprom d).1 ∧ ∀ x ∈ cells, f x.1 = true) ∧
      ∀ y, f y = true →
        ∃ c ∈ s.ports, c.ph ≠ .idle ∧ c.d.op = 4 ∧ takenFrom c (a, v.length) y = true := by
  unfold hostWrite
  split
  · obtain ⟨f, hb, hw, ⟨cells, he, hc⟩, hf⟩ :=
      raceTaken_spec (a, v.length) (s.fillHost (hostCells s a v))
    exact ⟨f, hb, hw, ⟨cells, _, he, hc⟩, hf⟩
  · have e : ∀ x : Nat, (fun _ => false : Nat → Bool) x = false := fun _ => rfl
    refine ⟨fun _ => false, ⟨s.draws, ?_⟩, (blur_none e _).symm, ⟨[], s.draws, rfl, by simp⟩, by simp⟩
    cases hb : s.bus with
    | none => rfl
    | some op => simp [(busBlur_none e s.draws op).1]

/-- A host read changes what the host took, the host memory, the marks of a race and the draws. -/
theorem hostRead_frame (a n : Nat) (s : State) :
    ∃ v d m ps, hostRead a n s = { s with seen := v, draws := d, host := m, ports := ps } ∧
      ps.length = s.ports.length ∧
      ∀ q, ∃ r, (hostRead a n s).port q = { s.port q with raced := r } := by
  unfold hostRead; split
  · exact ⟨_, _, _, _, rfl, by simp, fun q => markHostRace_port _ _ _ q⟩
  · exact ⟨s.seen, s.draws, s.host, s.ports, rfl, rfl, fun q => ⟨_, rfl⟩⟩

/-- The host memory after a host read: only its cells are drawn anew. -/
theorem hostRead_host (a n : Nat) (s : State) :
    ∃ cells d, (hostRead a n s).host = (fill cells s.host d).1 ∧
      ∀ x ∈ cells, x ∈ readCells s a n ∧ hostFits s a n = true := by
  unfold hostRead; split
  · rename_i h
    exact ⟨readCells s a n, _, rfl, fun x hx => ⟨hx, h⟩⟩
  · exact ⟨[], s.draws, rfl, by simp⟩

/-- A cell of a host read lies in its range, in the destination of a READ in flight. -/
theorem mem_readCells {s : State} {a n : Nat} {x : Nat × Option Byte} (h : x ∈ readCells s a n) :
    (a ≤ x.1 ∧ x.1 < a + n) ∧ ∃ c ∈ s.ports, inFlightAt c x.1 = true ∧ c.d.op = 3 := by
  obtain ⟨h1, h2⟩ := List.mem_filter.1 h
  obtain ⟨c, hc, h3⟩ := List.any_eq_true.1 h2
  simp only [Latch.isRead, Bool.and_eq_true, beq_iff_eq] at h3
  exact ⟨mem_anyCells h1, c, hc, h3⟩

/-- A late call changes what the collaborator holds. -/
theorem lateCollab_frame (k : Nat) (s : State) :
    ∃ r l, lateCollab k s = { s with registered := r, lingering := l } := by
  unfold lateCollab; split
  · exact ⟨s.registered, s.lingering, rfl⟩
  · exact ⟨_, _, rfl⟩

/-! The host's read. -/

@[simp] theorem hostSample_length (s : State) (a n : Nat) (d : Draws) :
    (hostSample s a n d).1.length = n := by
  induction n generalizing a d with
  | zero => rfl
  | succ n ih => unfold hostSample; split <;> simp [ih]

/-- Where no READ in flight has its destination, the host takes the stored byte. -/
theorem hostSample_get (s : State) : ∀ (n a : Nat) (d : Draws) (j : Nat)
    (h : j < (hostSample s a n d).1.length), readsInto s (a + j) = false →
    (hostSample s a n d).1[j] = s.hostByte (a + j) := by
  intro n
  induction n with
  | zero => intro a d j h; simp at h
  | succ n ih =>
    intro a d j h hr
    cases j with
    | zero => simp only [hostSample, Nat.add_zero] at hr ⊢; simp [hr]
    | succ j =>
      have hr' : readsInto s (a + 1 + j) = false := by rw [← hr]; congr 1; omega
      by_cases hd : readsInto s a = true
      · simp only [hostSample, hd, if_true, List.getElem_cons_succ]
        rw [ih _ _ _ _ hr']; congr 1; omega
      · simp only [hostSample, hd, List.getElem_cons_succ, Bool.false_eq_true, if_false]
        rw [ih _ _ _ _ hr']; congr 1; omega

/-- Inside the destination of a READ in flight, each byte is its own draw. -/
theorem hostSample_drawn (s : State) : ∀ (n a : Nat) (d : Draws),
    (∀ j, j < n → readsInto s (a + j) = true) → hostSample s a n d = Draws.bytes n d := by
  intro n
  induction n with
  | zero => intro a d _; rfl
  | succ n ih =>
    intro a d h
    unfold hostSample Draws.bytes
    rw [if_pos (by simpa using h 0 (by omega)),
      ih (a + 1) _ fun j hj => by rw [← h (j + 1) (by omega)]; congr 1; omega]

/-! The collaborator. -/

/-- What a call that takes effect, or is cut off, leaves alone, and what it does. -/
theorem cutOff_frame (c : Choice) (x : CollabCall) (s : State) : (cutOff c x s).params = s.params ∧
    (cutOff c x s).ports = s.ports ∧ (cutOff c x s).bus = s.bus ∧ (cutOff c x s).host = s.host ∧
    (cutOff c x s).eeprom = s.eeprom ∧ (cutOff c x s).wc = s.wc ∧ (cutOff c x s).log = s.log ∧
    (cutOff c x s).registered = (if c.effect then x.registers else s.registered) ∧
    (cutOff c x s).lingering = (if c.effect then s.lingering else s.lingering ++ [x]) ∧
    (cutOff c x s).busFullAddr = s.busFullAddr ∧ (cutOff c x s).devAddr = s.devAddr ∧
    (cutOff c x s).disturbed = s.disturbed ∧ (cutOff c x s).seen = s.seen := by
  unfold cutOff takeEffect
  split <;> simp_all

end Sys2Proof.Machine
end

