-- ==== Sys2Proof/Laws/Draws.lean ====
section
/-! SUPPORT. Drawn bytes and host-memory races: which bytes an operation leaves or takes by draws, each its
own draw, and which addresses a race marks. -/

namespace Sys2Proof.Machine

/-! The supply. -/

theorem bytes_get (d : Draws) : ∀ {n j : Nat}, j < n → (Draws.bytes n d).1[j]? = some (d.nth j)
  | 0, _, h => absurd h (Nat.not_lt_zero _)
  | _ + 1, 0, _ => rfl
  | _ + 1, _ + 1, h => bytes_get d.byte.2 (Nat.lt_of_succ_lt_succ h)

/-- The draws after k draws. -/
theorem nth_after (k : Nat) : ∀ (d : Draws) (j : Nat), (Draws.bytes k d).2.nth j = d.nth (k + j) := by
  induction k with
  | zero => intro d j; rw [Nat.zero_add]; rfl
  | succ k ih => intro d j; rw [Nat.succ_add]; exact ih d.byte.2 j

/-- Given bytes are drawn in their order. -/
theorem nth_given (vs : List Byte) (k j : Nat) (h : j < vs.length) : (⟨vs, k⟩ : Draws).nth j = vs[j] := by
  induction vs generalizing j with
  | nil => cases h
  | cons v vs ih =>
    cases j with
    | zero => rfl
    | succ j => exact ih j (by simpa using h)

/-- d' is what some number of draws leaves of d. -/
abbrev drawnOn (d d' : Draws) : Prop := ∃ k, d' = (Draws.bytes k d).2

theorem drawnOn.refl (d : Draws) : drawnOn d d := ⟨0, rfl⟩

theorem drawnOn.byte {d d' : Draws} (h : drawnOn d.byte.2 d') : drawnOn d d' := by
  obtain ⟨k, rfl⟩ := h; exact ⟨k + 1, rfl⟩

theorem drawnOn.trans {d d' d'' : Draws} (h : drawnOn d d') (h' : drawnOn d' d'') : drawnOn d d'' := by
  obtain ⟨k, rfl⟩ := h
  induction k generalizing d with
  | zero => exact h'
  | succ k ih => exact (ih h').byte

/-! Bytes drawn apart. -/

section
variable {d d' : Draws} {P Q : Nat → Prop} {v w : Nat → Byte}

/-- Later draws are draws. -/
theorem drawnApart.later (h : drawnApart d' P v) (hd : drawnOn d d') : drawnApart d P v := by
  obtain ⟨k, rfl⟩ := hd
  obtain ⟨f, hf, hv⟩ := h
  exact ⟨fun x => k + f x, fun x y hx hy e => hf x y hx hy (Nat.add_left_cancel e),
    fun x hx => by rw [hv x hx, nth_after]⟩

/-- At fewer addresses, with the same bytes there. -/
theorem drawnApart.of (h : drawnApart d Q w) (hp : ∀ x, P x → Q x) (hv : ∀ x, P x → v x = w x) :
    drawnApart d P v := by
  obtain ⟨f, hf, hw⟩ := h
  exact ⟨f, fun x y hx hy => hf x y (hp x hx) (hp y hy), fun x hx => by rw [hv x hx, hw x (hp x hx)]⟩

/-- By offsets from a. -/
theorem drawnApart.shift (a : Nat) (h : drawnApart d Q w) (hp : ∀ x, P x → Q (a + x))
    (hv : ∀ x, P x → v x = w (a + x)) : drawnApart d P v := by
  obtain ⟨f, hf, hw⟩ := h
  exact ⟨fun x => f (a + x), fun x y hx hy e => by have := hf _ _ (hp x hx) (hp y hy) e; omega,
    fun x hx => by rw [hv x hx, hw _ (hp x hx)]⟩

theorem drawnApart.none (h : ∀ x, ¬ P x) : drawnApart d P v :=
  ⟨id, fun x _ hx => absurd hx (h x), fun x hx => absurd hx (h x)⟩

/-- One more draw, before the others, at an address apart from theirs. -/
theorem drawnApart.cons {a : Nat} (h : drawnApart d.byte.2 Q w) (hp : ∀ x, P x → x = a ∨ Q x ∧ x ≠ a)
    (ha : P a → v a = d.byte.1) (hv : ∀ x, P x → x ≠ a → v x = w x) : drawnApart d P v := by
  obtain ⟨f, hf, hw⟩ := h
  refine ⟨fun x => if x = a then 0 else f x + 1, fun x y hx hy e => ?_, fun x hx => ?_⟩
  · by_cases hxa : x = a
    · by_cases hya : y = a
      · rw [hxa, hya]
      · simp [hxa, hya] at e
    · by_cases hya : y = a
      · simp [hxa, hya] at e
      · simp only [hxa, hya, if_false] at e
        exact hf x y ((hp x hx).resolve_left hxa).1 ((hp y hy).resolve_left hya).1 (by omega)
  · by_cases hxa : x = a
    · subst hxa; rw [ha hx]; simp [Draws.nth]
    · rw [hv x hx hxa, hw x ((hp x hx).resolve_left hxa).1]; simp [hxa, Draws.nth]

end

/-! `fill`. -/

/-- The address x has cells, all of which say `ANY`. -/
abbrev anyAt (cs : List (Nat × Option Byte)) (x : Nat) : Prop :=
  (x, none) ∈ cs ∧ ∀ c ∈ cs, c.1 = x → c.2 = none

theorem fill_draws : ∀ (cs : List (Nat × Option Byte)) (m : Memory) (d : Draws),
    drawnOn d (fill cs m d).2
  | [], _, d => .refl d
  | (_, some _) :: cs, _, d => fill_draws cs _ d
  | (_, none) :: cs, _, d => (fill_draws cs _ d.byte.2).byte

/-- Where the cells say `ANY`, the bytes are drawn. -/
theorem fill_drawnApart (z : Nat → Byte) : ∀ (cs : List (Nat × Option Byte)) (m : Memory) (d : Draws),
    drawnApart d (anyAt cs) fun x => ((fill cs m d).1.get? x).getD (z x)
  | [], _, _ => .none fun _ h => nomatch h.1
  | (a, some b) :: cs, m, d =>
    (fill_drawnApart z cs (m.put a b) d).of
      (fun x h => ⟨(List.mem_cons.1 h.1).resolve_left (by simp), fun c hc => h.2 c (by simp [hc])⟩)
      fun _ _ => rfl
  | (a, none) :: cs, m, d => by
    have ih := fill_drawnApart z cs (m.put a d.byte.1) d.byte.2
    by_cases ha : ∃ c ∈ cs, c.1 = a
    · refine (ih.of (fun x h => ⟨?_, fun c hc => h.2 c (by simp [hc])⟩) fun _ _ => rfl).later
        (drawnOn.byte (.refl _))
      rcases List.mem_cons.1 h.1 with e | h'
      · obtain ⟨c, hc, rfl⟩ := ha
        have e1 : x = c.1 := congrArg Prod.fst e
        have e2 := h.2 c (by simp [hc]) e1.symm
        rw [e1, ← e2]; exact hc
      · exact h'
    · have ha' : ∀ c ∈ cs, c.1 ≠ a := fun c hc e => ha ⟨c, hc, e⟩
      refine ih.cons (a := a) (fun x h => ?_) (fun _ => ?_) fun _ _ _ => rfl
      · by_cases hx : x = a
        · exact .inl hx
        · exact .inr ⟨⟨(List.mem_cons.1 h.1).resolve_left fun e => hx (congrArg Prod.fst e),
            fun c hc => h.2 c (by simp [hc])⟩, hx⟩
      · show ((fill cs (m.put a d.byte.1) d.byte.2).1.get? a).getD _ = _
        rw [fill_get?_ne cs ha', get?_put, if_pos rfl]; rfl

/-- Where the cells all hold one byte, that byte is written. -/
theorem fill_some {x : Nat} {b : Byte} : ∀ (cs : List (Nat × Option Byte)) (m : Memory) (d : Draws),
    (x, some b) ∈ cs → (∀ c ∈ cs, c.1 = x → c.2 = some b) → (fill cs m d).1.get? x = some b := by
  have last : ∀ (cs : List (Nat × Option Byte)) (m : Memory) (d : Draws), m.get? x = some b →
      (∀ c ∈ cs, c.1 = x → c.2 = some b) → (fill cs m d).1.get? x = some b := by
    intro cs
    induction cs with
    | nil => intro m d h _; exact h
    | cons c cs ih =>
      obtain ⟨a, o⟩ := c
      intro m d h hc
      have ha : x = a → o = some b := fun e => hc (a, o) (by simp) e.symm
      cases o with
      | none =>
        refine ih _ _ ?_ fun c h => hc c (by simp [h])
        rw [get?_put, if_neg fun e => nomatch ha e]; exact h
      | some w =>
        refine ih _ _ ?_ fun c h => hc c (by simp [h])
        rw [get?_put]; split
        · rename_i e; exact ha e
        · exact h
  intro cs
  induction cs with
  | nil => intro m d h; cases h
  | cons c cs ih =>
    obtain ⟨a, o⟩ := c
    intro m d h hc
    have hc' : ∀ c ∈ cs, c.1 = x → c.2 = some b := fun c h => hc c (by simp [h])
    rcases List.mem_cons.1 h with e | h'
    · cases e
      exact last cs _ _ (by rw [get?_put, if_pos rfl]) hc'
    · cases o <;> exact ih _ _ h' hc'

/-- The bytes of E that a fill draws. -/
theorem fillEeprom_drawn {s : State} {cs : List (Nat × Option Byte)} :
    drawnApart s.draws (anyAt cs) (s.fillEeprom cs).eepromByte := fill_drawnApart _ _ _ _

/-- The bytes of HM that a fill draws. -/
theorem fillHost_drawn {s : State} {cs : List (Nat × Option Byte)} :
    drawnApart s.draws (anyAt cs) (s.fillHost cs).hostByte := fill_drawnApart _ _ _ _

/-- Cells over n addresses from a on. -/
theorem anyAt_anyCells {a n x : Nat} (h : a ≤ x) (h' : x < a + n) : anyAt (anyCells a n) x :=
  ⟨mem_anyCells_of h h', fun _ hc _ => anyCells_any hc⟩

/-! Lists of bytes. -/

section
variable {F : Nat → Prop} {l : List Byte} {a n : Nat} {d : Draws}

/-- A list that goes on with one drawn byte before it. -/
theorem list_drawn (h : drawnApart d.byte.2 (fun x => a + 1 ≤ x ∧ x < a + 1 + n ∧ F x)
      fun x => l.getD (x - (a + 1)) 0) :
    drawnApart d (fun x => a ≤ x ∧ x < a + (n + 1) ∧ F x) fun x => (d.byte.1 :: l).getD (x - a) 0 := by
  refine h.cons (a := a) (fun x hx => ?_) (fun _ => by simp) fun x hx hne => ?_
  · by_cases e : x = a
    · exact .inl e
    · exact .inr ⟨⟨by omega, by omega, hx.2.2⟩, e⟩
  · show (d.byte.1 :: l).getD (x - a) 0 = _
    rw [show x - a = x - (a + 1) + 1 by omega]; simp

/-- A list that goes on with a byte that is not drawn before it. -/
theorem list_kept {b : Byte} (ha : ¬ F a)
    (h : drawnApart d (fun x => a + 1 ≤ x ∧ x < a + 1 + n ∧ F x) fun x => l.getD (x - (a + 1)) 0) :
    drawnApart d (fun x => a ≤ x ∧ x < a + (n + 1) ∧ F x) fun x => (b :: l).getD (x - a) 0 := by
  have ne : ∀ x, F x → x ≠ a := fun x hx e => ha (e ▸ hx)
  refine h.of (fun x hx => ⟨by have := ne x hx.2.2; omega, by omega, hx.2.2⟩) fun x hx => ?_
  have := ne x hx.2.2
  show (b :: l).getD (x - a) 0 = _
  rw [show x - a = x - (a + 1) + 1 by omega]; simp

end

/-! The device. -/

/-- Every byte of the range is drawn. -/
theorem havoc_drawn {s : State} {r : Nat × Nat} :
    drawnApart s.draws (fun x => r.1 ≤ x ∧ x < r.1 + r.2) (havoc r s).eepromByte :=
  fillEeprom_drawn.of (fun _ h => anyAt_anyCells h.1 h.2) fun _ _ => rfl

theorem havoc_range_drawn {s : State} {a n : Nat} :
    drawnApart s.draws (inWriteRange a n) (havoc (writeRange a n) s).eepromByte :=
  havoc_drawn.of (fun _ h => inWriteRange_iff.1 h) fun _ _ => rfl

/-- A failed write draws the bytes of R. -/
theorem failedWrite_drawn {s : State} {a n : Nat} {c : Choice} :
    drawnApart s.draws (inWriteRange a n) (failedWrite a n c s).eepromByte :=
  havoc_range_drawn.of (fun _ h => h) fun _ _ => sameEeprom_of_eq (by simp [failedWrite]) _

/-- A loss of power that ends the write cycle draws the bytes of the cycle. -/
theorem powerLoss_drawn {s : State} {c : Choice} {t cells} (h : s.wc = .busy t cells)
    (h0 : min c.cycle t = 0) :
    drawnApart s.draws (fun a => ∃ x ∈ cells, x.1 = a) (powerLoss c s).eepromByte := by
  refine (fillEeprom_drawn (s := s) (cs := cells.map fun x => (x.1, none))).of (fun a ⟨x, hx, e⟩ => ?_)
    fun a _ => sameEeprom_of_eq (by rw [(powerLoss_busy h).1, startCycle, if_pos h0]) a
  exact ⟨List.mem_map.2 ⟨x, hx, by rw [e]⟩, fun y hy _ => by
    obtain ⟨z, -, rfl⟩ := List.mem_map.1 hy; rfl⟩

/-- A write issued during a cycle, or answered after a change of the inputs, draws the bytes of R. -/
theorem okWrite_drawn {s : State} {hit : Bool} {a : Nat} {b : List Byte}
    (h : hit = true ∨ s.disturbed = true) :
    drawnApart s.draws (inWriteRange a b.length) (okWrite hit a b s).eepromByte := by
  unfold okWrite
  by_cases hd : s.disturbed = true
  · rw [if_pos hd]; exact failedWrite_drawn
  · rw [if_neg hd, if_pos (h.resolve_right hd)]; exact havoc_range_drawn

/-- A read after a change of the inputs draws the bytes of its range. -/
theorem readEffect_drawn {s : State} {a n : Nat} (h : s.disturbed = true) :
    drawnApart s.draws (fun x => a ≤ x ∧ x < a + n) (readEffect a n s).eepromByte := by
  unfold readEffect; rw [if_pos h]; exact havoc_drawn (r := (a, n))

theorem readEffect_draws (a n : Nat) (s : State) : drawnOn s.draws (readEffect a n s).draws := by
  unfold readEffect; split
  · exact fill_draws _ _ _
  · exact .refl _

theorem readDraw_draws (hit : Bool) (n : Nat) (s : State) : drawnOn s.draws (readDraw hit n s).draws := by
  unfold readDraw; split
  · exact ⟨n, rfl⟩
  · exact .refl _

/-! Host accesses of the block. -/

theorem isRaced_iff {c : Port} {x : Nat} : isRaced c.raced x = true ↔ racedAt c x := by
  simp [isRaced, inRng]

theorem sample_draws (s : State) (rs : List (Nat × Nat)) (n : Nat) : ∀ (a : Nat) (d : Draws),
    drawnOn d (sample s rs a n d).2 := by
  induction n with
  | zero => intro a d; exact .refl d
  | succ n ih =>
    intro a d; unfold sample; split
    · exact (ih _ _).byte
    · exact ih _ _

/-- With no race at an address, `MemRead` takes the stored byte. -/
theorem sample_get (s : State) (rs : List (Nat × Nat)) (n : Nat) : ∀ (a : Nat) (d : Draws) (j : Nat)
    (h : j < (sample s rs a n d).1.length), isRaced rs (a + j) = false →
    (sample s rs a n d).1[j] = s.hostByte (a + j) := by
  induction n with
  | zero => intro a d j h; simp at h
  | succ n ih =>
    intro a d j h hr
    cases j with
    | zero => simp only [sample, Nat.add_zero] at hr ⊢; simp [hr]
    | succ j =>
      have hr' : isRaced rs (a + 1 + j) = false := by rw [← hr]; congr 1; omega
      by_cases hd : isRaced rs a = true
      · simp only [sample, hd, if_true, List.getElem_cons_succ]
        rw [ih _ _ _ _ hr']; congr 1; omega
      · simp only [sample, hd, List.getElem_cons_succ, Bool.false_eq_true, if_false]
        rw [ih _ _ _ _ hr']; congr 1; omega

/-- Where a race touches an address, `MemRead` takes a drawn byte. -/
theorem sample_drawn (s : State) (rs : List (Nat × Nat)) (n : Nat) : ∀ (a : Nat) (d : Draws),
    drawnApart d (fun x => a ≤ x ∧ x < a + n ∧ isRaced rs x = true)
      fun x => (sample s rs a n d).1.getD (x - a) 0 := by
  induction n with
  | zero => intro a d; exact .none fun _ h => by omega
  | succ n ih =>
    intro a d; unfold sample; split
    · exact list_drawn (ih _ _)
    · rename_i h; exact list_kept h (ih _ _)

/-- `MemRead` takes the stored bytes, and drawn ones where its port is marked. -/
theorem memReadBytes_spec (s : State) (p a n : Nat) :
    (∀ j (h : j < (memReadBytes p a n s).length), ¬ racedAt (s.port p) (a + j) →
      (memReadBytes p a n s)[j] = s.hostByte (a + j)) ∧
    drawnApart s.draws (fun j => j < n ∧ racedAt (s.port p) (a + j))
      fun j => (memReadBytes p a n s).getD j 0 :=
  ⟨fun j h hr => sample_get _ _ _ _ _ j h (by rw [← isRaced_iff] at hr; simpa using hr),
    (sample_drawn s (s.port p).raced n a s.draws).shift a
      (fun _ h => ⟨by omega, by omega, isRaced_iff.2 h.2⟩) fun _ _ => by rw [Nat.add_sub_cancel_left]; rfl⟩

/-- A cell of `MemWrite` says `ANY` exactly where the race is. -/
theorem raceCells_spec {rs : List (Nat × Nat)} : ∀ {v : List Byte} {a : Nat},
    (∀ c ∈ raceCells rs a v, isRaced rs c.1 = true → c.2 = none) ∧
    (∀ x, a ≤ x → x < a + v.length → isRaced rs x = true → (x, none) ∈ raceCells rs a v) ∧
    ∀ j (h : j < v.length), isRaced rs (a + j) = false →
      (a + j, some v[j]) ∈ raceCells rs a v ∧ ∀ c ∈ raceCells rs a v, c.1 = a + j → c.2 = some v[j]
  | [], a => ⟨fun _ h => (nomatch h), fun x h h' => absurd h' (by simp; omega),
    fun j h => absurd h (by simp)⟩
  | b :: v, a => by
    obtain ⟨h1, h2, h3⟩ := raceCells_spec (rs := rs) (v := v) (a := a + 1)
    refine ⟨fun c hc hr => ?_, fun x hx hx' hr => ?_, fun j hj hr => ?_⟩
    · rcases List.mem_cons.1 hc with rfl | hc
      · simp_all
      · exact h1 c hc hr
    · by_cases e : x = a
      · subst e; simp [raceCells, hr]
      · exact List.mem_cons_of_mem _ (h2 x (by omega) (by simp at hx'; omega) hr)
    · cases j with
      | zero =>
        refine ⟨by simp_all [raceCells], fun c hc e => ?_⟩
        rcases List.mem_cons.1 hc with rfl | hc
        · simp_all
        · have := mem_raceCells hc; omega
      | succ j =>
        have e : a + (j + 1) = a + 1 + j := by omega
        rw [e] at hr ⊢
        obtain ⟨g1, g2⟩ := h3 j (by simpa using hj) hr
        refine ⟨List.mem_cons_of_mem _ g1, fun c hc e => ?_⟩
        rcases List.mem_cons.1 hc with rfl | hc
        · have : a = a + 1 + j := e
          omega
        · exact g2 c hc e

/-- `MemWrite` writes its bytes, and leaves drawn ones where its port is marked. -/
theorem memWrite_spec (s : State) (p a : Nat) (v : List Byte) :
    (∀ j (h : j < v.length), ¬ racedAt (s.port p) (a + j) → (memWrite p a v s).hostByte (a + j) = v[j]) ∧
    drawnApart s.draws (fun x => a ≤ x ∧ x < a + v.length ∧ racedAt (s.port p) x)
      (memWrite p a v s).hostByte := by
  obtain ⟨h1, h2, h3⟩ := raceCells_spec (rs := (s.port p).raced) (v := v) (a := a)
  constructor
  · intro j hj hr
    obtain ⟨g1, g2⟩ := h3 j hj (by rw [← isRaced_iff] at hr; simpa using hr)
    show ((fill _ s.host s.draws).1.get? (a + j)).getD _ = _
    rw [fill_some _ _ _ g1 g2]; rfl
  · exact fillHost_drawn.of (fun x h => ⟨h2 x h.1 h.2.1 (isRaced_iff.2 h.2.2),
      fun c hc e => h1 c hc (by rw [e]; exact isRaced_iff.2 h.2.2)⟩) fun _ _ => rfl

/-! The host's write. -/

theorem inFlightAt_iff {c : Port} {x : Nat} : inFlightAt c x = true ↔ usesHost c x := by
  have h : inRng c.d.buffer x = true ↔
      c.d.bufaddr.toNat ≤ x ∧ x < c.d.bufaddr.toNat + c.d.length.toNat := decide_eq_true_iff
  simp only [inFlightAt, Latch.isTransfer, Bool.and_eq_true, Bool.or_eq_true, bne_iff_ne, beq_iff_eq, h,
    and_assoc]

theorem takenFrom_range {c : Port} {a n y : Nat} : takenFrom c (a, n) y = true ↔ correspondsTo c a n y := by
  rw [takenFrom_iff, and_assoc]

/-- Where a transfer in flight uses the address, a host write leaves drawn bytes. -/
theorem hostCells_any {s : State} : ∀ {v : List Byte} {a x : Nat}, a ≤ x → x < a + v.length →
    (∃ c ∈ s.ports, usesHost c x) → anyAt (hostCells s a v) x
  | [], _, _, h, h', _ => by simp at h'; omega
  | b :: v, a, x, h, h', hu => by
    have hx : s.ports.any (fun c => inFlightAt c x) = true := by
      obtain ⟨c, hc, hu⟩ := hu
      exact List.any_eq_true.2 ⟨c, hc, inFlightAt_iff.2 hu⟩
    by_cases e : x = a
    · subst e
      refine ⟨by simp [hostCells, hx], fun c hc e => ?_⟩
      rcases List.mem_cons.1 hc with rfl | hc
      · simp [hx]
      · have := mem_hostCells hc; omega
    · obtain ⟨g1, g2⟩ := hostCells_any (s := s) (v := v) (a := a + 1) (x := x) (by omega)
        (by simp at h'; omega) hu
      refine ⟨List.mem_cons_of_mem _ g1, fun c hc e' => ?_⟩
      rcases List.mem_cons.1 hc with rfl | hc
      · exact absurd e'.symm e
      · exact g2 c hc e'

/-- The mark that a host access leaves on a transfer in flight of the kinds that f picks. -/
theorem markHostRace_raced {f : Latch → Bool} {r : Nat × Nat} {s : State} {p x : Nat}
    (hp : p < s.ports.length) (hu : usesHost (s.port p) x) (hf : f (s.port p).d = true) :
    racedAt ((markHostRace f r s).port p) x ↔ racedAt (s.port p) x ∨ (r.1 ≤ x ∧ x < r.1 + r.2) := by
  unfold markHostRace
  rw [port_map _ _ _ hp]
  split
  · constructor
    · rintro ⟨q, hq, h⟩
      rcases List.mem_append.1 hq with hq | hq
      · exact .inl ⟨q, hq, h⟩
      · rw [List.mem_singleton.1 hq] at h; exact .inr h
    · rintro (⟨q, hq, h⟩ | h)
      · exact ⟨q, List.mem_append_left _ hq, h⟩
      · exact ⟨r, List.mem_append_right _ (by simp), h⟩
  · rename_i hc
    refine ⟨.inl, fun h => h.resolve_right fun h => hc ?_⟩
    obtain ⟨h1, h2, h3, h4⟩ := hu
    simp only [Bool.and_eq_true, bne_iff_ne, ne_eq]
    refine ⟨⟨h1, hf⟩, decide_eq_true ?_⟩
    simp only [Latch.buffer]; omega

/-! The host's read. -/

theorem readsInto_iff {s : State} {x : Nat} :
    readsInto s x = true ↔ ∃ c ∈ s.ports, usesHost c x ∧ c.d.op = 3 := by
  simp only [readsInto, Latch.isRead, List.any_eq_true, Bool.and_eq_true, beq_iff_eq, inFlightAt_iff]

theorem hostSample_draws (s : State) (n : Nat) : ∀ (a : Nat) (d : Draws),
    drawnOn d (hostSample s a n d).2 := by
  induction n with
  | zero => intro a d; exact .refl d
  | succ n ih =>
    intro a d; unfold hostSample; split
    · exact (ih _ _).byte
    · exact ih _ _

/-- In the destination of a READ in flight, the host takes drawn bytes. -/
theorem hostSample_apart (s : State) (n : Nat) : ∀ (a : Nat) (d : Draws),
    drawnApart d (fun x => a ≤ x ∧ x < a + n ∧ readsInto s x = true)
      fun x => (hostSample s a n d).1.getD (x - a) 0 := by
  induction n with
  | zero => intro a d; exact .none fun _ h => by omega
  | succ n ih =>
    intro a d; unfold hostSample; split
    · exact list_drawn (ih _ _)
    · rename_i h; exact list_kept h (ih _ _)

/-- In the destination of a READ in flight, a host read leaves drawn bytes. -/
theorem readCells_any {s : State} {a n x : Nat} (h : a ≤ x) (h' : x < a + n)
    (hr : readsInto s x = true) : anyAt (readCells s a n) x :=
  ⟨List.mem_filter.2 ⟨mem_anyCells_of h h', hr⟩, fun _ hc _ => anyCells_any (List.mem_filter.1 hc).1⟩

/-! The race of two transfers. -/

/-- What `clashes` says where the buffers meet. -/
theorem clashes_at {d : Latch} {c : Port} {x : Nat} (hd : d.op = 3 ∨ d.op = 4) (h : d.bufaddr.toNat ≤ x)
    (h' : x < d.bufaddr.toNat + d.length.toNat) :
    clashes d c = true ∧ c.d.bufaddr.toNat ≤ x ∧ x < c.d.bufaddr.toNat + c.d.length.toNat ↔
      usesHost c x ∧ c.d.op = if d.op = 3 then 4 else 3 := by
  have ho : overlaps c.d.buffer d.buffer = true ↔ 0 < c.d.length.toNat ∧ 0 < d.length.toNat ∧
      c.d.bufaddr.toNat < d.bufaddr.toNat + d.length.toNat ∧
      d.bufaddr.toNat < c.d.bufaddr.toNat + c.d.length.toNat := decide_eq_true_iff
  simp only [clashes, Latch.isTransfer, Bool.and_eq_true, Bool.or_eq_true, bne_iff_ne, beq_iff_eq, ho]
  constructor
  · rintro ⟨⟨⟨⟨⟨h1, h2⟩, -⟩, h4⟩, -⟩, h5, h6⟩
    refine ⟨⟨h1, h2, h5, h6⟩, ?_⟩
    rcases hd with e | e <;> rcases h2 with e' | e' <;> rw [e, e'] at h4 <;> simp [e, e'] at h4 ⊢
  · rintro ⟨⟨h1, h2, h5, h6⟩, h3⟩
    refine ⟨⟨⟨⟨⟨h1, h2⟩, hd⟩, ?_⟩, by omega⟩, h5, h6⟩
    rcases hd with e | e <;> simp [e] at h3 <;> simp [e, h3]

/-- The marks of a transfer at its acceptance, on its own port. -/
theorem markRaces_self {s : State} {p x : Nat} (hp : p < s.ports.length)
    (hd : (s.port p).d.op = 3 ∨ (s.port p).d.op = 4) (h : (s.port p).d.bufaddr.toNat ≤ x)
    (h' : x < (s.port p).d.bufaddr.toNat + (s.port p).d.length.toNat) :
    racedAt ((markRaces p s).port p) x ↔ ∃ q, q ≠ p ∧ q < s.ports.length ∧ usesHost (s.port q) x ∧
      (s.port q).d.op = if (s.port p).d.op = 3 then 4 else 3 := by
  have e : ((markRaces p s).port p).raced = clashRanges p s := by
    simp [markRaces, State.port, List.getD, List.getElem?_eq_getElem hp]
  have hport : ∀ q (hq : q < s.ports.length), s.ports[q] = s.port q := fun q hq => by
    simp [State.port, List.getD, List.getElem?_eq_getElem hq]
  have hm : ∀ r, r ∈ clashRanges p s ↔ ∃ q, q < s.ports.length ∧ q ≠ p ∧
      clashes (s.port p).d (s.port q) = true ∧ r = (s.port q).d.buffer := by
    intro r
    simp only [clashRanges, List.mem_flatten, List.mem_mapIdx]
    constructor
    · rintro ⟨l, ⟨q, hq, rfl⟩, hr⟩
      split at hr
      · rename_i hc
        rw [hport q hq] at hc hr
        exact ⟨q, hq, hc.1, hc.2, List.mem_singleton.1 hr⟩
      · cases hr
    · rintro ⟨q, hq, h1, h2, rfl⟩
      refine ⟨_, ⟨q, hq, rfl⟩, ?_⟩
      rw [hport q hq, if_pos ⟨h1, h2⟩]; simp
  constructor
  · rintro ⟨r, hr, hx⟩
    rw [e] at hr
    obtain ⟨q, hq, h1, h2, rfl⟩ := (hm r).1 hr
    exact ⟨q, h1, hq, (clashes_at hd h h').1 ⟨h2, hx⟩⟩
  · rintro ⟨q, h1, hq, h2⟩
    obtain ⟨h3, hx⟩ := (clashes_at hd h h').2 h2
    exact ⟨_, by rw [e]; exact (hm _).2 ⟨q, hq, h1, h3, rfl⟩, hx⟩

/-- The marks of a transfer at its acceptance, on another port that uses the address. -/
theorem markRaces_other {s : State} {p q x : Nat} (hq : q < s.ports.length) (hne : q ≠ p)
    (hd : (s.port p).d.op = 3 ∨ (s.port p).d.op = 4) (hu : usesHost (s.port q) x) :
    racedAt ((markRaces p s).port q) x ↔ racedAt (s.port q) x ∨
      (s.port p).d.bufaddr.toNat ≤ x ∧ x < (s.port p).d.bufaddr.toNat + (s.port p).d.length.toNat ∧
        (s.port q).d.op = if (s.port p).d.op = 3 then 4 else 3 := by
  have e : (markRaces p s).port q = if clashes (s.port p).d (s.port q) then
      { s.port q with raced := (s.port q).raced ++ [(s.port p).d.buffer] } else s.port q := by
    simp [markRaces, State.port, List.getD, List.getElem?_eq_getElem hq, hne]; rfl
  rw [e]
  split
  · rename_i hc
    constructor
    · rintro ⟨r, hr, h⟩
      rcases List.mem_append.1 hr with hr | hr
      · exact .inl ⟨r, hr, h⟩
      · rw [List.mem_singleton.1 hr] at h
        exact .inr ⟨h.1, h.2, ((clashes_at hd h.1 h.2).1 ⟨hc, hu.2.2⟩).2⟩
    · rintro (⟨r, hr, h⟩ | h)
      · exact ⟨r, List.mem_append_left _ hr, h⟩
      · exact ⟨(s.port p).d.buffer, List.mem_append_right _ (by simp), h.1, h.2.1⟩
  · rename_i hc
    exact ⟨.inl, fun h => h.resolve_right fun h => hc ((clashes_at hd h.1 h.2.1).2 ⟨hu, h.2.2⟩).1⟩

/-! The race of a host write with bytes that a WRITE has taken. -/

theorem redraw_get (f : Nat → Bool) (b : List Byte) : ∀ (a : Nat) (d : Draws) (j : Nat),
    f (a + j) = false → (redraw f a b d).1[j]? = b[j]? := by
  induction b with
  | nil => intro a d j _; rfl
  | cons x b ih =>
    intro a d j h
    cases j with
    | zero => simp only [redraw, Nat.add_zero] at h ⊢; simp [h]
    | succ j =>
      have h' : f (a + 1 + j) = false := by rw [← h]; congr 1; omega
      unfold redraw; split <;> simpa using ih _ _ _ h'

theorem redraw_drawn (f : Nat → Bool) (b : List Byte) : ∀ (a : Nat) (d : Draws),
    drawnApart d (fun x => a ≤ x ∧ x < a + b.length ∧ f x = true)
      fun x => (redraw f a b d).1.getD (x - a) 0 := by
  induction b with
  | nil => intro a d; exact .none fun _ h => by simp at h; omega
  | cons y b ih =>
    intro a d; unfold redraw; split
    · exact list_drawn (ih _ _)
    · rename_i h; exact list_kept h (ih _ _)

/-- A race with the WRITE that has a chunk in hand: the outstanding bytes, the running write cycle and the
bytes answered Ok, each drawn where WRITE took it from the range. -/
theorem raceTaken_writer {s : State} {c : Port} (a n : Nat) (hl : s.locked = true)
    (hc : c = s.port s.lockOwner.toNat) (ho : c.d.op = 4) (hp : c.ph = .bus ∨ c.ph = .settle) :
    (∀ q dev y w hit, s.bus = some ⟨q, dev, .write y w, hit⟩ →
      ∃ w', (raceTaken (a, n) s).bus = some ⟨q, dev, .write y w', hit⟩ ∧ w'.length = w.length ∧
        (∀ j, ¬ correspondsTo c a n (y + j) → w'[j]? = w[j]?) ∧
        drawnApart s.draws (fun j => j < w.length ∧ correspondsTo c a n (y + j)) fun j => w'.getD j 0) ∧
    (∀ k cells, s.wc = .busy k cells → (raceTaken (a, n) s).wc = .busy k
      (cells.map fun x => if correspondsTo c a n x.1 then (x.1, none) else x)) ∧
    drawnApart s.draws (fun y => correspondsTo c a n y ∧
      y < c.cur + if c.ph = .settle then c.clen else 0) (raceTaken (a, n) s).eepromByte := by
  have hw : writer s = some c := by
    subst hc
    unfold writer; rw [if_pos]
    simp only [Bool.and_eq_true, Bool.or_eq_true, beq_iff_eq]
    exact ⟨⟨hl, ho⟩, hp⟩
  generalize hcs : ((anyCells c.d.offset.toNat (givenLength c)).filter fun x => takenFrom c (a, n) x.1) = cs
  generalize hu : ({ s.fillEeprom cs with wc := s.wc.blur (takenFrom c (a, n)) } : State) = u
  have e : raceTaken (a, n) s = blurBus (takenFrom c (a, n)) u := by
    unfold raceTaken; rw [hw]; dsimp only; rw [hcs, hu]
  have hub : u.bus = s.bus := by rw [← hu]; simp
  have hud : drawnOn s.draws u.draws := by rw [← hu]; exact fill_draws _ _ _
  rw [e]
  refine ⟨fun q dev y w hit hb => ?_, fun k cells hk => ?_, ?_⟩
  · refine ⟨(redraw (takenFrom c (a, n)) y w u.draws).1, ?_, redraw_length .., fun j hj => ?_, ?_⟩
    · unfold blurBus; rw [hub, hb]; rfl
    · exact redraw_get _ _ _ _ _ (by rw [← takenFrom_range] at hj; simpa using hj)
    · exact ((redraw_drawn (takenFrom c (a, n)) w y u.draws).shift y
        (fun j h => ⟨by omega, by omega, takenFrom_range.2 h.2⟩)
        fun j _ => by rw [Nat.add_sub_cancel_left]).later hud
  · have : (blurBus (takenFrom c (a, n)) u).wc = s.wc.blur (takenFrom c (a, n)) := by
      unfold blurBus; rw [← hu]; split <;> rfl
    rw [this, hk]
    show WriteCycle.busy k (cells.map _) = _
    congr 1
    apply List.map_congr_left
    intro x _
    simp only [takenFrom_range]
  · have : (blurBus (takenFrom c (a, n)) u).eeprom = (s.fillEeprom cs).eeprom := by
      unfold blurBus; rw [← hu]; split <;> rfl
    refine (fillEeprom_drawn (s := s) (cs := cs)).of (fun y h => ?_) fun y _ => sameEeprom_of_eq this y
    have hy : (y, none) ∈ cs := by
      rw [← hcs]
      refine List.mem_filter.2 ⟨mem_anyCells_of h.1.1 ?_, takenFrom_range.2 h.1⟩
      have := h.2; unfold givenLength; omega
    refine ⟨hy, fun x hx _ => ?_⟩
    rw [← hcs] at hx
    exact anyCells_any (List.mem_filter.1 hx).1

end Sys2Proof.Machine
end

