-- ==== Sys2Proof/Laws/Keep.lean ====
section
/-! SUPPORT. Every operation of the machine keeps the invariants, one lemma each. -/

namespace Sys2Proof.Machine

/-! States that agree on what `Inv` reads. -/

/-- Two ports agree on every field that `Inv` reads. -/
def coreEq (c d : Port) : Prop := c.ph = d.ph ∧ c.d = d.d ∧ c.cur = d.cur ∧ c.rem = d.rem ∧
    c.buf = d.buf ∧ c.clen = d.clen ∧ c.k = d.k

theorem coreEq.refl (c : Port) : coreEq c c := ⟨rfl,rfl,rfl,rfl,rfl,rfl,rfl⟩

theorem coreEq_setPort {s : State} {p : Nat} {c : Port} (h : coreEq c (s.port p)) (q : Nat) :
    coreEq ((s.setPort p c).port q) (s.port q) := by
  rw [port_setPort]; split
  · rename_i hh; rw [hh.1]; exact h
  · exact coreEq.refl _

theorem portOk_congr {P st c d} (h : coreEq c d) : portOk P st c ↔ portOk P st d := by
  obtain ⟨h1,h2,h3,h4,h5,h6,h7⟩ := h
  simp only [portOk, cursorOk, acceptedOk, h1,h2,h3,h4,h5,h6,h7]

theorem widthsOk_congr {P c d} (h : coreEq c d) : widthsOk P c ↔ widthsOk P d := by
  obtain ⟨-,-,h3,h4,h5,h6,h7⟩ := h
  simp only [widthsOk, h3,h4,h5,h6,h7]

theorem cmdOk_congr {c d x} (h : coreEq c d) : cmdOk c x ↔ cmdOk d x := by
  obtain ⟨-,h2,h3,-,-,h6,-⟩ := h
  cases x with
  | recv n => simp only [cmdOk, h2]
  | read a n => simp only [cmdOk, h2, h3, h6]
  | write a b => simp only [cmdOk, h2, h3, h6]

/-- A transition that leaves the block's state alone keeps `Inv` if it keeps the form of the memories and,
but for bytes on their way to the device, the outstanding operation and the write cycle. -/
theorem Inv.around {s t : State} (h : Inv s) (hp : t.params = s.params)
    (hl : t.ports.length = s.ports.length)
    (hc : ∀ q, coreEq (t.port q) (s.port q)) (ha : t.attachState = s.attachState)
    (hk : t.locked = s.locked)
    (ho : t.lockOwner = s.lockOwner) (hr : t.rmValid = s.rmValid)
    (hb : ∃ g : BusOp → BusOp, t.bus = s.bus.map g ∧
      ∀ op, (g op).port = op.port ∧ ∀ c, cmdOk c (g op).cmd ↔ cmdOk c op.cmd)
    (hs : t.settleCnt = s.settleCnt)
    (he : t.eeprom.wf ∧ ∀ x ∈ t.eeprom, x.1 < capacity)
    (hh : t.host.wf ∧ ∀ x ∈ t.host, x.1 < hostSize t.params)
    (hw : cycleOk t.params t.wc) (hn : ∀ n, cycleWithin n s.wc → cycleWithin n t.wc) : Inv t := by
  have hph : ∀ q, (t.port q).ph = (s.port q).ph := fun q => (hc q).1
  obtain ⟨g, hb, hg⟩ := hb
  exact {
    params := by rw [hp]; exact h.params
    nPorts := by rw [hl, hp]; exact h.nPorts
    ownerClear := by rw [hk, ho]; exact h.ownerClear
    settleOwner := by rw [hs, hk, ho, hph]; exact h.settleOwner
    rmValid := by rw [hr, ha]; exact h.rmValid
    busIssuer := by
      intro op e
      rw [hb] at e
      obtain ⟨op', e', rfl⟩ := Option.map_eq_some_iff.1 e
      rw [hl, hph, (hg op').1]; exact h.busIssuer op' e'
    busWait := by
      intro p hp' e
      rw [hph] at e
      obtain ⟨op, e1, e2, e3⟩ := h.busWait p (hl ▸ hp') e
      exact ⟨g op, by rw [hb, e1]; rfl, (hg op).1.trans e2,
        (cmdOk_congr (hc p)).2 (((hg op).2 _).2 e3)⟩
    lockHeld := by intro p; rw [hk, hl, hph, ho]; exact h.lockHeld p
    lockOwned := by rw [hk, hl, ho, hph]; exact h.lockOwned
    phases := by intro p; rw [hl, hp, ha, portOk_congr (hc p)]; exact h.phases p
    widths := by intro p; rw [hl, hp, widthsOk_congr (hc p)]; exact h.widths p
    oneCollab := by intro p a q b; rw [hph, hph]; rw [hl] at a b; exact h.oneCollab p a q b
    settleBound := by rw [hs, hp]; exact h.settleBound
    eepromWf := he.1
    eepromIn := he.2
    hostWf := hh.1
    hostIn := hh.2
    cycle := hw
    settleLong := by intro p; rw [hl, hph, hs]; exact fun a b => hn _ (h.settleLong p a b) }

/-- A transition that leaves the block's state, the bus and the write cycle alone keeps `Inv` if it
keeps the form of the memories. -/
theorem Inv.env {s t : State} (h : Inv s) (hp : t.params = s.params)
    (hl : t.ports.length = s.ports.length)
  (hc : ∀ q, coreEq (t.port q) (s.port q)) (ha : t.attachState = s.attachState)
  (hk : t.locked = s.locked)
  (ho : t.lockOwner = s.lockOwner) (hr : t.rmValid = s.rmValid) (hb : t.bus = s.bus)
  (hs : t.settleCnt = s.settleCnt)
  (he : t.eeprom.wf ∧ ∀ x ∈ t.eeprom, x.1 < capacity)
  (hh : t.host.wf ∧ ∀ x ∈ t.host, x.1 < hostSize t.params)
  (hw : t.wc = s.wc) : Inv t :=
  h.around hp hl hc ha hk ho hr ⟨id, by simp [hb], fun _ => ⟨rfl, fun _ => Iff.rfl⟩⟩ hs he hh
    (by rw [hw, hp]; exact h.cycle) (fun n => by rw [hw]; exact id)

/-- `Inv` reads neither the agenda, nor the draws, nor the log, nor the inputs. -/
theorem Inv.congr {s t : State} (h : Inv s) (hp : t.params = s.params) (hl : t.ports = s.ports)
    (ha : t.attachState = s.attachState) (hk : t.locked = s.locked)
  (ho : t.lockOwner = s.lockOwner) (hr : t.rmValid = s.rmValid) (hb : t.bus = s.bus)
  (hs : t.settleCnt = s.settleCnt)
  (he : t.eeprom = s.eeprom) (hh : t.host = s.host) (hw : t.wc = s.wc) : Inv t :=
  h.env hp (by rw [hl])
    (fun q => by rw [port_congr hl]; exact coreEq.refl _) ha hk ho hr hb hs (by rw [he]; exact ⟨h.eepromWf, h.eepromIn⟩) (by rw [hh, hp]; exact ⟨h.hostWf, h.hostIn⟩) hw

/-! The environment and the clock. -/

theorem Inv.present {s : State} (h : Inv s) (p d) : Inv (present p d s) := by
  refine h.env rfl (by simp [Machine.present])
    (fun q => ?_) rfl rfl rfl rfl rfl rfl ⟨h.eepromWf, h.eepromIn⟩ ⟨h.hostWf, h.hostIn⟩ rfl
  unfold Machine.present; refine coreEq_setPort ?_ q; exact ⟨rfl,rfl,rfl,rfl,rfl,rfl,rfl⟩

theorem Inv.setInputs {s : State} (h : Inv s) (a b) : Inv (setInputs a b s) :=
  h.env rfl rfl (fun _ => coreEq.refl _) rfl rfl rfl rfl rfl rfl ⟨h.eepromWf, h.eepromIn⟩
    ⟨h.hostWf, h.hostIn⟩ rfl

/-- The marks of a host race change no field of a context. -/
theorem markHostRace_core (f : Latch → Bool) (r : Nat × Nat) (s : State) (q : Nat) :
    coreEq ((markHostRace f r s).port q) (s.port q) := by
  by_cases hq : q < s.ports.length
  · unfold markHostRace
    rw [port_map _ _ _ hq]
    generalize ((s.port q).ph != Phase.idle && f (s.port q).d &&
      overlaps (s.port q).d.buffer r) = z
    cases z
    · exact coreEq.refl _
    · exact ⟨rfl, rfl, rfl, rfl, rfl, rfl, rfl⟩
  · rw [port_of_ge _ (by simpa [markHostRace] using hq), port_of_ge s (by simpa using hq)]
    exact coreEq.refl _

/-- The request of a WRITE in flight lies in the array. -/
theorem write_in_array {s : State} (h : Inv s) {c : Port} (hc : c ∈ s.ports) (hp : c.ph ≠ .idle)
    (h4 : c.d.op = 4) : c.d.offset.toNat + c.d.length.toNat ≤ capacity := by
  obtain ⟨p, hp', rfl⟩ := List.getElem_of_mem hc
  have e : s.port p = s.ports[p] := by simp [State.port, List.getD, List.getElem?_eq_getElem hp']
  have hk := h.phases p hp'
  rw [e] at hk
  have hacc : acceptedOk s.params s.ports[p].d := by
    have ht : s.ports[p].d.isTransfer = true := by simp [Latch.isTransfer, h4]
    unfold portOk at hk
    cases hph : s.ports[p].ph <;> rw [hph] at hk hp <;> dsimp only at hk
    · exact absurd rfl hp
    · exact hk.2 ht
    · exact hk.2 ht
    · rcases hk with ⟨e1, -⟩ | ⟨-, hk, -⟩
      · rw [h4] at e1; cases e1
      · exact hk
    · exact hk.2.1
    · rcases hk.2 with ⟨e1, -⟩ | ⟨e1, -⟩ <;> rw [h4] at e1 <;> cases e1
  simpa [Latch.inRange] using hacc.2.1

theorem Inv.hostWrite {s : State} (h : Inv s) (a b) : Inv (hostWrite a b s) := by
  unfold Machine.hostWrite
  split
  · rename_i hf
    simp only [hostFits, decide_eq_true_eq] at hf
    obtain ⟨f, ⟨d, hb⟩, hw, ⟨cells, he, hcells⟩, hf'⟩ :=
      raceTaken_spec (a, b.length) (s.fillHost (hostCells s a b))
    have hin : ∀ x ∈ cells, x.1 < capacity := by
      intro x hx
      obtain ⟨c, c1, c2, c3, c4⟩ := hf' _ (hcells x hx)
      have := write_in_array h c1 c2 c3
      have := (takenFrom_iff.1 c4).1
      omega
    refine h.around (by simp [markHostRace]) (by simp [markHostRace]) (fun q => ?_)
      (by simp [markHostRace]) (by simp [markHostRace]) (by simp [markHostRace]) (by simp [markHostRace])
      ⟨BusOp.blur f d, hb, fun op => ⟨busBlur_port _ _ _, fun _ => cmdOk_blur⟩⟩ (by simp [markHostRace])
      ?_ ?_ ?_ (fun n hn => ?_)
    · have := markHostRace_core Latch.isTransfer (a, b.length) (raceTaken (a, b.length) (s.fillHost (hostCells s a b))) q
      rwa [port_congr (s := raceTaken _ _) (t := s) (by simp) q] at this
    · show (raceTaken _ _).eeprom.wf ∧ _
      have he' : (markHostRace Latch.isTransfer (a, b.length)
        (raceTaken (a, b.length) (s.fillHost (hostCells s a b)))).eeprom
        = (fill cells s.eeprom (s.fillHost (hostCells s a b)).draws).1 := he
      rw [he']
      exact ⟨by rw [he]; exact fill_wf _ h.eepromWf _, fill_bound _ h.eepromIn hin _⟩
    · have : (markHostRace Latch.isTransfer (a, b.length)
        (raceTaken (a, b.length) (s.fillHost (hostCells s a b)))).host
        = (fill (hostCells s a b) s.host s.draws).1 := by simp [markHostRace]
      rw [this]
      rw [show (markHostRace Latch.isTransfer (a, b.length) (raceTaken (a, b.length)
        (s.fillHost (hostCells s a b)))).params = s.params by simp [markHostRace]]
      refine ⟨fill_wf _ h.hostWf _, fill_bound _ h.hostIn (fun c hc => ?_) _⟩
      have := (mem_hostCells hc).2; omega
    · show cycleOk _ (raceTaken _ _).wc
      rw [hw]; exact cycleOk_blur (by simpa [markHostRace] using h.cycle)
    · show cycleWithin n (raceTaken _ _).wc
      rw [hw]; exact cycleWithin_blur.2 hn
  · exact h

theorem Inv.hostRead {s : State} (h : Inv s) (a n) : Inv (hostRead a n s) := by
  obtain ⟨v, d, m, ps, e, hl, hq⟩ := hostRead_frame a n s
  obtain ⟨cells, d', hm, hcells⟩ := hostRead_host a n s
  have hin : ∀ x ∈ cells, x.1 < hostSize s.params := fun x hx => by
    obtain ⟨h1, h2⟩ := hcells x hx
    have := (mem_readCells h1).1
    simp only [hostFits, decide_eq_true_eq] at h2
    omega
  refine h.around (by rw [e]) (by rw [e]; exact hl) (fun q => ?_) (by rw [e]) (by rw [e]) (by rw [e])
    (by rw [e]) ⟨id, by rw [e]; simp, fun op => ⟨rfl, fun _ => Iff.rfl⟩⟩ (by rw [e])
    (by rw [e]; exact ⟨h.eepromWf, h.eepromIn⟩) ⟨?_, ?_⟩ (by rw [e]; exact h.cycle)
    (fun k hk => by rw [e]; exact hk)
  · obtain ⟨r, hr⟩ := hq q
    rw [hr]; exact ⟨rfl, rfl, rfl, rfl, rfl, rfl, rfl⟩
  · rw [hm]; exact fill_wf _ h.hostWf _
  · rw [hm, show (Machine.hostRead a n s).params = s.params by rw [e]]
    exact fill_bound _ h.hostIn hin _

theorem Inv.lateCollab {s : State} (h : Inv s) (k) : Inv (lateCollab k s) := by
  unfold Machine.lateCollab
  split
  · exact h
  · exact h.congr rfl rfl rfl rfl rfl rfl rfl rfl rfl rfl rfl

theorem Inv.discardRegistration {s : State} (h : Inv s) : Inv (discardRegistration s) :=
  h.congr rfl rfl rfl rfl rfl rfl rfl rfl rfl rfl rfl

/-- What `Inv` says of a running write cycle. -/
theorem busy_ok {s : State} (h : Inv s) {t cells} (hw : s.wc = .busy t cells) : 1 ≤ t ∧
    t ≤ s.params.tWc ∧ ∀ c ∈ cells, c.1 < capacity := by
  have := h.cycle; rw [hw] at this; exact this

theorem Inv.tick {s : State} (h : Inv s) : Inv (tick s) := by
  have hph : ∀ q, (Machine.tick s).port q = s.port q := fun q => by simp
  have hc := h.cycle
  have key : (tickDevice s).eeprom.wf ∧ (∀ x ∈ (tickDevice s).eeprom, x.1 < capacity) ∧
    cycleOk s.params (tickDevice s).wc ∧
    (∀ n, cycleWithin n s.wc → cycleWithin (n-1) (tickDevice s).wc) := by
    unfold tickDevice
    cases hw : s.wc with
    | idle => exact ⟨h.eepromWf, h.eepromIn, by simp [hw, cycleOk],
      fun n _ => by simp [hw, cycleWithin]⟩
    | busy t cells =>
      have := busy_ok h hw
      dsimp only
      split
      · exact ⟨fill_wf _ h.eepromWf _, fill_bound _ h.eepromIn this.2.2 _, trivial, fun n _ => trivial⟩
      · refine ⟨h.eepromWf, h.eepromIn, ⟨by omega, by omega, this.2.2⟩, fun n hn => ?_⟩
        have hn' : t ≤ n := hn
        show t - 1 ≤ n - 1; omega
  exact {
    params := by simpa using h.params
    nPorts := by simpa using h.nPorts
    ownerClear := by simpa using h.ownerClear
    settleOwner := by intro hn; have := h.settleOwner (by simp at hn; omega); simpa using this
    rmValid := by simpa using h.rmValid
    busIssuer := by simpa using h.busIssuer
    busWait := by simpa using h.busWait
    lockHeld := by simpa using h.lockHeld
    lockOwned := by simpa using h.lockOwned
    phases := by simpa using h.phases
    widths := by simpa using h.widths
    oneCollab := by simpa using h.oneCollab
    settleBound := by have := h.settleBound; simp; omega
    eepromWf := by simpa using key.1
    eepromIn := by simpa using key.2.1
    hostWf := by simpa using h.hostWf
    hostIn := by simpa using h.hostIn
    cycle := by simpa using key.2.2.1
    settleLong := by intro p hp hs; simp at *; exact key.2.2.2 _ (h.settleLong p hp hs) }

/-! The device. -/

theorem writeRange_lt {a n : Nat} (h : a + n ≤ capacity) (hn : 0 < n) :
    (writeRange a n).1 + (writeRange a n).2 ≤ capacity := by
  unfold writeRange; split
  · exact h
  · simp only [page, capacity] at *; omega

/-- Filling cells inside the array keeps the form of the EEPROM. -/
theorem fillEeprom_dev {s : State} (h : s.eeprom.wf ∧ ∀ x ∈ s.eeprom, x.1 < capacity) {cs}
    (hc : ∀ c ∈ cs, c.1 < capacity) :
   (s.fillEeprom cs).eeprom.wf ∧
   ∀ x ∈ (s.fillEeprom cs).eeprom, x.1 < capacity := ⟨fill_wf _ h.1 _, fill_bound _ h.2 hc _⟩

theorem anyCells_lt {r : Nat × Nat} (h : r.1 + r.2 ≤ capacity) :
    ∀ c ∈ anyCells r.1 r.2, c.1 < capacity := fun c hc => by
  have := mem_anyCells hc; omega

/-- A failed write inside the array keeps the form of the EEPROM and of the write cycle. -/
theorem failedWrite_dev {s : State} (h : Inv s) {a n c} (ha : a + n ≤ capacity) (hn : 0 < n) :
   ((failedWrite a n c s).eeprom.wf ∧ ∀ x ∈ (failedWrite a n c s).eeprom, x.1 < capacity) ∧
   cycleOk s.params (failedWrite a n c s).wc := by
  have hr := writeRange_lt ha hn
  have hE := fillEeprom_dev (s := s) ⟨h.eepromWf, h.eepromIn⟩ (anyCells_lt hr)
  have hc := h.cycle
  have h1 : (failedWrite a n c s).eeprom = (s.fillEeprom (anyCells (writeRange a n).1 (writeRange a n).2)).eeprom := by
    unfold failedWrite maybeCycle; (repeat' split) <;> rfl
  refine ⟨by rw [h1]; exact hE, ?_⟩
  unfold failedWrite maybeCycle
  cases hw : s.wc with
  | busy t cells =>
    have : (havoc (writeRange a n) s).wc = .busy t cells := hw
    rw [this]; simp only [this]; exact hw ▸ hc
  | idle =>
    have : (havoc (writeRange a n) s).wc = .idle := hw
    rw [this]; dsimp only
    by_cases hz : min c.cycle s.params.tWc = 0
    · rw [if_pos (by exact hz)]; rw [this]; trivial
    · rw [if_neg (by exact hz)]; exact ⟨by simp only [havoc_params]; omega,
        by simp only [havoc_params]; omega, anyCells_lt hr⟩

theorem startCycle_dev {s : State} (h : Inv s) {t cs} (hc : ∀ c ∈ cs, c.1 < capacity)
    (ht : t ≤ s.params.tWc) :
   ((startCycle t cs s).eeprom.wf ∧ ∀ x ∈ (startCycle t cs s).eeprom, x.1 < capacity) ∧
   cycleOk s.params (startCycle t cs s).wc := by
  unfold startCycle; split
  · exact ⟨fillEeprom_dev ⟨h.eepromWf, h.eepromIn⟩ hc, trivial⟩
  · exact ⟨⟨h.eepromWf, h.eepromIn⟩, by omega, ht, hc⟩

theorem okWrite_dev {s : State} (h : Inv s) {hit a b} (ha : a + b.length ≤ capacity)
    (hn : 0 < b.length) :
   ((okWrite hit a b s).eeprom.wf ∧ ∀ x ∈ (okWrite hit a b s).eeprom, x.1 < capacity) ∧
   cycleOk s.params (okWrite hit a b s).wc := by
  have hr := writeRange_lt ha hn
  unfold okWrite; split
  · exact failedWrite_dev h ha hn
  · split
    · exact ⟨fillEeprom_dev ⟨h.eepromWf, h.eepromIn⟩ (anyCells_lt hr), h.cycle⟩
    · split
      · exact startCycle_dev h (fun c hc => by have := mem_byteCells hc; omega) le_rfl
      · exact startCycle_dev h (anyCells_lt hr) le_rfl

/-- A loss of power leaves no write cycle longer than the one it met. -/
theorem Inv.powerLoss {s : State} (h : Inv s) (c) : Inv (powerLoss c s) := by
  obtain ⟨e, w, d, hf⟩ := powerLoss_frame c s
  have key : ((Machine.powerLoss c s).eeprom.wf ∧ ∀ x ∈ (Machine.powerLoss c s).eeprom, x.1 < capacity) ∧
      cycleOk s.params (Machine.powerLoss c s).wc ∧
      ∀ n, cycleWithin n s.wc → cycleWithin n (Machine.powerLoss c s).wc := by
    cases hw : s.wc with
    | idle =>
      obtain ⟨he, hc⟩ := powerLoss_idle (c := c) hw
      rw [he, hc]; exact ⟨⟨h.eepromWf, h.eepromIn⟩, trivial, fun _ _ => trivial⟩
    | busy t cells =>
      obtain ⟨he, hc⟩ := powerLoss_busy (c := c) hw
      obtain ⟨-, h2, h3⟩ := busy_ok h hw
      have hin : ∀ x ∈ cells.map (fun x => (x.1, (none : Option Byte))), x.1 < capacity := fun x hx => by
        obtain ⟨y, hy, rfl⟩ := List.mem_map.1 hx; exact h3 y hy
      obtain ⟨k1, k2⟩ := startCycle_dev h hin (show min c.cycle t ≤ s.params.tWc by omega)
      rw [he, hc]
      refine ⟨k1, k2, fun n (hn : t ≤ n) => ?_⟩
      unfold startCycle; split
      · trivial
      · show min c.cycle t ≤ n; omega
  rw [hf] at key ⊢
  exact h.around rfl rfl (fun q => coreEq.refl _) rfl rfl rfl rfl
    ⟨_, rfl, fun op => ⟨rfl, fun _ => Iff.rfl⟩⟩ rfl key.1 ⟨h.hostWf, h.hostIn⟩ key.2.1 key.2.2

theorem readEffect_dev {s : State} (h : Inv s) {a n} (ha : a + n ≤ capacity) :
   ((readEffect a n s).eeprom.wf ∧ ∀ x ∈ (readEffect a n s).eeprom, x.1 < capacity) := by
  unfold readEffect; split
  · exact fillEeprom_dev ⟨h.eepromWf, h.eepromIn⟩ (anyCells_lt (r := (a, n)) ha)
  · exact ⟨h.eepromWf, h.eepromIn⟩

/-- An outstanding operation lies inside the array. -/
theorem bus_in_array {s : State} (h : Inv s) {op} (hb : s.bus = some op) :
   match op.cmd with
    | .recv _ => True
    | .read a n => a + n ≤ capacity ∧ 0 < n
    | .write a b => a + b.length ≤ capacity ∧ 0 < b.length := by
  have h1 := h.busIssuer op hb
  obtain ⟨op', h2, h3, h4⟩ := h.busWait _ h1.1 h1.2
  rw [hb] at h2; obtain rfl := Option.some.inj h2
  have h5 := h.phases _ h1.1
  unfold portOk at h5; rw [h1.2] at h5
  simp only at h5
  rcases h5 with ⟨e, -, -⟩ | ⟨-, hacc, hcur, -⟩
  · cases hc : op.cmd <;> rw [hc] at h4 <;> simp_all [cmdOk]
  · obtain ⟨c1, c2, c3, c4, c5, c6⟩ := hcur
    obtain ⟨a1, a2, a3⟩ := hacc
    simp only [Latch.inRange, decide_eq_true_eq] at a2
    have := chunkLen_pos (pol := s.params.policy) (cur := (s.port op.port).cur) c4
    have := chunkLen_le (pol := s.params.policy) (cur := (s.port op.port).cur)
      (rem := (s.port op.port).rem)
    cases hc : op.cmd <;> rw [hc] at h4 <;> simp_all [cmdOk] <;> omega

/-! The block reset. -/

theorem dropBus_frame (c : Choice) (s : State) : (dropBus c s).params = s.params ∧
    (dropBus c s).ports = s.ports ∧ (dropBus c s).bus = none ∧ (dropBus c s).host = s.host := by
  unfold dropBus
  split <;> simp_all

theorem dropBus_dev {s : State} (h : Inv s) (c) :
    ((dropBus c s).eeprom.wf ∧ ∀ x ∈ (dropBus c s).eeprom, x.1 < capacity) ∧
    cycleOk s.params (dropBus c s).wc := by
  unfold dropBus
  split
  · exact ⟨⟨h.eepromWf, h.eepromIn⟩, h.cycle⟩
  · exact ⟨⟨h.eepromWf, h.eepromIn⟩, h.cycle⟩
  · rename_i p d a n hit hb
    have := bus_in_array h hb
    simp only at this
    refine ⟨?_, ?_⟩
    · simpa using readEffect_dev h this.1
    · simpa using h.cycle
  · rename_i p d a n hit hb
    have := bus_in_array h hb
    simp only at this
    simpa using failedWrite_dev h (c := c) this.1 this.2

theorem dropCollab_frame (c : Choice) (s : State) : (dropCollab c s).params = s.params ∧
    (dropCollab c s).ports = s.ports ∧ (dropCollab c s).bus = s.bus ∧ (dropCollab c s).host = s.host ∧
    (dropCollab c s).eeprom = s.eeprom ∧ (dropCollab c s).wc = s.wc := by
  unfold dropCollab
  split
  · simp
  · split
    · obtain ⟨h1, h2, h3, h4, h5, h6, -⟩ := cutOff_frame c .register (s.addLog (.reg ‹_› capacity wordSize .lost))
      exact ⟨h1, h2, h3, h4, h5, h6⟩
    · obtain ⟨h1, h2, h3, h4, h5, h6, -⟩ := cutOff_frame c .unregister (s.addLog (.unreg ‹_›))
      exact ⟨h1, h2, h3, h4, h5, h6⟩

theorem Inv.blockReset {s : State} (h : Inv s) (c) : Inv (blockReset c s) := by
  obtain ⟨f1, f2, f3, f4⟩ := dropBus_frame c s
  obtain ⟨g1, g2, g3, g4, g5, g6⟩ := dropCollab_frame c (dropBus c s)
  obtain ⟨d1, d2⟩ := dropBus_dev h c
  have hports : (Machine.blockReset c s).ports = s.ports.map Port.resetContext := by
    simp [Machine.blockReset, resetBlock, g2, f2]
  have hl : (Machine.blockReset c s).ports.length = s.ports.length := by simp [hports]
  have hport : ∀ q, coreEq ((Machine.blockReset c s).port q) Port.reset := by
    intro q
    by_cases hq : q < s.ports.length
    · have : (Machine.blockReset c s).port q = Port.resetContext (s.port q) := by
        simp [State.port, hports, List.getD, List.getElem?_eq_getElem hq]
      rw [this]; exact ⟨rfl,rfl,rfl,rfl,rfl,rfl,rfl⟩
    · rw [port_of_ge _ (by simpa [hl] using hq)]; exact coreEq.refl _
  have hph : ∀ q, ((Machine.blockReset c s).port q).ph = .idle := fun q => (hport q).1
  have hpar : (Machine.blockReset c s).params = s.params := by simp [Machine.blockReset, resetBlock,
    g1, f1]
  exact {
    params := by rw [hpar]; exact h.params
    nPorts := by rw [hl, hpar]; exact h.nPorts
    ownerClear := fun _ => rfl
    settleOwner := fun h => absurd rfl h
    rmValid := by simp [Machine.blockReset, resetBlock]
    busIssuer := by intro op ho; simp [Machine.blockReset, resetBlock, g3, f3] at ho
    busWait := by intro p hp e; simp [hph] at e
    lockHeld := by intro p hp e; simp [hph, holdsLock] at e
    lockOwned := fun h => by cases h
    phases := by intro p hp; simp [portOk, hph]
    widths := by intro p hp; rw [widthsOk_congr (hport p)]; simp [widthsOk, Port.reset]
    oneCollab := by intro p hp q hq e; simp [hph] at e
    settleBound := Nat.zero_le _
    eepromWf := by simp only [Machine.blockReset, resetBlock, g5]; exact d1.1
    eepromIn := by simp only [Machine.blockReset, resetBlock, g5]; exact d1.2
    hostWf := by simp only [Machine.blockReset, resetBlock, g4, f4]; exact h.hostWf
    hostIn := by simp only [Machine.blockReset, resetBlock, g4, f4, g1, f1]; exact h.hostIn
    cycle := by simp only [Machine.blockReset, resetBlock, g6, g1, f1]; exact d2
    settleLong := by intro p hp e; simp [hph] at e }

/-! Steps of a context, by what it holds. -/

theorem holds_collab {ph : Phase} (h : holdsLock ph = true) : ph ≠ .collab ∧ ph ≠ .idle ∧
    ph ≠ .waitLock := by
  cases ph <;> simp_all [holdsLock]

/-- What `portOk` says of a context without the lock and outside COLLAB does not depend on ATTACH_STATE. -/
theorem portOk_no_lock {P st st' c} (h : holdsLock c.ph = false) (h' : c.ph ≠ .collab)
    (hk : portOk P st c) : portOk P st' c := by
  unfold portOk at *
  cases hph : c.ph <;> rw [hph] at h h' hk <;> dsimp only at hk ⊢
  · exact hk
  all_goals first | exact absurd rfl h' | cases h

/-- While ATTACHING or DETACHING, what `portOk` says of a context outside COLLAB holds in every
ATTACH_STATE. -/
theorem portOk_no_collab {P st st' c} (h : st = .attaching ∨ st = .detaching) (h' : c.ph ≠ .collab)
    (hk : portOk P st c) : portOk P st' c := by
  unfold portOk at *
  cases hph : c.ph <;> rw [hph] at h' hk <;> dsimp only at hk ⊢
  · exact hk
  · exact hk
  · rcases hk with ⟨-, -, e⟩ | ⟨-, -, -, e⟩ <;> subst e <;> rcases h with h | h <;> cases h
  · obtain ⟨-, -, -, e⟩ := hk; subst e; rcases h with h | h <;> cases h
  · exact absurd rfl h'

theorem lifecycle_absurd {s : AttachState} {P : Prop} (h : s = .attaching ∨ s = .detaching)
    (h' : s ≠ .attaching ∧ s ≠ .detaching) : P := by
  rcases h with h | h
  · exact absurd h h'.1
  · exact absurd h h'.2

/-- A context in COLLAB means ATTACHING or DETACHING. -/
theorem collab_state {s : State} (h : Inv s) {q} (hq : q < s.ports.length)
    (hc : (s.port q).ph = .collab) : s.attachState = .attaching ∨ s.attachState = .detaching := by
  have := h.phases q hq; unfold portOk at this; rw [hc] at this; simp only at this; tauto

/-- With a lock owner, no other context holds the lock. -/
theorem other_no_lock {s : State} (h : Inv s) {p} (hp : p < s.ports.length)
    (ho : holdsLock (s.port p).ph = true) {q} (hq : q < s.ports.length) (hne : q ≠ p) :
    holdsLock (s.port q).ph = false := by
  by_contra hc
  have hc : holdsLock (s.port q).ph = true := by simpa using hc
  have h1 := (h.lockHeld p hp ho).2
  have h2 := (h.lockHeld q hq hc).2
  omega

/-- Port numbers fit LOCK_OWNER. -/
theorem port_lt_256 {s : State} (h : Inv s) {p} (hp : p < s.ports.length) : p < 256 := by
  have := h.params.1; simp [Params.portsOk] at this; have := h.nPorts; omega

/-- `ownedBy` is the phase's `holdsLock`. -/
theorem owned_iff {s : State} (h : Inv s) {p} (hp : p < s.ports.length) :
    s.ownedBy p = holdsLock (s.port p).ph := by
  cases hh : holdsLock (s.port p).ph
  · by_contra hc
    simp only [State.ownedBy, Bool.not_eq_false, Bool.and_eq_true, beq_iff_eq] at hc
    have h1 := h.lockOwned hc.1
    rw [hc.2, toNat_ofNat8 (port_lt_256 h hp)] at h1
    rw [hh] at h1; cases h1.2
  · have h1 := h.lockHeld p hp hh
    simp only [State.ownedBy, Bool.and_eq_true, beq_iff_eq]
    exact ⟨h1.1, by rw [← h1.2]; simp⟩

/-- The settle count is 0 unless the lock owner settles. -/
theorem settleCnt_of_owner {s : State} (h : Inv s) {p} (hp : p < s.ports.length)
    (ho : holdsLock (s.port p).ph = true) (hn : (s.port p).ph ≠ .settle) : s.settleCnt = 0 := by
  by_contra e
  have h1 := h.settleOwner e
  have h2 := h.lockHeld p hp ho
  rw [h2.2] at h1; exact hn h1.2

/-- No operation is outstanding unless the lock owner is in BUS. -/
theorem bus_of_owner {s : State} (h : Inv s) {p} (hp : p < s.ports.length)
    (ho : holdsLock (s.port p).ph = true) (hn : (s.port p).ph ≠ .bus) : s.bus = none := by
  cases hb : s.bus with
  | none => rfl
  | some op =>
    have h1 := h.busIssuer op hb
    have h2 := h.lockHeld _ h1.1 (by rw [h1.2]; rfl)
    have h3 := h.lockHeld p hp ho
    rw [← h2.2, h3.2] at h1; exact absurd h1.2 hn

/-- A step of the lock owner keeps `Inv`: what has to be checked. -/
theorem Inv.owner {s t : State} {p : Nat} (h : Inv s) (hp : p < s.ports.length)
    (ho : holdsLock (s.port p).ph = true)
    (hpar : t.params = s.params) (hlen : t.ports.length = s.ports.length)
    (hq : ∀ q, q ≠ p → coreEq (t.port q) (s.port q))
    (hlock : (holdsLock (t.port p).ph = true ∧ t.locked = s.locked ∧ t.lockOwner = s.lockOwner) ∨
             (holdsLock (t.port p).ph = false ∧ t.locked = false ∧ t.lockOwner = 0))
    (hphase : portOk s.params t.attachState (t.port p)) (hwid : widthsOk s.params (t.port p))
    (hrm : t.rmValid = true ↔ t.attachState ≠ .detached)
    (hatt : t.attachState = s.attachState ∨ (s.attachState ≠ .attaching ∧ s.attachState ≠ .detaching))
    (hcol : (t.port p).ph = .collab → (s.attachState ≠ .attaching ∧ s.attachState ≠ .detaching))
    (hbus : ((t.port p).ph ≠ .bus ∧ t.bus = none) ∨ ((t.port p).ph = .bus ∧ ∃ op, t.bus = some op ∧ op.port = p ∧ cmdOk (t.port p) op.cmd))
    (hset : ((t.port p).ph ≠ .settle ∧ t.settleCnt = 0) ∨ ((t.port p).ph = .settle ∧ t.settleCnt ≤ settleMax s.params ∧ cycleWithin t.settleCnt t.wc))
    (he : t.eeprom.wf ∧ ∀ x ∈ t.eeprom, x.1 < capacity)
    (hh : t.host.wf ∧ ∀ x ∈ t.host, x.1 < hostSize s.params)
    (hw : cycleOk s.params t.wc) : Inv t := by
  have hlk := h.lockHeld p hp ho
  have hfree : ∀ q, q < s.ports.length → q ≠ p → holdsLock (t.port q).ph = false := fun q a b => by
    rw [(hq q b).1]; exact other_no_lock h hp ho a b
  have hown : t.locked = true → t.lockOwner.toNat = p ∧ holdsLock (t.port p).ph = true := by
    intro e; rcases hlock with ⟨a, b, c⟩ | ⟨a, b, c⟩
    · exact ⟨by rw [c]; exact hlk.2, a⟩
    · rw [b] at e; cases e
  exact {
    params := by rw [hpar]; exact h.params
    nPorts := by rw [hlen, hpar]; exact h.nPorts
    ownerClear := by
      intro e; rcases hlock with ⟨a, b, c⟩ | ⟨a, b, c⟩
      · rw [b, hlk.1] at e; cases e
      · exact c
    settleOwner := by
      intro e; rcases hset with ⟨a, b⟩ | ⟨a, b⟩
      · exact absurd b e
      · rcases hlock with ⟨a', b', c⟩ | ⟨a', b', c⟩
        · exact ⟨by rw [b']; exact hlk.1, by rw [c, hlk.2]; exact a⟩
        · rw [a] at a'; cases a'
    rmValid := hrm
    busIssuer := by
      intro op e; rcases hbus with ⟨a, b⟩ | ⟨a, op', b, c, d⟩
      · rw [b] at e; cases e
      · rw [b] at e; cases e; rw [c, hlen]; exact ⟨hp, a⟩
    busWait := by
      intro q a e
      rw [hlen] at a
      by_cases hqp : q = p
      · subst hqp; rcases hbus with ⟨a, b⟩ | ⟨a, b⟩
        · exact absurd e a
        · exact b
      · have := hfree q a hqp; rw [e] at this; cases this
    lockHeld := by
      intro q a e; rw [hlen] at a
      by_cases hqp : q = p
      · subst hqp; rcases hlock with ⟨a', b, c⟩ | ⟨a', b, c⟩
        · exact ⟨by rw [b]; exact hlk.1, by rw [c]; exact hlk.2⟩
        · rw [e] at a'; cases a'
      · have := hfree q a hqp; rw [e] at this; cases this
    lockOwned := by intro e; rw [hlen, (hown e).1]; exact ⟨hp, (hown e).2⟩
    phases := by
      intro q a; rw [hlen] at a; rw [hpar]
      by_cases hqp : q = p
      · subst hqp; exact hphase
      · rw [portOk_congr (hq q hqp)]
        rcases hatt with e | e
        · rw [e]; exact h.phases q a
        · exact portOk_no_lock (other_no_lock h hp ho a hqp)
            (fun e' => lifecycle_absurd (collab_state h a e') e) (h.phases q a)
    widths := by
      intro q a; rw [hlen] at a; rw [hpar]
      by_cases hqp : q = p
      · subst hqp; exact hwid
      · rw [widthsOk_congr (hq q hqp)]; exact h.widths q a
    oneCollab := by
      intro q a r b e f
      rw [hlen] at a b
      by_cases h1 : q = p <;> by_cases h2 : r = p
      · rw [h1, h2]
      · subst h1; rw [(hq r h2).1] at f; exact lifecycle_absurd (collab_state h b f) (hcol e)
      · subst h2; rw [(hq q h1).1] at e; exact lifecycle_absurd (collab_state h a e) (hcol f)
      · rw [(hq q h1).1] at e; rw [(hq r h2).1] at f; exact h.oneCollab q a r b e f
    settleBound := by
      rw [hpar]; rcases hset with ⟨a, b⟩ | ⟨a, b, c⟩
      · omega
      · exact b
    eepromWf := he.1
    eepromIn := he.2
    hostWf := hh.1
    hostIn := by rw [hpar]; exact hh.2
    cycle := by rw [hpar]; exact hw
    settleLong := by
      intro q a e; rw [hlen] at a
      by_cases hqp : q = p
      · subst hqp; rcases hset with ⟨a, b⟩ | ⟨a, b, c⟩
        · exact absurd e a
        · exact c
      · have := hfree q a hqp; rw [e] at this; cases this }

/-- A step of a context that holds the lock neither before nor after keeps `Inv`: what has to be checked. -/
theorem Inv.nonOwner {s t : State} {p : Nat} (h : Inv s) (hp : p < s.ports.length)
    (ho : holdsLock (s.port p).ph = false)
    (hpar : t.params = s.params) (hlen : t.ports.length = s.ports.length)
    (hq : ∀ q, q ≠ p → coreEq (t.port q) (s.port q))
    (hph : holdsLock (t.port p).ph = false) (hnc : (t.port p).ph ≠ .collab)
    (hlk : t.locked = s.locked) (how : t.lockOwner = s.lockOwner)
    (hphase : portOk s.params t.attachState (t.port p)) (hwid : widthsOk s.params (t.port p))
    (hatt : (t.attachState = s.attachState ∧ t.rmValid = s.rmValid) ∨
       ((s.port p).ph = .collab ∧ (t.rmValid = true ↔ t.attachState ≠ .detached)))
    (hbus : t.bus = s.bus) (hset : t.settleCnt = s.settleCnt)
    (he : t.eeprom = s.eeprom) (hh : t.host = s.host) (hw : t.wc = s.wc) : Inv t := by
  have hph' : ∀ q, q < s.ports.length → holdsLock (t.port q).ph = true → q ≠ p := by
    intro q a e f; subst f; rw [e] at hph; cases hph
  exact {
    params := by rw [hpar]; exact h.params
    nPorts := by rw [hlen, hpar]; exact h.nPorts
    ownerClear := by rw [hlk, how]; exact h.ownerClear
    settleOwner := by
      rw [hset, hlk, how]; intro e
      have h1 := h.settleOwner e
      have h2 := (h.lockOwned h1.1).2
      have : s.lockOwner.toNat ≠ p := fun f => by rw [f, ho] at h2; cases h2
      rw [(hq _ this).1]; exact h1
    rmValid := by
      rcases hatt with ⟨a, b⟩ | ⟨-, b⟩
      · rw [a, b]; exact h.rmValid
      · exact b
    busIssuer := by
      intro op; rw [hbus]; intro e
      have h1 := h.busIssuer op e
      have : op.port ≠ p := fun f => by have := h1.2; rw [f] at this; rw [this] at ho; cases ho
      rw [hlen, (hq _ this).1]; exact h1
    busWait := by
      intro q a e; rw [hlen] at a
      have hne := hph' q a (by rw [e]; rfl)
      rw [(hq q hne).1] at e
      obtain ⟨op, h1, h2, h3⟩ := h.busWait q a e
      exact ⟨op, by rw [hbus]; exact h1, h2, (cmdOk_congr (hq q hne)).2 h3⟩
    lockHeld := by
      intro q a e; rw [hlen] at a
      have hne := hph' q a e
      rw [(hq q hne).1] at e; rw [hlk, how]; exact h.lockHeld q a e
    lockOwned := by
      rw [hlk, how, hlen]; intro e
      have h1 := h.lockOwned e
      have : s.lockOwner.toNat ≠ p := fun f => by have h2 := h1.2; rw [f, ho] at h2; cases h2
      rw [(hq _ this).1]; exact h1
    phases := by
      intro q a; rw [hlen] at a; rw [hpar]
      by_cases hqp : q = p
      · subst hqp; exact hphase
      · rw [portOk_congr (hq q hqp)]
        rcases hatt with ⟨e, -⟩ | ⟨e, -⟩
        · rw [e]; exact h.phases q a
        · have h2 := h.phases q a
          have h3 := collab_state h hp e
          have h4 : (s.port q).ph ≠ .collab := fun f => hqp (h.oneCollab q a p hp f e)
          exact portOk_no_collab h3 h4 h2
    widths := by
      intro q a; rw [hlen] at a; rw [hpar]
      by_cases hqp : q = p
      · subst hqp; exact hwid
      · rw [widthsOk_congr (hq q hqp)]; exact h.widths q a
    oneCollab := by
      intro q a r b e f
      rw [hlen] at a b
      have h1 : q ≠ p := fun g => by subst g; exact hnc e
      have h2 : r ≠ p := fun g => by subst g; exact hnc f
      rw [(hq q h1).1] at e; rw [(hq r h2).1] at f; exact h.oneCollab q a r b e f
    settleBound := by rw [hpar, hset]; exact h.settleBound
    eepromWf := by rw [he]; exact h.eepromWf
    eepromIn := by rw [he]; exact h.eepromIn
    hostWf := by rw [hh]; exact h.hostWf
    hostIn := by rw [hh, hpar]; exact h.hostIn
    cycle := by rw [hw, hpar]; exact h.cycle
    settleLong := by
      intro q a e; rw [hlen] at a
      have hne := hph' q a (by rw [e]; rfl)
      rw [(hq q hne).1] at e; rw [hset, hw]; exact h.settleLong q a e }

/-- Taking the free lock keeps `Inv`. -/
theorem Inv.takeLock {s : State} (h : Inv s) {p} (hp : p < s.ports.length)
    (hph : (s.port p).ph = .waitLock) (hl : s.locked = false) : Inv (takeLock p s) := by
  have hno : ∀ q, q < s.ports.length → holdsLock (s.port q).ph = false := by
    intro q a; by_contra hc
    have := (h.lockHeld q a (by simpa using hc)).1; rw [hl] at this; cases this
  have hport : ∀ q, q ≠ p →
    (Machine.takeLock p s).port q = s.port q := fun q hq => by rw [takeLock_port,
    if_neg (fun e => hq e.1)]
  have hportp : (Machine.takeLock p s).port p = { s.port p with ph := .active } := by rw [takeLock_port, if_pos ⟨rfl, hp⟩]
  have hP : s.params.nPorts ≤ 256 := by have := h.params.1; simp [Params.portsOk] at this; exact this.2
  have hp8 : (BitVec.ofNat 8 p).toNat = p := toNat_ofNat8 (by have := h.nPorts; omega)
  have hlen : (Machine.takeLock p s).ports.length = s.ports.length := by simp
  have hs0 : s.settleCnt = 0 := by by_contra e; have := (h.settleOwner e).1; rw [hl] at this; cases this
  have hphs := h.phases p hp
  exact {
    params := h.params
    nPorts := by rw [hlen]; exact h.nPorts
    ownerClear := by intro e; cases e
    settleOwner := by intro e; exact absurd hs0 e
    rmValid := h.rmValid
    busIssuer := by
      intro op e
      have h1 := h.busIssuer op e
      have h2 := hno _ h1.1; rw [h1.2] at h2; cases h2
    busWait := by
      intro q a e; rw [hlen] at a
      by_cases hqp : q = p
      · subst hqp; rw [hportp] at e; cases e
      · rw [hport q hqp] at e; have := hno q a; rw [e] at this; cases this
    lockHeld := by
      intro q a e; rw [hlen] at a
      by_cases hqp : q = p
      · subst hqp; exact ⟨rfl, hp8⟩
      · rw [hport q hqp, hno q a] at e; cases e
    lockOwned := by intro _; rw [takeLock_lockOwner, hp8, hlen, hportp]; exact ⟨hp, rfl⟩
    phases := by
      intro q a; rw [hlen] at a
      by_cases hqp : q = p
      · subst hqp; rw [hportp]; unfold portOk at hphs ⊢; rw [hph] at hphs; exact hphs
      · rw [hport q hqp]; exact h.phases q a
    widths := by
      intro q a; rw [hlen] at a
      by_cases hqp : q = p
      · subst hqp; rw [hportp]; exact h.widths q a
      · rw [hport q hqp]; exact h.widths q a
    oneCollab := by
      intro q a r b e f
      rw [hlen] at a b
      have h1 : q ≠ p := fun g => by subst g; rw [hportp] at e; cases e
      have h2 : r ≠ p := fun g => by subst g; rw [hportp] at f; cases f
      rw [hport q h1] at e; rw [hport r h2] at f; exact h.oneCollab q a r b e f
    settleBound := h.settleBound
    eepromWf := h.eepromWf
    eepromIn := h.eepromIn
    hostWf := h.hostWf
    hostIn := h.hostIn
    cycle := h.cycle
    settleLong := by
      intro q a e; rw [hlen] at a
      by_cases hqp : q = p
      · subst hqp; rw [hportp] at e; cases e
      · rw [hport q hqp] at e; have := hno q a; rw [e] at this; cases this }

/-- The end of the lock owner's command, after effects on the device, the host memory and the log. -/
theorem Inv.ownerRaise {s u : State} {p : Nat} (h : Inv s) (hp : p < s.ports.length)
    (ho : holdsLock (s.port p).ph = true)
    (st d) (hpar : u.params = s.params) (hports : u.ports = s.ports) (hlk : u.locked = s.locked)
    (how : u.lockOwner = s.lockOwner)
    (hatt : u.attachState = s.attachState) (hrm : u.rmValid = s.rmValid) (hbus : u.bus = none)
    (hset : u.settleCnt = 0)
    (he : u.eeprom.wf ∧ ∀ x ∈ u.eeprom, x.1 < capacity)
    (hh : u.host.wf ∧ ∀ x ∈ u.host, x.1 < hostSize s.params)
    (hw : cycleOk s.params u.wc) : Inv (raise p st d u) := by
  have hpu : ∀ q, u.port q = s.port q := port_congr hports
  have hlu : p < u.ports.length := by rw [hports]; exact hp
  have hown : u.ownedBy p = true := by
    have := owned_iff h hp; rw [ho] at this
    simp only [State.ownedBy, hlk, how]; simpa only [State.ownedBy] using this
  have hself := raise_self (st := st) (d := d) hlu
  refine h.owner hp ho (by simpa using hpar) (by simp [hports])
    (fun q hq => by rw [raise_other hq, hpu]; exact coreEq.refl _)
    (.inr ⟨by rw [hself]; rfl, by simp [hown], by simp [hown]⟩) ?_ ?_ ?_ (.inl (by simpa using hatt)) ?_ (.inl ⟨?_, by simpa using hbus⟩) (.inl ⟨?_, by simpa using hset⟩)
    (by simpa using he) (by simpa using hh) (by simpa using hw)
  · rw [hself]; simp [portOk]
  · rw [hself, hpu]; exact h.widths p hp
  · simpa [hrm, hatt] using h.rmValid
  · rw [hself]; intro e; cases e
  · rw [hself]; intro e; cases e
  · rw [hself]; intro e; cases e

/-- The issue of an operation by the lock owner, after its cursor is set. -/
theorem Inv.ownerIssue {s u : State} {p : Nat} (h : Inv s) (hp : p < s.ports.length)
    (ho : holdsLock (s.port p).ph = true)
    (cmd : BusCmd) (hpar : u.params = s.params) (hlen : u.ports.length = s.ports.length)
    (hq : ∀ q, q ≠ p → u.port q = s.port q)
    (hlk : u.locked = s.locked) (how : u.lockOwner = s.lockOwner)
    (hatt : u.attachState = s.attachState) (hrm : u.rmValid = s.rmValid) (hset : u.settleCnt = 0)
    (he : u.eeprom.wf ∧ ∀ x ∈ u.eeprom, x.1 < capacity)
    (hh : u.host.wf ∧ ∀ x ∈ u.host, x.1 < hostSize s.params)
    (hw : cycleOk s.params u.wc)
    (hphase : portOk s.params s.attachState { u.port p with ph := .bus })
    (hwid : widthsOk s.params (u.port p))
    (hcmd : cmdOk (u.port p) cmd) : Inv (issue p cmd u) := by
  have hlu : p < u.ports.length := by rw [hlen]; exact hp
  have hself : (issue p cmd u).port p = { u.port p with ph := .bus } := by rw [issue_port,
    if_pos ⟨rfl, hlu⟩]
  refine h.owner hp ho (by simpa using hpar) (by simp [hlen])
    (fun q hq' => by rw [issue_port, if_neg (fun e => hq' e.1), hq q hq']; exact coreEq.refl _)
    (.inl ⟨by rw [hself]; rfl, by simp [hlk], by simp [how]⟩) ?_ ?_ ?_ (.inl (by simpa using hatt)) ?_ (.inr ⟨?_, ⟨p, u.devAddr, cmd, u.wc.isBusy⟩, rfl, rfl, ?_⟩) (.inl ⟨?_, by simpa using hset⟩)
    (by simpa using he) (by simpa using hh) ?_
  · rw [hself]; simpa [hatt] using hphase
  · rw [hself]; exact hwid
  · simpa [hrm, hatt] using h.rmValid
  · rw [hself]; intro e; cases e
  · rw [hself]
  · rw [hself]; cases cmd <;> exact hcmd
  · rw [hself]; intro e; cases e
  · rw [issue_wc]; revert hw
    cases u.wc with
    | idle => intro _; trivial
    | busy t cells =>
      rintro ⟨a, b, c⟩
      refine ⟨a, b, ?_⟩
      intro x hx
      obtain ⟨y, hy, rfl⟩ := List.mem_map.1 hx
      exact c y hy

/-- The end of a command without the lock. -/
theorem Inv.freeRaise {s : State} {p : Nat} (h : Inv s) (hp : p < s.ports.length)
    (ho : holdsLock (s.port p).ph = false) (st d) (u : State)
    (hpar : u.params = s.params) (hlen : u.ports.length = s.ports.length)
    (hq : ∀ q, q ≠ p → u.port q = s.port q)
    (hwid : widthsOk s.params (u.port p))
    (hlk : u.locked = s.locked) (how : u.lockOwner = s.lockOwner)
    (hatt : (u.attachState = s.attachState ∧ u.rmValid = s.rmValid) ∨
       ((s.port p).ph = .collab ∧ (u.rmValid = true ↔ u.attachState ≠ .detached)))
    (hbus : u.bus = s.bus) (hset : u.settleCnt = s.settleCnt)
    (he : u.eeprom = s.eeprom) (hh : u.host = s.host) (hw : u.wc = s.wc) : Inv (raise p st d u) := by
  have hlu : p < u.ports.length := by rw [hlen]; exact hp
  have hown : u.ownedBy p = false := by
    have := owned_iff h hp; rw [ho] at this
    simp only [State.ownedBy, hlk, how]; simpa only [State.ownedBy] using this
  have hself := raise_self (st := st) (d := d) hlu
  refine h.nonOwner hp ho (by simpa using hpar) (by simp [hlen])
    (fun q hq' => by rw [raise_other hq', hq q hq']; exact coreEq.refl _)
    (by rw [hself]; rfl) (by rw [hself]; intro e; cases e) (by simp [hown, hlk])
    (by simp [hown, how]) ?_ ?_ (by simpa using hatt) (by simpa using hbus) (by simpa using hset)
    (by simpa using he) (by simpa using hh) (by simpa using hw)
  · rw [hself]; simp [portOk]
  · rw [hself]; exact hwid

/-- The step to WAIT_LOCK. -/
theorem Inv.toWait {s : State} {p : Nat} (h : Inv s) (hp : p < s.ports.length)
    (ho : holdsLock (s.port p).ph = false) (u : State)
    (hpar : u.params = s.params) (hlen : u.ports.length = s.ports.length)
    (hq : ∀ q, q ≠ p → coreEq (u.port q) (s.port q))
    (hphase : portOk s.params s.attachState { u.port p with ph := .waitLock })
    (hwid : widthsOk s.params (u.port p))
    (hlk : u.locked = s.locked) (how : u.lockOwner = s.lockOwner)
    (hatt : (u.attachState = s.attachState ∧ u.rmValid = s.rmValid))
    (hbus : u.bus = s.bus) (hset : u.settleCnt = s.settleCnt)
    (he : u.eeprom = s.eeprom) (hh : u.host = s.host) (hw : u.wc = s.wc) : Inv (u.setPhase p .waitLock)
    := by
  have hlu : p < u.ports.length := by rw [hlen]; exact hp
  have hself : (u.setPhase p .waitLock).port p = { u.port p with ph := .waitLock } := by rw [setPhase_port, if_pos ⟨rfl, hlu⟩]
  refine h.nonOwner hp ho (by simpa using hpar) (by simp [hlen])
    (fun q hq' => by rw [setPhase_port, if_neg (fun e => hq' e.1)]; exact hq q hq')
    (by rw [hself]; rfl) (by rw [hself]; intro e; cases e) (by simp [hlk])
    (by simp [how]) ?_ ?_ (.inl (by simpa using hatt)) (by simpa using hbus) (by simpa using hset)
    (by simpa using he) (by simpa using hh) (by simpa using hw)
  · rw [hself]; simpa [hatt.1] using hphase
  · rw [hself]; exact hwid

/-! Acceptance and the lock. -/

theorem acceptLifecycle_inv {s : State} (h : Inv s) {p} (hp : p < s.ports.length)
    (hi : (s.port p).ph = .idle) {i : Instr} (ht : (latchOf i).isTransfer = false) :
    Inv (acceptLifecycle p (latchOf i) s) := by
  unfold acceptLifecycle
  refine h.toWait hp (by rw [hi]; rfl) _ rfl (by simp)
    (fun q hq => by rw [latch_other hq]; exact coreEq.refl _) ?_
    ?_ rfl rfl ⟨rfl, rfl⟩ rfl rfl rfl rfl rfl
  · rw [latch_self hp]; unfold portOk; dsimp only; rw [latchOf_instr]; exact ⟨rfl,
      fun e => by rw [ht] at e; cases e⟩
  · rw [latch_self hp]; exact h.widths p hp

theorem acceptTransfer_inv {s : State} (h : Inv s) {p} (hp : p < s.ports.length)
    (hi : (s.port p).ph = .idle) {i : Instr}  :
    Inv (acceptTransfer p (latchOf i) s) := by
  have hw : widthsOk s.params ((latch p (latchOf i) s).port p) := by rw [latch_self hp]; exact h.widths p hp
  unfold acceptTransfer
  split
  · exact h.freeRaise hp (by rw [hi]; rfl) _ _ _ rfl (by simp)
      (fun q hq => latch_other hq) hw rfl rfl (.inl ⟨rfl, rfl⟩) rfl rfl rfl rfl rfl
  · rename_i hacc
    refine h.toWait hp (by rw [hi]; rfl) _ rfl (by simp) (fun q hq => ?_) ?_
      ?_ rfl rfl ⟨rfl, rfl⟩ rfl rfl rfl rfl rfl
    · obtain ⟨r, hr⟩ := markRaces_port (latch p (latchOf i) s) p q
      rw [hr, latch_other hq]; exact ⟨rfl,rfl,rfl,rfl,rfl,rfl,rfl⟩
    · obtain ⟨r, hr⟩ := markRaces_port (latch p (latchOf i) s) p p
      rw [hr, latch_self hp]; unfold portOk; dsimp only; rw [latchOf_instr]
      refine ⟨rfl, fun _ => ?_⟩
      unfold acceptStatus at hacc
      split at hacc
      · cases hacc
      · split at hacc
        · cases hacc
        · split at hacc
          · cases hacc
          · split at hacc
            · cases hacc
            · rename_i h1 h2 h3 h4
              refine ⟨?_, by simpa using h3, by simpa using h4⟩
              by_contra e
              exact h2 (BitVec.eq_of_toNat_eq (by simpa using e))
    · obtain ⟨r, hr⟩ := markRaces_port (latch p (latchOf i) s) p p
      rw [hr, latch_self hp]; exact h.widths p hp

theorem awaitLock_inv {s : State} (h : Inv s) {p} (hp : p < s.ports.length)
    (hi : (s.port p).ph = .waitLock) : ∃ t, awaitLock p s = .next t ∧ Inv t := by
  unfold awaitLock
  cases hl : s.locked
  · exact ⟨_, rfl, h.takeLock hp hi hl⟩
  · exact ⟨_, rfl, h⟩

theorem selfRaise_inv {s : State} (h : Inv s) {p} (hp : p < s.ports.length)
    (ho : holdsLock (s.port p).ph = true) (hb : (s.port p).ph ≠ .bus) (hs : s.settleCnt = 0) (st d) :
    Inv (raise p st d s) :=
  h.ownerRaise hp ho st d rfl rfl rfl rfl rfl rfl (bus_of_owner h hp ho hb) hs ⟨h.eepromWf, h.eepromIn⟩
    ⟨h.hostWf, h.hostIn⟩ h.cycle

/-! ATTACH and DETACH. -/

theorem attachChecks_inv {s : State} (h : Inv s) {p} (hp : p < s.ports.length)
    (hi : (s.port p).ph = .active) (hd : (s.port p).d.instr? = some .attach) : Inv (attachChecks p s)
    := by
  have ho : holdsLock (s.port p).ph = true := by rw [hi]; rfl
  have hb : (s.port p).ph ≠ .bus := by rw [hi]; intro e; cases e
  have hs : s.settleCnt = 0 := settleCnt_of_owner h hp ho (by rw [hi]; intro e; cases e)
  unfold attachChecks
  split
  · exact selfRaise_inv h hp ho hb hs _ _
  · rename_i hst
    split
    · exact selfRaise_inv h hp ho hb hs _ _
    · refine h.ownerIssue hp ho _ rfl rfl (fun _ _ => rfl) rfl rfl rfl rfl hs ⟨h.eepromWf, h.eepromIn⟩
        ⟨h.hostWf, h.hostIn⟩ h.cycle ?_ (h.widths p hp) ⟨instr_attach hd, rfl⟩
      unfold portOk; dsimp only; exact .inl ⟨instr_attach hd, by rw [hd]; rfl, by simpa using hst⟩

theorem owner_toCollab {s : State} (h : Inv s) {p} (hp : p < s.ports.length)
    (ho : holdsLock (s.port p).ph = true) (u : State)
    (hpar : u.params = s.params) (hports : u.ports = s.ports) (hlk : u.locked = false)
    (how : u.lockOwner = 0) (hbus : u.bus = none) (hset : u.settleCnt = 0)
    (hst : s.attachState ≠ .attaching ∧ s.attachState ≠ .detaching)
    (hrm : u.rmValid = true ↔ u.attachState ≠ .detached)
    (hphase : portOk s.params u.attachState { s.port p with ph := .collab })
    (he : u.eeprom = s.eeprom) (hh : u.host = s.host) (hw : u.wc = s.wc) : Inv (u.setPhase p .collab)
    := by
  have hlu : p < u.ports.length := by rw [hports]; exact hp
  have hself : (u.setPhase p .collab).port p = { s.port p with ph := .collab } := by rw [setPhase_port,
    if_pos ⟨rfl, hlu⟩, port_congr hports]
  refine h.owner hp ho (by simpa using hpar) (by simp [hports])
    (fun q hq => by rw [setPhase_port, if_neg (fun e => hq e.1),
    port_congr hports]; exact coreEq.refl _)
    (.inr ⟨by rw [hself]; rfl, by simp [hlk], by simp [how]⟩) (by rw [hself]; exact hphase)
    (by rw [hself]; exact h.widths p hp) (by simpa using hrm) (.inr hst) (fun _ => hst)
    (.inl ⟨(by rw [hself]; exact fun e => nomatch e), by simpa using hbus⟩)
    (.inl ⟨(by rw [hself]; exact fun e => nomatch e), by simpa using hset⟩)
    (by rw [setPhase_eeprom, he]; exact ⟨h.eepromWf, h.eepromIn⟩)
    (by rw [setPhase_host, hh]; exact ⟨h.hostWf, h.hostIn⟩) (by rw [setPhase_wc, hw]; exact h.cycle)

theorem attachProbed_inv {s : State} (h : Inv s) {p n} (hp : p < s.ports.length)
    (hi : (s.port p).ph = .bus) (hd : (s.port p).d.instr? = some .attach) : Inv (attachProbed p n s)
    := by
  have ho : holdsLock (s.port p).ph = true := by rw [hi]; rfl
  have hs : s.settleCnt = 0 := settleCnt_of_owner h hp ho (by rw [hi]; intro e; cases e)
  have hop := instr_attach hd
  have hph := h.phases p hp
  have hst : s.attachState = .detached := by
    unfold portOk at hph; rw [hi] at hph; dsimp only at hph
    rcases hph with ⟨-, -, e⟩ | ⟨e, -⟩
    · exact e
    · simp [Latch.isTransfer, hop] at e
  unfold attachProbed
  split
  · refine owner_toCollab h hp ho _ rfl rfl rfl rfl rfl hs (by rw [hst]; decide) (by simp)
      ?_ rfl rfl rfl
    unfold portOk; dsimp only; exact ⟨by rw [hd]; rfl, .inl ⟨hop, rfl⟩⟩
  · exact h.ownerRaise hp ho _ _ rfl rfl rfl rfl rfl rfl rfl hs ⟨h.eepromWf, h.eepromIn⟩
      ⟨h.hostWf, h.hostIn⟩ h.cycle

theorem attachRegistered_inv {s : State} (h : Inv s) {p} (hp : p < s.ports.length)
    (hi : (s.port p).ph = .collab) : Inv (attachRegistered p s) := by
  have hst := collab_state h hp hi
  have hrm : s.rmValid = true := h.rmValid.2 (by rcases hst with e | e <;> rw [e] <;> decide)
  unfold attachRegistered
  split
  · exact h.freeRaise hp (by rw [hi]; rfl) _ _ _ rfl rfl (fun _ _ => rfl)
      (h.widths p hp) rfl rfl (.inr ⟨hi, by simp [hrm]⟩) rfl rfl rfl rfl rfl
  · exact h.freeRaise hp (by rw [hi]; rfl) _ _ _ rfl rfl (fun _ _ => rfl)
      (h.widths p hp) rfl rfl (.inr ⟨hi, by simp⟩) rfl rfl rfl rfl rfl

theorem detachBegin_inv {s : State} (h : Inv s) {p} (hp : p < s.ports.length)
    (hi : (s.port p).ph = .active) (hd : (s.port p).d.instr? = some .detach) : Inv (detachBegin p s)
    := by
  have ho : holdsLock (s.port p).ph = true := by rw [hi]; rfl
  have hb : (s.port p).ph ≠ .bus := by rw [hi]; intro e; cases e
  have hs : s.settleCnt = 0 := settleCnt_of_owner h hp ho (by rw [hi]; intro e; cases e)
  unfold detachBegin
  split
  · exact selfRaise_inv h hp ho hb hs _ _
  · rename_i hst
    have hst : s.attachState = .attached := by simpa using hst
    have hrm : s.rmValid = true := h.rmValid.2 (by rw [hst]; decide)
    refine owner_toCollab h hp ho _ rfl rfl rfl rfl (by simpa using bus_of_owner h hp ho hb) hs (by rw [hst]; decide) (by simp [hrm]) ?_ rfl rfl rfl
    unfold portOk; dsimp only; exact ⟨by rw [hd]; rfl, .inr ⟨instr_detach hd, rfl⟩⟩

theorem detachUnregistered_inv {s : State} (h : Inv s) {p} (hp : p < s.ports.length)
    (hi : (s.port p).ph = .collab) : Inv (detachUnregistered p s) := by
  unfold detachUnregistered
  exact h.freeRaise hp (by rw [hi]; rfl) _ _ _ rfl rfl (fun _ _ => rfl)
    (h.widths p hp) rfl rfl (.inr ⟨hi, by simp⟩) rfl rfl rfl rfl rfl

/-! READ and WRITE. -/

/-- What the cursor of a transfer satisfies at the head of its loop. -/
structure LoopHead (P : Params) (c : Port) : Prop where
  acc : acceptedOk P c.d
  e1 : c.cur + c.rem = c.d.offset.toNat + c.d.length.toNat
  e2 : c.buf + c.rem = c.d.bufaddr.toNat + c.d.length.toNat
  e3 : c.d.offset.toNat ≤ c.cur
  e4 : 0 < c.rem → c.k = c.cur / page - c.d.offset.toNat / page
  e5 : c.k ≤ npages

theorem inRange_le {d : Latch} (h : d.inRange = true) :
    d.offset.toNat + d.length.toNat ≤ capacity := by simpa [Latch.inRange] using h

theorem inHost_le {P} {d : Latch} (h : d.inHost P = true) :
    d.bufaddr.toNat + d.length.toNat ≤ hostSize P := by simpa [Latch.inHost] using h

theorem LoopHead.init {P d} {c : Port} (h : acceptedOk P d) (hc : c.d = d) :
   LoopHead P { c with cur := d.offset.toNat, rem := d.length.toNat, buf := d.bufaddr.toNat, k := 0 } :=
  ⟨by rw [hc]; exact h, by simp [hc], by simp [hc], by simp [hc], by simp [hc], by simp⟩

/-- The cursor after a chunk. -/
theorem cursor_next {P} {c : Port} (ha : acceptedOk P c.d) (hc : cursorOk P c) :
    LoopHead P { c with ph := .active, cur := c.cur + c.clen, rem := c.rem - c.clen, buf := c.buf + c.clen, k := c.k + 1 } := by
  obtain ⟨c1, c2, c3, c4, c5, c6⟩ := hc
  obtain ⟨a1, a2, a3⟩ := ha
  have hr := inRange_le a2
  have hle := chunkLen_le (pol := P.policy) (cur := c.cur) (rem := c.rem)
  have hpos := chunkLen_pos (pol := P.policy) (cur := c.cur) c4
  rw [← c5] at hle hpos
  refine ⟨⟨a1, a2, a3⟩, by dsimp only; omega, by dsimp only; omega, by dsimp only; omega, ?_, ?_⟩
  · dsimp only; intro hrem
    have : c.clen = page - c.cur % page ∨ (c.clen = page) := by
      revert c5 hrem; cases hp : P.policy <;> simp only [chunkLen, page] <;> omega
    simp only [page] at *; omega
  · simp only [page, capacity, npages] at *; omega

/-- The head of READ's loop goes on, and keeps `Inv`. -/
theorem readNext_inv {s u : State} (h : Inv s) {p} (hp : p < s.ports.length)
    (ho : holdsLock (s.port p).ph = true)
   (hpar : u.params = s.params) (hlen : u.ports.length = s.ports.length)
   (hq : ∀ q, q ≠ p → u.port q = s.port q)
    (hlk : u.locked = s.locked) (how : u.lockOwner = s.lockOwner)
    (hatt : u.attachState = .attached) (hatt' : s.attachState = .attached)
    (hrm : u.rmValid = s.rmValid) (hset : u.settleCnt = 0) (hbus : u.bus = none)
    (he : u.eeprom.wf ∧ ∀ x ∈ u.eeprom, x.1 < capacity)
    (hh : u.host.wf ∧ ∀ x ∈ u.host, x.1 < hostSize s.params)
    (hw : cycleOk s.params u.wc) (hop : (u.port p).d.op = 3) (hcl : (u.port p).clen ≤ page)
    (hhd : LoopHead s.params (u.port p)) : ∃ t, readNext p u = .next t ∧ Inv t := by
  have hlu : p < u.ports.length := by rw [hlen]; exact hp
  have hr := inRange_le hhd.acc.2.1
  have hb := inHost_le hhd.acc.2.2
  have e1 := hhd.e1; have e2 := hhd.e2; have e5 := hhd.e5
  have hwid : widthsOk s.params (u.port p) := ⟨by omega, by omega, by omega, hcl, e5⟩
  unfold readNext
  split
  · refine ⟨_, rfl, ?_⟩
    have hown : u.ownedBy p = true := by
      have := owned_iff h hp; rw [ho] at this
      simp only [State.ownedBy, hlk, how]; simpa only [State.ownedBy] using this
    have hself := raise_self (st := .ok) (d := 0) hlu
    refine h.owner hp ho (by simpa using hpar) (by simp [hlen])
      (fun q hq' => by rw [raise_other hq', hq q hq']; exact coreEq.refl _)
      (.inr ⟨by rw [hself]; rfl, by simp [hown], by simp [hown]⟩) ?_ ?_ ?_ (.inl (by rw [hatt']; simpa using hatt)) ?_ (.inl ⟨?_, by simpa using hbus⟩) (.inl ⟨?_, by simpa using hset⟩)
      (by simpa using he) (by simpa using hh) (by simpa using hw)
    · rw [hself]; simp [portOk]
    · rw [hself]; exact hwid
    · have := h.rmValid; rw [hatt'] at this; simpa [hrm, hatt] using this
    · rw [hself]; intro e; cases e
    · rw [hself]; intro e; cases e
    · rw [hself]; intro e; cases e
  · rename_i hrem
    have hrem : 0 < (u.port p).rem := by omega
    have hle := chunkLen_le (pol := u.params.policy) (cur := (u.port p).cur) (rem := (u.port p).rem)
    have hpg := chunkLen_page (pol := u.params.policy) (cur := (u.port p).cur) (rem := (u.port p).rem)
    rw [if_neg (by omega)]
    refine ⟨_, rfl, ?_⟩
    refine h.ownerIssue hp ho _ (by simpa using hpar) (by simp [hlen])
      (fun q hq' => by rw [port_setPort_ne _ _ hq', hq q hq']) (by simpa using hlk)
      (by simpa using how) (by rw [hatt']; simpa using hatt) (by simpa using hrm) (by simpa using hset)
      (by simpa using he) (by simpa using hh) (by simpa using hw) ?_ ?_ ?_
    · rw [port_setPort_self _ _ hlu]; unfold portOk; dsimp only
      refine .inr ⟨by simp [Latch.isTransfer, hop], hhd.acc,
        ⟨e1, e2, hhd.e3, hrem, by rw [hpar], hhd.e4 hrem⟩, hatt'⟩
    · rw [port_setPort_self _ _ hlu]; exact ⟨hwid.1, hwid.2.1, hwid.2.2.1, hpg, e5⟩
    · rw [port_setPort_self _ _ hlu]; exact ⟨hop, rfl, rfl⟩

/-- The head of WRITE's loop goes on, and keeps `Inv`. -/
theorem writeNext_inv {s u : State} (h : Inv s) {p} (hp : p < s.ports.length)
    (ho : holdsLock (s.port p).ph = true)
   (hpar : u.params = s.params) (hlen : u.ports.length = s.ports.length)
   (hq : ∀ q, q ≠ p → u.port q = s.port q)
    (hlk : u.locked = s.locked) (how : u.lockOwner = s.lockOwner)
    (hatt : u.attachState = .attached) (hatt' : s.attachState = .attached)
    (hrm : u.rmValid = s.rmValid) (hset : u.settleCnt = 0) (hbus : u.bus = none)
    (he : u.eeprom.wf ∧ ∀ x ∈ u.eeprom, x.1 < capacity)
    (hh : u.host.wf ∧ ∀ x ∈ u.host, x.1 < hostSize s.params)
    (hw : cycleOk s.params u.wc) (hop : (u.port p).d.op = 4) (hcl : (u.port p).clen ≤ page)
    (hhd : LoopHead s.params (u.port p)) : ∃ t, writeNext p u = .next t ∧ Inv t := by
  have hlu : p < u.ports.length := by rw [hlen]; exact hp
  have hr := inRange_le hhd.acc.2.1
  have hb := inHost_le hhd.acc.2.2
  have e1 := hhd.e1; have e2 := hhd.e2; have e5 := hhd.e5
  have hwid : widthsOk s.params (u.port p) := ⟨by omega, by omega, by omega, hcl, e5⟩
  unfold writeNext
  split
  · refine ⟨_, rfl, ?_⟩
    have hown : u.ownedBy p = true := by
      have := owned_iff h hp; rw [ho] at this
      simp only [State.ownedBy, hlk, how]; simpa only [State.ownedBy] using this
    have hself := raise_self (st := .ok) (d := 0) hlu
    refine h.owner hp ho (by simpa using hpar) (by simp [hlen])
      (fun q hq' => by rw [raise_other hq', hq q hq']; exact coreEq.refl _)
      (.inr ⟨by rw [hself]; rfl, by simp [hown], by simp [hown]⟩) ?_ ?_ ?_ (.inl (by rw [hatt']; simpa using hatt)) ?_ (.inl ⟨?_, by simpa using hbus⟩) (.inl ⟨?_, by simpa using hset⟩)
      (by simpa using he) (by simpa using hh) (by simpa using hw)
    · rw [hself]; simp [portOk]
    · rw [hself]; exact hwid
    · have := h.rmValid; rw [hatt'] at this; simpa [hrm, hatt] using this
    · rw [hself]; intro e; cases e
    · rw [hself]; intro e; cases e
    · rw [hself]; intro e; cases e
  · rename_i hrem
    have hrem : 0 < (u.port p).rem := by omega
    have hle := chunkLen_le (pol := u.params.policy) (cur := (u.port p).cur) (rem := (u.port p).rem)
    have hpg := chunkLen_page (pol := u.params.policy) (cur := (u.port p).cur) (rem := (u.port p).rem)
    rw [if_neg (by omega), if_neg (by rw [hostFits_true (by rw [hpar] at *; omega)]; simp)]
    refine ⟨_, rfl, ?_⟩
    refine h.ownerIssue hp ho _ (by simpa using hpar) (by simp [hlen])
      (fun q hq' => by rw [port_setPort_ne _ _ hq', memRead_port, hq q hq']) (by simpa using hlk)
      (by simpa using how) (by rw [hatt']; simpa using hatt) (by simpa using hrm) (by simpa using hset)
      (by simpa using he) (by simpa using hh) (by simpa using hw) ?_ ?_ ?_
    · rw [port_setPort_self _ _ (by simpa using hlu)]; unfold portOk; dsimp only
      refine .inr ⟨by simp [Latch.isTransfer, hop], hhd.acc,
        ⟨e1, e2, hhd.e3, hrem, by rw [hpar], hhd.e4 hrem⟩, hatt'⟩
    · rw [port_setPort_self _ _ (by simpa using hlu)]; exact ⟨hwid.1, hwid.2.1, hwid.2.2.1, hpg, e5⟩
    · rw [port_setPort_self _ _ (by simpa using hlu)]; exact ⟨hop, rfl, by simp⟩

theorem readBegin_inv {s : State} (h : Inv s) {p} (hp : p < s.ports.length)
    (hi : (s.port p).ph = .active) (hop : (s.port p).d.op = 3) : ∃ t, readBegin p s = .next t ∧
    Inv t := by
  have ho : holdsLock (s.port p).ph = true := by rw [hi]; rfl
  have hb : (s.port p).ph ≠ .bus := by rw [hi]; intro e; cases e
  have hs : s.settleCnt = 0 := settleCnt_of_owner h hp ho (by rw [hi]; intro e; cases e)
  unfold readBegin
  split
  · exact ⟨_, rfl, selfRaise_inv h hp ho hb hs _ _⟩
  · rename_i hst
    have hst : s.attachState = .attached := by simpa using hst
    have hph := h.phases p hp
    unfold portOk at hph; rw [hi] at hph; dsimp only at hph
    refine readNext_inv h hp ho rfl (by simp)
      (fun q hq => by rw [initCursor_port,
      if_neg (fun e => hq e.1)]) rfl rfl hst hst rfl hs (by simpa using bus_of_owner h hp ho hb)
      ⟨h.eepromWf, h.eepromIn⟩ ⟨h.hostWf, h.hostIn⟩ h.cycle
     ?_ ?_ ?_
    · rw [initCursor_self hp]; exact hop
    · rw [initCursor_self hp]; exact (h.widths p hp).2.2.2.1
    · rw [initCursor_self hp]; exact LoopHead.init (hph.2 (by simp [Latch.isTransfer, hop])) rfl

theorem writeBegin_inv {s : State} (h : Inv s) {p} (hp : p < s.ports.length)
    (hi : (s.port p).ph = .active) (hop : (s.port p).d.op = 4) : ∃ t, writeBegin p s = .next t ∧
    Inv t := by
  have ho : holdsLock (s.port p).ph = true := by rw [hi]; rfl
  have hb : (s.port p).ph ≠ .bus := by rw [hi]; intro e; cases e
  have hs : s.settleCnt = 0 := settleCnt_of_owner h hp ho (by rw [hi]; intro e; cases e)
  unfold writeBegin
  split
  · exact ⟨_, rfl, selfRaise_inv h hp ho hb hs _ _⟩
  · rename_i hst
    have hst : s.attachState = .attached := by simpa using hst
    have hph := h.phases p hp
    unfold portOk at hph; rw [hi] at hph; dsimp only at hph
    refine writeNext_inv h hp ho rfl (by simp)
      (fun q hq => by rw [initCursor_port,
      if_neg (fun e => hq e.1)]) rfl rfl hst hst rfl hs (by simpa using bus_of_owner h hp ho hb)
      ⟨h.eepromWf, h.eepromIn⟩ ⟨h.hostWf, h.hostIn⟩ h.cycle
     ?_ ?_ ?_
    · rw [initCursor_self hp]; exact hop
    · rw [initCursor_self hp]; exact (h.widths p hp).2.2.2.1
    · rw [initCursor_self hp]; exact LoopHead.init (hph.2 (by simp [Latch.isTransfer, hop])) rfl

/-- A READ or WRITE in BUS: what `Inv` says of it. -/
theorem bus_transfer {s : State} (h : Inv s) {p} (hp : p < s.ports.length) (hi : (s.port p).ph = .bus)
    (hop : (s.port p).d.op ≠ 1) :
   (s.port p).d.isTransfer = true ∧ acceptedOk s.params (s.port p).d ∧ cursorOk s.params (s.port p) ∧
   s.attachState = .attached := by
  have hph := h.phases p hp
  unfold portOk at hph; rw [hi] at hph; dsimp only at hph
  rcases hph with ⟨e, -⟩ | e
  · exact absurd e hop
  · exact e

theorem readAnswered_inv {s : State} (h : Inv s) {p hit} (hp : p < s.ports.length)
    (hi : (s.port p).ph = .bus) (hop : (s.port p).d.op = 3) :
    ∃ t, readAnswered p hit (s.port p).cur (s.port p).clen s = .next t ∧ Inv t := by
  have ho : holdsLock (s.port p).ph = true := by rw [hi]; rfl
  have hs : s.settleCnt = 0 := settleCnt_of_owner h hp ho (by rw [hi]; intro e; cases e)
  obtain ⟨-, hacc, hcur, hst⟩ := bus_transfer h hp hi (by rw [hop]; decide)
  have hcur' := hcur
  obtain ⟨c1, c2, c3, c4, c5, c6⟩ := hcur
  have hr := inRange_le hacc.2.1
  have hb := inHost_le hacc.2.2
  have hle := chunkLen_le (pol := s.params.policy) (cur := (s.port p).cur) (rem := (s.port p).rem)
  rw [← c5] at hle
  unfold readAnswered
  rw [if_neg (by rw [hostFits_true (by simp; omega)]; simp)]
  have hE := readEffect_dev h (a := (s.port p).cur) (n := (s.port p).clen) (by omega)
  split
  · unfold readArrived
    refine readNext_inv h hp ho (by simp) (by simp)
      (fun q hq => by rw [advance_port, if_neg (fun e => hq e.1)]; simp) (by simp) (by simp)
      (by simpa using hst) hst (by simp) (by simpa using hs) (by simp)
      (by simpa using hE) ⟨?_, ?_⟩ (by simpa using h.cycle) ?_ ?_ ?_
    · simp; exact fill_wf _ h.hostWf _
    · simp only [advance_host, memWrite_host]
      refine fill_bound _ (by simpa using h.hostIn) (fun c hc => ?_) _
      have := (mem_raceCells hc).2; simp at this; omega
    · rw [advance_self (by simpa using hp)]; simpa using hop
    · rw [advance_self (by simpa using hp)]; simpa using (h.widths p hp).2.2.2.1
    · rw [advance_self (by simpa using hp)]; simpa using cursor_next hacc hcur'
  · unfold readFailed
    refine ⟨_, rfl, ?_⟩
    refine h.ownerRaise hp ho _ _ (by simp) (by simp) (by simp) (by simp) (by simp) (by simp) (by simp)
      (by simpa using hs) (by simpa using hE) ⟨?_, ?_⟩ (by simpa using h.cycle)
    · simp; exact fill_wf _ h.hostWf _
    · simp only [fillHost_host]
      refine fill_bound _ (by simpa using h.hostIn) (fun c hc => ?_) _
      have := (mem_anyCells hc).2; omega

/-- A settle fits the timer and outlasts a write cycle. -/
theorem settleDraw_le {P : Params} (h : paramsOk P) (c) : settleDraw P c ≤ settleMax P ∧
    P.tWc ≤ settleDraw P c := by
  obtain ⟨-, -, -, h1, h2⟩ := h
  unfold settleDraw; omega

/-- A write cycle ends within T_WC ticks. -/
theorem cycleWithin_of_ok {P w n} (h : cycleOk P w) (hn : P.tWc ≤ n) : cycleWithin n w := by
  cases w with
  | idle => trivial
  | busy t c => have := h.2.1; show t ≤ n; omega

theorem writeAnswered_inv {s : State} (h : Inv s) {p hit b} (hp : p < s.ports.length)
    (hi : (s.port p).ph = .bus) (hop : (s.port p).d.op = 4) (hb : b.length = (s.port p).clen) :
    Inv (writeAnswered p hit (s.port p).cur b s) := by
  have ho : holdsLock (s.port p).ph = true := by rw [hi]; rfl
  have hs : s.settleCnt = 0 := settleCnt_of_owner h hp ho (by rw [hi]; intro e; cases e)
  obtain ⟨-, hacc, hcur, hst⟩ := bus_transfer h hp hi (by rw [hop]; decide)
  have hcur' := hcur
  obtain ⟨c1, c2, c3, c4, c5, c6⟩ := hcur
  have hr := inRange_le hacc.2.1
  have hle := chunkLen_le (pol := s.params.policy) (cur := (s.port p).cur) (rem := (s.port p).rem)
  have hpos := chunkLen_pos (pol := s.params.policy) (cur := (s.port p).cur) c4
  rw [← c5] at hle hpos
  unfold writeAnswered
  split
  · have hE := okWrite_dev h (hit := hit) (a := (s.port p).cur) (b := b) (by omega) (by omega)
    have hd := settleDraw_le h.params s.choice
    unfold writeTaken
    have hself : (loadSettle p ((okWrite hit (s.port p).cur b s).answered.addLog (.wr p (s.port p).cur b (plainResult s.choice)))).port p = { s.port p with ph := .settle } := by
      rw [loadSettle_port, if_pos ⟨rfl, by simpa using hp⟩]; simp
    refine h.owner hp ho (by simp) (by simp)
      (fun q hq => by rw [loadSettle_port, if_neg (fun e => hq e.1)]; simp; exact coreEq.refl _)
      (.inl ⟨by rw [hself]; rfl, by simp, by simp⟩) ?_ ?_ ?_ (.inl (by simp)) ?_ (.inl ⟨?_, by simp⟩)
      (.inr ⟨by rw [hself], ?_, ?_⟩)
      (by simpa using hE.1) ⟨by simpa using h.hostWf, by simpa using h.hostIn⟩ (by simpa using hE.2)
    · rw [hself]; unfold portOk; dsimp only; exact ⟨hop, hacc, hcur', by simpa using hst⟩
    · rw [hself]; exact h.widths p hp
    · simpa using h.rmValid
    · rw [hself]; intro e; cases e
    · rw [hself]; intro e; cases e
    · simpa using hd.1
    · simp; exact cycleWithin_of_ok hE.2 hd.2
  · have hE := failedWrite_dev h (c := s.choice) (a := (s.port p).cur) (n := b.length) (by omega)
      (by omega)
    unfold writeFailed
    exact h.ownerRaise hp ho _ _ (by simp) (by simp) (by simp) (by simp) (by simp) (by simp) (by simp)
      (by simpa using hs) (by simpa using hE.1) ⟨by simpa using h.hostWf, by simpa using h.hostIn⟩
      (by simpa using hE.2)

theorem writeSettled_inv {s : State} (h : Inv s) {p} (hp : p < s.ports.length)
    (hi : (s.port p).ph = .settle) (hop : (s.port p).d.op = 4) :
    ∃ t, writeSettled p s = .next t ∧ Inv t := by
  have ho : holdsLock (s.port p).ph = true := by rw [hi]; rfl
  have hb : (s.port p).ph ≠ .bus := by rw [hi]; intro e; cases e
  unfold writeSettled
  split
  · exact ⟨_, rfl, h⟩
  · rename_i hs
    have hs : s.settleCnt = 0 := by simpa using hs
    have hph := h.phases p hp
    unfold portOk at hph; rw [hi] at hph; dsimp only at hph
    obtain ⟨-, hacc, hcur, hst⟩ := hph
    refine writeNext_inv h hp ho rfl (by simp)
      (fun q hq => by rw [advance_port,
      if_neg (fun e => hq e.1)]) rfl rfl hst hst rfl hs (by simpa using bus_of_owner h hp ho hb)
      ⟨h.eepromWf, h.eepromIn⟩ ⟨h.hostWf, h.hostIn⟩ h.cycle ?_ ?_ ?_
    · rw [advance_self hp]; exact hop
    · rw [advance_self hp]; exact (h.widths p hp).2.2.2.1
    · rw [advance_self hp]; exact cursor_next hacc hcur

/-- A context in BUS waits for an operation of its own command. -/
theorem bus_cmd {s : State} (h : Inv s) {p} (hp : p < s.ports.length) (hi : (s.port p).ph = .bus) :
    ∃ op, s.bus = some op ∧ cmdOk (s.port p) op.cmd := by
  obtain ⟨op, a, b, c⟩ := h.busWait p hp hi; exact ⟨op, a, c⟩

/-- A READ or WRITE is never in COLLAB. -/
theorem transfer_phase {s : State} (h : Inv s) {p} (hp : p < s.ports.length)
    (ht : (s.port p).d.isTransfer = true) : (s.port p).ph ≠ .collab := by
  intro e
  have hph := h.phases p hp
  unfold portOk at hph; rw [e] at hph; dsimp only at hph
  rcases hph.2 with ⟨a, -⟩ | ⟨a, -⟩ <;> simp [Latch.isTransfer, a] at ht

end Sys2Proof.Machine
end

