-- ==== Sys2Proof/Laws/PerInstr.lean ====
section
/-! SUPPORT. Statements made of every command as a term. -/

namespace Sys2Proof.Laws.Encodes

/-- The encoding of a command passes the checks of 30_encoding.md R106, and the fields a port latches from
it (10_state.md R33) give the command back. -/
def Statement (i : Instr) : Prop :=
  (encode i).wellFormed = true ∧ (Machine.latchOf i).instr? = some i

theorem attach : Statement .attach := ⟨by decide, Machine.latchOf_instr _⟩

theorem detach : Statement .detach := ⟨by decide, Machine.latchOf_instr _⟩

theorem read (offset length bufaddr : Word) : Statement (.read offset length bufaddr) :=
  ⟨by simp [Desc.wellFormed, Desc.opcodeOk, Desc.reservedOk, Desc.operandsOk, Desc.op, Desc.rsvd, encode],
    Machine.latchOf_instr _⟩

theorem write (offset length bufaddr : Word) : Statement (.write offset length bufaddr) :=
  ⟨by simp [Desc.wellFormed, Desc.opcodeOk, Desc.reservedOk, Desc.operandsOk, Desc.op, Desc.rsvd, encode],
    Machine.latchOf_instr _⟩

end Sys2Proof.Laws.Encodes
end

