-- ==== Sys2Proof/Tests/Slice0.lean ====
section
/-! SUPPORT. Tests, with expected results from 95_test_vectors.md and the rules' worked examples, and for
each statement a witness that meets its hypotheses. -/

open Sys2Proof Sys2Proof.Machine

namespace Sys2Proof.Tests

/-! ### The checks refuse ill-formed terms -/

theorem test_check_opcode : (⟨0, 0, 0, 0⟩ : Desc).opcodeOk = false ∧ (⟨5, 0, 0, 0⟩ : Desc).opcodeOk = false ∧
    (⟨0xF, 0, 0, 0⟩ : Desc).wellFormed = false := by decide

theorem test_check_reserved : (⟨0x13, 0, 1, 0⟩ : Desc).reservedOk = false ∧
    (⟨0x80000003, 0, 1, 0⟩ : Desc).wellFormed = false := by decide

theorem test_check_operands : (⟨1, 1, 0, 0⟩ : Desc).operandsOk = false ∧
    (⟨2, 0, 5, 0⟩ : Desc).operandsOk = false ∧ (⟨2, 0, 0, 5⟩ : Desc).wellFormed = false := by decide

theorem test_check_ports : ({ Params.vectors with nPorts := 0 } : Params).portsOk = false ∧
    ({ Params.vectors with nPorts := 257 } : Params).portsOk = false ∧
    ({ Params.vectors with nPorts := 256 } : Params).portsOk = true := by decide

theorem test_check_hostAw : ({ Params.vectors with hostAw := 0 } : Params).hostAwOk = false ∧
    ({ Params.vectors with hostAw := 33 } : Params).hostAwOk = false ∧
    ({ Params.vectors with hostAw := 32 } : Params).hostAwOk = true := by decide

/-- No term of `Instr` is ill-formed: every operand has an encoding (30_encoding.md R107). -/
theorem test_check_instr : (Instr.read 0xFFFFFFFF 0xFFFFFFFF 0xFFFFFFFF).wellFormed = true := by decide

/-! ### Decoding, by words written out from 30_encoding.md R101 and R104 -/

/-- 95_test_vectors.md E1 to E4, the 128-bit word written field by field: W3, W2, W1, RSVD, OP. -/
theorem test_decode_words :
    decodeTableWord 128 (0x00000000#32 ++ 0x00000000#32 ++ 0x00000000#32 ++ 0x0000000#28 ++ 0b0001#4).toNat
      = some .attach ∧
    decodeTableWord 128 (0x00000000#32 ++ 0x00000000#32 ++ 0x00000000#32 ++ 0x0000000#28 ++ 0b0010#4).toNat
      = some .detach ∧
    decodeTableWord 128 (0x00002000#32 ++ 0x00000004#32 ++ 0x00000010#32 ++ 0x0000000#28 ++ 0b0011#4).toNat
      = some (.read 0x10 4 0x2000) ∧
    decodeTableWord 128 (0x00001000#32 ++ 0x00000004#32 ++ 0x00000010#32 ++ 0x0000000#28 ++ 0b0100#4).toNat
      = some (.write 0x10 4 0x1000) := by decide

/-- E5 to E11: no command. -/
theorem test_decode_illegal : decode ⟨0, 0, 0, 0⟩ = .illegal .opcode ∧ decode ⟨5, 0, 0, 0⟩ = .illegal .opcode ∧
    decode ⟨0xF, 1, 2, 3⟩ = .illegal .opcode ∧ decode ⟨0x13, 0, 1, 0⟩ = .illegal .reserved ∧
    decode ⟨0x80000003, 0, 1, 0⟩ = .illegal .reserved ∧ decode ⟨1, 1, 0, 0⟩ = .illegal .operands ∧
    decode ⟨2, 0, 0, 5⟩ = .illegal .operands := by decide

/-- E12 and E13: every operand of READ and WRITE decodes. -/
theorem test_decode_operands :
    decode ⟨3, 0xFFFFFFFF, 0xFFFFFFFF, 0xFFFFFFFF⟩ = .command (.read 0xFFFFFFFF 0xFFFFFFFF 0xFFFFFFFF) ∧
    decode ⟨4, 0, 0, 0⟩ = .command (.write 0 0 0) := by decide

/-- An opcode-table word of zeros above its fixed bits runs as the first command after reset: READ is
answered NOT_ATTACHED (A14). -/
theorem test_first_word : ∃ t, step (State.reset.withFetchWord 128 3) = .next t ∧
    (t.port 0).resps = [⟨0x6, 0⟩] := ⟨_, rfl, by decide⟩

/-! ### The chunker, the settle bounds, STAT -/

/-- 95_test_vectors.md K4, K6, K7 and K9. -/
theorem test_chunks_aligned : chunks .aligned 127 2 = [(127, 1), (128, 1)] ∧
    chunks .aligned 100 300 = [(100, 28), (128, 128), (256, 128), (384, 16)] ∧
    chunks .aligned 64 256 = [(64, 64), (128, 128), (256, 64)] ∧
    chunks .aligned 200 57 = [(200, 56), (256, 1)] := by decide

/-- K4, K6, K7 and K9 under STRIDE. -/
theorem test_chunks_stride : chunks .stride 127 2 = [(127, 2)] ∧
    chunks .stride 100 300 = [(100, 128), (228, 128), (356, 44)] ∧
    chunks .stride 64 256 = [(64, 128), (192, 128)] ∧ chunks .stride 200 57 = [(200, 57)] := by decide

/-- The counts of K10 to K13. -/
theorem test_chunk_counts : chunkCount .aligned 65408 128 = 1 ∧ chunkCount .stride 65535 1 = 1 ∧
    chunkCount .aligned 0 65536 = 512 ∧ chunkCount .stride 0 65536 = 512 ∧
    chunkCount .aligned 1 65535 = 512 ∧ chunkCount .stride 1 65535 = 512 := by decide

/-- The parameters of a clock, for the table of 95_test_vectors.md section 9. -/
def atClock (f : Nat) : Params := { Params.vectors with fClk := f }

theorem test_settle_bounds : (settleMin (atClock 1000000), settleMax (atClock 1000000)) = (5000, 6000) ∧
    (settleMin (atClock 32768), settleMax (atClock 32768)) = (164, 196) ∧
    (settleMin (atClock 200), settleMax (atClock 200)) = (1, 1) ∧
    (settleMin (atClock 100), settleMax (atClock 100)) = (1, 0) := by decide

theorem test_settle_width : settleW (atClock 1000000) = 13 ∧ settleW (atClock 100000) = 10 ∧
    settleW (atClock 32768) = 8 ∧ settleW (atClock 1000) = 3 ∧ settleW (atClock 200) = 1 := by decide

/-! ### Small states -/

/-- The device attached, as 95_test_vectors.md section 1 has it. -/
def attached : State :=
  { State.reset with attachState := .attached, rmValid := true, registered := true }

/-- A state whose port 0 is as given. -/
def at0 (c : Port) (s : State) : State := s.setPort 0 c

/-- A state whose lock is held by port 0. -/
def held (s : State) : State := { s with locked := true, lockOwner := 0 }

/-- Port 0 with a latched command, in a phase. -/
def cmdPort (ph : Phase) (d : Latch) : Port := { Port.reset with ph := ph, d := d }

/-- Port 0 with a chunk in hand. -/
def chunkPort (ph : Phase) (d : Latch) (cur rem buf clen k : Nat) : Port :=
  { Port.reset with ph := ph, d := d, cur := cur, rem := rem, buf := buf, clen := clen, k := k }

/-- ATTACH in its probe. -/
def probing : State :=
  { held (at0 (cmdPort .bus ⟨1, 0, 0, 0⟩) State.reset) with bus := some ⟨0, 0x0050, .recv 1, false⟩ }

/-- ATTACH in its registration. -/
def registering : State :=
  { at0 (cmdPort .collab ⟨1, 0, 0, 0⟩) State.reset with attachState := .attaching, rmValid := true }

/-- DETACH holding the lock. -/
def detachActive : State := held (at0 (cmdPort .active ⟨2, 0, 0, 0⟩) attached)

/-- DETACH in its call of Unregister. -/
def unregistering : State := { at0 (cmdPort .collab ⟨2, 0, 0, 0⟩) attached with attachState := .detaching }

/-- RD1: READ 126, 4, 0x3000 with its first chunk outstanding, the bytes 01 02 03 04 stored, and byte 0 in
its destination. -/
def reading : State :=
  { held (at0 (chunkPort .bus ⟨3, 126, 4, 0x3000⟩ 126 4 0x3000 2 0) attached) with
    bus := some ⟨0, 0x0050, .read 126 2, false⟩
    eeprom := [(126, 1), (127, 2), (128, 3), (129, 4)]
    host := [(0x3000, 0), (0x3001, 0)] }

/-- RD1 with its last chunk outstanding. -/
def readingLast : State :=
  { held (at0 (chunkPort .bus ⟨3, 126, 4, 0x3000⟩ 128 2 0x3002 2 1) attached) with
    bus := some ⟨0, 0x0050, .read 128 2, false⟩
    eeprom := [(126, 1), (127, 2), (128, 3), (129, 4)] }

/-- W2: WRITE 127, 2, 0x1000 with its first chunk outstanding. -/
def writing : State :=
  { held (at0 (chunkPort .bus ⟨4, 127, 2, 0x1000⟩ 127 2 0x1000 1 0) attached) with
    bus := some ⟨0, 0x0050, .write 127 [0xAA], false⟩
    eeprom := [(127, 0), (128, 0)], host := [(0x1000, 0xAA), (0x1001, 0xBB)] }

/-- W2 in its first settle, the write cycle with one tick left. -/
def settling : State :=
  { held (at0 (chunkPort .settle ⟨4, 127, 2, 0x1000⟩ 127 2 0x1000 1 0) attached) with
    settleCnt := 5000, wc := .busy 1 (byteCells 127 [0xAA])
    eeprom := [(127, 0), (128, 0)], host := [(0x1000, 0xAA), (0x1001, 0xBB)] }

/-- W2 at the end of its first settle. -/
def settled : State := { settling with settleCnt := 0, wc := .idle }

/-- W2 at the end of its last settle. -/
def settledLast : State :=
  held (at0 (chunkPort .settle ⟨4, 127, 2, 0x1000⟩ 128 1 0x1001 1 1) attached)

/-- STAT in the states of 95_test_vectors.md section 9. -/
theorem test_stat : State.reset.stat = 0x00 ∧ attached.stat = 0x12 ∧ registering.stat = 0x11 ∧
    unregistering.stat = 0x13 ∧ reading.stat = 0x16 ∧ probing.stat = 0x04 ∧
    ({ settling with lockOwner := 1 } : State).stat = 0x11E ∧
    ({ probing with lockOwner := 5 } : State).stat = 0x504 ∧
    ({ reading with lockOwner := 255 } : State).stat = 0xFF16 ∧
    ({ attached with params := { Params.vectors with policy := .stride } } : State).stat = 0x32 := by decide

/-! ### One step of a command -/

/-- The step of a context with given answers. -/
def asks (c : Choice) (s : State) : State := { s with choice := c }

/-- T5: the collaborator's error is the DETAIL, and nothing is left attached. -/
theorem test_attach_rejected : ∃ t, exec .attach (asks { err := 0x44 } registering) = .next t ∧
    (t.port 0).resps = [⟨0x5, 0x44⟩] ∧ t.stat = 0 ∧ t.registered = false := ⟨_, rfl, by decide⟩

/-- T4: the probe's error is not the DETAIL. -/
theorem test_attach_no_device : ∃ t, exec .attach (asks { err := 9 } probing) = .next t ∧
    (t.port 0).resps = [⟨0x2, 0⟩] ∧ t.stat = 0 ∧ t.log = [.recv 0 1 (.err 9)] := ⟨_, rfl, by decide⟩

/-- T8, its last step. -/
theorem test_detach_done : ∃ t, exec .detach unregistering = .next t ∧ (t.port 0).resps = [⟨0, 0⟩] ∧
    t.stat = 0 ∧ t.registered = false ∧ t.log = [.unreg 0] := ⟨_, rfl, by decide⟩

/-- T9: DETACH of a detached device. -/
theorem test_detach_wrong : ∃ t,
    exec .detach (held (at0 (cmdPort .active ⟨2, 0, 0, 0⟩) State.reset)) = .next t ∧
    (t.port 0).resps = [⟨0x8, 0⟩] ∧ t.stat = 0 := ⟨_, rfl, by decide⟩

/-- RD1, its first chunk: the bytes are in the slice, and the next chunk is issued. -/
theorem test_read_chunk : ∃ t, exec (.read 126 4 0x3000) reading = .next t ∧
    t.host = [(0x3000, 1), (0x3001, 2)] ∧ t.log = [.rd 0 126 2 (.ok [1, 2])] ∧
    t.bus = some ⟨0, 0x0050, .read 128 2, false⟩ ∧ (t.port 0).k = 1 := ⟨_, rfl, by decide⟩

/-- A10: OUT_OF_RANGE is checked before BUFFER_RANGE. -/
theorem test_read_order : ∃ t, exec (.read 65535 2 0xFFFFFFFF) attached = .next t ∧
    (t.port 0).resps = [⟨0x3, 0⟩] ∧ t.stat = 0x12 := ⟨_, rfl, by decide⟩

/-- W2, its first answer: the write cycle of 3000 ticks and the settle run together. -/
theorem test_write_chunk : ∃ t, exec (.write 127 2 0x1000) (asks { settle := 5500 } writing) = .next t ∧
    t.wc = .busy 3000 [(127, some 0xAA)] ∧ t.settleCnt = 5500 ∧
    t.log = [.wr 0 127 [0xAA] (.ok []), .settle 0 5500] :=
  ⟨_, rfl, by decide +kernel⟩

/-- A4: the sum of OFFSET and LENGTH does not wrap. -/
theorem test_write_no_wrap : ∃ t, exec (.write 0xFFFFFFFF 2 0x100) attached = .next t ∧
    (t.port 0).resps = [⟨0x3, 0⟩] ∧ t.log = [] := ⟨_, rfl, by decide⟩

/-! ### The environment -/

/-- After a change of the inputs, the bytes READ answers and those it leaves in the EEPROM are drawn apart
(70_reset_and_hazards.md R262). -/
theorem test_read_disturbed : ∃ t,
    exec (.read 126 4 0x3000) { reading with disturbed := true, draws := ⟨[9, 8, 7, 6], 0⟩ } = .next t ∧
    t.eeprom = [(126, 9), (127, 8), (128, 3), (129, 4)] ∧ t.host = [(0x3000, 7), (0x3001, 6)] :=
  ⟨_, rfl, by decide⟩

/-- The host reads two bytes of a READ's destination: each is any value, taken and stored (20_memory.md
R86, 93_implementation_defined.md U12). -/
theorem test_host_read_race : ∃ t,
    step { reading with agenda := [.hostRead 0x3000 2], draws := ⟨[5, 6, 7, 8], 0⟩ } = .next t ∧
    t.seen = [5, 6] ∧ t.host = [(0x3000, 7), (0x3001, 8)] := ⟨_, rfl, by decide⟩

/-- The host writes a byte that WRITE has taken: it is any value in the host memory, and on its way to the
EEPROM (20_memory.md R86, 93_implementation_defined.md U12). -/
theorem test_host_write_race : ∃ t,
    step { writing with agenda := [.hostWrite 0x1000 [1]], draws := ⟨[5, 6], 0⟩ } = .next t ∧
    t.host = [(0x1000, 5), (0x1001, 0xBB)] ∧ t.bus = some ⟨0, 0x0050, .write 127 [6], false⟩ :=
  ⟨_, rfl, by decide⟩

/-- A WRITE is accepted whose source meets the destination of the READ of `reading` in two of its four
bytes: each command is marked for a race on the other's buffer (41_transfer.md R174 (g)). -/
theorem test_transfer_race : ∃ t, exec (.write 0 4 0x3002) { reading with sel := 1 } = .next t ∧
    (t.port 0).raced = [(0x3002, 4)] ∧ (t.port 1).raced = [(0x3000, 4)] ∧ (t.port 1).ph = .waitLock :=
  ⟨_, rfl, by decide⟩

/-- An Unregister cut off by a block reset takes effect after the next ATTACH has registered
(70_reset_and_hazards.md R252). -/
theorem test_late_unregister : ∃ t,
    step { attached with agenda := [.collab 0], lingering := [.unregister] } = .next t ∧
    t.registered = false ∧ t.attachState = .attached ∧ t.lingering = [] := ⟨_, rfl, by decide⟩

/-- A loss of power during a write cycle on address 127: the byte at 128, outside the cycle, keeps its value
(20_memory.md R76), and the block keeps settling. -/
theorem test_power_loss : ∃ t,
    step { settling with agenda := [.powerLoss {}], eeprom := [(128, 7)], draws := ⟨[9], 0⟩ } = .next t ∧
    t.eepromByte 128 = 7 ∧ t.eepromByte 127 = 9 ∧ t.ports = settling.ports := ⟨_, rfl, by decide⟩

/-! ### The invariants hold of the small states -/

/-- `Inv` of a state of two ports, port 1 idle and the lock port 0's if held. -/
theorem inv_of {s : State}
    (h : paramsOk s.params ∧ s.params.nPorts = 2 ∧ s.ports.length = 2 ∧ s.lockOwner = 0 ∧
      (s.locked = true ↔ holdsLock (s.port 0).ph = true) ∧ (s.port 1).ph = .idle ∧
      (s.settleCnt ≠ 0 → (s.port 0).ph = .settle) ∧ (s.rmValid = true ↔ s.attachState ≠ .detached) ∧
      widthsOk s.params (s.port 0) ∧ widthsOk s.params (s.port 1) ∧ s.settleCnt ≤ settleMax s.params)
    (hb : ∀ op, s.bus = some op → op.port = 0 ∧ (s.port 0).ph = .bus)
    (hw : (s.port 0).ph = .bus → ∃ op, s.bus = some op ∧ op.port = 0 ∧ cmdOk (s.port 0) op.cmd)
    (hp : portOk s.params s.attachState (s.port 0))
    (he : s.eeprom.wf ∧ ∀ x ∈ s.eeprom, x.1 < capacity)
    (hh : s.host.wf ∧ ∀ x ∈ s.host, x.1 < hostSize s.params)
    (hc : cycleOk s.params s.wc) (hs : (s.port 0).ph = .settle → cycleWithin s.settleCnt s.wc) : Inv s := by
  obtain ⟨h1, h2, h3, h4, h5, h6, h7, h8, h9, h10, h11⟩ := h
  have hz : s.lockOwner.toNat = 0 := by rw [h4]; rfl
  have two : ∀ p, p < s.ports.length → p = 0 ∨ p = 1 := by intro p hp; omega
  have idle1 : portOk s.params s.attachState (s.port 1) := by unfold portOk; rw [h6]; trivial
  exact {
    params := h1
    nPorts := by omega
    ownerClear := fun _ => h4
    settleOwner := fun h => ⟨h5.2 (by rw [h7 h]; rfl), by rw [hz]; exact h7 h⟩
    rmValid := h8
    busIssuer := fun op h => by rw [(hb op h).1]; exact ⟨by omega, (hb op h).2⟩
    busWait := fun p hp h => by
      rcases two p hp with rfl | rfl
      · exact hw h
      · rw [h6] at h; cases h
    lockHeld := fun p hp h => by
      rcases two p hp with rfl | rfl
      · exact ⟨h5.2 h, hz⟩
      · rw [h6] at h; cases h
    lockOwned := fun h => by rw [hz]; exact ⟨by omega, h5.1 h⟩
    phases := fun p hp' => by
      rcases two p hp' with rfl | rfl
      · exact hp
      · exact idle1
    widths := fun p hp => by
      rcases two p hp with rfl | rfl
      · exact h9
      · exact h10
    oneCollab := fun p hp q hq h h' => by
      rcases two p hp with rfl | rfl <;> rcases two q hq with rfl | rfl
      · rfl
      · rw [h6] at h'; cases h'
      · rw [h6] at h; cases h
      · rfl
    settleBound := h11
    eepromWf := he.1
    eepromIn := he.2
    hostWf := hh.1
    hostIn := hh.2
    cycle := hc
    settleLong := fun p hp h => by
      rcases two p hp with rfl | rfl
      · exact hs h
      · rw [h6] at h; cases h }

theorem inv_attached : Inv attached :=
  inv_of (by decide) (fun _ h => nomatch h) (fun h => nomatch h) trivial (by decide) (by decide) trivial
    (fun h => nomatch h)

theorem inv_probing : Inv probing :=
  inv_of (by decide) (fun _ h => by cases h; decide) (fun _ => ⟨_, rfl, rfl, by decide, rfl⟩)
    (.inl (by decide)) (by decide) (by decide) trivial (fun h => nomatch h)

theorem inv_registering : Inv registering :=
  inv_of (by decide) (fun _ h => nomatch h) (fun h => nomatch h) ⟨by decide, .inl (by decide)⟩ (by decide)
    (by decide) trivial (fun h => nomatch h)

theorem inv_detachActive : Inv detachActive :=
  inv_of (by decide) (fun _ h => nomatch h) (fun h => nomatch h) ⟨by decide, by decide⟩ (by decide)
    (by decide) trivial (fun h => nomatch h)

theorem inv_unregistering : Inv unregistering :=
  inv_of (by decide) (fun _ h => nomatch h) (fun h => nomatch h) ⟨by decide, .inr (by decide)⟩ (by decide)
    (by decide) trivial (fun h => nomatch h)

theorem inv_reading : Inv reading :=
  inv_of (by decide) (fun _ h => by cases h; decide) (fun _ => ⟨_, rfl, rfl, by decide, rfl, rfl⟩)
    (.inr (by decide)) (by decide) (by decide) trivial (fun h => nomatch h)

theorem inv_writing : Inv writing :=
  inv_of (by decide) (fun _ h => by cases h; decide) (fun _ => ⟨_, rfl, rfl, by decide, rfl, rfl⟩)
    (.inr (by decide)) (by decide) (by decide) trivial (fun h => nomatch h)

theorem inv_settling : Inv settling :=
  inv_of (by decide) (fun _ h => nomatch h) (fun h => nomatch h) ⟨by decide, by decide, by decide, rfl⟩ (by decide)
    (by decide) ⟨by decide, by decide, by decide⟩ (fun _ => show 1 ≤ 5000 by decide)

theorem inv_settled : Inv settled :=
  inv_of (by decide) (fun _ h => nomatch h) (fun h => nomatch h) ⟨by decide, by decide, by decide, rfl⟩ (by decide)
    (by decide) trivial (fun _ => trivial)

/-- The agenda takes no part in `Inv`. -/
theorem inv_agenda {s : State} (h : Inv s) (a : List Move) : Inv { s with agenda := a } :=
  h.congr rfl rfl rfl rfl rfl rfl rfl rfl rfl rfl rfl

theorem quiet_attached : Quiet attached := ⟨by decide, rfl, rfl, rfl, rfl⟩

/-! ### For each statement with hypotheses, states and operands that meet them -/

/-- A state whose port 0 is marked for a race on one host address. -/
def marked (x : Nat) (s : State) : State := at0 { s.port 0 with raced := [(x, 1)] } s

/-- A state with a given agenda. -/
def runs (a : List Move) (s : State) : State := { s with agenda := a }

/-- READ's descriptor waits on port 1 and port 1 is next, or a transfer in flight is next. -/
theorem witness_StepRunsTheDecodedCommand :
    (∃ s : State, s.agenda = [.port 1 {}] ∧ 1 < s.ports.length ∧ (s.port 1).ph = .idle ∧
      (s.port 1).reqs = [encode (.read 1 2 3)] ∧ decode (encode (.read 1 2 3)) = .command (.read 1 2 3)) ∧
    (runs [.port 0 {}] reading).agenda = [.port 0 {}] ∧ 0 < reading.ports.length ∧
    (reading.port 0).ph ≠ .idle ∧ decode (reading.port 0).d.desc = .command (.read 126 4 0x3000) :=
  ⟨⟨runs [.port 1 {}] (attached.setPort 1 { Port.reset with reqs := [encode (.read 1 2 3)] }), by decide⟩,
    by decide⟩

theorem witness_StepRunsThePlacedWord :
    0 < State.reset.ports.length ∧ decodeTableWord 128 4 = some (.write 0 0 0) := by decide

/-- The illegal descriptors of 95_test_vectors.md E5 to E11, the bounds of OP among them. -/
theorem witness_IllegalDescriptorIsAnsweredAtAcceptance :
    ∀ d ∈ ([⟨0, 0, 0, 0⟩, ⟨5, 0, 0, 0⟩, ⟨0xF, 1, 2, 3⟩, ⟨0x13, 0, 1, 0⟩, ⟨0x80000003, 0, 1, 0⟩, ⟨1, 1, 0, 0⟩,
        ⟨1, 0, 1, 0⟩, ⟨2, 0, 0, 5⟩] : List Desc),
      ((d.w0.toNat % 16 = 0 ∨ 5 ≤ d.w0.toNat % 16) ∨ d.w0.toNat / 16 ≠ 0 ∨
        ((d.w0.toNat % 16 = 1 ∨ d.w0.toNat % 16 = 2) ∧ (d.w1 ≠ 0 ∨ d.w2 ≠ 0 ∨ d.w3 ≠ 0))) ∧
      ∃ s : State, s.agenda = [.port 1 {}] ∧ 1 < s.ports.length ∧ (s.port 1).ph = .idle ∧
        s.ownedBy 1 = false ∧ (s.port 1).reqs = [d] := fun d h =>
  ⟨by revert d; decide,
    runs [.port 1 {}] (attached.setPort 1 { Port.reset with reqs := [d] }), rfl, by show 1 < 2; decide, rfl,
    rfl, rfl⟩

theorem witness_PresentedDescriptorsWait :
    (runs [asmMove ⟨1, .cmd .attach⟩] State.reset).agenda = [asmMove ⟨1, .cmd .attach⟩] ∧
    (runs [asmMove ⟨1, .desc 5 0 0 0⟩] State.reset).agenda = [asmMove ⟨1, .desc 5 0 0 0⟩] ∧
    1 < State.reset.ports.length := by decide

theorem witness_LifecycleCommandsAreAccepted :
    State.reset.sel < State.reset.ports.length ∧ (State.reset.port State.reset.sel).ph = .idle := by decide

/-- The hypotheses hold of a detached and of an attached machine. For the attached one the operands of
each clause, at its bounds: A12, A3, A5, A10. And of one in which a READ, and one in which a WRITE, is in
flight on port 0, the last byte of its buffer the first of the command's on port 1. -/
theorem witness_TransfersAreCheckedAtAcceptance :
    (∀ s ∈ [State.reset, attached], s.sel < s.ports.length ∧ (s.port s.sel).ph = .idle ∧
      s.ownedBy s.sel = false) ∧ State.reset.attachState ≠ .attached ∧ attached.attachState = .attached ∧
    (0xFFFF0000 : Word).toNat + (0 : Word).toNat > 65536 ∧
    (65535 : Word).toNat + (2 : Word).toNat > 65536 ∧
    ((65535 : Word).toNat + (1 : Word).toNat = 65536 ∧
      (0xFFFFFFFF : Word).toNat + (1 : Word).toNat = 2 ^ attached.params.hostAw) ∧
    ((65534 : Word).toNat + (2 : Word).toNat = 65536 ∧
      (0xFFFFFFFF : Word).toNat + (2 : Word).toNat > 2 ^ attached.params.hostAw) ∧
    (∀ s ∈ [{ reading with sel := 1 }, { writing with sel := 1 }], s.sel < s.ports.length ∧
      (s.port s.sel).ph = .idle ∧ s.ownedBy s.sel = false ∧ s.attachState = .attached) ∧
    (usesHost (reading.port 0) 0x3003 ∧ (reading.port 0).d.op = 3 ∧
      (0x3003 : Word).toNat ≤ 0x3003 ∧ 0x3003 < (0x3003 : Word).toNat + (2 : Word).toNat) ∧
    (usesHost (writing.port 0) 0x1001 ∧ (writing.port 0).d.op = 4 ∧
      (0x1001 : Word).toNat ≤ 0x1001 ∧ 0x1001 < (0x1001 : Word).toNat + (2 : Word).toNat) := by decide

theorem witness_WaitingContextTakesTheFreeLock :
    ∀ s ∈ [at0 (cmdPort .waitLock ⟨1, 0, 0, 0⟩) State.reset,
        { at0 (cmdPort .waitLock ⟨3, 0, 1, 0⟩) attached with locked := true, lockOwner := 1 }],
      s.sel < s.ports.length ∧ (s.port s.sel).ph = .waitLock := by decide

/-- A context that holds the lock, and one that does not. -/
theorem witness_RaiseStatusEndsTheCommand : 1 < reading.ports.length ∧ reading.ownedBy 0 = true ∧
    reading.ownedBy 1 = false := by decide

/-- ATTACH with the lock: attached already, without the capability, and good to go. -/
theorem witness_AttachChecksThenProbes :
    (∀ s ∈ [held (at0 (cmdPort .active ⟨1, 0, 0, 0⟩) attached),
        held (at0 (cmdPort .active ⟨1, 0, 0, 0⟩) { State.reset with busFullAddr := false }),
        held (at0 (cmdPort .active ⟨1, 0, 0, 0⟩) State.reset)],
      s.sel < s.ports.length ∧ (s.port s.sel).ph = .active ∧ s.ownedBy s.sel = true) ∧
    attached.attachState ≠ .detached ∧ State.reset.attachState = .detached ∧
    State.reset.busFullAddr = true := by decide

/-- The three answers of the probe. -/
theorem witness_AttachNeedsOneProbeByte :
    ∀ c ∈ [({ probe := some 0xFF } : Choice), {}, { err := 9 }],
      (asks c probing).sel < (asks c probing).ports.length ∧ ((asks c probing).port 0).ph = .bus ∧
      (asks c probing).ownedBy 0 = true ∧ (asks c probing).bus = some ⟨0, 0x0050, .recv 1, false⟩ := by
  decide

theorem witness_AttachCompletesOnRegistration :
    ∀ c ∈ [({} : Choice), { err := 0x44 }],
      (asks c registering).sel < (asks c registering).ports.length ∧
      ((asks c registering).port 0).ph = .collab ∧ (asks c registering).ownedBy 0 = false := by decide

/-- DETACH with the lock, of an attached and of a detached device. -/
theorem witness_DetachBeginsUnderTheLock :
    (∀ s ∈ [detachActive, held (at0 (cmdPort .active ⟨2, 0, 0, 0⟩) State.reset)],
      s.sel < s.ports.length ∧ (s.port s.sel).ph = .active ∧ s.ownedBy s.sel = true) ∧
    detachActive.attachState = .attached := by decide

theorem witness_DetachCompletesOnUnregister :
    unregistering.sel < unregistering.ports.length ∧ (unregistering.port 0).ph = .collab ∧
    unregistering.ownedBy 0 = false := by decide

/-- The last byte of the device and of the host space, for READ and for WRITE, attached and not, and during
a write cycle; and a WRITE marked for a race on its one byte. -/
theorem witness_TransferBeginsWithTheRecheck :
    ∀ s ∈ [held (at0 (cmdPort .active ⟨3, 65535, 1, 0xFFFFFFFF⟩) attached),
        held (at0 (cmdPort .active ⟨4, 65535, 1, 0xFFFFFFFF⟩) attached),
        held (at0 (cmdPort .active ⟨4, 65535, 1, 0xFFFFFFFF⟩) { attached with wc := .busy 1 [(0, none)] }),
        held (at0 (cmdPort .active ⟨3, 65535, 1, 0xFFFFFFFF⟩) State.reset)],
      s.sel < s.ports.length ∧ (s.port s.sel).ph = .active ∧ s.ownedBy s.sel = true ∧
      0 < (s.port s.sel).d.length.toNat ∧
      (s.port s.sel).d.offset.toNat + (s.port s.sel).d.length.toNat ≤ 65536 ∧
      (s.port s.sel).d.bufaddr.toNat + (s.port s.sel).d.length.toNat ≤ 2 ^ s.params.hostAw ∧
      (¬ racedAt (s.port 0) 0xFFFFFFFF ∧ racedAt ((marked 0xFFFFFFFF s).port 0) 0xFFFFFFFF) := by decide

/-- An operation that was issued outside a write cycle, one issued during one, one after a change of the
inputs, and one of a command that is marked for a race on the first byte of its slice. -/
theorem witness_ReadChunkArrives :
    (∀ s ∈ [reading, { reading with bus := some ⟨0, 0x0050, .read 126 2, true⟩ },
        { reading with disturbed := true }, marked 0x3000 reading],
      s.sel < s.ports.length ∧ (s.port 0).ph = .bus ∧
      (∃ hit, s.bus = some ⟨0, 0x0050, .read (s.port 0).cur (s.port 0).clen, hit⟩) ∧
      s.choice.err = 0 ∧ (s.port 0).clen < (s.port 0).rem ∧ (s.port 0).cur + (s.port 0).rem ≤ 65536 ∧
      (s.port 0).buf + (s.port 0).rem ≤ 2 ^ s.params.hostAw) ∧
    (reading.port 0).buf = 0x3000 ∧ racedAt ((marked 0x3000 reading).port 0) 0x3000 ∧
    ¬ racedAt ((marked 0x3000 reading).port 0) (0x3000 + 1) := by decide

/-- As above. -/
theorem witness_ReadCompletesOnTheLastChunk :
    (∀ s ∈ [readingLast, { readingLast with bus := some ⟨0, 0x0050, .read 128 2, true⟩ },
        { readingLast with disturbed := true }, marked 0x3003 readingLast],
      s.sel < s.ports.length ∧ (s.port 0).ph = .bus ∧ s.ownedBy 0 = true ∧
      (∃ hit, s.bus = some ⟨0, 0x0050, .read (s.port 0).cur (s.port 0).clen, hit⟩) ∧
      s.choice.err = 0 ∧ (s.port 0).clen = (s.port 0).rem ∧
      (s.port 0).buf + (s.port 0).rem ≤ 2 ^ s.params.hostAw) ∧
    (readingLast.port 0).buf = 0x3002 ∧ racedAt ((marked 0x3003 readingLast).port 0) (0x3002 + 1) ∧
    ¬ racedAt ((marked 0x3003 readingLast).port 0) 0x3002 := by decide

theorem witness_ReadFailsWithTheBusError :
    ∃ s, s = asks { err := 0x77 } reading ∧ s.sel < s.ports.length ∧ (s.port 0).ph = .bus ∧
    s.ownedBy 0 = true ∧ s.bus = some ⟨0, 0x0050, .read (s.port 0).cur (s.port 0).clen, false⟩ ∧
    s.choice.err ≠ 0 ∧ (s.port 0).buf + (s.port 0).clen ≤ 2 ^ s.params.hostAw := ⟨_, rfl, by decide⟩

/-- W2 under STRIDE: its one chunk crosses a page boundary. -/
def crossing : State :=
  { held (at0 (chunkPort .bus ⟨4, 127, 2, 0x1000⟩ 127 2 0x1000 2 0)
      { attached with params := { Params.vectors with policy := .stride } }) with
    bus := some ⟨0, 0x0050, .write 127 [0xAA, 0xBB], false⟩
    eeprom := [(127, 0), (128, 0)], host := [(0x1000, 0xAA), (0x1001, 0xBB)] }

/-- A chunk inside its page and one across the boundary, each with the clauses' cases: in a quiet device,
one whose write cycle is of 0 ticks, during a cycle, and after a change of the inputs. The range R of each
holds its last byte and not the next. -/
theorem witness_WriteChunkStartsCycleAndSettle :
    (∀ s ∈ [writing, { writing with params := { Params.vectors with tWc := 0 } },
        { writing with disturbed := true }],
      s.sel < s.ports.length ∧ (s.port 0).ph = .bus ∧ s.choice.err = 0 ∧
      s.bus = some ⟨0, 0x0050, .write 127 [0xAA], false⟩ ∧ settleMin s.params ≤ settleMax s.params) ∧
    0 < [(0xAA : Byte)].length ∧ 0 < writing.params.tWc ∧ writing.disturbed = false ∧
    127 / 128 = (127 + [(0xAA : Byte)].length - 1) / 128 ∧
    (∃ s : State, s.bus = some ⟨0, 0x0050, .write 127 [0xAA], true⟩ ∧ (s.port 0).ph = .bus ∧
      s.disturbed = false) ∧
    (inWriteRange 127 [(0xAA : Byte)].length 127 ∧ ¬ inWriteRange 127 [(0xAA : Byte)].length 126 ∧
      inWriteRange 127 [(0xAA : Byte), 0xBB].length 255 ∧
      ¬ inWriteRange 127 [(0xAA : Byte), 0xBB].length 256) ∧
    (∃ s : State, s.bus = some ⟨0, 0x0050, .write 127 [0xAA, 0xBB], false⟩ ∧ s.params.tWc = 0 ∧
      (s.port 0).ph = .bus ∧ s.disturbed = false ∧ settleMin s.params ≤ settleMax s.params) ∧
    (crossing.sel < crossing.ports.length ∧ (crossing.port 0).ph = .bus ∧ crossing.disturbed = false ∧
      crossing.bus = some ⟨0, 0x0050, .write 127 [0xAA, 0xBB], false⟩ ∧ crossing.choice.err = 0 ∧
      settleMin crossing.params ≤ settleMax crossing.params ∧ 0 < crossing.params.tWc ∧
      127 / 128 ≠ (127 + [(0xAA : Byte), 0xBB].length - 1) / 128) :=
  ⟨by decide, by decide, by decide, rfl, by decide,
    ⟨{ writing with bus := some ⟨0, 0x0050, .write 127 [0xAA], true⟩ }, rfl, by decide⟩, by decide,
    ⟨{ crossing with params := { crossing.params with tWc := 0 } }, rfl, by decide⟩, by decide⟩

/-- As above, each answered with an error, in a quiet device with no drawn tick and with T_WC of them, and
in one whose write cycle runs. -/
theorem witness_WriteFailsWithTheBusError :
    (∃ s, s = asks { err := 0x11 } writing ∧ s.sel < s.ports.length ∧ (s.port 0).ph = .bus ∧
      s.ownedBy 0 = true ∧ s.bus = some ⟨0, 0x0050, .write 127 [0xAA], false⟩ ∧ s.choice.err ≠ 0 ∧
      127 / 128 = (127 + 1 - 1) / 128) ∧
    (∃ s, s = asks { err := 0x11 } crossing ∧ s.sel < s.ports.length ∧ (s.port 0).ph = .bus ∧
      s.ownedBy 0 = true ∧ s.bus = some ⟨0, 0x0050, .write 127 [0xAA, 0xBB], false⟩ ∧ s.choice.err ≠ 0 ∧
      127 / 128 ≠ (127 + 2 - 1) / 128) ∧
    (writing.wc = .idle ∧ min ({ err := 0x11 } : Choice).cycle writing.params.tWc = 0 ∧
      0 < min ({ err := 0x11, cycle := 3000 } : Choice).cycle writing.params.tWc) ∧
    ({ writing with wc := .busy 1 [(0, none)] } : State).wc ≠ .idle :=
  ⟨⟨_, rfl, by decide⟩, ⟨_, rfl, by decide⟩, by decide, by decide⟩

/-- A settle that runs, and one that is over with bytes left, the next of them marked for a race or not. -/
theorem witness_WriteGoesOnAfterTheSettle :
    (settling.sel < settling.ports.length ∧ (settling.port 0).ph = .settle ∧ settling.settleCnt ≠ 0) ∧
    (settled.sel < settled.ports.length ∧ (settled.port 0).ph = .settle ∧ settled.settleCnt = 0 ∧
      (settled.port 0).clen < (settled.port 0).rem ∧ (settled.port 0).cur + (settled.port 0).rem ≤ 65536 ∧
      (settled.port 0).buf + (settled.port 0).rem ≤ 2 ^ settled.params.hostAw ∧
      (settled.port 0).buf + (settled.port 0).clen = 0x1001 ∧ ¬ racedAt (settled.port 0) 0x1001 ∧
      racedAt ((marked 0x1001 settled).port 0) 0x1001) := by decide

theorem witness_WriteCompletesAfterTheLastSettle :
    settledLast.sel < settledLast.ports.length ∧ (settledLast.port 0).ph = .settle ∧
    settledLast.ownedBy 0 = true ∧ settledLast.settleCnt = 0 ∧
    (settledLast.port 0).clen = (settledLast.port 0).rem := by decide

/-- The last page of the device, to the last bytes of the host space, from port 1. -/
theorem witness_ReadRunMirrorsTheDevice :
    ∃ s : State, s.agenda = readMoves 1 (encode (.read 65408 128 0xFFFFFF80)) {}
        (chunks s.params.policy (65408 : Word).toNat (128 : Word).toNat).length ∧ Inv s ∧ Quiet s ∧
      1 < s.ports.length ∧ s.attachState = .attached ∧ (s.port 1).reqs = [] ∧ 0 < (128 : Word).toNat ∧
      (65408 : Word).toNat + (128 : Word).toNat ≤ 65536 ∧
      (0xFFFFFF80 : Word).toNat + (128 : Word).toNat ≤ 2 ^ s.params.hostAw :=
  ⟨runs (readMoves 1 (encode (.read 65408 128 0xFFFFFF80)) {} (chunks .aligned 65408 128).length) attached,
    rfl, inv_agenda inv_attached _, ⟨by decide, rfl, rfl, rfl, rfl⟩, by decide⟩

/-- W2, in two chunks. -/
theorem witness_WriteRunStoresTheSource :
    ∃ s : State, s.agenda = writeMoves 1 (encode (.write 127 2 0x1000)) {} (settleDraw s.params {})
        (chunks s.params.policy (127 : Word).toNat (2 : Word).toNat).length ∧ Inv s ∧ Quiet s ∧
      1 < s.ports.length ∧ s.attachState = .attached ∧ (s.port 1).reqs = [] ∧ 0 < (2 : Word).toNat ∧
      (127 : Word).toNat + (2 : Word).toNat ≤ 65536 ∧
      (0x1000 : Word).toNat + (2 : Word).toNat ≤ 2 ^ s.params.hostAw ∧ ({} : Choice).err = 0 ∧
      ∀ c ∈ chunks s.params.policy (127 : Word).toNat (2 : Word).toNat,
        c.1 / 128 = (c.1 + c.2 - 1) / 128 :=
  ⟨runs (writeMoves 1 (encode (.write 127 2 0x1000)) {} (settleDraw Params.vectors {})
      (chunks .aligned 127 2).length) attached,
    rfl, inv_agenda inv_attached _, ⟨by decide, rfl, rfl, rfl, rfl⟩, by decide⟩

/-- W2 from port 1, read back by port 0 to the top of the host space. -/
theorem witness_WrittenBytesAreReadBack :
    ∃ s : State, s.agenda = writeMoves 1 (encode (.write 127 2 0x1000)) {} (settleDraw s.params {})
        (chunks s.params.policy (127 : Word).toNat (2 : Word).toNat).length ∧ Inv s ∧ Quiet s ∧
      1 < s.ports.length ∧ 0 < s.ports.length ∧ s.attachState = .attached ∧ (s.port 1).reqs = [] ∧
      (s.port 0).reqs = [] ∧ 0 < (2 : Word).toNat ∧ (127 : Word).toNat + (2 : Word).toNat ≤ 65536 ∧
      (0x1000 : Word).toNat + (2 : Word).toNat ≤ 2 ^ s.params.hostAw ∧
      (0xFFFFFFFE : Word).toNat + (2 : Word).toNat ≤ 2 ^ s.params.hostAw ∧ ({} : Choice).err = 0 ∧
      ∀ c ∈ chunks s.params.policy (127 : Word).toNat (2 : Word).toNat,
        c.1 / 128 = (c.1 + c.2 - 1) / 128 :=
  ⟨runs (writeMoves 1 (encode (.write 127 2 0x1000)) {} (settleDraw Params.vectors {})
      (chunks .aligned 127 2).length) attached,
    rfl, inv_agenda inv_attached _, ⟨by decide, rfl, rfl, rfl, rfl⟩, by decide⟩

theorem inv_reset : Inv State.reset :=
  inv_of (by decide) (fun _ h => nomatch h) (fun h => nomatch h) trivial (by decide) (by decide) trivial
    (fun h => nomatch h)

theorem witness_LifecycleRunsComplete :
    (∃ s : State, Inv s ∧ Quiet s ∧ 1 < s.ports.length ∧ (s.port 1).reqs = [] ∧
      s.attachState = .detached ∧ s.busFullAddr = true ∧
      s.agenda = .present 1 (encode .attach) :: List.replicate 5 (.port 1 { probe := some 0 })) ∧
    (∃ s : State, Inv s ∧ Quiet s ∧ 1 < s.ports.length ∧ (s.port 1).reqs = [] ∧
      s.attachState = .attached ∧ s.agenda = .present 1 (encode .detach) :: List.replicate 4 (.port 1 {})) :=
  ⟨⟨runs _ State.reset, inv_agenda inv_reset _, ⟨by decide, rfl, rfl, rfl, rfl⟩, by decide, rfl, rfl, rfl,
      rfl⟩,
    ⟨runs _ attached, inv_agenda inv_attached _, ⟨by decide, rfl, rfl, rfl, rfl⟩, by decide, rfl, rfl, rfl⟩⟩

/-- A chunk that ends at a page and one that ends at 128 bytes, each with bytes left. -/
theorem witness_ChunksFitThePage : chunkLen .aligned 127 2 < 2 ∧ chunkLen .stride 100 300 < 300 := by decide

theorem witness_ChunkListCoversTheRequest : 0 < 65535 ∧ 1 + 65535 ≤ 65536 ∧
    1 < (chunks .aligned 127 2).length := by decide

/-- The last byte of the device. -/
theorem witness_InPageWriteCommitsAfterItsCycle : attached.wc = .idle ∧ attached.disturbed = false ∧
    0 < [(7 : Byte)].length ∧ 65535 + [(7 : Byte)].length ≤ 65536 ∧
    65535 / 128 = (65535 + [(7 : Byte)].length - 1) / 128 ∧ 0 < attached.params.tWc := by decide

theorem witness_PageCrossingWriteStaysInItsPages : attached.wc = .idle ∧ attached.disturbed = false ∧
    0 < [(1 : Byte), 2].length ∧ 127 + [(1 : Byte), 2].length ≤ 65536 ∧
    127 / 128 ≠ (127 + [(1 : Byte), 2].length - 1) / 128 ∧ 127 / 128 ≤ 255 / 128 ∧
    255 / 128 ≤ (127 + [(1 : Byte), 2].length - 1) / 128 := by decide

theorem witness_OperationDuringCycleCorruptsIt : settling.wc = .busy 1 [(127, some 0xAA)] ∧
    settling.disturbed = false ∧ attached.wc = .idle := by decide

/-- A clock whose window holds many counts, and one whose window holds one. -/
theorem witness_SettleIsDrawnFromItsWindow : settleMin Params.vectors ≤ settleMax Params.vectors ∧
    settleMin (atClock 200) = settleMax (atClock 200) := by decide

theorem witness_SettleBoundsRoundInwards : 5 * (atClock 32768).fClk ≤ 164 * 1000 ∧
    196 * 1000 ≤ 6 * (atClock 32768).fClk := by decide

/-- The clock runs, a block reset, a descriptor is presented, and the context is asked for a step, during a
settle. -/
theorem witness_SettleIsNotCancelled :
    ∀ a ∈ [[], [Move.tick], [.reset {}], [.present 0 ⟨1, 0, 0, 0⟩], [.port 0 {}]],
      Inv (runs a settling) ∧ settling.settleCnt ≠ 0 ∧ ∃ t, step (runs a settling) = .next t := by
  intro a h
  refine ⟨inv_agenda inv_settling a, by decide, ?_⟩
  simp only [List.mem_cons, List.not_mem_nil, or_false] at h
  rcases h with rfl | rfl | rfl | rfl | rfl <;> exact ⟨_, rfl⟩

theorem witness_NoCycleRunsAfterTheSettle : Inv settled ∧ 0 < settled.ports.length ∧
    (settled.port 0).ph = .settle ∧ settled.settleCnt = 0 := ⟨inv_settled, by decide⟩

/-- No cycle, one at its last tick, of bytes and of any value at some address, and one before it. -/
theorem witness_TickCountsDown : attached.wc = .idle ∧ settling.wc = .busy 1 (byteCells 127 [0xAA]) ∧
    (∃ s : State, s.wc = .busy 2 (byteCells 127 [0xAA]) ∧ 1 < 2) ∧
    ∃ s : State, s.wc = .busy 1 [(127, none), (128, some 0xBB)] ∧
      (∀ c ∈ [((127 : Nat), (none : Option Byte)), (128, some 0xBB)], c.1 = 127 → c.2 = none) ∧
      ∀ c ∈ [((127 : Nat), (none : Option Byte)), (128, some 0xBB)], c.1 = 128 → c.2 = some 0xBB :=
  ⟨rfl, rfl, ⟨{ settling with wc := .busy 2 (byteCells 127 [0xAA]) }, rfl, by decide⟩,
    { settling with wc := .busy 1 [(127, none), (128, some 0xBB)] }, rfl, by decide⟩

/-- A change while attached and none, and a READ's chunk that is answered after one. -/
theorem witness_ChangedInputsDisturbTheBus :
    (setInputs true 0x0051 attached).disturbed = true ∧ (setInputs true 0x0050 attached).disturbed = false ∧
    (setInputs false 0x0051 State.reset).disturbed = false ∧
    (inWriteRange 127 [(1 : Byte)].length 127 ∧ ¬ inWriteRange 127 [(1 : Byte)].length 126) ∧
    ∃ s, s = setInputs true 0x0051 reading ∧ s.disturbed = true ∧ s.sel < s.ports.length ∧
      (s.port s.sel).ph = .bus ∧
      s.bus = some ⟨0, 0x0050, .read (s.port s.sel).cur (s.port s.sel).clen, false⟩ ∧ s.choice.err = 0 ∧
      (s.port s.sel).clen ≤ (s.port s.sel).rem ∧ (s.port s.sel).cur + (s.port s.sel).rem ≤ 65536 ∧
      (s.port s.sel).buf + (s.port s.sel).rem ≤ 2 ^ s.params.hostAw :=
  ⟨by decide, by decide, by decide, by decide, _, rfl, by decide⟩

/-- A port that is marked for a race on the second of two bytes. -/
theorem witness_HostAccessesMoveExactlyTheirBytes :
    ¬ racedAt ((marked 0x1001 writing).port 0) 0x1000 ∧ racedAt ((marked 0x1001 writing).port 0) (0x1000 + 1) ∧
    1 < [(1 : Byte), 2].length ∧ 1 < 2 := by decide

/-- The last byte of the host space, with no transfer in flight; two bytes of which a READ in flight uses
the first alone; a byte that a WRITE has outstanding; and one that a WRITE has given to the device, with the
write cycle running. -/
theorem witness_HostWriteSetsItsBytes :
    (0xFFFFFFFF + [(1 : Byte)].length ≤ 2 ^ attached.params.hostAw ∧
      ∀ c ∈ attached.ports, ¬ usesHost c 0xFFFFFFFF) ∧
    (0x3003 + [(1 : Byte), 2].length ≤ 2 ^ reading.params.hostAw ∧
      (∀ c ∈ reading.ports, ¬ usesHost c (0x3003 + 1)) ∧ usesHost (reading.port 0) 0x3003 ∧
      ∀ c ∈ reading.ports, c.d.op ≠ 4) ∧
    (0x1000 + [(1 : Byte)].length ≤ 2 ^ writing.params.hostAw ∧ writing.locked = true ∧
      writing.lockOwner.toNat = 0 ∧ (writing.port 0).d.op = 4 ∧ (writing.port 0).ph = .bus ∧
      writing.bus = some ⟨0, 0x0050, .write 127 [0xAA], false⟩ ∧
      correspondsTo (writing.port 0) 0x1000 [(1 : Byte)].length 127 ∧
      ¬ correspondsTo (writing.port 0) 0x1000 [(1 : Byte)].length 128) ∧
    (settling.locked = true ∧ settling.lockOwner.toNat = 0 ∧ (settling.port 0).d.op = 4 ∧
      (settling.port 0).ph = .settle ∧ settling.wc = .busy 1 (byteCells 127 [0xAA]) ∧
      correspondsTo (settling.port 0) 0x1000 [(1 : Byte)].length 127 ∧
      127 < (settling.port 0).cur + (settling.port 0).clen) ∧
    (0x1000 + [(1 : Byte)].length ≤ 2 ^ settling.params.hostAw ∧
      (hostWrite 0x1000 [1] { settling with draws := ⟨[5, 6], 0⟩ }).eepromByte 127 ≠
        ({ settling with draws := ⟨[5, 6], 0⟩ } : State).eepromByte 127) := by decide

/-- The last byte of the host space with no transfer in flight; two bytes of the destination of a READ in
flight, to its end; and a read that changes what the host took. -/
theorem witness_HostReadsTheStoredBytes :
    ((runs [.hostRead 0xFFFFFFFF 1] attached).agenda = [.hostRead 0xFFFFFFFF 1] ∧
      0xFFFFFFFF + 1 ≤ 2 ^ attached.params.hostAw ∧
      ∀ c ∈ attached.ports, usesHost c 0xFFFFFFFF → c.d.op ≠ 3) ∧
    ((runs [.hostRead 0x3002 2] reading).agenda = [.hostRead 0x3002 2] ∧
      0x3002 + 2 ≤ 2 ^ reading.params.hostAw ∧
      (∀ j, j < 2 → ∃ c ∈ reading.ports, usesHost c (0x3002 + j) ∧ c.d.op = 3) ∧
      (reading.port 0).d.op = 3 ∧ usesHost (reading.port 0) 0x3003) ∧
    ∃ t, step (runs [.hostRead 0x1000 1] writing) = .next t ∧ t.seen ≠ writing.seen :=
  ⟨by decide, by decide, _, rfl, by decide⟩

/-- A cut-off call of each kind takes effect, a registration is discarded, a block reset cuts a call off,
and a registration is answered. -/
theorem witness_LateCallsTakeEffect :
    (∀ x ∈ [CollabCall.register, .unregister],
      ({ attached with lingering := [x], agenda := [.collab 0] } : State).lingering[0]? = some x) ∧
    (∃ t, step { attached with lingering := [.unregister], agenda := [.collab 0] } = .next t ∧
      t.lingering ≠ [.unregister] ∧ t.registered ≠ attached.registered) ∧
    (∃ t, step (runs [.discard] attached) = .next t ∧ t.registered ≠ attached.registered) ∧
    (∃ t, step (runs [.reset {}] registering) = .next t ∧ t.lingering ≠ registering.lingering) ∧
    ∃ t, step (runs [.port 0 {}] registering) = .next t ∧ t.registered ≠ registering.registered :=
  ⟨by decide, ⟨_, rfl, by decide⟩, ⟨_, rfl, by decide⟩, ⟨_, rfl, by decide⟩, _, rfl, by decide⟩

/-- An outstanding write inside its page, one across the boundary, with no drawn tick and with one, a read,
also after a change of the inputs, a collaborator call that takes
effect at the reset or may later, and none of these. -/
theorem witness_BlockResetClearsTheBlock :
    (∀ s ∈ [writing, crossing, reading, registering, unregistering, attached],
      ∀ c ∈ [({} : Choice), { effect := true }], (runs [.reset c] s).agenda = [.reset c]) ∧
    writing.bus = some ⟨0, 0x0050, .write 127 [0xAA], false⟩ ∧ writing.wc = .idle ∧
    (min ({} : Choice).cycle writing.params.tWc = 0 ∧ 0 < min ({ cycle := 1 } : Choice).cycle writing.params.tWc) ∧
    (({ reading with disturbed := true } : State).disturbed = true) ∧
    crossing.bus = some ⟨0, 0x0050, .write 127 [0xAA, 0xBB], false⟩ ∧
    reading.bus = some ⟨0, 0x0050, .read 126 2, false⟩ ∧
    (∀ s ∈ [registering, unregistering], 0 < s.ports.length ∧ (s.port 0).ph = .collab ∧
      ∀ q, q < s.ports.length → (s.port q).ph = .collab → q = 0) ∧
    attached.disturbed = false ∧ attached.bus = none ∧
    (∀ p, p < attached.ports.length → (attached.port p).ph ≠ .collab) := by decide

theorem witness_EveryStepKeepsTheInvariants :
    Inv (runs [.port 0 {}] writing) ∧ ∃ t, step (runs [.port 0 {}] writing) = .next t :=
  ⟨inv_agenda inv_writing _, _, rfl⟩

theorem witness_NoStepStops : Inv (runs [.port 0 {}] reading) := inv_agenda inv_reading _

theorem witness_SharedStateInvariants : Inv settling ∧ settling.settleCnt ≠ 0 ∧ Inv reading ∧
    reading.bus ≠ none ∧ Inv attached ∧ attached.locked = false :=
  ⟨inv_settling, by decide, inv_reading, by decide, inv_attached, rfl⟩

/-- Each of the transitions of the table of 40_attach.md R146. -/
theorem witness_AttachStateTransitions :
    (∃ t, step (runs [.port 0 { probe := some 0 }] probing) = .next t ∧ t.attachState = .attaching) ∧
    (∃ t, step (runs [.port 0 {}] registering) = .next t ∧ t.attachState = .attached) ∧
    (∃ t, step (runs [.port 0 { err := 0x44 }] registering) = .next t ∧ t.attachState = .detached) ∧
    (∃ t, step (runs [.port 0 {}] detachActive) = .next t ∧ t.attachState = .detaching) ∧
    (∃ t, step (runs [.port 0 {}] unregistering) = .next t ∧ t.attachState = .detached) ∧
    (∃ t, step (runs [.reset {}] attached) = .next t ∧ t.attachState = .detached) ∧
    Inv probing ∧ Inv registering ∧ Inv detachActive ∧ Inv unregistering ∧ Inv attached :=
  ⟨⟨_, rfl, by decide⟩, ⟨_, rfl, by decide⟩, ⟨_, rfl, by decide⟩, ⟨_, rfl, by decide⟩, ⟨_, rfl, by decide⟩,
    ⟨_, rfl, by decide⟩, inv_probing, inv_registering, inv_detachActive, inv_unregistering, inv_attached⟩

theorem witness_BusIsUsedUnderTheLock :
    (Inv probing ∧ probing.bus = some ⟨0, 0x0050, .recv 1, false⟩) ∧
    (Inv reading ∧ reading.bus = some ⟨0, 0x0050, .read 126 2, false⟩) ∧
    (Inv writing ∧ writing.bus = some ⟨0, 0x0050, .write 127 [0xAA], false⟩) :=
  ⟨⟨inv_probing, rfl⟩, ⟨inv_reading, rfl⟩, inv_writing, rfl⟩

theorem witness_AlignedWritesStayInOnePage : Inv writing ∧ writing.params.policy = .aligned ∧
    writing.bus = some ⟨0, 0x0050, .write 127 [0xAA], false⟩ := ⟨inv_writing, rfl, rfl⟩

theorem witness_CursorNeverWraps :
    (Inv reading ∧ 0 < reading.ports.length ∧ (reading.port 0).d.op = 3 ∧ (reading.port 0).ph = .bus) ∧
    (Inv settling ∧ 0 < settling.ports.length ∧ (settling.port 0).d.op = 4 ∧
      (settling.port 0).ph = .settle) := ⟨⟨inv_reading, by decide⟩, inv_settling, by decide⟩

/-- A write cycle ends, a write fails, a block reset drops a write, the host writes a byte that WRITE has
given to the device, and the device loses power in a write cycle: each changes the byte at 127. And a loss
of power that leaves a cycle of one tick, one in a device that is idle, with an operation outstanding and
with none. -/
theorem witness_OnlyWritesChangeTheEeprom :
    (Inv (runs [] settling) ∧ settling.disturbed = false ∧
      ∃ t, step (runs [] settling) = .next t ∧ t.eepromByte 127 = 0xAA ∧ settling.eepromByte 127 = 0) ∧
    (∀ m ∈ [Move.port 0 { err := 1 }, .reset {}],
      Inv { runs [m] writing with draws := ⟨[0x55], 0⟩ } ∧ writing.disturbed = false ∧
      ∃ t, step { runs [m] writing with draws := ⟨[0x55], 0⟩ } = .next t ∧ t.eepromByte 127 = 0x55 ∧
        writing.eepromByte 127 = 0) ∧
    (Inv { runs [.hostWrite 0x1000 [1]] settling with draws := ⟨[0x54, 0x55], 0⟩ } ∧
      ∃ t, step { runs [.hostWrite 0x1000 [1]] settling with draws := ⟨[0x54, 0x55], 0⟩ } = .next t ∧
        t.eepromByte 127 = 0x55) ∧
    (Inv { runs [.powerLoss {}] settling with draws := ⟨[0x55], 0⟩ } ∧
      settling.wc = .busy 1 (byteCells 127 [0xAA]) ∧ (∀ x ∈ byteCells 127 [0xAA], x.1 ≠ 126) ∧
      min ({} : Choice).cycle 1 = 0 ∧ 0 < min ({ cycle := 7 } : Choice).cycle 1 ∧
      ∃ t, step { runs [.powerLoss {}] settling with draws := ⟨[0x55], 0⟩ } = .next t ∧
        t.eepromByte 127 = 0x55) ∧
    (writing.wc = .idle ∧ writing.bus = some ⟨0, 0x0050, .write 127 [0xAA], false⟩ ∧
      settling.bus = none) := by
  refine ⟨⟨inv_agenda inv_settling [], rfl, _, rfl, by decide⟩, fun m h => ?_,
    ⟨inv_settling.congr rfl rfl rfl rfl rfl rfl rfl rfl rfl rfl rfl, _, rfl, by decide⟩,
    ⟨inv_settling.congr rfl rfl rfl rfl rfl rfl rfl rfl rfl rfl rfl, rfl, by decide, by decide, by decide,
      _, rfl, by decide⟩, by decide⟩
  refine ⟨inv_writing.congr rfl rfl rfl rfl rfl rfl rfl rfl rfl rfl rfl, rfl, ?_⟩
  simp only [List.mem_cons, List.not_mem_nil, or_false] at h
  rcases h with rfl | rfl <;> exact ⟨_, rfl, by decide⟩

/-- The host writes, the host reads, and a READ's chunk arrives: each changes the byte at 0x3000. -/
theorem witness_OnlyReadsChangeTheHostMemory :
    ∀ m ∈ [Move.hostWrite 0x3000 [1], .hostRead 0x3000 1, .port 0 {}],
      Inv { runs [m] reading with draws := ⟨[1, 1], 0⟩ } ∧
      ∃ t, step { runs [m] reading with draws := ⟨[1, 1], 0⟩ } = .next t ∧ t.hostByte 0x3000 = 1 ∧
        reading.hostByte 0x3000 = 0 := by
  refine fun m h => ⟨inv_reading.congr rfl rfl rfl rfl rfl rfl rfl rfl rfl rfl rfl, ?_⟩
  simp only [List.mem_cons, List.not_mem_nil, or_false] at h
  rcases h with rfl | rfl | rfl <;> exact ⟨_, rfl, by decide⟩

/-- The other port has a step. -/
theorem witness_ContextsAreIndependent : ∃ t, step (runs [.port 0 {}] reading) = .next t ∧
    (∀ c rest, (runs [.port 0 {}] reading).agenda ≠ .port 1 c :: rest) ∧
    (∀ c rest, (runs [.port 0 {}] reading).agenda ≠ .reset c :: rest) :=
  ⟨_, rfl, (by intro c rest h; cases h), (by intro c rest h; cases h)⟩

/-- A step of a context, a block reset that drops an operation or a call, and a tick. -/
theorem witness_LogIsWrittenByTheLockOwner :
    (∀ a ∈ [[], [Move.tick], [.port 0 {}], [.reset {}]],
      Inv (runs a writing) ∧ ∃ t, step (runs a writing) = .next t) ∧ writing.bus ≠ none ∧
    Inv (runs [.reset {}] registering) ∧ (registering.port 0).ph = .collab := by
  refine ⟨fun a h => ⟨inv_agenda inv_writing a, ?_⟩, by decide, inv_agenda inv_registering _, by decide⟩
  simp only [List.mem_cons, List.not_mem_nil, or_false] at h
  rcases h with rfl | rfl | rfl | rfl <;> exact ⟨_, rfl⟩

theorem witness_ParametersNeverChange : ∃ t, step (runs [.reset {}] writing) = .next t := ⟨_, rfl⟩

end Sys2Proof.Tests
end

section
namespace Sys2Proof.Machine

/-- `settleMin` is the ceiling of `5 * F_CLK / 1000` (00_scope.md R8), by what it lies below. -/
theorem settleMin_le_iff (P : Params) (m : Nat) : settleMin P ≤ m ↔ 5 * P.fClk ≤ m * 1000 := by
  unfold settleMin; omega

/-- `settleMax` is the floor of `6 * F_CLK / 1000` (00_scope.md R8), by what lies below it. -/
theorem le_settleMax_iff (P : Params) (m : Nat) : m ≤ settleMax P ↔ m * 1000 ≤ 6 * P.fClk :=
  Nat.le_div_iff_mul_le (by decide)

/-- Settles O36: each half is an adjunction, whose bound at `le_rfl` is attained and whose other
direction makes it the best one. -/
theorem settleBoundsRoundInwards : Obligations.SettleBoundsRoundInwards := fun P =>
  ⟨(settleMin_le_iff P _).1 le_rfl, fun m => (settleMin_le_iff P m).2,
    (le_settleMax_iff P _).1 le_rfl, fun m => (le_settleMax_iff P m).2⟩

end Sys2Proof.Machine
end

section
/-! SUPPORT. What one step does, by cases, once: the fetch, the moves, and that every step keeps the
invariants. -/

namespace Sys2Proof.Machine

/-! The fetch. -/

/-- The state in which port p has taken its first descriptor, with ds left waiting (10_state.md R33). -/
abbrev afterTaking (p : Nat) (ds : List Desc) (s : State) : State :=
  s.setPort p { s.port p with reqs := ds }

/-- What a step of context p finds to do, with the condition of each case (10_state.md R30, R33). -/
inductive Finds (p : Nat) (s : State) : Fetched → Prop
  | nothing (h : p < s.ports.length → (s.port p).ph = .idle ∧ (s.port p).reqs = []) : Finds p s (.done s)
  | illegal {d ds why} (hp : p < s.ports.length) (hi : (s.port p).ph = .idle)
      (hr : (s.port p).reqs = d :: ds) (hd : decode d = .illegal why) :
      Finds p s (.done (raise p .illegalCommand 0 (afterTaking p ds s)))
  | descriptor {d ds i} (hp : p < s.ports.length) (hi : (s.port p).ph = .idle)
      (hr : (s.port p).reqs = d :: ds) (hd : decode d = .command i) :
      Finds p s (.run i (afterTaking p ds s))
  | latched {i} (hp : p < s.ports.length) (hi : (s.port p).ph ≠ .idle)
      (hd : (s.port p).d.instr? = some i) : Finds p s (.run i s)
  | stray (hp : p < s.ports.length) (hi : (s.port p).ph ≠ .idle) (hd : (s.port p).d.instr? = none) :
      Finds p s (.stop .strayLatch)

/-- On an idle port the fetch goes by the queue. -/
theorem fetch_idle {s : State} {p : Nat} (hp : p < s.ports.length) (hi : (s.port p).ph = .idle) :
    fetch p s = takeDescriptor p s := by
  rw [fetch, if_neg (by omega), hi]

/-- In flight the fetch goes by the latched fields. -/
theorem fetch_inFlight {s : State} {p : Nat} (hp : p < s.ports.length) (hi : (s.port p).ph ≠ .idle) :
    fetch p s = (s.port p).d.instr?.elim (.stop .strayLatch) (.run · s) := by
  rw [fetch, if_neg (by omega)]
  cases h : (s.port p).ph
  case idle => exact absurd h hi
  all_goals cases (s.port p).d.instr? <;> rfl

/-- An idle port takes its first descriptor and runs its command. -/
theorem fetch_descriptor {s : State} {p : Nat} {d : Desc} {ds : List Desc} {i : Instr}
    (hp : p < s.ports.length) (hi : (s.port p).ph = .idle) (hr : (s.port p).reqs = d :: ds)
    (hd : decode d = .command i) : fetch p s = .run i (afterTaking p ds s) := by
  rw [fetch_idle hp hi, takeDescriptor, hr]
  dsimp only
  rw [hd]

/-- A context in flight runs its latched command. -/
theorem fetch_latched {s : State} {p : Nat} {i : Instr} (hp : p < s.ports.length)
    (hi : (s.port p).ph ≠ .idle) (hd : (s.port p).d.instr? = some i) : fetch p s = .run i s := by
  rw [fetch_inFlight hp hi, hd]; rfl

theorem fetch_finds (p : Nat) (s : State) : Finds p s (fetch p s) := by
  by_cases hp : p < s.ports.length
  · by_cases hi : (s.port p).ph = .idle
    · cases hr : (s.port p).reqs with
      | nil => rw [fetch_idle hp hi, takeDescriptor, hr]; exact .nothing fun _ => ⟨hi, hr⟩
      | cons d ds =>
        cases hd : decode d with
        | command i => rw [fetch_descriptor hp hi hr hd]; exact .descriptor hp hi hr hd
        | illegal why =>
          rw [fetch_idle hp hi, takeDescriptor, hr]
          dsimp only
          rw [hd]; exact .illegal hp hi hr hd
    · cases hd : (s.port p).d.instr? with
      | none => rw [fetch_inFlight hp hi, hd]; exact .stray hp hi hd
      | some i => rw [fetch_latched hp hi hd]; exact .latched hp hi hd
  · rw [fetch, if_pos (by omega)]
    exact .nothing fun h => absurd h hp

/-- With no move to come only the clock runs (log 2). -/
theorem step_nil {s : State} (h : s.agenda = []) : step s = .next (tick s) := by
  rw [step, h]

/-- A step makes the first move of the agenda. -/
theorem step_cons {s : State} {m : Move} {rest : List Move} (h : s.agenda = m :: rest) :
    step s = runMove m { s with agenda := rest } := by
  rw [step, h]

/-- A command of latched fields is what `decode` reads from them. -/
theorem instr?_eq_some {d : Latch} {i : Instr} : d.instr? = some i ↔ decode d.desc = .command i := by
  unfold Latch.instr?
  cases decode d.desc <;> simp [Decoded.instr?]

/-! The commands keep the invariants. -/

/-- Every context in flight holds a command (10_state.md R33). -/
theorem inFlight_instr {s : State} (h : Inv s) {p : Nat} (hp : p < s.ports.length)
    (hi : (s.port p).ph ≠ .idle) : ∃ i, (s.port p).d.instr? = some i := by
  rw [← Option.isSome_iff_exists]
  have transfer : (s.port p).d.op = 3 ∨ (s.port p).d.op = 4 → (s.port p).d.instr?.isSome := by
    rw [decode_latch]; rintro (e | e) <;> simp [e]
  have hk := h.phases p hp
  unfold portOk at hk
  cases hph : (s.port p).ph <;> rw [hph] at hk <;> dsimp only at hk
  case idle => exact absurd hph hi
  case waitLock => exact hk.1
  case active => exact hk.1
  case bus =>
    obtain ⟨-, hd, -⟩ | ⟨ht, -⟩ := hk
    · exact hd
    · exact transfer (by simpa [Latch.isTransfer] using ht)
  case settle => exact transfer (.inr hk.1)
  case collab => exact hk.1

/-- A context in SETTLE runs a WRITE. -/
theorem settle_op {s : State} (h : Inv s) {p : Nat} (hp : p < s.ports.length)
    (hi : (s.port p).ph = .settle) : (s.port p).d.op = 4 := by
  have hk := h.phases p hp
  rw [portOk, hi] at hk
  exact hk.1

/-- The context of the step may run command i: it is idle, or i is the command it has latched. -/
abbrev mayRun (i : Instr) (s : State) : Prop :=
  s.sel < s.ports.length ∧ ((s.port s.sel).ph ≠ .idle → (s.port s.sel).d.instr? = some i)

theorem execAttach_inv {s : State} (h : Inv s) (hm : mayRun .attach s) :
    ∃ t, execAttach s = .next t ∧ Inv t := by
  obtain ⟨hp, hd⟩ := hm
  unfold execAttach
  cases hi : (s.port s.sel).ph with
  | idle => exact ⟨_, rfl, acceptLifecycle_inv h hp hi rfl⟩
  | waitLock => exact awaitLock_inv h hp hi
  | active => exact ⟨_, rfl, attachChecks_inv h hp hi (hd (by simp [hi]))⟩
  | bus =>
    have hd := hd (by simp [hi])
    obtain ⟨⟨q, dev, cmd, hit⟩, hb, hc⟩ := bus_cmd h hp hi
    rw [hb]
    cases cmd with
    | recv n => exact ⟨_, rfl, attachProbed_inv h hp hi hd⟩
    | read a n => exact absurd (hc.1.symm.trans (instr_attach hd)) (by decide)
    | write a b => exact absurd (hc.1.symm.trans (instr_attach hd)) (by decide)
  | collab => exact ⟨_, rfl, attachRegistered_inv h hp hi⟩
  | settle =>
    exact absurd ((settle_op h hp hi).symm.trans (instr_attach (hd (by simp [hi])))) (by decide)

theorem execDetach_inv {s : State} (h : Inv s) (hm : mayRun .detach s) :
    ∃ t, execDetach s = .next t ∧ Inv t := by
  obtain ⟨hp, hd⟩ := hm
  unfold execDetach
  cases hi : (s.port s.sel).ph with
  | idle => exact ⟨_, rfl, acceptLifecycle_inv h hp hi rfl⟩
  | waitLock => exact awaitLock_inv h hp hi
  | active => exact ⟨_, rfl, detachBegin_inv h hp hi (hd (by simp [hi]))⟩
  | bus =>
    have hop := instr_detach (hd (by simp [hi]))
    obtain ⟨⟨q, dev, cmd, hit⟩, -, hc⟩ := bus_cmd h hp hi
    cases cmd <;> exact absurd (hc.1.symm.trans hop) (by decide)
  | collab => exact ⟨_, rfl, detachUnregistered_inv h hp hi⟩
  | settle =>
    exact absurd ((settle_op h hp hi).symm.trans (instr_detach (hd (by simp [hi])))) (by decide)

theorem execRead_inv {s : State} (h : Inv s) {o n b : Word} (hm : mayRun (.read o n b) s) :
    ∃ t, execRead o n b s = .next t ∧ Inv t := by
  obtain ⟨hp, hd⟩ := hm
  have hop (hi : (s.port s.sel).ph ≠ .idle) : (s.port s.sel).d.op = 3 := instr_read (hd hi)
  unfold execRead
  cases hi : (s.port s.sel).ph with
  | idle => exact ⟨_, rfl, acceptTransfer_inv h hp hi⟩
  | waitLock => exact awaitLock_inv h hp hi
  | active => exact readBegin_inv h hp hi (hop (by simp [hi]))
  | bus =>
    have hop := hop (by simp [hi])
    obtain ⟨⟨q, dev, cmd, hit⟩, hb, hc⟩ := bus_cmd h hp hi
    rw [hb]
    cases cmd with
    | recv n => exact absurd (hc.1.symm.trans hop) (by decide)
    | read a n =>
      obtain ⟨-, rfl, rfl⟩ := hc
      exact readAnswered_inv h hp hi hop
    | write a b => exact absurd (hc.1.symm.trans hop) (by decide)
  | collab =>
    exact absurd hi (transfer_phase h hp (by simp [Latch.isTransfer, hop (by simp [hi])]))
  | settle => exact absurd ((settle_op h hp hi).symm.trans (hop (by simp [hi]))) (by decide)

theorem execWrite_inv {s : State} (h : Inv s) {o n b : Word} (hm : mayRun (.write o n b) s) :
    ∃ t, execWrite o n b s = .next t ∧ Inv t := by
  obtain ⟨hp, hd⟩ := hm
  have hop (hi : (s.port s.sel).ph ≠ .idle) : (s.port s.sel).d.op = 4 := instr_write (hd hi)
  unfold execWrite
  cases hi : (s.port s.sel).ph with
  | idle => exact ⟨_, rfl, acceptTransfer_inv h hp hi⟩
  | waitLock => exact awaitLock_inv h hp hi
  | active => exact writeBegin_inv h hp hi (hop (by simp [hi]))
  | bus =>
    have hop := hop (by simp [hi])
    obtain ⟨⟨q, dev, cmd, hit⟩, hb, hc⟩ := bus_cmd h hp hi
    rw [hb]
    cases cmd with
    | recv n => exact absurd (hc.1.symm.trans hop) (by decide)
    | read a n => exact absurd (hc.1.symm.trans hop) (by decide)
    | write a b =>
      obtain ⟨-, rfl, hl⟩ := hc
      exact ⟨_, rfl, writeAnswered_inv h hp hi hop hl⟩
  | collab =>
    exact absurd hi (transfer_phase h hp (by simp [Latch.isTransfer, hop (by simp [hi])]))
  | settle => exact writeSettled_inv h hp hi (hop (by simp [hi]))

/-- A step of a command that its context may run goes on, and keeps `Inv`. -/
theorem exec_inv {s : State} (h : Inv s) {i : Instr} (hm : mayRun i s) :
    ∃ t, exec i s = .next t ∧ Inv t := by
  cases i with
  | attach => exact execAttach_inv h hm
  | detach => exact execDetach_inv h hm
  | read o n b => exact execRead_inv h hm
  | write o n b => exact execWrite_inv h hm

/-! Every step keeps the invariants. -/

/-- `Inv` does not read the queue of waiting descriptors. -/
theorem Inv.afterTaking {s : State} (h : Inv s) (p : Nat) (ds : List Desc) :
    Inv (afterTaking p ds s) := by
  refine h.env rfl (by simp) (fun q => coreEq_setPort ?_ q) rfl rfl rfl rfl rfl rfl
    ⟨h.eepromWf, h.eepromIn⟩ ⟨h.hostWf, h.hostIn⟩ rfl
  exact ⟨rfl, rfl, rfl, rfl, rfl, rfl, rfl⟩

/-- A step of a context goes on, and keeps `Inv`. -/
theorem contextStep_inv {s : State} (h : Inv s) (p : Nat) (c : Choice) :
    ∃ t, contextStep p c s = .next t ∧ Inv t := by
  have hu : Inv { s with sel := p, choice := c } :=
    h.congr rfl rfl rfl rfl rfl rfl rfl rfl rfl rfl rfl
  unfold contextStep
  generalize hs : ({ s with sel := p, choice := c } : State) = u at hu
  have hsel : u.sel = p := by rw [← hs]
  have hf := fetch_finds p u
  generalize fetch p u = f at hf ⊢
  cases hf with
  | nothing => exact ⟨_, rfl, hu⟩
  | illegal hp hi =>
    have hv := hu.afterTaking p ‹_›
    refine ⟨_, rfl, hv.freeRaise (by simpa using hp) ?_ _ _ _ rfl rfl (fun _ _ => rfl)
      (hv.widths p (by simpa using hp)) rfl rfl (.inl ⟨rfl, rfl⟩) rfl rfl rfl rfl rfl⟩
    rw [port_setPort_self _ _ hp]; exact congrArg holdsLock hi
  | descriptor hp hi =>
    refine exec_inv (hu.afterTaking p _) ⟨by simpa [hsel] using hp, fun hne => absurd ?_ hne⟩
    rw [setPort_sel, hsel, port_setPort_self _ _ hp]; exact hi
  | latched hp hi hd => exact exec_inv hu ⟨by rwa [hsel], fun _ => by rwa [hsel]⟩
  | stray hp hi hd =>
    obtain ⟨i, e⟩ := inFlight_instr hu hp hi
    rw [hd] at e; cases e

/-- A move goes on, and keeps `Inv`. -/
theorem runMove_inv {s : State} (h : Inv s) (m : Move) : ∃ t, runMove m s = .next t ∧ Inv t := by
  cases m with
  | port p c => exact contextStep_inv h p c
  | tick => exact ⟨_, rfl, h.tick⟩
  | reset c => exact ⟨_, rfl, h.blockReset c⟩
  | present p d => exact ⟨_, rfl, h.present p d⟩
  | hostWrite a v => exact ⟨_, rfl, h.hostWrite a v⟩
  | hostRead a n => exact ⟨_, rfl, h.hostRead a n⟩
  | collab k => exact ⟨_, rfl, h.lateCollab k⟩
  | discard => exact ⟨_, rfl, h.discardRegistration⟩
  | powerLoss c => exact ⟨_, rfl, h.powerLoss c⟩
  | inputs full dev => exact ⟨_, rfl, h.setInputs full dev⟩

/-- From a state with `Inv` every step goes on, and keeps `Inv`. -/
theorem step_inv {s : State} (h : Inv s) : ∃ t, step s = .next t ∧ Inv t := by
  cases ha : s.agenda with
  | nil => exact ⟨_, step_nil ha, h.tick⟩
  | cons m rest =>
    have hr : Inv { s with agenda := rest } := h.congr rfl rfl rfl rfl rfl rfl rfl rfl rfl rfl rfl
    rw [step_cons ha]
    exact runMove_inv hr m

/-- Settles O49: a state with `Inv` has one next state, by the move and the command, and it has `Inv`. -/
theorem everyStepKeepsTheInvariants : Obligations.EveryStepKeepsTheInvariants := by
  intro s t h ht
  obtain ⟨u, hu, hinv⟩ := step_inv h
  rw [hu] at ht
  obtain rfl := Host.Outcome.next.inj ht
  exact hinv

end Sys2Proof.Machine
end

section
/-! SUPPORT. The invariants in the words of the rules, the fetch of one step, and STAT. -/

namespace Sys2Proof.Machine

/-! The invariants, read out. -/

/-- Settles O51: (d) and (e) for the lock owner from `lockHeld`, the second half of (e) from `lockOwned`. -/
theorem sharedStateInvariants : Obligations.SharedStateInvariants := by
  intro s h
  refine ⟨h.ownerClear, h.settleOwner, h.rmValid, fun op hb => ?_, fun p hp hph => ?_, fun p hp hph => ?_⟩
  · obtain ⟨hq, hbus⟩ := h.busIssuer op hb
    obtain ⟨hl, ho⟩ := h.lockHeld _ hq (by rw [hbus]; rfl)
    exact ⟨hl, ho.symm, by rw [ho]; exact hbus⟩
  · exact h.lockHeld p hp (by rcases hph with e | e | e <;> rw [e] <;> rfl)
  · rintro ⟨hl, rfl⟩
    have hh := (h.lockOwned hl).2
    rcases hph with e | e | e <;> rw [e] at hh <;> cases hh

/-- A transfer in BUS or SETTLE was accepted and has its cursor in its request. -/
theorem chunk_cursor {s : State} (h : Inv s) {p : Nat} (hp : p < s.ports.length)
    (hop : (s.port p).d.op = 3 ∨ (s.port p).d.op = 4)
    (hph : (s.port p).ph = .bus ∨ (s.port p).ph = .settle) :
    acceptedOk s.params (s.port p).d ∧ cursorOk s.params (s.port p) := by
  rcases hph with hb | hs
  · obtain ⟨-, hacc, hcur, -⟩ :=
      bus_transfer h hp hb (by rcases hop with e | e <;> rw [e] <;> decide)
    exact ⟨hacc, hcur⟩
  · have hk := h.phases p hp
    rw [portOk, hs] at hk
    exact ⟨hk.2.1, hk.2.2.1⟩

/-- Settles O55: the request lies in the array and in the host space, and the cursor in the request. -/
theorem cursorNeverWraps : Obligations.CursorNeverWraps := by
  intro s p h hp hop hph
  obtain ⟨⟨-, hr, hb⟩, hcur, hbuf, -, hrem, hlen, hk⟩ := chunk_cursor h hp hop hph
  have hr := inRange_le hr
  have hb := inHost_le hb
  have hpos := chunkLen_pos (pol := s.params.policy) (cur := (s.port p).cur) hrem
  have hle := chunkLen_le (pol := s.params.policy) (cur := (s.port p).cur) (rem := (s.port p).rem)
  have hpage := chunkLen_page (pol := s.params.policy) (cur := (s.port p).cur) (rem := (s.port p).rem)
  rw [← hlen] at hpos hle hpage
  simp only [hostSize, capacity, page] at hb hr hk
  exact ⟨hcur, by omega, hbuf, by omega, hpos, hle, hpage, by omega⟩

/-! The fetch of one step. -/

/-- A step of a context runs what its fetch finds. -/
theorem contextStep_run {s u : State} {p : Nat} {c : Choice} {i : Instr}
    (h : fetch p { s with sel := p, choice := c } = .run i u) : contextStep p c s = exec i u := by
  rw [contextStep, h]

/-- Settles O5: the two cases of the fetch that find a command. -/
theorem stepRunsTheDecodedCommand : Obligations.StepRunsTheDecodedCommand := by
  intro s p c rest ha hp
  refine ⟨fun d ds i hi hr hd => ?_, fun i hi hd => ?_⟩
  · exact (step_cons ha).trans (contextStep_run (fetch_descriptor hp hi hr hd))
  · exact (step_cons ha).trans (contextStep_run (fetch_latched hp hi (instr?_eq_some.2 hd)))

/-! STAT. -/

/-- STAT, bit by bit from bit 0 on: the fields in the order of the layout (10_state.md R25). -/
theorem stat_getLsbD (s : State) (i : Nat) : s.stat.getLsbD i =
    if i ≤ 1 then s.attachState.bits.getLsbD i
    else if i = 2 then s.locked
    else if i = 3 then s.settling
    else if i = 4 then s.rmValid
    else if i = 5 then (policyBit s.params.policy).getLsbD 0
    else if i ≤ 7 then false
    else if i ≤ 15 then s.lockOwner.getLsbD (i - 8)
    else false := by
  simp only [State.stat, BitVec.getLsbD_append, BitVec.getLsbD_ofBool, BitVec.getLsbD_zero]
  by_cases h : i < 8
  · interval_cases i <;> rfl
  · obtain ⟨j, rfl⟩ : ∃ j, i = j + 8 := ⟨i - 8, by omega⟩
    simp [Nat.lt_succ_iff (n := 7)]

/-- Settles O41: each field by its bits, from `stat_getLsbD`. -/
theorem statShowsTheSharedState : Obligations.StatShowsTheSharedState := by
  intro s
  refine ⟨?_, stat_getLsbD s 2, stat_getLsbD s 3, stat_getLsbD s 4, ?_, ?_, ?_, ?_⟩
  · trans s.attachState.bits
    · refine BitVec.eq_of_getLsbD_eq fun i hi => ?_
      rw [BitVec.getLsbD_extractLsb', stat_getLsbD]
      simp [hi, Nat.le_of_lt_succ hi]
    · cases s.attachState <;> rfl
  · rw [stat_getLsbD]
    cases s.params.policy <;> rfl
  all_goals
    refine BitVec.eq_of_getLsbD_eq fun i hi => ?_
    rw [BitVec.getLsbD_extractLsb', stat_getLsbD, Nat.add_comm]
  · interval_cases i <;> rfl
  · simp [hi, Nat.le_of_lt_succ hi]
  · simp

end Sys2Proof.Machine
end

section
/-! SUPPORT. What a step leaves of the parameters, of the host memory and of what the host took. -/

namespace Sys2Proof.Machine

/-- The parameters, what the host took and the host memory as data. -/
abbrev sameHostSide (s t : State) : Prop :=
  t.params = s.params ∧ t.seen = s.seen ∧ t.host = s.host

/-! The commands. -/

theorem awaitLock_hostSide {s t : State} {p : Nat} (h : awaitLock p s = .next t) : sameHostSide s t := by
  unfold awaitLock at h
  split at h <;> cases h <;> exact ⟨rfl, rfl, rfl⟩

theorem attachChecks_hostSide (p : Nat) (s : State) : sameHostSide s (attachChecks p s) := by
  unfold attachChecks
  (repeat' split) <;> simp [sameHostSide]

theorem attachProbed_hostSide (p n : Nat) (s : State) : sameHostSide s (attachProbed p n s) := by
  unfold attachProbed
  split <;> simp [sameHostSide]

theorem attachRegistered_hostSide (p : Nat) (s : State) : sameHostSide s (attachRegistered p s) := by
  unfold attachRegistered
  split <;> simp [sameHostSide]

theorem detachBegin_hostSide (p : Nat) (s : State) : sameHostSide s (detachBegin p s) := by
  unfold detachBegin
  split <;> simp [sameHostSide]

theorem acceptTransfer_hostSide (p : Nat) (d : Latch) (s : State) :
    sameHostSide s (acceptTransfer p d s) := by
  unfold acceptTransfer
  split <;> simp [sameHostSide]

theorem readNext_hostSide {s t : State} {p : Nat} (h : readNext p s = .next t) : sameHostSide s t := by
  unfold readNext at h
  (repeat' split at h) <;> cases h <;> simp [sameHostSide]

theorem writeNext_hostSide {s t : State} {p : Nat} (h : writeNext p s = .next t) : sameHostSide s t := by
  unfold writeNext at h
  (repeat' split at h) <;> cases h <;> simp [sameHostSide]

theorem readBegin_hostSide {s t : State} {p : Nat} (h : readBegin p s = .next t) : sameHostSide s t := by
  unfold readBegin at h
  split at h
  · cases h; simp [sameHostSide]
  · exact (readNext_hostSide h : sameHostSide (initCursor p s) t)

theorem writeBegin_hostSide {s t : State} {p : Nat} (h : writeBegin p s = .next t) : sameHostSide s t := by
  unfold writeBegin at h
  split at h
  · cases h; simp [sameHostSide]
  · exact (writeNext_hostSide h : sameHostSide (initCursor p s) t)

theorem writeSettled_hostSide {s t : State} {p : Nat} (h : writeSettled p s = .next t) :
    sameHostSide s t := by
  unfold writeSettled at h
  split at h
  · cases h; simp [sameHostSide]
  · exact (writeNext_hostSide h : sameHostSide (advance p s) t)

theorem writeAnswered_hostSide (p : Nat) (hit : Bool) (a : Nat) (b : List Byte) (s : State) :
    sameHostSide s (writeAnswered p hit a b s) := by
  unfold writeAnswered
  split <;> simp [sameHostSide, writeTaken, writeFailed]

/-- The answer of `BusRead(a, n)` writes inside n or `clen` addresses from `buf` on, and nowhere else. -/
theorem readAnswered_hostSide {s t : State} {p a n : Nat} {hit : Bool}
    (h : readAnswered p hit a n s = .next t) :
    t.params = s.params ∧ t.seen = s.seen ∧ ∃ cells d, t.host = (fill cells s.host d).1 ∧
      ∀ x ∈ cells, (s.port p).buf ≤ x.1 ∧ x.1 < (s.port p).buf + max n (s.port p).clen := by
  unfold readAnswered at h
  split at h
  · cases h
  split at h
  · obtain ⟨h1, h2, h3⟩ := readNext_hostSide h
    simp only [advance_params, memWrite_params, addLog_params, answered_params, readDraw_params,
      readEffect_params] at h1
    simp only [advance_seen, memWrite_seen, addLog_seen, answered_seen, readDraw_seen,
      readEffect_seen] at h2
    refine ⟨h1, h2, _, _, by simpa using h3, fun x hx => ?_⟩
    have := mem_raceCells hx
    simp at this; omega
  · cases h
    refine ⟨by simp [readFailed], by simp [readFailed], _, _, by simp [readFailed]; rfl, fun x hx => ?_⟩
    have := mem_anyCells hx
    omega

/-- A step with a given next state. -/
theorem sameHostSide.answer {s t u : State} (h : sameHostSide s u)
    (e : (.next u : Answer) = .next t) : sameHostSide s t := by
  cases e; exact h

theorem execAttach_hostSide {s t : State} (h : execAttach s = .next t) : sameHostSide s t := by
  unfold execAttach at h
  split at h
  · exact sameHostSide.answer (s := s) (by simp [sameHostSide, acceptLifecycle]) h
  · exact awaitLock_hostSide h
  · exact (attachChecks_hostSide _ _).answer h
  · split at h
    · exact (attachProbed_hostSide _ _ _).answer h
    · cases h
  · exact (attachRegistered_hostSide _ _).answer h
  · cases h

theorem execDetach_hostSide {s t : State} (h : execDetach s = .next t) : sameHostSide s t := by
  unfold execDetach at h
  split at h
  · exact sameHostSide.answer (s := s) (by simp [sameHostSide, acceptLifecycle]) h
  · exact awaitLock_hostSide h
  · exact (detachBegin_hostSide _ _).answer h
  · exact sameHostSide.answer (by simp [sameHostSide, detachUnregistered]) h
  · cases h
  · cases h

theorem execWrite_hostSide {s t : State} {o n b : Word} (h : execWrite o n b s = .next t) :
    sameHostSide s t := by
  unfold execWrite at h
  split at h
  · exact (acceptTransfer_hostSide _ _ _).answer h
  · exact awaitLock_hostSide h
  · exact writeBegin_hostSide h
  · split at h
    · exact (writeAnswered_hostSide _ _ _ _ _).answer h
    · cases h
  · exact writeSettled_hostSide h
  · cases h

/-- Context p takes the answer of a `BusRead`, and the host memory changes inside n or `clen` addresses
from its `buf` on. -/
abbrev chunkWritten (p : Nat) (s t : State) : Prop :=
  (s.port p).ph = .bus ∧ ∃ q dev a n hit, s.bus = some ⟨q, dev, .read a n, hit⟩ ∧
    ∃ cells d, t.host = (fill cells s.host d).1 ∧
      ∀ x ∈ cells, (s.port p).buf ≤ x.1 ∧ x.1 < (s.port p).buf + max n (s.port p).clen

/-- A step of READ changes the host memory only by a chunk's answer. -/
theorem execRead_hostSide {s t : State} {o n b : Word} (h : execRead o n b s = .next t) :
    t.params = s.params ∧ t.seen = s.seen ∧ (t.host = s.host ∨ chunkWritten s.sel s t) := by
  have still (hs : sameHostSide s t) :
      t.params = s.params ∧ t.seen = s.seen ∧ (t.host = s.host ∨ chunkWritten s.sel s t) :=
    ⟨hs.1, hs.2.1, .inl hs.2.2⟩
  unfold execRead at h
  split at h
  · exact still ((acceptTransfer_hostSide _ _ _).answer h)
  · exact still (awaitLock_hostSide h)
  · exact still (readBegin_hostSide h)
  · rename_i hph
    split at h
    · rename_i hb
      obtain ⟨hp, hs, hc⟩ := readAnswered_hostSide h
      exact ⟨hp, hs, .inr ⟨hph, _, _, _, _, _, hb, hc⟩⟩
    · cases h
  · cases h
  · cases h

/-- A step of a command changes the host memory only by the answer of a READ's chunk. -/
theorem exec_hostSide {i : Instr} {s t : State} (h : exec i s = .next t) :
    t.params = s.params ∧ t.seen = s.seen ∧ (t.host = s.host ∨
      (∃ o n b, i = .read o n b) ∧ chunkWritten s.sel s t) := by
  have still (hs : sameHostSide s t) : t.params = s.params ∧ t.seen = s.seen ∧ (t.host = s.host ∨
      (∃ o n b, i = .read o n b) ∧ chunkWritten s.sel s t) := ⟨hs.1, hs.2.1, .inl hs.2.2⟩
  cases i with
  | attach => exact still (execAttach_hostSide h)
  | detach => exact still (execDetach_hostSide h)
  | read o n b =>
    obtain ⟨hp, hs, hh⟩ := execRead_hostSide h
    exact ⟨hp, hs, hh.imp_right fun hc => ⟨⟨o, n, b, rfl⟩, hc⟩⟩
  | write o n b => exact still (execWrite_hostSide h)

/-- A step of context p changes the host memory only by the answer of a READ's chunk. -/
theorem contextStep_hostSide {s t : State} {p : Nat} {c : Choice} (h : contextStep p c s = .next t) :
    t.params = s.params ∧ t.seen = s.seen ∧ (t.host = s.host ∨
      p < s.ports.length ∧ (s.port p).d.op = 3 ∧ chunkWritten p s t) := by
  unfold contextStep at h
  have hf := fetch_finds p { s with sel := p, choice := c }
  generalize fetch p { s with sel := p, choice := c } = f at hf h
  cases hf with
  | nothing => cases h; exact ⟨rfl, rfl, .inl rfl⟩
  | illegal => cases h; simp
  | descriptor hp hi hr hd =>
    obtain ⟨h1, h2, h3⟩ := exec_hostSide h
    refine ⟨h1, h2, .inl (h3.resolve_right ?_)⟩
    rintro ⟨-, hb, -⟩
    rw [setPort_sel, port_setPort_self _ _ hp] at hb
    cases hi.symm.trans hb
  | latched hp hi hd =>
    obtain ⟨h1, h2, h3⟩ := exec_hostSide h
    refine ⟨h1, h2, h3.imp_right ?_⟩
    rintro ⟨⟨o, n, b, rfl⟩, hc⟩
    exact ⟨hp, instr_read hd, hc⟩
  | stray => cases h

/-! The other moves. -/

theorem blockReset_hostSide (c : Choice) (s : State) : sameHostSide s (blockReset c s) := by
  obtain ⟨b1, -, -, b4⟩ := dropBus_frame c s
  obtain ⟨c1, -, -, c4, -⟩ := dropCollab_frame c (dropBus c s)
  have hb : (dropBus c s).seen = s.seen := by unfold dropBus; split <;> simp
  have hc : (dropCollab c (dropBus c s)).seen = (dropBus c s).seen := by
    unfold dropCollab
    split
    · rfl
    · split <;> simp [cutOff_frame]
  exact ⟨c1.trans b1, hc.trans hb, c4.trans b4⟩

/-- What a move does to the host's side: only the host's own accesses and a step of a context touch it. -/
theorem runMove_hostSide {m : Move} {s t : State} (h : runMove m s = .next t) :
    sameHostSide s t ∨ (∃ a v, m = .hostWrite a v ∧ t = hostWrite a v s) ∨
      (∃ a n, m = .hostRead a n ∧ t = hostRead a n s) ∨
      ∃ p c, m = .port p c ∧ contextStep p c s = .next t := by
  cases m with
  | port p c => exact .inr (.inr (.inr ⟨p, c, rfl, h⟩))
  | hostWrite a v => cases h; exact .inr (.inl ⟨a, v, rfl, rfl⟩)
  | hostRead a n => cases h; exact .inr (.inr (.inl ⟨a, n, rfl, rfl⟩))
  | tick => cases h; left; simp [sameHostSide]
  | reset c => cases h; exact .inl (blockReset_hostSide c s)
  | present p d => cases h; exact .inl ⟨rfl, rfl, rfl⟩
  | collab k =>
    cases h
    obtain ⟨r, l, e⟩ := lateCollab_frame k s
    rw [e]; exact .inl ⟨rfl, rfl, rfl⟩
  | discard => cases h; exact .inl ⟨rfl, rfl, rfl⟩
  | powerLoss c =>
    cases h
    obtain ⟨e, w, d, hf⟩ := powerLoss_frame c s
    rw [hf]; exact .inl ⟨rfl, rfl, rfl⟩
  | inputs full dev => cases h; exact .inl ⟨rfl, rfl, rfl⟩

/-- What a step does to the host's side. -/
theorem step_hostSide {s t : State} (h : step s = .next t) :
    sameHostSide s t ∨
      (∃ a v rest, s.agenda = .hostWrite a v :: rest ∧ t = hostWrite a v { s with agenda := rest }) ∨
      (∃ a n rest, s.agenda = .hostRead a n :: rest ∧ t = hostRead a n { s with agenda := rest }) ∨
      ∃ p c rest, s.agenda = .port p c :: rest ∧
        contextStep p c { s with agenda := rest } = .next t := by
  cases ha : s.agenda with
  | nil =>
    rw [step_nil ha] at h
    cases h; left; simp [sameHostSide]
  | cons m rest =>
    rw [step_cons ha] at h
    obtain hs | ⟨a, v, rfl, ht⟩ | ⟨a, n, rfl, ht⟩ | ⟨p, c, rfl, ht⟩ := runMove_hostSide h
    · exact .inl hs
    · exact .inr (.inl ⟨a, v, rest, rfl, ht⟩)
    · exact .inr (.inr (.inl ⟨a, n, rest, rfl, ht⟩))
    · exact .inr (.inr (.inr ⟨p, c, rest, rfl, ht⟩))

/-- Settles O60: no case of `step_hostSide` writes the parameters. -/
theorem parametersNeverChange : Obligations.ParametersNeverChange := by
  intro s t h
  obtain ⟨hp, -⟩ | ⟨a, v, rest, -, rfl⟩ | ⟨a, n, rest, -, rfl⟩ | ⟨p, c, rest, -, h⟩ := step_hostSide h
  · exact hp
  · exact (hostWrite_frame a v _).1
  · obtain ⟨v, d, m, ps, e, -⟩ := hostRead_frame a n { s with agenda := rest }
    rw [e]
  · exact (contextStep_hostSide h).1

/-! The host memory. -/

/-- A byte that a fill changes has a cell. -/
theorem cell_of_hostByte_ne {s t : State} {cells : List (Nat × Option Byte)} {d : Draws} {a : Nat}
    (h : t.host = (fill cells s.host d).1) (hne : t.hostByte a ≠ s.hostByte a) :
    ∃ x ∈ cells, x.1 = a := by
  by_contra hc
  push Not at hc
  exact hne (by rw [State.hostByte, State.hostByte, h, fill_get?_ne cells hc])

/-- The chunk that a READ in BUS waits for lies in its buffer. -/
theorem chunk_in_buffer {s : State} (h : Inv s) {p : Nat} (hp : p < s.ports.length)
    (hop : (s.port p).d.op = 3) (hph : (s.port p).ph = .bus) {q dev a n hit}
    (hb : s.bus = some ⟨q, dev, .read a n, hit⟩) :
    (s.port p).d.bufaddr.toNat ≤ (s.port p).buf ∧
      (s.port p).buf + max n (s.port p).clen ≤ (s.port p).d.bufaddr.toNat + (s.port p).d.length.toNat := by
  obtain ⟨op, hb', hc⟩ := bus_cmd h hp hph
  rw [hb] at hb'
  cases hb'
  obtain ⟨-, -, rfl⟩ := hc
  obtain ⟨-, hcur, hbuf, hoff, -, hlen, -⟩ := chunk_cursor h hp (.inl hop) (.inl hph)
  have hle := chunkLen_le (pol := s.params.policy) (cur := (s.port p).cur) (rem := (s.port p).rem)
  omega

/-- Settles O57: each of the three sources of a change fills only cells in its range. -/
theorem onlyReadsChangeTheHostMemory : Obligations.OnlyReadsChangeTheHostMemory := by
  intro s t a hinv hstep hne
  obtain ⟨-, -, hh⟩ | ⟨x, v, rest, ha, rfl⟩ | ⟨x, n, rest, ha, rfl⟩ | ⟨p, c, rest, ha, h⟩ :=
    step_hostSide hstep
  · exact absurd (sameHost_of_eq hh a) hne
  · refine .inl ⟨x, v, rest, ha, ?_⟩
    by_cases hf : hostFits { s with agenda := rest } x v.length = true
    · obtain ⟨y, hy, rfl⟩ := cell_of_hostByte_ne (hostWrite_host hf) (s := { s with agenda := rest }) hne
      exact mem_hostCells hy
    · exact absurd (by rw [hostWrite, if_neg hf]; rfl) hne
  · obtain ⟨cells, d, hhost, hc⟩ := hostRead_host x n { s with agenda := rest }
    obtain ⟨y, hy, rfl⟩ := cell_of_hostByte_ne (s := s) hhost hne
    obtain ⟨⟨h1, h2⟩, q, hq, hu, hop⟩ := mem_readCells (hc y hy).1
    exact .inr (.inl ⟨x, n, rest, ha, h1, h2, q, hq, inFlightAt_iff.1 hu, hop⟩)
  · obtain ⟨-, -, hh | ⟨hp, hop, hph, q, dev, b, n, hit, hb, cells, d, hhost, hc⟩⟩ :=
      contextStep_hostSide h
    · exact absurd (sameHost_of_eq (s := s) hh a) hne
    · obtain ⟨y, hy, rfl⟩ := cell_of_hostByte_ne (s := s) hhost hne
      have hin := hc y hy
      have hbuf := chunk_in_buffer hinv hp hop hph hb
      refine .inr (.inr ⟨p, c, rest, ha, hph, hop, ?_⟩)
      change (s.port p).buf ≤ _ ∧ _ < (s.port p).buf + max n (s.port p).clen at hin
      omega

end Sys2Proof.Machine
end

section
/-! SUPPORT. The host's accesses and the block's accesses to the host memory, address by address. -/

namespace Sys2Proof.Machine

/-! The block's accesses. -/

/-- Settles O42: the cells of `MemWrite`, the sample of `MemRead`, and the supply. -/
theorem hostAccessesMoveExactlyTheirBytes : Obligations.HostAccessesMoveExactlyTheirBytes := by
  refine ⟨fun s p a v => ?_, fun d n j => ⟨bytes_get d, nth_after n d j⟩, nth_given⟩
  obtain ⟨hset, hdrawn⟩ := memWrite_spec s p a v
  refine ⟨hset, hdrawn, fun x hx => hostByte_fillHost_ne fun c hc => ?_,
    fun n => ⟨length_memReadBytes p a n s, memReadBytes_spec s p a n⟩⟩
  have := mem_raceCells hc
  omega

/-! The host's marks. -/

/-- Where a buffer meets a range, the two share an address. -/
theorem overlaps_buffer {d : Latch} {a n : Nat} (h : overlaps d.buffer (a, n) = true) :
    ∃ x, (a ≤ x ∧ x < a + n) ∧ d.bufaddr.toNat ≤ x ∧ x < d.bufaddr.toNat + d.length.toNat := by
  obtain ⟨h1, h2, h3, h4⟩ := of_decide_eq_true h
  exact ⟨max a d.bufaddr.toNat, by dsimp [Latch.buffer] at *; omega⟩

/-- An access that meets no transfer in flight of the kinds that f picks marks nothing. -/
theorem markHostRace_ports_eq {f : Latch → Bool} {a n : Nat} {s : State}
    (hf : ∀ d, f d = true → d.op = 3 ∨ d.op = 4)
    (h : ∀ x, a ≤ x → x < a + n → ∀ c ∈ s.ports, usesHost c x → f c.d = false) :
    (markHostRace f (a, n) s).ports = s.ports := by
  refine (List.map_congr_left fun c hc => if_neg fun hm => ?_).trans (List.map_id _)
  simp only [Bool.and_eq_true, bne_iff_ne, ne_eq] at hm
  obtain ⟨⟨hph, hfd⟩, ho⟩ := hm
  obtain ⟨x, ⟨h1, h2⟩, hx⟩ := overlaps_buffer ho
  rw [h x h1 h2 c hc ⟨hph, hf _ hfd, hx⟩] at hfd
  cases hfd

theorem isTransfer_iff {d : Latch} : d.isTransfer = true ↔ d.op = 3 ∨ d.op = 4 := by
  simp [Latch.isTransfer]

theorem isRead_iff {d : Latch} : d.isRead = true ↔ d.op = 3 := beq_iff_eq

/-! The host's write. -/

section
variable {s : State} {a : Nat} {v : List Byte}

/-- The cells of a host write, by offset. -/
theorem mem_hostCells_iff {c : Nat × Option Byte} : c ∈ hostCells s a v ↔
    ∃ j, ∃ h : j < v.length,
      c = (a + j, if s.ports.any (fun q => inFlightAt q (a + j)) then none else some v[j]) := by
  induction v generalizing a with
  | nil => simp [hostCells]
  | cons b v ih =>
    have next (j : Nat) : a + 1 + j = a + (j + 1) := by omega
    rw [hostCells, List.mem_cons, ih]
    constructor
    · rintro (rfl | ⟨j, hj, rfl⟩)
      · exact ⟨0, by simp, rfl⟩
      · exact ⟨j + 1, by simpa using hj, by rw [next]; rfl⟩
    · rintro ⟨_ | j, hj, rfl⟩
      · exact .inl rfl
      · exact .inr ⟨j, by simpa using hj, by rw [next]; rfl⟩

/-- Where no transfer in flight uses the address, a host write writes its byte. -/
theorem fillHost_hostCells_get {j : Nat} (h : j < v.length) (hu : ∀ c ∈ s.ports, ¬ usesHost c (a + j)) :
    (s.fillHost (hostCells s a v)).hostByte (a + j) = v[j] := by
  have hx : s.ports.any (fun c => inFlightAt c (a + j)) = false := by
    simpa only [List.any_eq_false, inFlightAt_iff] using hu
  have hall : ∀ c ∈ hostCells s a v, c.1 = a + j → c.2 = some v[j] := by
    intro c hc e
    obtain ⟨i, hi, rfl⟩ := mem_hostCells_iff.1 hc
    obtain rfl : i = j := Nat.add_left_cancel e
    simp [hx]
  rw [State.hostByte, fillHost_host, fill_some _ _ _ (mem_hostCells_iff.2 ⟨j, h, by simp [hx]⟩) hall]
  rfl

/-- A host write that fits: the bytes, the race with bytes taken already, the marks. -/
theorem hostWrite_fits (hf : a + v.length ≤ 2 ^ s.params.hostAw) : hostWrite a v s =
    markHostRace Latch.isTransfer (a, v.length)
      (raceTaken (a, v.length) (s.fillHost (hostCells s a v))) :=
  if_pos (hostFits_true hf)

/-- The host bytes after a host write that fits. -/
theorem hostByte_hostWrite (hf : a + v.length ≤ 2 ^ s.params.hostAw) (x : Nat) :
    (hostWrite a v s).hostByte x = (s.fillHost (hostCells s a v)).hostByte x :=
  sameHost_of_eq (hostWrite_host (hostFits_true hf)) x

theorem raceTaken_port (r : Nat × Nat) (s : State) (q : Nat) : (raceTaken r s).port q = s.port q :=
  port_congr (raceTaken_ports r s) q

/-- A WRITE uses the host address that an EEPROM address of its request corresponds to. -/
theorem usesHost_of_correspondsTo {c : Port} {n y : Nat} (hph : c.ph ≠ .idle) (hop : c.d.op = 4)
    (h : correspondsTo c a n y) : usesHost c (c.d.bufaddr.toNat + (y - c.d.offset.toNat)) :=
  ⟨hph, .inr hop, by omega, by omega⟩

/-- A host write leaves a transfer marked for its range, besides the marks it had. -/
theorem racedAt_hostWrite (hf : a + v.length ≤ 2 ^ s.params.hostAw) {p x : Nat}
    (hp : p < s.ports.length) (hu : usesHost (s.port p) x) :
    racedAt ((hostWrite a v s).port p) x ↔ racedAt (s.port p) x ∨ a ≤ x ∧ x < a + v.length := by
  have hport : (raceTaken (a, v.length) (s.fillHost (hostCells s a v))).port p = s.port p :=
    raceTaken_port _ _ _
  have key := markHostRace_raced (f := Latch.isTransfer) (r := (a, v.length))
    (s := raceTaken (a, v.length) (s.fillHost (hostCells s a v))) (p := p) (x := x) (by simpa using hp)
    (by rw [hport]; exact hu) (by rw [hport]; exact isTransfer_iff.2 hu.2.1)
  rw [← hostWrite_fits hf, hport] at key
  exact key

/-- A host write on addresses that no transfer in flight uses leaves the ports alone. -/
theorem hostWrite_ports (hf : a + v.length ≤ 2 ^ s.params.hostAw)
    (h : ∀ x, a ≤ x → x < a + v.length → ∀ c ∈ s.ports, ¬ usesHost c x) :
    (hostWrite a v s).ports = s.ports := by
  have hports : (raceTaken (a, v.length) (s.fillHost (hostCells s a v))).ports = s.ports := by simp
  rw [hostWrite_fits hf, markHostRace_ports_eq fun d => isTransfer_iff.1, hports]
  rw [hports]
  exact fun x h1 h2 c hc hu => absurd hu (h x h1 h2 c hc)

/-- A host write on addresses that no WRITE in flight uses leaves the device alone. -/
theorem hostWrite_no_write
    (h : ∀ x, a ≤ x → x < a + v.length → ∀ c ∈ s.ports, c.d.op = 4 → ¬ usesHost c x) :
    sameEeprom s (hostWrite a v s) ∧ (hostWrite a v s).wc = s.wc ∧ (hostWrite a v s).bus = s.bus := by
  obtain ⟨f, ⟨d, hb⟩, hw, ⟨cells, d', he, hcells⟩, hf⟩ := hostWrite_device a v s
  have untaken (y : Nat) : f y = false := by
    by_contra e
    obtain ⟨c, hc, hph, hop, ht⟩ := hf y (by simpa using e)
    have hy := takenFrom_range.1 ht
    exact h _ hy.2.2.1 hy.2.2.2 c hc hop (usesHost_of_correspondsTo hph hop hy)
  refine ⟨fun y => ?_, hw.trans (blur_none untaken _), hb.trans ?_⟩
  · rw [State.eepromByte, State.eepromByte, he, fill_get?_ne]
    intro c hc
    exact absurd (hcells c hc) (by simp [untaken])
  · rw [show BusOp.blur f d = id from funext fun op => (busBlur_none untaken d op).1, Option.map_id]; rfl

/-- A host write changes an EEPROM byte only where a WRITE in flight took it from the range. -/
theorem hostWrite_eepromByte {y : Nat} (h : (hostWrite a v s).eepromByte y ≠ s.eepromByte y) :
    ∃ c ∈ s.ports, c.ph ≠ .idle ∧ c.d.op = 4 ∧ correspondsTo c a v.length y := by
  obtain ⟨f, -, -, ⟨cells, d, he, hcells⟩, hf⟩ := hostWrite_device a v s
  have hy : f y = true := by
    by_contra e
    refine h ?_
    rw [State.eepromByte, State.eepromByte, he, fill_get?_ne]
    rintro c hc rfl
    exact e (hcells c hc)
  obtain ⟨c, hc, hph, hop, ht⟩ := hf y hy
  exact ⟨c, hc, hph, hop, takenFrom_range.1 ht⟩

end

/-- Settles O43: the host memory by the cells of the write, the device by `hostWrite_device` and, for the
WRITE with a chunk in hand, by `raceTaken_writer`. -/
theorem hostWriteSetsItsBytes : Obligations.HostWriteSetsItsBytes := by
  intro s a v hf
  obtain ⟨hpar, hatt, hlk, how, hrm, hset, hlen, hports, hfull, hdev, hdist, hreg, hling, -, hlog⟩ :=
    hostWrite_frame a v s
  refine ⟨fun x hx => ?_, fun j hj hu => ?_, ?_, fun p x hp hu => racedAt_hostWrite hf hp hu, hlen, hports,
    hostWrite_ports hf, hostWrite_no_write, fun y => hostWrite_eepromByte,
    fun c hl hc hop hph => ?_, ⟨hlk, how⟩, ⟨hatt, hrm, hreg⟩, ⟨hpar, hfull, hdev, hdist⟩, hset, hling, ?_,
    hlog⟩
  · rw [hostByte_hostWrite hf]
    refine hostByte_fillHost_ne fun c hc => ?_
    have := mem_hostCells hc
    omega
  · rw [hostByte_hostWrite hf, fillHost_hostCells_get hj hu]
  · exact fillHost_drawn.of (fun x hx => hostCells_any hx.1 hx.2.1 hx.2.2)
      fun x _ => hostByte_hostWrite hf x
  · obtain ⟨hbus, hcyc, hdrawn⟩ := raceTaken_writer (s := s.fillHost (hostCells s a v)) a v.length hl hc
      hop hph
    rw [hostWrite_fits hf]
    have later : drawnOn s.draws (s.fillHost (hostCells s a v)).draws := fill_draws _ _ _
    refine ⟨fun q dev y w hit hb => ?_, hcyc, hdrawn.later later⟩
    obtain ⟨w', h1, h2, h3, h4⟩ := hbus q dev y w hit hb
    exact ⟨w', h1, h2, h3, h4.later later⟩
  · simp only [State.stat, State.settling, hpar, hatt, hlk, how, hrm, hset]

/-! The host's read. -/

/-- Filling cells that all say `ANY` takes the draws in the order of the addresses. -/
theorem fill_anyCells_get? {n j : Nat} (hj : j < n) (a : Nat) (m : Memory) (d : Draws) :
    (fill (anyCells a n) m d).1.get? (a + j) = some (d.nth j) := by
  induction n generalizing a m d j with
  | zero => cases hj
  | succ n ih =>
    cases j with
    | zero =>
      have later : ∀ c ∈ anyCells (a + 1) n, c.1 ≠ a := fun c hc e => by
        have := mem_anyCells hc
        omega
      change (fill (anyCells (a + 1) n) (m.put a d.byte.1) d.byte.2).1.get? a = some d.byte.1
      rw [fill_get?_ne _ later, get?_put, if_pos rfl]
    | succ j =>
      rw [anyCells, fill, show a + (j + 1) = a + 1 + j by omega, ih (Nat.lt_of_succ_lt_succ hj)]
      rfl

/-- An access that f picks a transfer for, at an address the transfer uses, is among its marks. -/
theorem mem_raced_markHostRace {f : Latch → Bool} {a n : Nat} {s : State} {p x : Nat}
    (hp : p < s.ports.length) (hu : usesHost (s.port p) x) (hf : f (s.port p).d = true) (h : a ≤ x)
    (h' : x < a + n) : (a, n) ∈ ((markHostRace f (a, n) s).port p).raced := by
  obtain ⟨hph, -, h1, h2⟩ := hu
  have ho : overlaps (s.port p).d.buffer (a, n) = true :=
    decide_eq_true (by simp only [Latch.buffer]; omega)
  rw [markHostRace, port_map _ _ _ hp, if_pos (by simp [hph, hf, ho])]
  simp

section
variable {s : State} {a n : Nat}

theorem readsInto_eq_false {x : Nat} (h : ∀ c ∈ s.ports, usesHost c x → c.d.op ≠ 3) :
    readsInto s x = false := by
  rw [Bool.eq_false_iff, ne_eq, readsInto_iff]
  rintro ⟨c, hc, hu, hop⟩
  exact h c hc hu hop

/-- A host read that fits: the bytes taken, the bytes drawn in `HM`, the marks. -/
theorem hostRead_fits (hf : a + n ≤ 2 ^ s.params.hostAw) : hostRead a n s =
    markHostRace Latch.isRead (a, n) (State.fillHost (readCells s a n)
      { s with seen := (hostSample s a n s.draws).1, draws := (hostSample s a n s.draws).2 }) :=
  if_pos (hostFits_true hf)

theorem hostRead_seen (hf : a + n ≤ 2 ^ s.params.hostAw) :
    (hostRead a n s).seen = (hostSample s a n s.draws).1 := by
  rw [hostRead_fits hf]; rfl

/-- The host memory after a host read that fits. -/
theorem hostRead_host_fits (hf : a + n ≤ 2 ^ s.params.hostAw) : (hostRead a n s).host =
    (fill (readCells s a n) s.host (hostSample s a n s.draws).2).1 := by
  rw [hostRead_fits hf]; rfl

/-- Where all addresses are in destinations of READs in flight, the host takes the first draws and the
memory the next ones. -/
theorem hostRead_all_drawn (hf : a + n ≤ 2 ^ s.params.hostAw)
    (h : ∀ j, j < n → ∃ c ∈ s.ports, usesHost c (a + j) ∧ c.d.op = 3) :
    (hostRead a n s).seen = (Draws.bytes n s.draws).1 ∧ ∀ j, j < n →
      (Draws.bytes n (Draws.bytes n s.draws).2).1[j]? = some ((hostRead a n s).hostByte (a + j)) := by
  have hs : hostSample s a n s.draws = Draws.bytes n s.draws :=
    hostSample_drawn s n a _ fun j hj => readsInto_iff.2 (h j hj)
  have hc : readCells s a n = anyCells a n := List.filter_eq_self.2 fun x hx => by
    have := mem_anyCells hx
    have := h (x.1 - a) (by omega)
    rw [show a + (x.1 - a) = x.1 by omega] at this
    exact readsInto_iff.2 this
  refine ⟨by rw [hostRead_seen hf, hs], fun j hj => ?_⟩
  rw [bytes_get _ hj, State.hostByte, hostRead_host_fits hf, hc, hs, fill_anyCells_get? hj]
  rfl

/-- The bytes the host takes in destinations of READs in flight, each its own draw. -/
theorem hostRead_seen_drawn (hf : a + n ≤ 2 ^ s.params.hostAw) :
    drawnApart s.draws (fun j => j < n ∧ ∃ c ∈ s.ports, usesHost c (a + j) ∧ c.d.op = 3)
      fun j => (hostRead a n s).seen.getD j 0 := by
  rw [hostRead_seen hf]
  exact (hostSample_apart s n a s.draws).shift a
    (fun j hj => ⟨by omega, by omega, readsInto_iff.2 hj.2⟩) fun j _ => by rw [Nat.add_sub_cancel_left]

/-- The bytes a host read leaves in destinations of READs in flight, each its own draw. -/
theorem hostRead_host_drawn (hf : a + n ≤ 2 ^ s.params.hostAw) :
    drawnApart s.draws (fun x => a ≤ x ∧ x < a + n ∧ ∃ c ∈ s.ports, usesHost c x ∧ c.d.op = 3)
      (hostRead a n s).hostByte := by
  refine ((fill_drawnApart Config.initialHost (readCells s a n) s.host _).later
    (hostSample_draws s n a s.draws)).of (fun x hx => readCells_any hx.1 hx.2.1 (readsInto_iff.2 hx.2.2))
    fun x _ => ?_
  rw [State.hostByte, hostRead_host_fits hf]

/-- Elsewhere a host read leaves the host memory. -/
theorem hostRead_hostByte {x : Nat} (h : a ≤ x → x < a + n → ∀ c ∈ s.ports, usesHost c x → c.d.op ≠ 3) :
    (hostRead a n s).hostByte x = s.hostByte x := by
  obtain ⟨cells, d, hm, hc⟩ := hostRead_host a n s
  by_contra hne
  obtain ⟨y, hy, rfl⟩ := cell_of_hostByte_ne hm hne
  obtain ⟨⟨h1, h2⟩, q, hq, hu, hop⟩ := mem_readCells (hc y hy).1
  exact h h1 h2 q hq (inFlightAt_iff.1 hu) hop

/-- A host read that meets no READ in flight leaves the ports alone. -/
theorem hostRead_ports (hf : a + n ≤ 2 ^ s.params.hostAw)
    (h : ∀ x, a ≤ x → x < a + n → ∀ c ∈ s.ports, usesHost c x → c.d.op ≠ 3) :
    (hostRead a n s).ports = s.ports := by
  rw [hostRead_fits hf]
  refine markHostRace_ports_eq (fun d hd => .inl (isRead_iff.1 hd)) fun x h1 h2 c hc hu => ?_
  rw [Bool.eq_false_iff, ne_eq, isRead_iff]
  exact h x h1 h2 c hc hu

end

theorem hostWrite_seen (a : Nat) (v : List Byte) (s : State) : (hostWrite a v s).seen = s.seen := by
  obtain ⟨-, -, -, -, -, -, -, -, -, -, -, -, -, hs, -⟩ := hostWrite_frame a v s
  exact hs

/-- Only a host read changes what the host took. -/
theorem step_seen {s t : State} (h : step s = .next t) (hne : t.seen ≠ s.seen) :
    ∃ a n rest, s.agenda = .hostRead a n :: rest := by
  obtain ⟨-, hs, -⟩ | ⟨a, v, rest, -, rfl⟩ | ⟨a, n, rest, ha, -⟩ | ⟨p, c, rest, -, h⟩ := step_hostSide h
  · exact absurd hs hne
  · exact absurd (hostWrite_seen a v { s with agenda := rest }) hne
  · exact ⟨a, n, rest, ha⟩
  · exact absurd (contextStep_hostSide h).2.1 hne

/-- Settles O44: the rules of a host read, in the state whose agenda has dropped the move. -/
theorem hostReadsTheStoredBytes : Obligations.HostReadsTheStoredBytes := by
  refine ⟨fun s a n rest ha hf => ⟨_, step_cons ha, ?_⟩, fun s t => step_seen⟩
  generalize hu : ({ s with agenda := rest } : State) = u
  have hf' : a + n ≤ 2 ^ u.params.hostAw := by rw [← hu]; exact hf
  obtain ⟨v, d, m, ps, e, hl, hq⟩ := hostRead_frame a n u
  have hseen := hostRead_seen hf'
  subst hu
  refine ⟨by rw [hseen, hostSample_length], fun j h hr => ?_, hostRead_all_drawn hf',
    hostRead_seen_drawn hf', hostRead_host_drawn hf', fun x hx => ?_,
    fun p x hp hop h1 h2 hu => ?_, hq, hostRead_ports hf', ?_⟩
  · simp only [hseen]
    exact hostSample_get _ _ _ _ _ _ (readsInto_eq_false hr)
  · exact hostRead_hostByte (s := { s with agenda := rest }) hx
  · rw [hostRead_fits hf']
    exact mem_raced_markHostRace hp hu (isRead_iff.2 hop) h1 h2
  · rw [e]
    exact ⟨hl, ⟨rfl, rfl, rfl, rfl⟩, ⟨rfl, rfl⟩, ⟨rfl, rfl, rfl⟩, rfl, fun _ => rfl, rfl, rfl, rfl, rfl⟩

end Sys2Proof.Machine
end

section
/-! SUPPORT. The lock, the outstanding operation and the write cycle: what waits for what, and how long a
cycle lasts. -/

namespace Sys2Proof.Machine

/-! The lock. -/

/-- Every command waits for the lock alike. -/
theorem exec_waitLock {i : Instr} {s : State} (h : (s.port s.sel).ph = .waitLock) :
    exec i s = awaitLock s.sel s := by
  cases i with
  | attach => rw [exec, execAttach, h]
  | detach => rw [exec, execDetach, h]
  | read o n b => rw [exec, execRead, h]
  | write o n b => rw [exec, execWrite, h]

/-- Settles O11: by whether the lock is held. -/
theorem waitingContextTakesTheFreeLock : Obligations.WaitingContextTakesTheFreeLock := by
  intro s i hp hph
  rw [exec_waitLock hph]
  refine ⟨fun hl => if_pos hl, fun hl => ⟨takeLock s.sel s, if_neg (by simp [hl]), rfl, rfl, ?_, ?_, ?_⟩⟩
  · rw [takeLock_port, if_pos ⟨rfl, hp⟩]
  · exact ⟨by simp, fun q hq => by rw [takeLock_port, if_neg (fun e => hq e.1)]⟩
  · exact ⟨⟨rfl, rfl, rfl, rfl⟩, ⟨rfl, rfl, rfl⟩, rfl, fun _ => rfl, rfl, fun _ => rfl, rfl, rfl⟩

/-! The invariants, read out for the bus and the device. -/

/-- Settles O38: the cycle ends within the count, and a running one has a tick left. -/
theorem noCycleRunsAfterTheSettle : Obligations.NoCycleRunsAfterTheSettle := by
  intro s p h hp hph hcnt
  have hin := h.settleLong p hp hph
  rw [hcnt] at hin
  cases hw : s.wc with
  | idle => rfl
  | busy t cells =>
    rw [hw] at hin
    exact absurd (busy_ok h hw).1 (Nat.not_lt.2 hin)

/-- Settles O50: the first half of `step_inv`. -/
theorem noStepStops : Obligations.NoStepStops := fun _ h => (step_inv h).imp fun _ ht => ht.1

/-- The chunk that a READ or WRITE in BUS waits for: attached, of 1 to 128 bytes, inside the array. -/
theorem chunk_in_array {s : State} (h : Inv s) {p : Nat} (hp : p < s.ports.length)
    (hop : (s.port p).d.op = 3 ∨ (s.port p).d.op = 4) (hph : (s.port p).ph = .bus) :
    s.rmValid = true ∧ 1 ≤ (s.port p).clen ∧ (s.port p).clen ≤ 128 ∧
      (s.port p).cur + (s.port p).clen ≤ 65536 := by
  obtain ⟨-, -, -, hatt⟩ := bus_transfer h hp hph (by rcases hop with e | e <;> rw [e] <;> decide)
  obtain ⟨-, hcap, -, -, hpos, hle, hpage, -⟩ := cursorNeverWraps s p h hp hop (.inl hph)
  exact ⟨h.rmValid.2 (by rw [hatt]; decide), hpos, hpage, by omega⟩

/-- Settles O53: the issuer is in BUS, so it owns the lock, and waits for an operation of its command. -/
theorem busIsUsedUnderTheLock : Obligations.BusIsUsedUnderTheLock := by
  intro s op h hb
  obtain ⟨hp, hph⟩ := h.busIssuer op hb
  obtain ⟨op', hb', hcmd⟩ := bus_cmd h hp hph
  obtain rfl : op = op' := Option.some.inj (hb.symm.trans hb')
  refine ⟨by rw [owned_iff h hp, hph]; rfl, fun n e => ?_, fun a n e => ?_, fun a v e => ?_⟩ <;>
    rw [e] at hcmd
  · obtain ⟨hop, rfl⟩ := hcmd
    have hk := h.phases _ hp
    rw [portOk, hph] at hk
    obtain ⟨-, -, hdet⟩ | ⟨ht, -⟩ := hk
    · exact ⟨rfl, by simpa [hdet] using h.rmValid, hop⟩
    · rw [Latch.isTransfer, hop] at ht; cases ht
  · obtain ⟨hop, rfl, rfl⟩ := hcmd
    obtain ⟨hrm, hchunk⟩ := chunk_in_array h hp (.inl hop) hph
    exact ⟨hrm, hop, hchunk⟩
  · obtain ⟨hop, rfl, hl⟩ := hcmd
    obtain ⟨hrm, hchunk⟩ := chunk_in_array h hp (.inr hop) hph
    exact ⟨hrm, hop, by rwa [hl]⟩

/-! The answer of a write, by its case. -/

section
variable {s : State} {a : Nat} {b : List Byte}

/-- A write issued during a cycle (20_memory.md R74 (c)). -/
theorem okWrite_hit (hd : s.disturbed = false) :
    okWrite true a b s = havoc (writeRange a b.length) s := by
  simp [okWrite, hd]

/-- A write inside one page (20_memory.md R70). -/
theorem okWrite_inPage (hd : s.disturbed = false) (h : a / 128 = (a + b.length - 1) / 128) :
    okWrite false a b s = startCycle s.params.tWc (byteCells a b) s := by
  simp [okWrite, hd, inOnePage_iff.2 h]

/-- A write across a page boundary (20_memory.md R72). -/
theorem okWrite_crossing (hd : s.disturbed = false) (h : a / 128 ≠ (a + b.length - 1) / 128) :
    okWrite false a b s = startCycle s.params.tWc
      (anyCells (writeRange a b.length).1 (writeRange a b.length).2) s := by
  simp [okWrite, hd, mt inOnePage_iff.1 h]

end

/-- Settles O34: the issue by whether a cycle runs, the marked read and the marked write by their draws. -/
theorem operationDuringCycleCorruptsIt : Obligations.OperationDuringCycleCorruptsIt := by
  intro s p cmd
  refine ⟨fun t cells hw => ⟨?_, cells.map fun c => (c.1, none), ?_, ?_, ?_⟩, fun hw => ⟨?_, ?_⟩,
    fun _ => rfl, fun a n => if_pos rfl,
    fun a b hd => ⟨?_, okWrite_drawn (.inl rfl), fun x => eepromByte_okWrite⟩⟩
  · rw [issue_bus, hw]; rfl
  · rw [issue_wc, hw]; rfl
  · rw [List.map_map]; rfl
  · intro c hc
    obtain ⟨x, -, rfl⟩ := List.mem_map.1 hc
    rfl
  · rw [issue_bus, hw]; rfl
  · rw [issue_wc, hw]; rfl
  · rw [okWrite_hit hd]; rfl

/-! A write cycle over its ticks. -/

/-- While a cycle has ticks left, a tick touches neither the array nor the supply. -/
theorem tick_down_draws {s : State} {n cells} (h : s.wc = .busy n cells) (hn : 1 < n) :
    (tick s).draws = s.draws := by
  rw [tick_draws, tickDevice, h]
  dsimp only
  rw [if_neg (by omega)]

/-- k ticks after a cycle of t ticks has started: it runs with the rest of its ticks and the array is as
it was, or it is over and its cells are in the array (20_memory.md R71). The state u is that of the start
for all that the device reads. -/
theorem ticks_startCycle {t : Nat} {cells : List (Nat × Option Byte)} {s u : State}
    (hw : u.wc = (startCycle t cells s).wc) (he : u.eeprom = (startCycle t cells s).eeprom)
    (hd : u.draws = (startCycle t cells s).draws) (k : Nat) :
    (k < t → (ticks k u).wc = .busy (t - k) cells ∧ (ticks k u).eeprom = s.eeprom ∧
      (ticks k u).draws = s.draws) ∧
    (t ≤ k → (ticks k u).wc = .idle ∧ (ticks k u).eeprom = (s.fillEeprom cells).eeprom) := by
  induction k with
  | zero =>
    refine ⟨fun h => ?_, fun h => ?_⟩
    · rw [startCycle, if_neg (by omega)] at hw he hd; exact ⟨hw, he, hd⟩
    · rw [startCycle, if_pos (by omega)] at hw he; exact ⟨hw, he⟩
  | succ k ih =>
    obtain ⟨running, ended⟩ := ih
    rw [ticks_succ']
    refine ⟨fun h => ?_, fun h => ?_⟩
    · obtain ⟨hw, he, hd⟩ := running (by omega)
      obtain ⟨hw', he'⟩ := tick_down hw (by omega)
      exact ⟨hw'.trans (by rw [Nat.sub_sub]), he'.trans he, (tick_down_draws hw (by omega)).trans hd⟩
    · obtain hk | rfl : t ≤ k ∨ t = k + 1 := by omega
      · obtain ⟨hw, he⟩ := ended hk
        obtain ⟨hw', he'⟩ := tick_idle hw
        exact ⟨hw', he'.trans he⟩
      · obtain ⟨hw, he, hd⟩ := running (by omega)
        rw [show k + 1 - k = 1 by omega] at hw
        obtain ⟨hw', he'⟩ := tick_last hw
        exact ⟨hw', by rw [he', he, hd]; rfl⟩

/-- However many ticks have passed, a cycle has changed no byte but those of its cells. -/
theorem ticks_startCycle_ne {t : Nat} {cells : List (Nat × Option Byte)} {s : State} {x : Nat}
    (h : ∀ c ∈ cells, c.1 ≠ x) (k : Nat) :
    (ticks k (startCycle t cells s)).eepromByte x = s.eepromByte x := by
  obtain ⟨running, ended⟩ := ticks_startCycle (cells := cells) (s := s) (t := t) rfl rfl rfl k
  obtain hk | hk := Nat.lt_or_ge k t
  · exact sameEeprom_of_eq (running hk).2.1 x
  · rw [sameEeprom_of_eq (ended hk).2 x, eepromByte_fillEeprom_ne h]

/-- Settles O32: the cycle of the written bytes, over its ticks. -/
theorem inPageWriteCommitsAfterItsCycle : Obligations.InPageWriteCommitsAfterItsCycle := by
  intro s a b _ hd _ _ hpage
  rw [okWrite_inPage hd hpage]
  have cycle := ticks_startCycle (t := s.params.tWc) (cells := byteCells a b) (s := s) rfl rfl rfl
  obtain ⟨hw, he⟩ := (cycle s.params.tWc).2 le_rfl
  obtain ⟨hin, hout⟩ := eepromByte_filled he
  exact ⟨fun k hk => sameEeprom_of_eq ((cycle k).1 hk).2.1, hw, hin, hout⟩

/-- Settles O33: a cycle of drawn bytes over the touched pages, over its ticks. -/
theorem pageCrossingWriteStaysInItsPages : Obligations.PageCrossingWriteStaysInItsPages := by
  intro s a k b _ hd hb _ hpage
  rw [okWrite_crossing hd hpage]
  obtain ⟨hw, he⟩ := (ticks_startCycle (t := s.params.tWc) (s := s) rfl rfl rfl s.params.tWc).2 le_rfl
  refine ⟨fun x hx => ticks_startCycle_ne (anyCells_ne (pages_out hb hx)) k, hw,
    fillEeprom_drawn.of (fun x hx => ?_) fun x _ => sameEeprom_of_eq he x⟩
  obtain ⟨h1, h2⟩ := inWriteRange_iff.1 ((if_neg hpage).mpr hx : inWriteRange a b.length x)
  exact anyAt_anyCells h1 h2

end Sys2Proof.Machine
end

section
/-! SUPPORT. What one step leaves of the bus log and of the EEPROM, by cases, once. -/

namespace Sys2Proof.Machine

/-- The log, and the EEPROM as data. -/
abbrev sameRecord (s t : State) : Prop := t.log = s.log ∧ t.eeprom = s.eeprom

/-- An entry of context p for a bus operation or a settle (20_memory.md R64). -/
abbrev busEntry (p : Nat) (e : LogEntry) : Prop :=
  (∃ n r, e = .recv p n r) ∨ (∃ a n r, e = .rd p a n r) ∨ (∃ a v r, e = .wr p a v r) ∨
    ∃ n, e = .settle p n

/-- An entry of context p for a collaborator call (20_memory.md R64). -/
abbrev collabEntry (p : Nat) (e : LogEntry) : Prop := (∃ cap ws r, e = .reg p cap ws r) ∨ e = .unreg p

/-! The pieces of the commands. -/

theorem awaitLock_record {s t : State} {p : Nat} (h : awaitLock p s = .next t) : sameRecord s t := by
  unfold awaitLock at h
  split at h <;> cases h <;> exact ⟨rfl, rfl⟩

theorem attachChecks_record (p : Nat) (s : State) : sameRecord s (attachChecks p s) := by
  unfold attachChecks
  (repeat' split) <;> simp [sameRecord]

theorem detachBegin_record (p : Nat) (s : State) : sameRecord s (detachBegin p s) := by
  unfold detachBegin
  split <;> simp [sameRecord]

theorem acceptTransfer_record (p : Nat) (d : Latch) (s : State) :
    sameRecord s (acceptTransfer p d s) := by
  unfold acceptTransfer
  split <;> simp [sameRecord]

theorem readNext_record {s t : State} {p : Nat} (h : readNext p s = .next t) : sameRecord s t := by
  unfold readNext at h
  (repeat' split at h) <;> cases h <;> simp [sameRecord]

theorem writeNext_record {s t : State} {p : Nat} (h : writeNext p s = .next t) : sameRecord s t := by
  unfold writeNext at h
  (repeat' split at h) <;> cases h <;> simp [sameRecord]

theorem readBegin_record {s t : State} {p : Nat} (h : readBegin p s = .next t) : sameRecord s t := by
  unfold readBegin at h
  split at h
  · cases h; simp [sameRecord]
  · exact (readNext_record h : sameRecord (initCursor p s) t)

theorem writeBegin_record {s t : State} {p : Nat} (h : writeBegin p s = .next t) : sameRecord s t := by
  unfold writeBegin at h
  split at h
  · cases h; simp [sameRecord]
  · exact (writeNext_record h : sameRecord (initCursor p s) t)

theorem writeSettled_record {s t : State} {p : Nat} (h : writeSettled p s = .next t) :
    sameRecord s t := by
  unfold writeSettled at h
  split at h
  · cases h; simp [sameRecord]
  · exact (writeNext_record h : sameRecord (advance p s) t)

theorem attachProbed_record (p n : Nat) (s : State) :
    (attachProbed p n s).log = s.log ++ [.recv p n (recvResult s.choice)] ∧
      (attachProbed p n s).eeprom = s.eeprom := by
  unfold attachProbed
  split <;> simp

theorem attachRegistered_record (p : Nat) (s : State) :
    (attachRegistered p s).log = s.log ++ [.reg p capacity wordSize (plainResult s.choice)] ∧
      (attachRegistered p s).eeprom = s.eeprom := by
  unfold attachRegistered
  split <;> simp

theorem detachUnregistered_record (p : Nat) (s : State) :
    (detachUnregistered p s).log = s.log ++ [.unreg p] ∧
      (detachUnregistered p s).eeprom = s.eeprom := by
  simp [detachUnregistered]

theorem readAnswered_record {s t : State} {p a n : Nat} {hit : Bool}
    (h : readAnswered p hit a n s = .next t) :
    (∃ r, t.log = s.log ++ [.rd p a n r]) ∧ t.eeprom = (readEffect a n s).eeprom := by
  unfold readAnswered at h
  split at h
  · cases h
  split at h
  · obtain ⟨hl, he⟩ := readNext_record h
    exact ⟨⟨_, by simpa using hl⟩, by simpa using he⟩
  · cases h
    exact ⟨⟨_, by simp [readFailed]; rfl⟩, by simp [readFailed]⟩

/-- A write's answer adds entries of its context, and changes bytes in its range R alone. -/
theorem writeAnswered_record (p : Nat) (hit : Bool) (a : Nat) (b : List Byte) (s : State) :
    (∃ es, (writeAnswered p hit a b s).log = s.log ++ es ∧ ∀ e ∈ es, busEntry p e) ∧
      ∀ x, ¬ inWriteRange a b.length x →
        (writeAnswered p hit a b s).eepromByte x = s.eepromByte x := by
  have wr (r : Result) : busEntry p (.wr p a b r) := .inr (.inr (.inl ⟨a, b, r, rfl⟩))
  unfold writeAnswered
  split
  · refine ⟨⟨_, by simp [writeTaken, loadSettle]; rfl, fun e he => ?_⟩, fun x => eepromByte_okWrite⟩
    rcases List.mem_pair.1 he with rfl | rfl
    · exact wr _
    · exact .inr (.inr (.inr ⟨_, rfl⟩))
  · refine ⟨⟨_, by simp [writeFailed]; rfl, fun e he => ?_⟩, fun x hx => ?_⟩
    · rw [List.mem_singleton.1 he]; exact wr _
    · rw [← eepromByte_failedWrite (c := s.choice) (s := s) (out_of_not_inWriteRange hx)]
      exact sameEeprom_of_eq (by simp [writeFailed]) x

/-! The commands. -/

/-- Context p takes the answer of its collaborator call. -/
abbrev collabAnswered (p : Nat) (s t : State) : Prop :=
  (s.port p).ph = .collab ∧ t.eeprom = s.eeprom ∧ ∃ e, t.log = s.log ++ [e] ∧ collabEntry p e

/-- An outstanding write has address a in its range R (20_memory.md R73). -/
abbrev writeCovers (s : State) (a : Nat) : Prop :=
  ∃ q dev x v hit, s.bus = some ⟨q, dev, .write x v, hit⟩ ∧ inWriteRange x v.length a

/-- Context p takes the answer of its bus operation: entries of its own, and with the inputs stable no
byte changes but, if the command is a WRITE, those of its chunk's range. -/
abbrev busAnswered (p : Nat) (isWrite : Prop) (s t : State) : Prop :=
  (s.port p).ph = .bus ∧ (∃ es, t.log = s.log ++ es ∧ ∀ e ∈ es, busEntry p e) ∧
    (s.disturbed = false → ∀ a, t.eepromByte a ≠ s.eepromByte a → isWrite ∧ writeCovers s a)

/-- A bus operation whose answer leaves the array alone. -/
theorem busAnswered.of_eeprom {s t : State} {p : Nat} {w : Prop} {e : LogEntry}
    (hph : (s.port p).ph = .bus) (hl : t.log = s.log ++ [e]) (he : busEntry p e)
    (hE : s.disturbed = false → t.eeprom = s.eeprom) : busAnswered p w s t :=
  ⟨hph, ⟨[e], hl, fun x hx => by rw [List.mem_singleton.1 hx]; exact he⟩,
    fun hd a hne => absurd (sameEeprom_of_eq (hE hd) a) hne⟩

/-- A silent step with a given next state. -/
theorem sameRecord.answer {s t u : State} (h : sameRecord s u)
    (e : (.next u : Answer) = .next t) : sameRecord s t := by
  cases e; exact h

theorem execAttach_record {s t : State} (h : execAttach s = .next t) :
    sameRecord s t ∨ collabAnswered s.sel s t ∨ busAnswered s.sel False s t := by
  unfold execAttach at h
  split at h
  · cases h; exact .inl ⟨rfl, rfl⟩
  · exact .inl (awaitLock_record h)
  · exact .inl ((attachChecks_record _ _).answer h)
  · rename_i hph
    split at h
    · cases h
      obtain ⟨hl, he⟩ := attachProbed_record s.sel ‹_› s
      exact .inr (.inr (.of_eeprom hph hl (.inl ⟨_, _, rfl⟩) fun _ => he))
    · cases h
  · rename_i hph
    cases h
    obtain ⟨hl, he⟩ := attachRegistered_record s.sel s
    exact .inr (.inl ⟨hph, he, _, hl, .inl ⟨_, _, _, rfl⟩⟩)
  · cases h

theorem execDetach_record {s t : State} (h : execDetach s = .next t) :
    sameRecord s t ∨ collabAnswered s.sel s t := by
  unfold execDetach at h
  split at h
  · cases h; exact .inl ⟨rfl, rfl⟩
  · exact .inl (awaitLock_record h)
  · exact .inl ((detachBegin_record _ _).answer h)
  · rename_i hph
    cases h
    obtain ⟨hl, he⟩ := detachUnregistered_record s.sel s
    exact .inr ⟨hph, he, _, hl, .inr rfl⟩
  · cases h
  · cases h

theorem execRead_record {s t : State} {o n b : Word} (h : execRead o n b s = .next t) :
    sameRecord s t ∨ busAnswered s.sel False s t := by
  unfold execRead at h
  split at h
  · exact .inl ((acceptTransfer_record _ _ _).answer h)
  · exact .inl (awaitLock_record h)
  · exact .inl (readBegin_record h)
  · rename_i hph
    split at h
    · obtain ⟨⟨r, hl⟩, he⟩ := readAnswered_record h
      exact .inr (.of_eeprom hph hl (.inr (.inl ⟨_, _, _, rfl⟩)) fun hd => by
        rw [he, readEffect_clean hd])
    · cases h
  · cases h
  · cases h

theorem execWrite_record {s t : State} {o n b : Word} (h : execWrite o n b s = .next t) :
    sameRecord s t ∨ busAnswered s.sel True s t := by
  unfold execWrite at h
  split at h
  · exact .inl ((acceptTransfer_record _ _ _).answer h)
  · exact .inl (awaitLock_record h)
  · exact .inl (writeBegin_record h)
  · rename_i hph
    split at h
    · rename_i q dev a v hit hb
      cases h
      obtain ⟨hl, he⟩ := writeAnswered_record s.sel hit a v s
      exact .inr ⟨hph, hl, fun _ x hne =>
        ⟨trivial, q, dev, a, v, hit, hb, by_contra fun hx => hne (he x hx)⟩⟩
    · cases h
  · exact .inl (writeSettled_record h)
  · cases h

/-- What a step of a command leaves of the log and of the array. -/
theorem exec_record {i : Instr} {s t : State} (h : exec i s = .next t) :
    sameRecord s t ∨ collabAnswered s.sel s t ∨
      busAnswered s.sel (∃ o n b, i = .write o n b) s t := by
  have other (hb : busAnswered s.sel False s t) : busAnswered s.sel (∃ o n b, i = .write o n b) s t :=
    ⟨hb.1, hb.2.1, fun hd a hne => (hb.2.2 hd a hne).1.elim⟩
  cases i with
  | attach => exact (execAttach_record h).imp_right (.imp_right other)
  | detach => exact (execDetach_record h).imp_right .inl
  | read o n b => exact (execRead_record h).imp_right fun hb => .inr (other hb)
  | write o n b =>
    refine (execWrite_record h).imp_right fun ⟨hph, hl, he⟩ => .inr ⟨hph, hl, fun hd a hne => ?_⟩
    exact ⟨⟨o, n, b, rfl⟩, (he hd a hne).2⟩

/-- A port with a command in flight exists. -/
theorem port_lt_of_ne_idle {s : State} {p : Nat} (h : (s.port p).ph ≠ .idle) : p < s.ports.length := by
  by_contra hp
  exact h (by rw [port_of_ge s (by omega)]; rfl)

/-- What a step of context p leaves of the log and of the array. -/
theorem contextStep_record {s t : State} {p : Nat} {c : Choice} (h : contextStep p c s = .next t) :
    sameRecord s t ∨ collabAnswered p s t ∨ busAnswered p ((s.port p).d.op = 4) s t := by
  unfold contextStep at h
  have hf := fetch_finds p { s with sel := p, choice := c }
  generalize fetch p { s with sel := p, choice := c } = f at hf h
  cases hf with
  | nothing => cases h; exact .inl ⟨rfl, rfl⟩
  | illegal => cases h; left; simp [sameRecord]
  | descriptor hp hi hr hd =>
    refine .inl ((exec_record h).resolve_right ?_)
    rw [setPort_sel, collabAnswered, busAnswered, port_setPort_self _ _ hp]
    dsimp only
    rintro (⟨hph, -⟩ | ⟨hph, -⟩) <;> cases hi.symm.trans hph
  | latched hp hi hd =>
    refine (exec_record h).imp_right (.imp_right fun ⟨hph, hl, he⟩ => ⟨hph, hl, fun hs a hne => ?_⟩)
    obtain ⟨⟨o, n, b, rfl⟩, hc⟩ := he hs a hne
    exact ⟨instr_write hd, hc⟩
  | stray => cases h

/-! The block reset. -/

/-- A dropped operation leaves its entry. -/
theorem dropBus_log (c : Choice) (s : State) :
    (dropBus c s).log = s.log ++ (s.bus.map lostEntry).toList := by
  unfold dropBus
  split <;> rename_i hb <;> rw [hb] <;> simp [lostEntry]

/-- With the inputs stable, a dropped operation changes bytes in the range R of a write alone. -/
theorem dropBus_eepromByte {c : Choice} {s : State} (hd : s.disturbed = false) {a : Nat}
    (hne : (dropBus c s).eepromByte a ≠ s.eepromByte a) : writeCovers s a := by
  unfold dropBus at hne
  split at hne
  · exact absurd rfl hne
  · exact absurd rfl hne
  · rw [readEffect_clean hd] at hne
    exact absurd rfl hne
  · rename_i q dev x v hit hb
    exact ⟨q, dev, x, v, hit, hb, by_contra fun hx =>
      hne (eepromByte_failedWrite (c := c) (out_of_not_inWriteRange hx))⟩

/-- A cut-off call leaves an entry of the context in COLLAB. -/
theorem dropCollab_log (c : Choice) (s : State) :
    ∃ es, (dropCollab c s).log = s.log ++ es ∧ ∀ e ∈ es, ∃ p, p < s.ports.length ∧
      (s.port p).ph = .collab ∧
      (((s.port p).d.op = 1 ∧ e = .reg p capacity wordSize .lost) ∨
        ((s.port p).d.op ≠ 1 ∧ e = .unreg p)) := by
  unfold dropCollab
  split
  · exact ⟨[], by simp, by simp⟩
  · rename_i p hp
    obtain ⟨hlt, hph, -⟩ := List.findIdx?_eq_some_iff_getElem.1 hp
    have hport : (s.port p).ph = .collab := by
      rw [State.port, List.getD_eq_getElem _ _ hlt]; exact beq_iff_eq.1 hph
    split
    · rename_i hop
      refine ⟨[.reg p capacity wordSize .lost], by simp [cutOff_frame], fun e he => ?_⟩
      exact ⟨p, hlt, hport, .inl ⟨hop, List.mem_singleton.1 he⟩⟩
    · rename_i hop
      refine ⟨[.unreg p], by simp [cutOff_frame], fun e he => ?_⟩
      exact ⟨p, hlt, hport, .inr ⟨hop, List.mem_singleton.1 he⟩⟩

/-- The bytes after a block reset are those after the drop of the outstanding operation. -/
theorem blockReset_eeprom (c : Choice) (s : State) :
    (blockReset c s).eeprom = (dropBus c s).eeprom := by
  obtain ⟨-, -, -, -, he, -⟩ := dropCollab_frame c (dropBus c s)
  exact he

/-! The log. -/

/-- What a move does to the log: only a step of a context and a block reset write it. -/
theorem runMove_log {m : Move} {s t : State} (h : runMove m s = .next t) :
    (t.log = s.log ∧ ∀ c, m ≠ .reset c) ∨ (∃ c, m = .reset c ∧ t = blockReset c s) ∨
      ∃ p c, m = .port p c ∧ contextStep p c s = .next t := by
  cases m with
  | port p c => exact .inr (.inr ⟨p, c, rfl, h⟩)
  | reset c => cases h; exact .inr (.inl ⟨c, rfl, rfl⟩)
  | tick => cases h; exact .inl ⟨tick_log s, nofun⟩
  | present p d => cases h; exact .inl ⟨rfl, nofun⟩
  | hostWrite a v =>
    cases h
    obtain ⟨-, -, -, -, -, -, -, -, -, -, -, -, -, -, hl⟩ := hostWrite_frame a v s
    exact .inl ⟨hl, nofun⟩
  | hostRead a n =>
    cases h
    obtain ⟨v, d, m, ps, e, -⟩ := hostRead_frame a n s
    exact .inl ⟨by rw [e], nofun⟩
  | collab k =>
    cases h
    obtain ⟨r, l, e⟩ := lateCollab_frame k s
    exact .inl ⟨by rw [e], nofun⟩
  | discard => cases h; exact .inl ⟨rfl, nofun⟩
  | powerLoss c =>
    cases h
    obtain ⟨e, w, d, hf⟩ := powerLoss_frame c s
    exact .inl ⟨by rw [hf], nofun⟩
  | inputs full dev => cases h; exact .inl ⟨rfl, nofun⟩

/-- The entries that a step of context p adds. -/
theorem contextStep_log {s t : State} (hinv : Inv s) {p : Nat} {c : Choice}
    (h : contextStep p c s = .next t) : ∃ es, t.log = s.log ++ es ∧
      ∀ e ∈ es, (∃ cap ws r, e = .reg p cap ws r) ∨ e = .unreg p ∨
        (s.ownedBy p = true ∧ busEntry p e) := by
  obtain ⟨hl, -⟩ | ⟨-, -, e, hl, he⟩ | ⟨hph, ⟨es, hl, he⟩, -⟩ := contextStep_record h
  · exact ⟨[], by simpa using hl, by simp⟩
  · refine ⟨[e], hl, fun x hx => ?_⟩
    rw [List.mem_singleton.1 hx]
    exact he.imp_right .inl
  · have hp : p < s.ports.length := port_lt_of_ne_idle (by rw [hph]; decide)
    exact ⟨es, hl, fun e hmem => .inr (.inr ⟨by rw [owned_iff hinv hp, hph]; rfl, he e hmem⟩)⟩

/-- The entries that a block reset adds. -/
theorem blockReset_log {s : State} (hinv : Inv s) (c : Choice) :
    ∃ es, (blockReset c s).log = s.log ++ es ∧ (∀ op, s.bus = some op → lostEntry op ∈ es) ∧
      ∀ e ∈ es, (∃ op, s.bus = some op ∧ e = lostEntry op) ∨
        ∃ p, p < s.ports.length ∧ (s.port p).ph = .collab ∧
          (((s.port p).d.op = 1 ∧ e = .reg p capacity wordSize .lost) ∨
            ((s.port p).d.op = 2 ∧ e = .unreg p)) := by
  obtain ⟨-, hports, -, -⟩ := dropBus_frame c s
  obtain ⟨es, hl, hes⟩ := dropCollab_log c (dropBus c s)
  refine ⟨(s.bus.map lostEntry).toList ++ es, ?_, fun op hb => by simp [hb], fun e he => ?_⟩
  · show (dropCollab c (dropBus c s)).log = _
    rw [hl, dropBus_log, List.append_assoc]
  · rcases List.mem_append.1 he with hb | hc
    · obtain ⟨op, hop, rfl⟩ : ∃ op, s.bus = some op ∧ lostEntry op = e := by simpa using hb
      exact .inl ⟨op, hop, rfl⟩
    · obtain ⟨p, hp, hph, hentry⟩ := hes e hc
      rw [hports] at hp
      rw [port_congr hports] at hph hentry
      refine .inr ⟨p, hp, hph, hentry.imp_right fun ⟨hne, he⟩ => ⟨?_, he⟩⟩
      have hk := hinv.phases p hp
      rw [portOk, hph] at hk
      obtain ⟨-, ⟨hop, -⟩ | ⟨hop, -⟩⟩ := hk
      · exact absurd hop hne
      · exact hop

/-- `Inv` does not read the agenda. -/
theorem Inv.withAgenda {s : State} (h : Inv s) (l : List Move) : Inv { s with agenda := l } :=
  h.congr rfl rfl rfl rfl rfl rfl rfl rfl rfl rfl rfl

/-- Settles O59: the three sources of entries that `runMove_log` leaves. -/
theorem logIsWrittenByTheLockOwner : Obligations.LogIsWrittenByTheLockOwner := by
  intro s t hinv h
  cases ha : s.agenda with
  | nil =>
    rw [step_nil ha] at h
    cases h
    exact ⟨[], by simp, nofun, nofun, fun _ _ => rfl⟩
  | cons m rest =>
    rw [step_cons ha] at h
    obtain ⟨hl, hm⟩ | ⟨c, rfl, rfl⟩ | ⟨p, c, rfl, h⟩ := runMove_log h
    · refine ⟨[], by simpa using hl, fun _ _ _ _ => nofun, fun c r e => ?_, fun _ _ => rfl⟩
      exact absurd (List.cons.inj e).1 (hm c)
    · obtain ⟨es, hl, hbus, hes⟩ := blockReset_log (hinv.withAgenda rest) c
      exact ⟨es, hl, nofun, fun _ _ _ => ⟨hbus, hes⟩, fun _ hne => absurd rfl (hne _ _)⟩
    · obtain ⟨es, hl, hes⟩ := contextStep_log (hinv.withAgenda rest) h
      refine ⟨es, hl, fun q c' r e => ?_, nofun, fun hne => absurd rfl (hne _ _ _)⟩
      cases e
      exact hes

/-! The EEPROM. -/

/-- A byte that a fill changes has a cell. -/
theorem cell_of_eepromByte_ne {s : State} {cells : List (Nat × Option Byte)} {a : Nat}
    (h : (s.fillEeprom cells).eepromByte a ≠ s.eepromByte a) : ∃ x ∈ cells, x.1 = a := by
  by_contra hc
  push Not at hc
  exact h (eepromByte_fillEeprom_ne hc)

/-- A tick changes the bytes of a cycle that it ends alone. -/
theorem tick_eepromByte {s : State} (hinv : Inv s) {a : Nat}
    (hne : (tick s).eepromByte a ≠ s.eepromByte a) :
    ∃ cells, s.wc = .busy 1 cells ∧ ∃ x ∈ cells, x.1 = a := by
  cases hw : s.wc with
  | idle => exact absurd (sameEeprom_of_eq (tick_idle hw).2 a) hne
  | busy t cells =>
    obtain hlt | rfl : 1 < t ∨ t = 1 := by have := (busy_ok hinv hw).1; omega
    · exact absurd (sameEeprom_of_eq (tick_down hw hlt).2 a) hne
    · rw [sameEeprom_of_eq (s := s.fillEeprom cells) (tick_last hw).2 a] at hne
      exact ⟨cells, rfl, cell_of_eepromByte_ne hne⟩

/-- A loss of power changes the bytes of a cycle that it ends alone. -/
theorem powerLoss_eepromByte {c : Choice} {s : State} {a : Nat}
    (hne : (powerLoss c s).eepromByte a ≠ s.eepromByte a) :
    ∃ k cells, s.wc = .busy k cells ∧ min c.cycle k = 0 ∧ ∃ x ∈ cells, x.1 = a := by
  cases hw : s.wc with
  | idle => exact absurd (sameEeprom_of_eq (powerLoss_idle hw).1 a) hne
  | busy k cells =>
    have he := (powerLoss_busy (c := c) hw).1
    by_cases h0 : min c.cycle k = 0
    · rw [startCycle, if_pos h0] at he
      rw [sameEeprom_of_eq (s := s.fillEeprom _) he a] at hne
      obtain ⟨y, hy, hya⟩ := cell_of_eepromByte_ne hne
      obtain ⟨x, hx, rfl⟩ := List.mem_map.1 hy
      exact ⟨k, cells, rfl, h0, x, hx, hya⟩
    · rw [startCycle, if_neg h0] at he
      exact absurd (sameEeprom_of_eq (s := s) he a) hne

/-- A loss of power while a cycle runs (log 19). -/
theorem powerLoss_cycle {c : Choice} {s : State} {k cells} (hw : s.wc = .busy k cells) :
    (∀ a, (∀ x ∈ cells, x.1 ≠ a) → (powerLoss c s).eepromByte a = s.eepromByte a) ∧
    (min c.cycle k = 0 → (powerLoss c s).wc = .idle ∧
      drawnApart s.draws (fun a => ∃ x ∈ cells, x.1 = a) (powerLoss c s).eepromByte) ∧
    (0 < min c.cycle k → sameEeprom s (powerLoss c s) ∧
      ∃ cells', (powerLoss c s).wc = .busy (min c.cycle k) cells' ∧
        cells'.map Prod.fst = cells.map Prod.fst ∧ ∀ x ∈ cells', x.2 = none) := by
  obtain ⟨he, hwc⟩ := powerLoss_busy (c := c) hw
  refine ⟨fun a ha => ?_, fun h0 => ⟨?_, powerLoss_drawn hw h0⟩, fun h0 => ?_⟩
  · by_contra hne
    obtain ⟨k', cells', hw', -, x, hx, rfl⟩ := powerLoss_eepromByte hne
    cases hw.symm.trans hw'
    exact ha x hx rfl
  · rw [hwc, startCycle, if_pos h0]
  · rw [startCycle, if_neg (by omega)] at he hwc
    refine ⟨sameEeprom_of_eq he, _, hwc, by rw [List.map_map]; rfl, fun y hy => ?_⟩
    obtain ⟨x, -, rfl⟩ := List.mem_map.1 hy
    rfl

/-- The write that a context in BUS waits for is its own. -/
theorem writeCovers.of_bus {s : State} (h : Inv s) {p : Nat} (hp : p < s.ports.length)
    (hph : (s.port p).ph = .bus) {a : Nat} (hc : writeCovers s a) :
    ∃ dev x v hit, s.bus = some ⟨p, dev, .write x v, hit⟩ ∧ inWriteRange x v.length a := by
  obtain ⟨q, dev, x, v, hit, hb, hr⟩ := hc
  obtain ⟨op, hb', rfl, -⟩ := h.busWait p hp hph
  cases hb.symm.trans hb'
  exact ⟨dev, x, v, hit, hb, hr⟩

/-- The moves that change a byte of the array while the inputs are stable. -/
theorem runMove_eepromByte {m : Move} {s t : State} {a : Nat} (hinv : Inv s)
    (hd : s.disturbed = false) (h : runMove m s = .next t) (hne : t.eepromByte a ≠ s.eepromByte a) :
    (m = .tick ∧ ∃ cells, s.wc = .busy 1 cells ∧ ∃ x ∈ cells, x.1 = a) ∨
    (∃ c, m = .reset c ∧ writeCovers s a) ∨
    (∃ x v, m = .hostWrite x v ∧ ∃ c ∈ s.ports, c.ph ≠ .idle ∧ c.d.op = 4 ∧
      correspondsTo c x v.length a) ∨
    (∃ p c, m = .port p c ∧ (s.port p).ph = .bus ∧ (s.port p).d.op = 4 ∧
      ∃ dev x v hit, s.bus = some ⟨p, dev, .write x v, hit⟩ ∧ inWriteRange x v.length a) ∨
    (∃ c, m = .powerLoss c ∧ ∃ k cells, s.wc = .busy k cells ∧ min c.cycle k = 0 ∧
      ∃ x ∈ cells, x.1 = a) := by
  have still {P : Prop} (he : t.eeprom = s.eeprom) : P := absurd (sameEeprom_of_eq he a) hne
  cases m with
  | tick => cases h; exact .inl ⟨rfl, tick_eepromByte hinv hne⟩
  | reset c =>
    cases h
    rw [sameEeprom_of_eq (blockReset_eeprom c s) a] at hne
    exact .inr (.inl ⟨c, rfl, dropBus_eepromByte hd hne⟩)
  | hostWrite x v => cases h; exact .inr (.inr (.inl ⟨x, v, rfl, hostWrite_eepromByte hne⟩))
  | port p c =>
    obtain ⟨-, he⟩ | ⟨-, he, -⟩ | ⟨hph, -, he⟩ := contextStep_record h
    · exact still he
    · exact still he
    · obtain ⟨hop, hc⟩ := he hd a hne
      have hp : p < s.ports.length := port_lt_of_ne_idle (by rw [hph]; decide)
      exact .inr (.inr (.inr (.inl ⟨p, c, rfl, hph, hop, hc.of_bus hinv hp hph⟩)))
  | powerLoss c =>
    cases h; exact .inr (.inr (.inr (.inr ⟨c, rfl, powerLoss_eepromByte hne⟩)))
  | present p d => cases h; exact still rfl
  | hostRead x n =>
    cases h
    obtain ⟨v, d, m, ps, e, -⟩ := hostRead_frame x n s
    exact still (by rw [e])
  | collab k =>
    cases h
    obtain ⟨r, l, e⟩ := lateCollab_frame k s
    exact still (by rw [e])
  | discard => cases h; exact still rfl
  | inputs full dev => cases h; exact still rfl

/-- Settles O56: a change by `tick_eepromByte` and `runMove_eepromByte`, a loss of power by its frame. -/
theorem onlyWritesChangeTheEeprom : Obligations.OnlyWritesChangeTheEeprom := by
  refine ⟨fun s t a hinv hd h hne => ?_, fun s c rest ha => ?_⟩
  · cases ha : s.agenda with
    | nil =>
      rw [step_nil ha] at h
      cases h
      exact .inl ⟨.inl rfl, tick_eepromByte hinv hne⟩
    | cons m rest =>
      rw [step_cons ha] at h
      obtain ⟨rfl, hc⟩ | ⟨c, rfl, q, dev, x, v, hit, hc⟩ | ⟨x, v, rfl, hc⟩ |
          ⟨p, c, rfl, hph, hop, dev, x, v, hit, hc⟩ | ⟨c, rfl, k, cells, hc⟩ :=
        runMove_eepromByte (hinv.withAgenda rest) hd h hne
      · exact .inl ⟨.inr ⟨rest, rfl⟩, hc⟩
      · exact .inr (.inl ⟨c, rest, q, dev, x, v, hit, rfl, hc⟩)
      · exact .inr (.inr (.inl ⟨x, v, rest, rfl, hc⟩))
      · exact .inr (.inr (.inr (.inl ⟨p, c, rest, dev, x, v, hit, rfl, hph, hop, hc⟩)))
      · exact .inr (.inr (.inr (.inr ⟨c, rest, k, cells, rfl, hc⟩)))
  · obtain ⟨e, w, d, hf⟩ := powerLoss_frame c { s with agenda := rest }
    refine ⟨powerLoss c { s with agenda := rest }, step_cons ha, fun hw => ?_,
      fun k cells hw => powerLoss_cycle hw, ?_⟩
    · obtain ⟨he, hw'⟩ := powerLoss_idle (c := c) (s := { s with agenda := rest }) hw
      exact ⟨sameEeprom_of_eq he, hw'⟩
    · rw [hf]
      refine ⟨fun hb => ?_, fun q dev cmd hit hb => ?_, rfl, ⟨rfl, rfl, rfl, rfl⟩, ⟨rfl, rfl⟩,
        ⟨rfl, rfl, rfl⟩, rfl, fun _ => rfl, rfl, rfl⟩
      · exact congrArg (Option.map BusOp.powerLost) hb
      · exact congrArg (Option.map BusOp.powerLost) hb

end Sys2Proof.Machine
end

section
/-! SUPPORT. Runs: how they compose, what they keep, and a stretch of clock ticks. -/

namespace Sys2Proof.Machine

/-- A run in two parts. -/
theorem run_add (M : Host.Core) {j k : Nat} {s u : M.State} (h : M.run j s = .next u) :
    M.run (j + k) s = M.run k u := by
  induction j generalizing s with
  | zero => cases h; rw [Nat.zero_add]
  | succ j ih =>
    rw [Host.Core.run] at h
    split at h
    · rename_i v hs
      rw [Nat.succ_add, run_next M hs, ih h]
    · cases h
    · cases h

/-- k steps lead from s to t. -/
abbrev goesTo (k : Nat) (s t : State) : Prop := Host.Core.run core k s = .next t

theorem goesTo.step {k : Nat} {s u t : State} (h : step s = .next u) (h' : goesTo k u t) :
    goesTo (k + 1) s t := (run_next core h).trans h'

theorem goesTo.one {s t : State} (h : Machine.step s = .next t) : goesTo 1 s t := .step h rfl

theorem goesTo.trans {j k : Nat} {s u t : State} (h : goesTo j s u) (h' : goesTo k u t) :
    goesTo (j + k) s t := (run_add core h).trans h'

/-- Every run keeps the invariants. -/
theorem goesTo.inv {k : Nat} {s t : State} (h : goesTo k s t) (hinv : Inv s) : Inv t := by
  induction k generalizing s with
  | zero => cases h; exact hinv
  | succ k ih =>
    obtain ⟨u, hs, hu⟩ := step_inv hinv
    exact ih ((run_next core hs).symm.trans h) hu

/-- A step of a context in flight runs its latched command. -/
theorem step_latched {s : State} {p : Nat} {c : Choice} {rest : List Move} {i : Instr}
    (ha : s.agenda = .port p c :: rest) (hp : p < s.ports.length) (hi : (s.port p).ph ≠ .idle)
    (hd : (s.port p).d.instr? = some i) :
    step s = exec i { s with agenda := rest, sel := p, choice := c } :=
  (step_cons ha).trans (contextStep_run (fetch_latched hp hi hd))

/-! Ticks. -/

theorem tick_frame (s : State) : ∃ e w d,
    tick s = { s with eeprom := e, wc := w, draws := d, settleCnt := s.settleCnt - 1 } := by
  unfold tick tickDevice
  (repeat' split) <;> exact ⟨_, _, _, rfl⟩

/-- The clock touches the device and the settle count alone. -/
theorem ticks_frame (k : Nat) (s : State) : ∃ e w d n, n = s.settleCnt - k ∧
    ticks k s = { s with eeprom := e, wc := w, draws := d, settleCnt := n } := by
  induction k generalizing s with
  | zero => exact ⟨s.eeprom, s.wc, s.draws, _, rfl, rfl⟩
  | succ k ih =>
    obtain ⟨e, w, d, h⟩ := tick_frame s
    obtain ⟨e', w', d', n, hn, h'⟩ := ih (tick s)
    exact ⟨e', w', d', n, by rw [hn, tick_settleCnt]; omega, by rw [ticks, h', h]⟩

/-- The state with the moves l to come. -/
def State.toCome (l : List Move) (s : State) : State := { s with agenda := l }

/-- The clock does not read the agenda. -/
theorem tick_toCome (s : State) (l : List Move) : tick (s.toCome l) = (tick s).toCome l := by
  cases hw : s.wc with
  | idle => simp only [tick, tickDevice, State.toCome, hw]
  | busy t cells =>
    simp only [tick, tickDevice, State.toCome, hw]
    split <;> rfl

/-- A stretch of ticks on the agenda. -/
theorem goesTo.ticks {n : Nat} {s : State} {l : List Move}
    (h : s.agenda = List.replicate n .tick ++ l) : goesTo n s (Machine.ticks n (s.toCome l)) := by
  induction n generalizing s with
  | zero => cases h; rfl
  | succ n ih =>
    have run := ih (s := (tick s).toCome (List.replicate n .tick ++ l)) rfl
    rw [show ((tick s).toCome (List.replicate n .tick ++ l)).toCome l = tick (s.toCome l) from
      (tick_toCome s l).symm] at run
    refine .step ?_ run
    rw [← tick_toCome]
    exact step_cons h

end Sys2Proof.Machine
end

section
/-! SUPPORT. A READ or a WRITE that runs alone: its start, the turns of its loop, and its end. -/

namespace Sys2Proof.Machine

/-! What such a run keeps. -/

/-- What the steps of context p between its acceptance and its response leave alone. -/
structure Kept (p : Nat) (s t : State) : Prop where
  config    : sameConfig s t
  lifecycle : sameLifecycle s t
  others    : sameOthers p s t
  queues    : sameQueues p s t

theorem Kept.refl (p : Nat) (s : State) : Kept p s s :=
  ⟨⟨rfl, rfl, rfl, rfl⟩, ⟨rfl, rfl, rfl⟩, ⟨rfl, fun _ _ => rfl⟩, ⟨rfl, rfl⟩⟩

theorem Kept.trans {p : Nat} {s u t : State} (h : Kept p s u) (h' : Kept p u t) : Kept p s t := by
  obtain ⟨⟨c1, c2, c3, c4⟩, ⟨l1, l2, l3⟩, ⟨o1, o2⟩, ⟨q1, q2⟩⟩ := h
  obtain ⟨⟨c1', c2', c3', c4'⟩, ⟨l1', l2', l3'⟩, ⟨o1', o2'⟩, ⟨q1', q2'⟩⟩ := h'
  exact ⟨⟨c1'.trans c1, c2'.trans c2, c3'.trans c3, c4'.trans c4⟩,
    ⟨l1'.trans l1, l2'.trans l2, l3'.trans l3⟩, ⟨o1'.trans o1, fun q hq => (o2' q hq).trans (o2 q hq)⟩,
    ⟨q1'.trans q1, q2'.trans q2⟩⟩

/-- The n bytes that f holds from x on are those that g' holds from y on, and elsewhere g' is g. -/
abbrev copied (f g g' : Nat → Byte) (x y n : Nat) : Prop :=
  (∀ j, j < n → g' (y + j) = f (x + j)) ∧ ∀ a, (a < y ∨ y + n ≤ a) → g' a = g a

theorem copied.refl (f g : Nat → Byte) (x y : Nat) : copied f g g x y 0 :=
  ⟨fun _ h => absurd h (Nat.not_lt_zero _), fun _ _ => rfl⟩

/-- A copy in two parts, the source being the same for both. -/
theorem copied.append {f f' g g' g'' : Nat → Byte} {x y m n : Nat} (h : copied f g g' x y m)
    (h' : copied f' g' g'' (x + m) (y + m) n) (hf : ∀ a, f' a = f a) :
    copied f g g'' x y (m + n) := by
  refine ⟨fun j hj => ?_, fun a ha => by rw [h'.2 a (by omega), h.2 a (by omega)]⟩
  by_cases hm : j < m
  · rw [h'.2 _ (by omega), h.1 j hm]
  · have := h'.1 (j - m) (by omega)
    rwa [hf, show y + m + (j - m) = y + j by omega, show x + m + (j - m) = x + j by omega] at this

/-- Context p, which runs command i alone, is at the head of its loop (41_transfer.md R171, R181). -/
structure AtHead (p : Nat) (i : Instr) (s : State) : Prop where
  port    : p < s.ports.length
  owner   : s.ownedBy p = true
  instr   : (s.port p).d.instr? = some i
  unraced : (s.port p).raced = []
  inArray : (s.port p).cur + (s.port p).rem ≤ 65536
  inHost  : (s.port p).buf + (s.port p).rem ≤ 2 ^ s.params.hostAw
  noCycle : s.wc = .idle
  noBus   : s.bus = none
  settled : s.settleCnt = 0
  stable  : s.disturbed = false

/-- The context has gone from one head of its loop to the next, by a chunk of l bytes. -/
structure Turned (p : Nat) (i : Instr) (l : Nat) (s t : State) : Prop where
  head : AtHead p i t
  kept : Kept p s t
  cur  : (t.port p).cur = (s.port p).cur + l
  rem  : (t.port p).rem = (s.port p).rem - l
  buf  : (t.port p).buf = (s.port p).buf + l

/-- The cursor's step completes a turn, when the chunk's steps before it left the rest alone. -/
theorem Turned.of_advance {p : Nat} {i : Instr} {l : Nat} {ph : Phase} {s u : State} (h : AtHead p i s)
    (hl : l ≤ (s.port p).rem) (hport : u.port p = { s.port p with ph := ph, clen := l })
    (ho : sameOthers p s u) (hc : sameConfig s u) (hlk : sameLock s u) (hlc : sameLifecycle s u)
    (hw : u.wc = .idle) (hb : u.bus = none) (hs : u.settleCnt = 0) : Turned p i l s (advance p u) := by
  obtain ⟨hlen, hq⟩ := ho
  have hp : p < u.ports.length := hlen ▸ h.port
  have hself := advance_self hp
  rw [hport] at hself
  have hr := h.inArray
  have hb' := h.inHost
  refine ⟨⟨by simpa using hp, ?_, ?_, ?_, ?_, ?_, hw, hb, hs, hc.2.2.2.trans h.stable⟩,
    ⟨hc, hlc, ⟨by simpa using hlen, fun q hne => ?_⟩, ?_⟩, ?_, ?_, ?_⟩
  · have ho := h.owner
    rw [State.ownedBy] at ho ⊢
    rwa [advance_locked, advance_lockOwner, hlk.1, hlk.2]
  · rw [hself]; exact h.instr
  · rw [hself]; exact h.unraced
  · rw [hself]; dsimp only; omega
  · rw [hself, advance_params, hc.1]; dsimp only; omega
  · rw [advance_port, if_neg fun e => hne e.1, hq q hne]
  · rw [sameQueues, hself]; exact ⟨rfl, rfl⟩
  all_goals rw [hself]

/-- From the head s of a loop whose head is `next`, k steps after it lead to the end of the command, with
its last head at t. -/
abbrev loopsTo (next : State → Answer) (p k : Nat) (s t : State) : Prop :=
  ∃ v, next s = .next v ∧ goesTo k v (raise p .ok 0 t)

/-- A turn of m + 1 steps before a loop. -/
theorem loopsTo.turn {next : State → Answer} {p m k : Nat} {s v x u t : State} (h : next s = .next v)
    (hm : goesTo m v x) (hx : step x = next u) (ht : loopsTo next p k u t) :
    loopsTo next p (m + 1 + k) s t := by
  obtain ⟨y, hy, hk⟩ := ht
  exact ⟨v, h, (hm.trans (.one (hx.trans hy))).trans hk⟩

/-! The start. -/

/-- The encoding of a command decodes to it (30_encoding.md R110). -/
theorem decode_encode (i : Instr) : decode (encode i) = .command i := by
  cases i <;> simp [decode, encode]

/-- A READ or WRITE on an idle port is accepted (41_transfer.md R161). -/
theorem exec_idle_transfer {i : Instr} {s : State} (ht : (latchOf i).isTransfer = true)
    (hi : (s.port s.sel).ph = .idle) : exec i s = .next (acceptTransfer s.sel (latchOf i) s) := by
  cases i with
  | attach => cases ht
  | detach => cases ht
  | read o n b => rw [exec, execRead, hi]
  | write o n b => rw [exec, execWrite, hi]

/-- A transfer that passes the checks waits for the lock (41_transfer.md R161). -/
theorem acceptTransfer_waits {s : State} {p : Nat} {d : Latch} (ha : s.attachState = .attached)
    (hd : acceptedOk s.params d) :
    acceptTransfer p d s = (markRaces p (latch p d s)).setPhase p .waitLock := by
  obtain ⟨hpos, hr, hb⟩ := hd
  have hne : d.length ≠ 0 := fun e => by rw [e] at hpos; cases hpos
  have hst : acceptStatus s d = none := by
    rw [acceptStatus, if_neg (not_not.2 ha), if_neg hne, hr, hb]; rfl
  rw [acceptTransfer, hst]

/-- With every other context idle, the acceptance of a transfer marks no race. -/
theorem markRaces_alone {s : State} {p : Nat} (h : ∀ q < s.ports.length, q ≠ p → (s.port q).ph = .idle)
    (q : Nat) : (markRaces p s).port q =
      if q = p ∧ p < s.ports.length then { s.port p with raced := [] } else s.port q := by
  have hport {q : Nat} (hq : q < s.ports.length) : s.ports[q] = s.port q := by
    simp [State.port, List.getD, List.getElem?_eq_getElem hq]
  have hclash {q : Nat} (hq : q < s.ports.length) (hne : q ≠ p) :
      clashes (s.port p).d (s.port q) = false := by
    simp [clashes, h q hq hne]
  have hranges : clashRanges p s = [] := by
    refine List.flatten_eq_nil_iff.2 fun l hl => ?_
    obtain ⟨q, hq, rfl⟩ := List.mem_mapIdx.1 hl
    refine if_neg fun hc => ?_
    rw [hport hq, hclash hq hc.1] at hc
    cases hc.2
  by_cases hq : q < s.ports.length
  · have e : (markRaces p s).port q = if q = p then { s.port q with raced := clashRanges p s }
        else if clashes (s.port p).d (s.port q) then
          { s.port q with raced := (s.port q).raced ++ [(s.port p).d.buffer] }
        else s.port q := by
      simp [markRaces, State.port, List.getD, List.getElem?_eq_getElem hq]; rfl
    by_cases hqp : q = p
    · subst hqp; rw [e, if_pos rfl, if_pos ⟨rfl, hq⟩, hranges]
    · rw [e, if_neg hqp, hclash hq hqp, if_neg Bool.false_ne_true, if_neg fun hc => hqp hc.1]
  · rw [if_neg (by omega), port_of_ge _ (by simpa using hq), port_of_ge _ (by simpa using hq)]

/-- A step from s to t that touches port p, the lock and the agenda alone. -/
structure Start (p : Nat) (s t : State) : Prop where
  config    : sameConfig s t
  lifecycle : sameLifecycle s t
  others    : sameOthers p s t
  device    : t.eeprom = s.eeprom ∧ t.wc = s.wc ∧ t.bus = s.bus ∧ t.settleCnt = s.settleCnt
  record    : t.host = s.host ∧ t.log = s.log

theorem Start.trans {p : Nat} {s u t : State} (h : Start p s u) (h' : Start p u t) : Start p s t := by
  obtain ⟨⟨c1, c2, c3, c4⟩, ⟨l1, l2, l3⟩, ⟨o1, o2⟩, ⟨e, w, b, n⟩, ⟨m, g⟩⟩ := h
  obtain ⟨⟨c1', c2', c3', c4'⟩, ⟨l1', l2', l3'⟩, ⟨o1', o2'⟩, ⟨e', w', b', n'⟩, ⟨m', g'⟩⟩ := h'
  exact ⟨⟨c1'.trans c1, c2'.trans c2, c3'.trans c3, c4'.trans c4⟩,
    ⟨l1'.trans l1, l2'.trans l2, l3'.trans l3⟩, ⟨o1'.trans o1, fun q hq => (o2' q hq).trans (o2 q hq)⟩,
    ⟨e'.trans e, w'.trans w, b'.trans b, n'.trans n⟩, ⟨m'.trans m, g'.trans g⟩⟩

/-- A descriptor is presented on an empty queue. -/
theorem step_present {s : State} {p : Nat} {d : Desc} {rest : List Move} (hp : p < s.ports.length)
    (hr : (s.port p).reqs = []) (ha : s.agenda = .present p d :: rest) :
    ∃ t, step s = .next t ∧ Start p s t ∧ sameLock s t ∧ t.agenda = rest ∧
      t.port p = { s.port p with reqs := [d] } := by
  refine ⟨_, step_cons ha, ⟨⟨rfl, rfl, rfl, rfl⟩, ⟨rfl, rfl, rfl⟩, ⟨setPort_length .., fun q hq => ?_⟩,
    ⟨rfl, rfl, rfl, rfl⟩, ⟨rfl, rfl⟩⟩, ⟨rfl, rfl⟩, rfl, ?_⟩
  · exact port_setPort_ne _ _ hq
  · exact (port_setPort_self _ _ hp).trans
      (congrArg (fun l => ({ s.port p with reqs := l ++ [d] } : Port)) hr)

/-- A transfer alone that waits on its port is accepted, and marks no race. -/
theorem step_accept {s : State} {p : Nat} {i : Instr} {ch : Choice} {rest : List Move}
    (hp : p < s.ports.length) (hi : ∀ q < s.ports.length, (s.port q).ph = .idle)
    (hr : (s.port p).reqs = [encode i]) (hatt : s.attachState = .attached)
    (ht : (latchOf i).isTransfer = true) (hacc : acceptedOk s.params (latchOf i))
    (ha : s.agenda = .port p ch :: rest) :
    ∃ t, step s = .next t ∧ Start p s t ∧ sameLock s t ∧ t.agenda = rest ∧
      t.port p = { s.port p with ph := .waitLock, d := latchOf i, raced := [], reqs := [] } := by
  generalize hu : afterTaking p [] { s with agenda := rest, sel := p, choice := ch } = u
  have hself : u.port p = { s.port p with reqs := [] } := by rw [← hu]; exact port_setPort_self _ _ hp
  have hother : ∀ q, q ≠ p → u.port q = s.port q := fun q hq => by
    rw [← hu]; exact port_setPort_ne _ _ hq
  have hlen : u.ports.length = s.ports.length := by rw [← hu]; exact setPort_length ..
  have hsel : u.sel = p := by rw [← hu]; rfl
  have hrun : step s = exec i u :=
    (step_cons ha).trans ((contextStep_run (s := { s with agenda := rest }) (c := ch)
      (fetch_descriptor hp (hi p hp) hr (decode_encode i))).trans (congrArg (exec i) hu))
  have hwait : acceptTransfer p (latchOf i) u = (markRaces p (latch p (latchOf i) u)).setPhase p .waitLock :=
    acceptTransfer_waits (by rw [← hu]; exact hatt) (by rw [← hu]; exact hacc)
  have hmark : ∀ q, (markRaces p (latch p (latchOf i) u)).port q =
      if q = p then { s.port p with d := latchOf i, raced := [], reqs := [] } else s.port q := by
    intro q
    rw [markRaces_alone]
    · by_cases hq : q = p
      · rw [if_pos ⟨hq, by simpa [hlen] using hp⟩, if_pos hq, latch_self (hlen ▸ hp), hself]
      · rw [if_neg fun h => hq h.1, if_neg hq, latch_other hq, hother q hq]
    · intro q hq hne
      rw [latch_other hne, hother q hne]
      exact hi q (by simpa [hlen] using hq)
  refine ⟨_, hrun.trans (exec_idle_transfer ht (by rw [hsel, hself]; exact hi p hp)), ?_⟩
  rw [hsel, hwait]
  subst hu
  refine ⟨⟨⟨rfl, rfl, rfl, rfl⟩, ⟨rfl, rfl, rfl⟩, ⟨by simp, fun q hq => ?_⟩,
    ⟨rfl, rfl, rfl, rfl⟩, ⟨rfl, rfl⟩⟩, ⟨rfl, rfl⟩, rfl, ?_⟩
  · rw [setPhase_port, if_neg fun h => hq h.1, hmark, if_neg hq]
  · rw [setPhase_port, if_pos ⟨rfl, by simpa using hp⟩, hmark, if_pos rfl]

/-- A waiting context takes the free lock. -/
theorem step_takeLock {s : State} {p : Nat} {i : Instr} {ch : Choice} {rest : List Move}
    (hp : p < s.ports.length) (hi : (s.port p).ph = .waitLock) (hd : (s.port p).d.instr? = some i)
    (hl : s.locked = false) (ha : s.agenda = .port p ch :: rest) :
    ∃ t, step s = .next t ∧ Start p s t ∧ t.ownedBy p = true ∧ t.agenda = rest ∧
      t.port p = { s.port p with ph := .active } := by
  have hrun := step_latched ha hp (by rw [hi]; decide) hd
  rw [exec_waitLock hi, awaitLock, if_neg (by rw [hl]; decide)] at hrun
  refine ⟨_, hrun, ⟨⟨rfl, rfl, rfl, rfl⟩, ⟨rfl, rfl, rfl⟩, ⟨by simp, fun q hq => ?_⟩,
    ⟨rfl, rfl, rfl, rfl⟩, ⟨rfl, rfl⟩⟩, by simp [State.ownedBy], rfl, ?_⟩
  · rw [takeLock_port, if_neg fun h => hq h.1]; rfl
  · rw [takeLock_port, if_pos ⟨rfl, hp⟩]; rfl

/-- The first three steps of a transfer alone: presented, accepted, and given the lock. -/
theorem transfer_start {s : State} {p : Nat} {i : Instr} {ch : Choice} {rest : List Move} (hq : Quiet s)
    (hp : p < s.ports.length) (hatt : s.attachState = .attached)
    (hreqs : (s.port p).reqs = []) (ht : (latchOf i).isTransfer = true)
    (hacc : acceptedOk s.params (latchOf i))
    (ha : s.agenda = .present p (encode i) :: .port p ch :: .port p ch :: rest) :
    ∃ t, goesTo 3 s t ∧ Start p s t ∧ t.ownedBy p = true ∧ t.agenda = rest ∧
      t.port p = { s.port p with ph := .active, d := latchOf i, raced := [] } := by
  obtain ⟨u, hu, su, ⟨lu, -⟩, au, pu⟩ := step_present hp hreqs ha
  obtain ⟨cu, ⟨au', -, -⟩, ⟨nu, ou⟩, -, -⟩ := id su
  have hidle : ∀ q < u.ports.length, (u.port q).ph = .idle := fun q hq' => by
    by_cases e : q = p
    · rw [e, pu]; exact hq.idle p hp
    · rw [ou q e]; exact hq.idle q (nu ▸ hq')
  obtain ⟨v, hv, sv, ⟨lv, -⟩, av, pv⟩ := step_accept (nu.symm ▸ hp) hidle (by rw [pu])
    (au'.trans hatt) ht (cu.1 ▸ hacc) au
  obtain ⟨-, -, ⟨nv, -⟩, -, -⟩ := id sv
  obtain ⟨t, hstep, st, lt, at', pt⟩ := step_takeLock (i := i) (nv.symm ▸ nu.symm ▸ hp) (by rw [pv])
    (by rw [pv]; exact latchOf_instr i) ((lv.trans lu).trans hq.free) av
  refine ⟨t, .step hu (.step hv (.one hstep)), (su.trans sv).trans st, lt, at', ?_⟩
  rw [pt, pv, pu, ← hreqs]

end Sys2Proof.Machine
end

section
/-! SUPPORT. A READ or a WRITE that runs alone, turn by turn, and the round trip through the device. -/

namespace Sys2Proof.Machine

/-! The head of the first turn, and the end. -/

theorem exec_read_active {s : State} {o n b : Word} (hi : (s.port s.sel).ph = .active)
    (ha : s.attachState = .attached) :
    exec (.read o n b) s = readNext s.sel (initCursor s.sel s) := by
  rw [exec, execRead, hi]
  exact if_neg (not_not.2 ha)

theorem exec_write_active {s : State} {o n b : Word} (hi : (s.port s.sel).ph = .active)
    (ha : s.attachState = .attached) :
    exec (.write o n b) s = writeNext s.sel (initCursor s.sel s) := by
  rw [exec, execWrite, hi]
  exact if_neg (not_not.2 ha)

/-- The operands of a transfer in the array and in the host space are accepted (41_transfer.md R163,
R164). -/
theorem acceptedOk_of {P : Params} {d : Latch} (hn : 0 < d.length.toNat)
    (hr : d.offset.toNat + d.length.toNat ≤ 65536)
    (hb : d.bufaddr.toNat + d.length.toNat ≤ 2 ^ P.hostAw) : acceptedOk P d :=
  ⟨hn, decide_eq_true hr, decide_eq_true hb⟩

/-- A transfer alone reaches the head of its first turn. -/
theorem transfer_head {s : State} {p : Nat} {i : Instr} {ch : Choice} {rest : List Move} (hq : Quiet s)
    (hinv : Inv s) (hp : p < s.ports.length) (hatt : s.attachState = .attached)
    (hreqs : (s.port p).reqs = []) (ht : (latchOf i).isTransfer = true)
    (hacc : acceptedOk s.params (latchOf i))
    (ha : s.agenda = .present p (encode i) :: (List.replicate 3 (.port p ch) ++ rest)) :
    ∃ t x u, goesTo 3 s t ∧ step t = exec i x ∧ x.sel = p ∧ (x.port p).ph = .active ∧
      x.attachState = .attached ∧ u = initCursor p x ∧ AtHead p i u ∧ Kept p s u ∧ u.agenda = rest ∧
      (u.port p).cur = (latchOf i).offset.toNat ∧ (u.port p).rem = (latchOf i).length.toNat ∧
      (u.port p).buf = (latchOf i).bufaddr.toNat ∧ u.eeprom = s.eeprom ∧ u.host = s.host ∧
      u.log = s.log := by
  obtain ⟨t, hrun, ⟨tc, tl, ⟨hlen, hother⟩, ⟨te, tw, tb, tn⟩, ⟨th, tg⟩⟩, town, ta, tp⟩ :=
    transfer_start (rest := .port p ch :: rest) hq hp hatt hreqs ht hacc ha
  have hpt : p < t.ports.length := hlen ▸ hp
  have hstep := step_latched ta hpt (by simp [tp]) (by rw [tp]; exact latchOf_instr i)
  have hself : (initCursor p { t with agenda := rest, sel := p, choice := ch }).port p = { s.port p with
      ph := .active, d := latchOf i, raced := [], cur := (latchOf i).offset.toNat,
      rem := (latchOf i).length.toNat, buf := (latchOf i).bufaddr.toNat, k := 0 } :=
    (initCursor_self hpt).trans (by simp only [State.port] at tp ⊢; rw [tp])
  obtain ⟨-, hr, hb⟩ := hacc
  have hcnt : s.settleCnt = 0 := by
    by_contra hne
    exact absurd (hinv.settleOwner hne).1 (by rw [hq.free]; decide)
  refine ⟨t, _, _, hrun, hstep, rfl, congrArg Port.ph tp, tl.1.trans hatt, rfl,
    ⟨by simpa using hpt, town, ?_, ?_, ?_, ?_, tw.trans hq.cycle, tb.trans hq.noBus, tn.trans hcnt,
      tc.2.2.2.trans hq.stable⟩,
    ⟨tc, tl, ⟨by simpa using hlen, fun q hne => ?_⟩, ?_⟩, rfl, ?_, ?_, ?_, te, th, tg⟩
  · rw [hself]; exact latchOf_instr i
  · rw [hself]
  · rw [hself]; exact inRange_le hr
  · rw [hself, initCursor_params, tc.1]; exact inHost_le hb
  · rw [initCursor_port, if_neg fun h => hne h.1]; exact hother q hne
  · rw [sameQueues, hself]; exact ⟨rfl, rfl⟩
  all_goals rw [hself]

/-- The end of a transfer alone: its response, and the machine is quiet again. -/
theorem AtHead.ended {s t : State} {p : Nat} {i : Instr} (h : AtHead p i t) (hk : Kept p s t)
    (hq : Quiet s) : responds p 0x0 0 s (raise p .ok 0 t) ∧ Quiet (raise p .ok 0 t) ∧
      sameConfig s (raise p .ok 0 t) ∧ sameLifecycle s (raise p .ok 0 t) ∧
      sameOthers p s (raise p .ok 0 t) ∧ (raise p .ok 0 t).settleCnt = 0 := by
  obtain ⟨hc, hl, ⟨hlen, hother⟩, ⟨hreqs, hresps⟩⟩ := hk
  have hself := raise_self (st := .ok) (d := 0) h.port
  have hne : ∀ q, q ≠ p → (raise p .ok 0 t).port q = s.port q := fun q hq' =>
    (raise_other hq').trans (hother q hq')
  have hlen' : (raise p .ok 0 t).ports.length = s.ports.length := by simpa using hlen
  refine ⟨?_, ⟨fun q hlt => ?_, by simp [h.owner], by simpa using h.noBus, by simpa using h.noCycle,
    by simpa using h.stable⟩, by simpa [sameConfig] using hc, by simpa [sameLifecycle] using hl,
    ⟨hlen', hne⟩, by simpa using h.settled⟩
  · rw [responds, hself]
    exact ⟨rfl, hreqs, by rw [hresps]; rfl⟩
  · by_cases e : q = p
    · rw [e, hself]
    · rw [hne q e]; exact hq.idle q (hlen' ▸ hlt)

/-! READ. -/

theorem exec_read_bus {s : State} {o n b : Word} {q a l : Nat} {dev : BitVec 16} {hit : Bool}
    (hi : (s.port s.sel).ph = .bus) (hb : s.bus = some ⟨q, dev, .read a l, hit⟩) :
    exec (.read o n b) s = readAnswered s.sel hit a l s := by
  rw [exec, execRead, hi, hb]

theorem readDraw_clean {s : State} {n : Nat} (h : s.disturbed = false) : readDraw false n s = s := by
  rw [readDraw, h]; rfl

/-- The state in which the chunk's stored bytes are in the host memory and in the log (41_transfer.md
R171). -/
abbrev chunkRead (p a l : Nat) (s : State) : State :=
  (s.answered.addLog (.rd p a l (.ok (s.eepromBytes a l)))).fillHost
    (byteCells (s.port p).buf (s.eepromBytes a l))

/-- A chunk answered Ok, with the inputs stable, no cycle at the issue and no race. -/
theorem readAnswered_clean {s : State} {p a l : Nat} (hd : s.disturbed = false) (he : s.choice.err = 0)
    (hr : (s.port p).raced = []) (hf : (s.port p).buf + max l (s.port p).clen ≤ hostSize s.params) :
    readAnswered p false a l s = readNext p (advance p (chunkRead p a l s)) := by
  rw [readAnswered, if_neg (by simp [hostFits_true hf]), if_pos he, readArrived, readEffect_clean hd,
    readDraw_clean hd, readBytes_clean rfl hd, memWrite]
  rw [addLog_port, answered_port, hr, raceCells_nil]

/-- The bytes of a list, filled in from y on, are copied. -/
theorem copied_fillHost {s : State} {v : List Byte} {f : Nat → Byte} {x y : Nat}
    (hv : ∀ j (h : j < v.length), v[j] = f (x + j)) :
    copied f s.hostByte (s.fillHost (byteCells y v)).hostByte x y v.length := by
  refine ⟨fun j hj => ?_, fun a ha => hostByte_fillHost_ne (byteCells_ne ha)⟩
  rw [State.hostByte, fillHost_host, fill_byteCells_get? _ _ _ _ _ hj, ← hv j hj]; rfl

/-- One turn of READ's loop: the chunk is issued and answered. -/
theorem read_turn {p : Nat} {o n b : Word} {ch : Choice} {s : State} {rest : List Move} {l : Nat}
    (h : AtHead p (.read o n b) s) (hr : (s.port p).rem ≠ 0) (hch : ch.err = 0)
    (hl : l = chunkLen s.params.policy (s.port p).cur (s.port p).rem)
    (ha : s.agenda = .port p ch :: rest) :
    ∃ v t, readNext p s = .next v ∧ step v = readNext p t ∧ Turned p (.read o n b) l s t ∧
      t.agenda = rest ∧ sameEeprom s t ∧
      copied s.eepromByte s.hostByte t.hostByte (s.port p).cur (s.port p).buf l ∧
      t.log = s.log ++ [.rd p (s.port p).cur l (.ok (s.eepromBytes (s.port p).cur l))] := by
  obtain ⟨v, hv, vp, vo, vc, vlk, vlc, vs, ve, vh, vl, vw, -, va, vb⟩ := readNext_more h.port hr h.inArray
  have hle : l ≤ (s.port p).rem := hl ▸ chunkLen_le
  rw [← hl] at vp vb
  rw [h.noCycle] at vw vb
  have hpv : p < v.ports.length := vo.1 ▸ h.port
  have hstep := step_latched (va.trans ha) hpv (by simp [vp]) (by rw [vp]; exact h.instr)
  generalize hx : ({ v with agenda := rest, sel := p, choice := ch } : State) = x at hstep
  have xp : x.port p = { s.port p with ph := .bus, clen := l } := by rw [← hx]; exact vp
  have xe : x.eeprom = s.eeprom := by rw [← hx]; exact ve
  have xh : x.host = s.host := by rw [← hx]; exact vh
  have xc : sameConfig s x := by rw [← hx]; exact vc
  have hbytes : x.eepromBytes (s.port p).cur l = s.eepromBytes (s.port p).cur l :=
    eepromBytes_congr (sameEeprom_of_eq xe) _ _
  have hcopy := copied_fillHost (s := x) (y := (s.port p).buf) fun j hj =>
    getElem_eepromBytes s (s.port p).cur l j hj
  rw [length_eepromBytes] at hcopy
  have hfit : (x.port p).buf + max l (x.port p).clen ≤ hostSize x.params := by
    have := h.inHost
    rw [xp, xc.1, hostSize]; dsimp only; omega
  rw [exec_read_bus (hit := false) (by rw [← hx]; exact congrArg Port.ph vp) (by rw [← hx]; exact vb),
    show x.sel = p by rw [← hx], readAnswered_clean (xc.2.2.2.trans h.stable) (by rw [← hx]; exact hch)
      (by rw [xp]; exact h.unraced) hfit] at hstep
  refine ⟨v, _, hv, hstep, .of_advance (ph := .bus) h hle xp ?_ xc ?_ ?_ ?_ rfl ?_, ?_,
    sameEeprom_of_eq xe, ?_, ?_⟩
  · rw [← hx]; exact vo
  · rw [← hx]; exact vlk
  · rw [← hx]; exact vlc
  · rw [← hx]; exact vw
  · rw [← hx]; exact vs.trans h.settled
  · rw [← hx]; rfl
  · rw [chunkRead, hbytes, xp]
    exact ⟨hcopy.1, fun a ha => (hcopy.2 a ha).trans (sameHost_of_eq xh a)⟩
  · rw [chunkRead, hbytes, ← hx]; exact congrArg (· ++ _) vl

/-- READ's loop, from any of its heads on: the rest of the request is copied, chunk by chunk. -/
theorem read_loop {p : Nat} {o n b : Word} {ch : Choice} (hch : ch.err = 0) {s : State}
    (h : AtHead p (.read o n b) s)
    (ha : s.agenda = List.replicate (chunks s.params.policy (s.port p).cur (s.port p).rem).length
      (.port p ch)) :
    ∃ t, loopsTo (readNext p) p s.agenda.length s t ∧ AtHead p (.read o n b) t ∧ Kept p s t ∧
      sameEeprom s t ∧
      copied s.eepromByte s.hostByte t.hostByte (s.port p).cur (s.port p).buf (s.port p).rem ∧
      t.log = s.log ++ (chunks s.params.policy (s.port p).cur (s.port p).rem).map
        (fun c => .rd p c.1 c.2 (.ok (s.eepromBytes c.1 c.2))) := by
  induction hrem : (s.port p).rem using Nat.strong_induction_on generalizing s with
  | _ r ih =>
  subst hrem
  by_cases h0 : (s.port p).rem = 0
  · rw [h0, chunks_zero] at ha ⊢
    refine ⟨s, ⟨_, readNext_done h0, by rw [ha]; rfl⟩, h, .refl p s, fun _ => rfl, .refl _ _ _ _, ?_⟩
    simp
  · obtain ⟨l, hl⟩ : ∃ l, l = chunkLen s.params.policy (s.port p).cur (s.port p).rem := ⟨_, rfl⟩
    have hpos : 0 < l := hl ▸ chunkLen_pos (Nat.pos_of_ne_zero h0)
    have hle : l ≤ (s.port p).rem := hl ▸ chunkLen_le
    rw [chunks_cons (Nat.pos_of_ne_zero h0), ← hl] at ha ⊢
    obtain ⟨v, u, hv, hu, turn, ua, ue, uc, ul⟩ := read_turn h h0 hch hl ha
    have hpol : u.params = s.params := turn.kept.config.1
    obtain ⟨t, ht, th, tk, te, tc, tl⟩ := ih _ (by rw [turn.rem]; omega) turn.head
      (by rw [hpol, turn.cur, turn.rem]; exact ua) rfl
    rw [turn.cur, turn.buf, turn.rem] at tc
    rw [hpol, turn.cur, turn.rem] at tl
    refine ⟨t, ?_, th, turn.kept.trans tk, fun a => (te a).trans (ue a), ?_, ?_⟩
    · have hlen : s.agenda.length = 0 + 1 + u.agenda.length := by
        rw [ha, ua]; simp; omega
      rw [hlen]
      exact .turn hv rfl hu ht
    · have all := uc.append tc ue
      rwa [Nat.add_sub_cancel' hle] at all
    · rw [tl, ul, List.append_assoc]
      simp only [eepromBytes_congr ue]
      rfl

/-- A READ that runs alone from a quiet, attached machine, every operation answered Ok (41_transfer.md
R171, R172, R187). -/
theorem read_alone {s : State} {p : Nat} {o n b : Word} {ch : Choice} (hinv : Inv s) (hq : Quiet s)
    (hp : p < s.ports.length) (hatt : s.attachState = .attached) (hreqs : (s.port p).reqs = [])
    (hn : 0 < n.toNat) (hr : o.toNat + n.toNat ≤ 65536) (hb : b.toNat + n.toNat ≤ 2 ^ s.params.hostAw)
    (hch : ch.err = 0) (ha : s.agenda = readMoves p (encode (.read o n b)) ch
      (chunks s.params.policy o.toNat n.toNat).length) :
    ∃ t, Host.Core.run Sys2Proof.core s.agenda.length s = .next t ∧ responds p 0x0 0 s t ∧ Quiet t ∧
      (∀ j, j < n.toNat → t.hostByte (b.toNat + j) = s.eepromByte (o.toNat + j)) ∧
      (∀ a, (a < b.toNat ∨ b.toNat + n.toNat ≤ a) → t.hostByte a = s.hostByte a) ∧
      sameEeprom s t ∧ sameConfig s t ∧ sameLifecycle s t ∧ sameOthers p s t ∧ t.settleCnt = 0 ∧
      t.log = s.log ++ (chunks s.params.policy o.toNat n.toNat).map
        (fun c => .rd p c.1 c.2 (.ok (s.eepromBytes c.1 c.2))) := by
  rw [readMoves, List.replicate_add] at ha
  obtain ⟨w, x, u, hrun, hstep, hsel, hact, hatt', hu, uh, uk, ua, ucur, urem, ubuf, ue, uhost, ul⟩ :=
    transfer_head (ch := ch) (i := .read o n b)
      (rest := List.replicate (chunks s.params.policy o.toNat n.toNat).length (.port p ch)) hq hinv hp hatt
      hreqs rfl (acceptedOk_of hn hr hb) ha
  rw [exec_read_active (by rw [hsel]; exact hact) hatt', hsel, ← hu] at hstep
  have hpol : u.params = s.params := uk.config.1
  obtain ⟨t, ⟨y, hy, ht⟩, th, tk, te, tc, tl⟩ := read_loop hch uh (by rw [ua, hpol, ucur, urem]; rfl)
  have hE : ∀ a, u.eepromByte a = s.eepromByte a := sameEeprom_of_eq ue
  obtain ⟨hresp, hquiet, hconf, hlife, hoth, hcnt⟩ := th.ended (uk.trans tk) hq
  rw [ucur, ubuf, urem] at tc
  refine ⟨raise p .ok 0 t, ?_, hresp, hquiet, fun j hj => ?_, fun a ho => ?_, fun a => ?_, hconf, hlife,
    hoth, hcnt, ?_⟩
  · have hlen : s.agenda.length = 3 + 1 + u.agenda.length := by
      rw [ha, ua]; simp; omega
    rw [hlen]
    exact (hrun.trans (.one (hstep.trans hy))).trans ht
  · rw [sameHost_of_eq (s := t) (by simp), ← hE]; exact tc.1 j hj
  · rw [sameHost_of_eq (s := t) (by simp), ← sameHost_of_eq uhost]; exact tc.2 a ho
  · rw [sameEeprom_of_eq (s := t) (by simp), te, hE]
  · rw [hpol, ucur, urem, ul] at tl
    rw [raise_log, tl]
    simp only [eepromBytes_congr hE]
    rfl

end Sys2Proof.Machine
end

section
/-! SUPPORT. A WRITE that runs alone, turn by turn, and the round trip through the device. -/

namespace Sys2Proof.Machine

theorem exec_write_bus {s : State} {o n b : Word} {q a : Nat} {v : List Byte} {dev : BitVec 16}
    {hit : Bool} (hi : (s.port s.sel).ph = .bus) (hb : s.bus = some ⟨q, dev, .write a v, hit⟩) :
    exec (.write o n b) s = .next (writeAnswered s.sel hit a v s) := by
  rw [exec, execWrite, hi, hb]

theorem exec_write_settled {s : State} {o n b : Word} (hi : (s.port s.sel).ph = .settle)
    (hc : s.settleCnt = 0) : exec (.write o n b) s = writeNext s.sel (advance s.sel s) := by
  rw [exec, execWrite, hi]
  exact if_neg (not_not.2 hc)

/-- WRITE ends when no byte is left. -/
theorem writeNext_done {s : State} {p : Nat} (h : (s.port p).rem = 0) :
    writeNext p s = .next (raise p .ok 0 s) := if_pos h

/-- The state in which the chunk's write cycle and its settle have started (41_transfer.md R181). -/
abbrev chunkWriting (p a : Nat) (v : List Byte) (s : State) : State :=
  loadSettle p ((startCycle s.params.tWc (byteCells a v) s).answered.addLog (.wr p a v (.ok [])))

/-- A chunk inside one page answered Ok, with the inputs stable and no cycle at the issue. -/
theorem writeAnswered_clean {s : State} {p a : Nat} {v : List Byte} (hd : s.disturbed = false)
    (he : s.choice.err = 0) (hpage : a / 128 = (a + v.length - 1) / 128) :
    writeAnswered p false a v s = chunkWriting p a v s := by
  rw [writeAnswered, if_pos he, writeTaken, okWrite_inPage hd hpage, plainResult, if_pos he]

/-- The bytes of a list, filled in from y on, are copied. -/
theorem copied_fillEeprom {s : State} {v : List Byte} {f : Nat → Byte} {x y : Nat}
    (hv : ∀ j (h : j < v.length), v[j] = f (x + j)) :
    copied f s.eepromByte (s.fillEeprom (byteCells y v)).eepromByte x y v.length := by
  obtain ⟨hin, hout⟩ := eepromByte_filled (s := s) (u := s.fillEeprom (byteCells y v)) rfl
  exact ⟨fun j hj => (hin j hj).trans (hv j hj), hout⟩

/-- A settle alone that outlasts its write cycle: its ticks, and the step after it. -/
theorem settle_over {p : Nat} {o n b : Word} {ch : Choice} {s u : State} {rest : List Move} {t : Nat}
    {cells : List (Nat × Option Byte)} (hp : p < u.ports.length) (hi : (u.port p).ph = .settle)
    (hd : (u.port p).d.instr? = some (.write o n b)) (hw : u.wc = (startCycle t cells s).wc)
    (he : u.eeprom = (startCycle t cells s).eeprom) (hdr : u.draws = (startCycle t cells s).draws)
    (ht : t ≤ u.settleCnt)
    (ha : u.agenda = List.replicate u.settleCnt .tick ++ .port p ch :: rest) :
    ∃ z d, goesTo u.settleCnt u z ∧ step z = writeNext p (advance p { u with
      eeprom := (s.fillEeprom cells).eeprom, wc := .idle, draws := d, settleCnt := 0, agenda := rest,
      sel := p, choice := ch }) := by
  have hrun := goesTo.ticks ha
  obtain ⟨hidle, hfill⟩ :=
    (ticks_startCycle (u := u.toCome (.port p ch :: rest)) hw he hdr u.settleCnt).2 ht
  obtain ⟨e, w, d, k, hk, hz⟩ := ticks_frame u.settleCnt (u.toCome (.port p ch :: rest))
  rw [hz] at hrun hidle hfill
  obtain rfl : w = .idle := hidle
  obtain rfl : e = (s.fillEeprom cells).eeprom := hfill
  obtain rfl : k = 0 := hk.trans (Nat.sub_self _)
  have hne : (u.port p).ph ≠ .idle := by rw [hi]; decide
  refine ⟨_, d, hrun, ?_⟩
  refine Eq.trans (step_latched (p := p) (c := ch) (rest := rest) rfl hp hne hd) ?_
  exact exec_write_settled hi rfl

/-- One turn of WRITE's loop: the chunk is taken from the host memory, issued and answered, and its settle
runs out. -/
theorem write_turn {p : Nat} {o n b : Word} {ch : Choice} {s : State} {rest : List Move} {l N : Nat}
    (h : AtHead p (.write o n b) s) (hr : (s.port p).rem ≠ 0) (hch : ch.err = 0)
    (hl : l = chunkLen s.params.policy (s.port p).cur (s.port p).rem)
    (hpage : (s.port p).cur / 128 = ((s.port p).cur + l - 1) / 128)
    (hN : N = settleDraw s.params ch) (hlong : s.params.tWc ≤ N)
    (ha : s.agenda = writeChunkMoves p ch N ++ rest) :
    ∃ v z t, writeNext p s = .next v ∧ goesTo (N + 1) v z ∧ step z = writeNext p t ∧
      Turned p (.write o n b) l s t ∧ t.agenda = rest ∧ sameHost s t ∧
      copied s.hostByte s.eepromByte t.eepromByte (s.port p).buf (s.port p).cur l ∧
      t.log = s.log ++
        [.wr p (s.port p).cur (s.hostBytes (s.port p).buf l) (.ok []), .settle p N] := by
  obtain ⟨v, hv, vp, vo, vc, vlk, vlc, vs, ve, vh, vl, vw, va, vb⟩ :=
    writeNext_more h.port hr h.inArray h.inHost
  have hle : l ≤ (s.port p).rem := hl ▸ chunkLen_le
  rw [← hl] at vp vb
  rw [h.noCycle] at vw vb
  rw [memReadBytes_clean h.unraced] at vb
  generalize hbytes : s.hostBytes (s.port p).buf l = bytes at vb ⊢
  have hlen : bytes.length = l := by rw [← hbytes, length_hostBytes]
  have hpv : p < v.ports.length := vo.1 ▸ h.port
  have hstep := step_latched (va.trans ha) hpv (by simp [vp]) (by rw [vp]; exact h.instr)
  generalize hx : ({ v with
    agenda := List.replicate N .tick ++ [.port p ch] ++ rest, sel := p, choice := ch } : State) = x at hstep
  have hcopy := copied_fillEeprom (s := x) (y := (s.port p).cur) fun j hj =>
    getElem_hostBytes s (s.port p).buf l j hj
  rw [length_hostBytes, hbytes] at hcopy
  have xe : x.eeprom = s.eeprom := by rw [← hx]; exact ve
  have xp : x.port p = { s.port p with ph := .bus, clen := l } := by rw [← hx]; exact vp
  have xc : sameConfig s x := by rw [← hx]; exact vc
  rw [exec_write_bus (hit := false) (by rw [← hx]; exact congrArg Port.ph vp) (by rw [← hx]; exact vb),
    show x.sel = p by rw [← hx], writeAnswered_clean (xc.2.2.2.trans h.stable) (by rw [← hx]; exact hch)
      (by rw [hlen]; exact hpage)] at hstep
  generalize hy : chunkWriting p (s.port p).cur bytes x = y at hstep
  have ylen : y.ports.length = s.ports.length := by rw [← hy, ← hx]; simpa using vo.1
  have yport : ∀ q, y.port q =
      if q = p then { s.port p with ph := .settle, clen := l } else s.port q := fun q => by
    rw [← hy, loadSettle_port]
    by_cases hq : q = p
    · rw [if_pos ⟨hq, by rw [← hx]; simpa using hpv⟩, if_pos hq, addLog_port, answered_port,
        startCycle_port, xp]
    · rw [if_neg fun h => hq h.1, if_neg hq, addLog_port, answered_port, startCycle_port, ← hx]
      exact vo.2 q hq
  have yp := (yport p).trans (if_pos rfl)
  have ycnt : y.settleCnt = N := by rw [← hy, hN, ← hx]; simp [vc.1]
  obtain ⟨z, d, hgo, hz⟩ := settle_over (s := x) (u := y) (t := x.params.tWc)
    (cells := byteCells (s.port p).cur bytes) (ch := ch) (rest := rest) (ylen ▸ h.port) (by rw [yp])
    (by rw [yp]; exact h.instr) (by simp [← hy]) (by simp [← hy]) (by simp [← hy])
    (by rw [ycnt, xc.1]; exact hlong) (by rw [ycnt, ← hy, ← hx]; simp)
  rw [ycnt] at hgo
  refine ⟨v, z, _, hv, .step hstep hgo, hz, .of_advance (ph := .settle) h hle yp
    ⟨ylen, fun q hq => (yport q).trans (if_neg hq)⟩ ?_ ?_ ?_ rfl ?_ rfl, rfl, ?_, ?_, ?_⟩
  · have : sameConfig s y := by rw [← hy, ← hx]; simpa [sameConfig] using vc
    exact this
  · have : sameLock s y := by rw [← hy, ← hx]; simpa [sameLock] using vlk
    exact this
  · have : sameLifecycle s y := by rw [← hy, ← hx]; simpa [sameLifecycle] using vlc
    exact this
  · show y.bus = none
    rw [← hy]; rfl
  · refine sameHost_of_eq (?_ : y.host = s.host)
    rw [← hy, ← hx]; simpa using vh
  · exact ⟨hcopy.1, fun a ha => (hcopy.2 a ha).trans (sameEeprom_of_eq xe a)⟩
  · show y.log = _
    rw [← hy, ← hx]; simp [vl, hN, vc.1]

/-- WRITE's loop, from any of its heads on: the rest of the request is copied, chunk by chunk, each with
its settle. The buffer stands to bb as the cursor to oo. -/
theorem write_loop {p : Nat} {o n b : Word} {ch : Choice} {N oo bb : Nat} (hch : ch.err = 0) {s : State}
    (h : AtHead p (.write o n b) s) (hN : N = settleDraw s.params ch) (hlong : s.params.tWc ≤ N)
    (hoo : oo ≤ (s.port p).cur) (hbb : (s.port p).buf = bb + ((s.port p).cur - oo))
    (hpage : ∀ c ∈ chunks s.params.policy (s.port p).cur (s.port p).rem,
      c.1 / 128 = (c.1 + c.2 - 1) / 128)
    (ha : s.agenda = (List.replicate (chunks s.params.policy (s.port p).cur (s.port p).rem).length
      (writeChunkMoves p ch N)).flatten) :
    ∃ t, loopsTo (writeNext p) p s.agenda.length s t ∧ AtHead p (.write o n b) t ∧ Kept p s t ∧
      sameHost s t ∧
      copied s.hostByte s.eepromByte t.eepromByte (s.port p).buf (s.port p).cur (s.port p).rem ∧
      t.log = s.log ++ ((chunks s.params.policy (s.port p).cur (s.port p).rem).map
        (fun c => [.wr p c.1 (s.hostBytes (bb + (c.1 - oo)) c.2) (.ok []), .settle p N])).flatten := by
  induction hrem : (s.port p).rem using Nat.strong_induction_on generalizing s with
  | _ r ih =>
  subst hrem
  by_cases h0 : (s.port p).rem = 0
  · rw [h0, chunks_zero] at ha ⊢
    refine ⟨s, ⟨_, writeNext_done h0, by rw [ha]; rfl⟩, h, .refl p s, fun _ => rfl, .refl _ _ _ _, ?_⟩
    simp
  · obtain ⟨l, hl⟩ : ∃ l, l = chunkLen s.params.policy (s.port p).cur (s.port p).rem := ⟨_, rfl⟩
    have hpos : 0 < l := hl ▸ chunkLen_pos (Nat.pos_of_ne_zero h0)
    have hle : l ≤ (s.port p).rem := hl ▸ chunkLen_le
    rw [chunks_cons (Nat.pos_of_ne_zero h0), ← hl] at ha hpage ⊢
    rw [List.length_cons, List.replicate_succ, List.flatten_cons] at ha
    obtain ⟨hfirst, hmore⟩ := List.forall_mem_cons.1 hpage
    obtain ⟨v, z, u, hv, hz, hu, turn, ua, uh, uc, ul⟩ := write_turn h h0 hch hl hfirst hN hlong ha
    have hpol : u.params = s.params := turn.kept.config.1
    obtain ⟨t, ht, th, tk, te, tc, tl⟩ := ih _ (by rw [turn.rem]; omega) turn.head (by rw [hpol]; exact hN)
      (by rw [hpol]; exact hlong) (by rw [turn.cur]; omega) (by rw [turn.cur, turn.buf, hbb]; omega)
      (by rw [hpol, turn.cur, turn.rem]; exact hmore) (by rw [hpol, turn.cur, turn.rem]; exact ua) rfl
    rw [turn.cur, turn.buf, turn.rem] at tc
    rw [hpol, turn.cur, turn.rem] at tl
    refine ⟨t, ?_, th, turn.kept.trans tk, fun a => (te a).trans (uh a), ?_, ?_⟩
    · have hlen : s.agenda.length = N + 1 + 1 + u.agenda.length := by
        rw [ha, ← ua]; simp [writeChunkMoves]; omega
      rw [hlen]
      exact .turn hv hz hu ht
    · have all := uc.append tc uh
      rwa [Nat.add_sub_cancel' hle] at all
    · rw [tl, ul, List.append_assoc]
      simp only [hostBytes_congr uh, List.map_cons, List.flatten_cons, hbb]

/-- A WRITE that runs alone from a quiet, attached machine, every operation answered Ok and no chunk
crossing a page (41_transfer.md R181, R182, R187). -/
theorem write_alone {s : State} {p : Nat} {o n b : Word} {ch : Choice} (hinv : Inv s) (hq : Quiet s)
    (hp : p < s.ports.length) (hatt : s.attachState = .attached) (hreqs : (s.port p).reqs = [])
    (hn : 0 < n.toNat) (hr : o.toNat + n.toNat ≤ 65536) (hb : b.toNat + n.toNat ≤ 2 ^ s.params.hostAw)
    (hch : ch.err = 0)
    (hpage : ∀ c ∈ chunks s.params.policy o.toNat n.toNat, c.1 / 128 = (c.1 + c.2 - 1) / 128)
    (ha : s.agenda = writeMoves p (encode (.write o n b)) ch (settleDraw s.params ch)
      (chunks s.params.policy o.toNat n.toNat).length) :
    ∃ t, Host.Core.run Sys2Proof.core s.agenda.length s = .next t ∧ responds p 0x0 0 s t ∧ Quiet t ∧
      (∀ j, j < n.toNat → t.eepromByte (o.toNat + j) = s.hostByte (b.toNat + j)) ∧
      (∀ a, (a < o.toNat ∨ o.toNat + n.toNat ≤ a) → t.eepromByte a = s.eepromByte a) ∧
      sameHost s t ∧ sameConfig s t ∧ sameLifecycle s t ∧ sameOthers p s t ∧ t.settleCnt = 0 ∧
      t.log = s.log ++ ((chunks s.params.policy o.toNat n.toNat).map
        (fun c => [.wr p c.1 (s.hostBytes (b.toNat + (c.1 - o.toNat)) c.2) (.ok []),
          .settle p (settleDraw s.params ch)])).flatten := by
  obtain ⟨w, x, u, hrun, hstep, hsel, hact, hatt', hu, uh, uk, ua, ucur, urem, ubuf, ue, uhost, ul⟩ :=
    transfer_head (ch := ch) (i := .write o n b) hq hinv hp hatt hreqs rfl (acceptedOk_of hn hr hb) ha
  rw [exec_write_active (by rw [hsel]; exact hact) hatt', hsel, ← hu] at hstep
  have hpol : u.params = s.params := uk.config.1
  have hH : ∀ a, u.hostByte a = s.hostByte a := sameHost_of_eq uhost
  obtain ⟨-, -, -, -, hshort⟩ := hinv.params
  have hlong : s.params.tWc ≤ settleDraw s.params ch := hshort.trans (Nat.le_max_left _ _)
  obtain ⟨t, ⟨y, hy, ht⟩, th, tk, te, tc, tl⟩ := write_loop (oo := o.toNat) (bb := b.toNat) hch uh
    (by rw [hpol]) (by rw [hpol]; exact hlong) (by rw [ucur]; exact le_rfl)
    (by rw [ubuf, ucur]; show b.toNat = b.toNat + (o.toNat - o.toNat); omega)
    (by rw [hpol, ucur, urem]; exact hpage) (by rw [ua, hpol, ucur, urem]; rfl)
  obtain ⟨hresp, hquiet, hconf, hlife, hoth, hcnt⟩ := th.ended (uk.trans tk) hq
  rw [ucur, ubuf, urem] at tc
  refine ⟨raise p .ok 0 t, ?_, hresp, hquiet, fun j hj => ?_, fun a ho => ?_, fun a => ?_, hconf, hlife,
    hoth, hcnt, ?_⟩
  · have hlen : s.agenda.length = 3 + 1 + u.agenda.length := by
      rw [ha, ua]; simp [writeMoves]; omega
    rw [hlen]
    exact (hrun.trans (.one (hstep.trans hy))).trans ht
  · rw [sameEeprom_of_eq (s := t) (by simp), ← hH]; exact tc.1 j hj
  · rw [sameEeprom_of_eq (s := t) (by simp), ← sameEeprom_of_eq ue]; exact tc.2 a ho
  · rw [sameHost_of_eq (s := t) (by simp), te, hH]
  · rw [hpol, ucur, urem, ul] at tl
    rw [raise_log, tl]
    simp only [hostBytes_congr hH]
    rfl

/-! The round trip. -/

/-- Settles O28: the WRITE by `write_alone`; the state it leaves is quiet and meets the invariants, so the
READ of its range is one of `read_alone`. -/
theorem writtenBytesAreReadBack : Obligations.WrittenBytesAreReadBack := by
  intro s p q o n b b' ch hinv hquiet hp hq hatt hreqs hreqs' hn hr hb hb' hch hpage ha
  obtain ⟨t, hrun, hresp, tquiet, hstored, -, -, ⟨tpar, -⟩, ⟨tatt, -⟩, ⟨tlen, tother⟩, -⟩ :=
    write_alone hinv hquiet hp hatt hreqs hn hr hb hch hpage ha
  refine ⟨t, hrun, hresp, fun c hc => ?_⟩
  have treqs : (t.port q).reqs = [] := by
    by_cases e : q = p
    · rw [e, hresp.2.1, hreqs]
    · rw [tother q e, hreqs']
  obtain ⟨u, urun, uresp, -, uread, -⟩ := read_alone (b := b')
    (s := { t with agenda := readMoves q (encode (.read o n b')) {} c }) (ch := {})
    ((goesTo.inv hrun hinv).withAgenda _) ⟨tquiet.idle, tquiet.free, tquiet.noBus, tquiet.cycle, tquiet.stable⟩
    (tlen ▸ hq) (tatt.trans hatt) treqs hn hr (by rw [tpar]; exact hb') rfl (by rw [hc, tpar])
  have hlen : (readMoves q (encode (.read o n b')) {} c).length = 4 + c := by
    simp [readMoves]; omega
  exact ⟨u, hlen ▸ urun, uresp, fun j hj => (uread j hj).trans (hstored j hj)⟩

end Sys2Proof.Machine
end

section
/-! SUPPORT. The decoder by cases, once; the 128-bit number of a descriptor; and the two steps that take
a descriptor in. -/

namespace Sys2Proof.Machine

/-! The decoder. -/

/-- `W0[31:4]` is 0, as a number (30_encoding.md R101). -/
theorem rsvd_eq_zero_iff (w : Word) : w.extractLsb' 4 28 = 0 ↔ w.toNat / 16 = 0 := by
  have := w.isLt
  simp only [← BitVec.toNat_inj, BitVec.extractLsb'_toNat, Nat.shiftRight_eq_div_pow, BitVec.ofNat_eq_ofNat,
    BitVec.toNat_ofNat]
  omega

/-- OP, `W0[3:0]`, as a number (30_encoding.md R101). -/
theorem op_eq_iff (w : Word) (b : BitVec 4) : w.extractLsb' 0 4 = b ↔ w.toNat % 16 = b.toNat := by
  simp [← BitVec.toNat_inj, BitVec.extractLsb'_toNat]

/-- A word whose reserved bits are 0 is its opcode. -/
theorem word_eq_of_op {w : Word} {b : BitVec 4} (hr : w.toNat / 16 = 0) (h : w.toNat % 16 = b.toNat) :
    w = b.setWidth 32 := by
  rw [word_of_op w ((rsvd_eq_zero_iff w).2 hr), (op_eq_iff w b).2 h]

/-- What a descriptor decodes to, with the condition of each case (30_encoding.md R106, R110). -/
inductive Decodes (d : Desc) : Decoded → Prop
  | command {i} (h : d = encode i) : Decodes d (.command i)
  | reserved (h : d.w0.toNat / 16 ≠ 0) : Decodes d (.illegal .reserved)
  | operands (hop : d.w0.toNat % 16 = 1 ∨ d.w0.toNat % 16 = 2)
      (h : ¬(d.w1 = 0 ∧ d.w2 = 0 ∧ d.w3 = 0)) : Decodes d (.illegal .operands)
  | opcode (h : d.w0.toNat % 16 = 0 ∨ 5 ≤ d.w0.toNat % 16) : Decodes d (.illegal .opcode)

theorem decode_decodes (d : Desc) : Decodes d (decode d) := by
  obtain ⟨w0, w1, w2, w3⟩ := d
  simp only [decode, op_eq_iff, ne_eq, rsvd_eq_zero_iff]
  split_ifs with hr h1 h0 h2 h0 h3 h4
  · obtain ⟨rfl, rfl, rfl⟩ := h0
    obtain rfl := word_eq_of_op hr h1
    exact .command rfl
  · exact .operands (.inl h1) h0
  · obtain ⟨rfl, rfl, rfl⟩ := h0
    obtain rfl := word_eq_of_op hr h2
    exact .command rfl
  · exact .operands (.inr h2) h0
  · obtain rfl := word_eq_of_op hr h3
    exact .command rfl
  · obtain rfl := word_eq_of_op hr h4
    exact .command rfl
  · simp only [BitVec.toNat_ofNat] at h1 h2 h3 h4
    exact .opcode (by dsimp only; omega)
  · exact .reserved hr

/-- Settles O2: an encoding decodes to its command, and only in the case of an encoding is there one. -/
theorem decodeAndEncodeAreInverse : Obligations.DecodeAndEncodeAreInverse := by
  refine fun d i => ⟨fun h => ?_, fun h => h ▸ decode_encode i⟩
  have hd := decode_decodes d
  rw [h] at hd
  cases hd with
  | command he => exact he

/-- Settles O4: an illegal descriptor is in a case of the decoder that is no command, and no encoding is
in one of the three. -/
theorem illegalDescriptorsAreTheThreeCases : Obligations.IllegalDescriptorsAreTheThreeCases := by
  intro d
  have hd := decode_decodes d
  generalize decode d = r at hd
  cases hd with
  | reserved h => exact ⟨fun _ => .inr (.inl h), fun _ => ⟨_, rfl⟩⟩
  | operands hop h =>
    have h : d.w1 ≠ 0 ∨ d.w2 ≠ 0 ∨ d.w3 ≠ 0 := by simpa only [not_and_or] using h
    exact ⟨fun _ => .inr (.inr ⟨hop, h⟩), fun _ => ⟨_, rfl⟩⟩
  | opcode h => exact ⟨fun _ => .inl h, fun _ => ⟨_, rfl⟩⟩
  | @command i h =>
    subst h
    cases i <;> simp [encode]

/-- Settles O1: nine evaluations of the decoder. -/
theorem decoderReadsTheWrittenWords : Obligations.DecoderReadsTheWrittenWords := by
  unfold Obligations.DecoderReadsTheWrittenWords
  decide

/-! The 128-bit number of a descriptor. -/

theorem desc_toNat_lt (d : Desc) : d.toNat < 2 ^ 128 := by
  have h0 := d.w0.isLt
  have h1 := d.w1.isLt
  have h2 := d.w2.isLt
  have h3 := d.w3.isLt
  unfold Desc.toNat
  omega

theorem desc_ofNat_toNat (d : Desc) : Desc.ofNat d.toNat = d := by
  obtain ⟨w0, w1, w2, w3⟩ := d
  have h0 := w0.isLt
  have h1 := w1.isLt
  have h2 := w2.isLt
  simp only [Desc.ofNat, Desc.toNat, Desc.mk.injEq, ← BitVec.toNat_inj, BitVec.toNat_ofNat]
  omega

/-- The decoder of table words, as `decode` of the descriptor the word splits into. -/
theorem decodeTableWord_eq_some {nbits w : Nat} {i : Instr} :
    decodeTableWord nbits w = some i ↔ decode (Desc.ofNat (w % 2 ^ nbits)) = .command i := by
  unfold decodeTableWord
  cases decode (Desc.ofNat (w % 2 ^ nbits)) <;> simp [Decoded.instr?]

/-- Settles O3: the number fits 128 bits and splits into its descriptor. -/
theorem tableWordRoundTrip : Obligations.TableWordRoundTrip := by
  refine fun i => ⟨decodeTableWord_eq_some.2 ?_, desc_ofNat_toNat _⟩
  rw [Nat.mod_eq_of_lt (desc_toNat_lt _), desc_ofNat_toNat, decode_encode]

/-! Descriptors taken and presented. -/

/-- An idle port answers an illegal descriptor (30_encoding.md R106). -/
theorem fetch_illegal {s : State} {p : Nat} {d : Desc} {ds : List Desc} {why : Illegal}
    (hp : p < s.ports.length) (hi : (s.port p).ph = .idle) (hr : (s.port p).reqs = d :: ds)
    (hd : decode d = .illegal why) :
    fetch p s = .done (raise p .illegalCommand 0 (afterTaking p ds s)) := by
  rw [fetch_idle hp hi, takeDescriptor, hr]
  dsimp only
  rw [hd]

/-- With no lock to release, `raise` is one write of its port (60_exceptions.md R216). -/
theorem raise_unowned {s : State} {p : Nat} (h : s.ownedBy p = false) (st : Status) (detail : Word) :
    raise p st detail s = s.setPort p
      { s.port p with ph := .idle, resps := (s.port p).resps ++ [respOf st detail], raced := [] } := by
  rw [raise, release, h]; rfl

/-- A write of one port leaves everything else alone. -/
theorem setPort_leaves (p : Nat) (c : Port) (s : State) :
    sameOthers p s (s.setPort p c) ∧ sameConfig s (s.setPort p c) ∧ sameLock s (s.setPort p c) ∧
    sameLifecycle s (s.setPort p c) ∧ (s.setPort p c).settleCnt = s.settleCnt ∧
    sameEeprom s (s.setPort p c) ∧ (s.setPort p c).wc = s.wc ∧ sameHost s (s.setPort p c) ∧
    (s.setPort p c).bus = s.bus ∧ (s.setPort p c).log = s.log :=
  ⟨⟨setPort_length .., fun _ hq => port_setPort_ne _ _ hq⟩, ⟨rfl, rfl, rfl, rfl⟩, ⟨rfl, rfl⟩,
    ⟨rfl, rfl, rfl⟩, rfl, fun _ => rfl, rfl, fun _ => rfl, rfl, rfl⟩

/-- A step that takes an illegal descriptor is one write of its port (30_encoding.md R106). -/
theorem contextStep_illegal {s : State} {p : Nat} {d : Desc} {ds : List Desc} {why : Illegal} (c : Choice)
    (hp : p < s.ports.length) (hi : (s.port p).ph = .idle) (hl : s.ownedBy p = false)
    (hr : (s.port p).reqs = d :: ds) (hd : decode d = .illegal why) :
    contextStep p c s = .next (({ s with sel := p, choice := c } : State).setPort p
      { s.port p with
        ph := .idle, reqs := ds, resps := (s.port p).resps ++ [respOf .illegalCommand 0], raced := [] }) := by
  rw [contextStep, fetch_illegal (s := { s with sel := p, choice := c }) hp hi hr hd,
    raise_unowned (by exact hl), port_setPort_self _ _ (by exact hp), setPort_setPort]
  rfl

/-- Settles O7: the step by `contextStep_illegal`, which writes the port and nothing else. -/
theorem illegalDescriptorIsAnsweredAtAcceptance : Obligations.IllegalDescriptorIsAnsweredAtAcceptance := by
  intro s p c rest d ds ha hp hi hl hr hbad
  obtain ⟨why, hd⟩ := (illegalDescriptorsAreTheThreeCases d).2 hbad
  refine ⟨_, (step_cons ha).trans (contextStep_illegal c hp hi hl hr hd), ?_⟩
  rw [sameOperands, port_setPort_self _ _ (by exact hp)]
  exact ⟨rfl, rfl, rfl, ⟨rfl, rfl, rfl, rfl, rfl, rfl⟩, setPort_leaves p _ _⟩

/-- Settles O6: the placed descriptor is the first of an idle port 0, so the fetch takes it. -/
theorem stepRunsThePlacedWord : Obligations.StepRunsThePlacedWord := by
  intro s w i hp hw
  have hport : (s.withFetchWord 128 w).port 0 = { s.port 0 with
      ph := .idle, reqs := Desc.ofNat (w % 2 ^ 128) :: (s.port 0).reqs } := port_setPort_self s _ hp
  have hrun := (stepRunsTheDecodedCommand (s.withFetchWord 128 w) 0 {} s.agenda rfl
    (by simpa [State.withFetchWord] using hp)).1 _ _ i (by rw [hport]) (by rw [hport])
    (decodeTableWord_eq_some.1 hw)
  rw [hrun, hport]
  simp [State.setPort, State.withFetchWord]

/-- Settles O8: the presentation writes the queue of its port and nothing else. -/
theorem presentedDescriptorsWait : Obligations.PresentedDescriptorsWait := by
  intro s p cmd rest ha hp
  refine ⟨_, step_cons ha, ?_, setPort_leaves p _ _⟩
  cases cmd <;> exact port_setPort_self _ _ hp

end Sys2Proof.Machine
end

section
/-! SUPPORT. ATTACH and DETACH step by step: what each step does, and what all of them leave alone. -/

namespace Sys2Proof.Machine

/-! Acceptance. -/

/-- The acceptance of ATTACH and DETACH is one write of its port (40_attach.md R132, R142). -/
theorem acceptLifecycle_eq {s : State} {p : Nat} (hp : p < s.ports.length) (d : Latch) :
    acceptLifecycle p d s = s.setPort p { s.port p with ph := .waitLock, d := d } := by
  rw [acceptLifecycle, State.setPhase, latch_self hp, latch, setPort_setPort]

/-- ATTACH and DETACH on an idle port are accepted. -/
theorem exec_idle_lifecycle {i : Instr} {s : State} (hi : i = .attach ∨ i = .detach)
    (hp : s.sel < s.ports.length) (h : (s.port s.sel).ph = .idle) : exec i s =
      .next (s.setPort s.sel { s.port s.sel with ph := .waitLock, d := latchOf i }) := by
  rw [← acceptLifecycle_eq hp]
  obtain rfl | rfl := hi
  · rw [exec, execAttach, h]
  · rw [exec, execDetach, h]

/-- Settles O9: acceptance writes the port and nothing else. -/
theorem lifecycleCommandsAreAccepted : Obligations.LifecycleCommandsAreAccepted := by
  intro s i hi hp h
  refine ⟨_, exec_idle_lifecycle hi hp h, ?_, setPort_leaves s.sel _ s⟩
  rw [port_setPort_self _ _ hp]
  obtain rfl | rfl := hi <;> rfl

/-! The end of a command, from a state that has not touched the ports. -/

section
variable {p : Nat} {s u : State} {st : Status} {e : Word}

theorem raise_responds (hp : p < s.ports.length) (h : u.ports = s.ports) :
    responds p (st.code.setWidth 32) e s (raise p st e u) := by
  rw [responds, raise_self (h ▸ hp), port_congr h]
  exact ⟨rfl, rfl, rfl⟩

/-- The lock owner's `raise` frees the lock (60_exceptions.md R216). -/
theorem raise_lockFree (h : u.ownedBy p = true) : lockFree (raise p st e u) := ⟨by simp [h], by simp [h]⟩

/-- The `raise` of another context keeps the lock. -/
theorem raise_sameLock (h : u.ownedBy p = false) : sameLock u (raise p st e u) := by simp [sameLock, h]

end

/-! What the steps after acceptance leave alone. -/

/-- What every step of an ATTACH or DETACH in flight on port p leaves alone. -/
structure Aside (p : Nat) (s t : State) : Prop where
  operands : sameOperands p s t
  others   : sameOthers p s t
  config   : sameConfig s t
  memories : t.eeprom = s.eeprom ∧ t.host = s.host
  settle   : t.settleCnt = s.settleCnt

/-- Such a step, which does not touch the agenda either. -/
structure LifecycleStep (p : Nat) (s t : State) : Prop extends Aside p s t where
  agenda : t.agenda = s.agenda

/-- A step that writes the phase, the responses and the race marks of port p, and no other port. -/
theorem LifecycleStep.of_ports {p : Nat} {s t : State} {ph : Phase} {rs : List Resp}
    {rc : List (Nat × Nat)} (hp : p < s.ports.length)
    (h : t.ports = s.ports.set p { s.port p with ph := ph, resps := rs, raced := rc })
    (hr : sameConfig s t ∧ (t.eeprom = s.eeprom ∧ t.host = s.host) ∧ t.settleCnt = s.settleCnt ∧
      t.agenda = s.agenda) : LifecycleStep p s t := by
  obtain ⟨hc, hm, hs, ha⟩ := hr
  have hport (q : Nat) : t.port q = (s.setPort p _).port q := port_congr h q
  refine ⟨⟨?_, ⟨by simp [h], fun q hq => by rw [hport, port_setPort_ne _ _ hq]⟩, hc, hm, hs⟩, ha⟩
  rw [sameOperands, hport, port_setPort_self _ _ hp]
  exact ⟨rfl, rfl, rfl, rfl, rfl, rfl⟩

section
variable {p : Nat} {s : State}

/-- The end of a command, from a state that has not touched the ports. -/
theorem LifecycleStep.raise {u : State} {st : Status} {e : Word} (hp : p < s.ports.length)
    (hu : u.ports = s.ports) (hr : sameConfig s u ∧ (u.eeprom = s.eeprom ∧ u.host = s.host) ∧
      u.settleCnt = s.settleCnt ∧ u.agenda = s.agenda) : LifecycleStep p s (raise p st e u) :=
  .of_ports hp (by rw [raise_ports, port_congr hu, hu]) (by simpa [sameConfig] using hr)

theorem awaitLock_step {t : State} (hp : p < s.ports.length) (h : awaitLock p s = .next t) :
    LifecycleStep p s t := by
  unfold awaitLock at h
  split at h <;> cases h
  · exact ⟨⟨⟨rfl, rfl, rfl, rfl, rfl, rfl⟩, ⟨rfl, fun _ _ => rfl⟩, ⟨rfl, rfl, rfl, rfl⟩, ⟨rfl, rfl⟩, rfl⟩,
      rfl⟩
  · exact .of_ports hp (takeLock_ports s p) (by simp [sameConfig])

theorem attachChecks_step (hp : p < s.ports.length) : LifecycleStep p s (attachChecks p s) := by
  unfold attachChecks
  split_ifs
  · exact .raise hp rfl (by simp [sameConfig])
  · exact .raise hp rfl (by simp [sameConfig])
  · exact .of_ports hp rfl ⟨⟨rfl, rfl, rfl, rfl⟩, ⟨rfl, rfl⟩, rfl, rfl⟩

theorem attachProbed_step (hp : p < s.ports.length) (n : Nat) :
    LifecycleStep p s (attachProbed p n s) := by
  unfold attachProbed
  split_ifs
  · exact .of_ports hp rfl (by simp [sameConfig])
  · exact .raise hp rfl (by simp [sameConfig])

theorem attachRegistered_step (hp : p < s.ports.length) : LifecycleStep p s (attachRegistered p s) := by
  unfold attachRegistered
  split_ifs <;> exact .raise hp rfl (by simp [sameConfig])

theorem detachBegin_step (hp : p < s.ports.length) : LifecycleStep p s (detachBegin p s) := by
  unfold detachBegin
  split_ifs
  · exact .raise hp rfl (by simp [sameConfig])
  · exact .of_ports hp rfl (by simp [sameConfig])

theorem detachUnregistered_step (hp : p < s.ports.length) :
    LifecycleStep p s (detachUnregistered p s) := .raise hp rfl (by simp [sameConfig])

end

/-! The commands, by their phase. -/

section
variable {s : State}

theorem exec_attach_active (h : (s.port s.sel).ph = .active) :
    exec .attach s = .next (attachChecks s.sel s) := by
  rw [exec, execAttach, h]

theorem exec_attach_bus {q n : Nat} {dev : BitVec 16} {hit : Bool} (h : (s.port s.sel).ph = .bus)
    (hb : s.bus = some ⟨q, dev, .recv n, hit⟩) : exec .attach s = .next (attachProbed s.sel n s) := by
  rw [exec, execAttach, h, hb]

theorem exec_attach_collab (h : (s.port s.sel).ph = .collab) :
    exec .attach s = .next (attachRegistered s.sel s) := by
  rw [exec, execAttach, h]

theorem exec_detach_active (h : (s.port s.sel).ph = .active) :
    exec .detach s = .next (detachBegin s.sel s) := by
  rw [exec, execDetach, h]

theorem exec_detach_collab (h : (s.port s.sel).ph = .collab) :
    exec .detach s = .next (detachUnregistered s.sel s) := by
  rw [exec, execDetach, h]

end

/-- What a step of ATTACH or DETACH in flight leaves alone. -/
theorem exec_lifecycle_step {i : Instr} {s t : State} (hl : i = .attach ∨ i = .detach)
    (hp : s.sel < s.ports.length) (hi : (s.port s.sel).ph ≠ .idle) (h : exec i s = .next t) :
    LifecycleStep s.sel s t := by
  obtain rfl | rfl := hl
  · rw [exec, execAttach] at h
    split at h
    case h_1 hph => exact absurd hph hi
    case h_2 => exact awaitLock_step hp h
    case h_3 => cases h; exact attachChecks_step hp
    case h_4 => split at h <;> cases h; exact attachProbed_step hp _
    case h_5 => cases h; exact attachRegistered_step hp
    case h_6 => cases h
  · rw [exec, execDetach] at h
    split at h
    case h_1 hph => exact absurd hph hi
    case h_2 => exact awaitLock_step hp h
    case h_3 => cases h; exact detachBegin_step hp
    case h_4 => cases h; exact detachUnregistered_step hp
    case h_5 => cases h
    case h_6 => cases h

/-! ATTACH. -/

/-- Settles O13: the three outcomes of `attachChecks`. -/
theorem attachChecksThenProbes : Obligations.AttachChecksThenProbes := by
  intro s hp hph hown
  obtain ⟨⟨hops, hoth, hcfg, ⟨he, hh⟩, hset⟩, -⟩ := attachChecks_step hp
  refine ⟨_, exec_attach_active hph, fun h => ?_, fun h hf => ?_, fun h hf => ?_, hops, hoth, hcfg, ?_,
    hset, sameEeprom_of_eq he, sameHost_of_eq hh, (attachChecks_record s.sel s).1⟩
  · rw [attachChecks, if_pos h]
    exact ⟨raise_responds hp rfl, raise_lockFree hown, raise_bus .., raise_wc ..⟩
  · rw [attachChecks, if_neg (not_not.2 h), if_pos hf]
    exact ⟨raise_responds hp rfl, raise_lockFree hown, raise_bus .., raise_wc ..⟩
  · rw [attachChecks, if_neg (not_not.2 h), if_neg (by simp [hf]), sameQueues, issue_port, if_pos ⟨rfl, hp⟩,
      ← isBusy_eq]
    exact ⟨rfl, ⟨rfl, rfl⟩, ⟨rfl, rfl⟩, rfl, rfl⟩
  · unfold attachChecks
    split_ifs <;> simp [sameLifecycle]

/-- The probe's answer ends its operation and frees the lock, whatever it is (40_attach.md R134, R136). -/
theorem attachProbed_frees {s : State} {p : Nat} (h : s.ownedBy p = true) (n : Nat) :
    (attachProbed p n s).bus = none ∧ lockFree (attachProbed p n s) ∧
      (attachProbed p n s).registered = s.registered ∧ (attachProbed p n s).wc = s.wc := by
  unfold attachProbed
  split_ifs
  · exact ⟨rfl, ⟨rfl, rfl⟩, rfl, rfl⟩
  · exact ⟨raise_bus .., raise_lockFree h, raise_registered .., raise_wc ..⟩

/-- With no byte or an error the device does not respond (40_attach.md R134). -/
theorem attachProbed_fails {s : State} {p : Nat} (hp : p < s.ports.length)
    (h : ¬(s.choice.err = 0 ∧ s.choice.probe.isSome)) (n : Nat) :
    responds p 0x2 0 s (attachProbed p n s) ∧ (attachProbed p n s).attachState = s.attachState ∧
      (attachProbed p n s).rmValid = s.rmValid := by
  rw [attachProbed, if_neg h]
  exact ⟨raise_responds hp rfl, raise_attachState .., raise_rmValid ..⟩

/-- Settles O14: the log has the answer, and the rest is by whether it is one byte. -/
theorem attachNeedsOneProbeByte : Obligations.AttachNeedsOneProbeByte := by
  intro s q dev hit hp hph hown hb
  obtain ⟨⟨hops, hoth, hcfg, ⟨he, hh⟩, hset⟩, -⟩ := attachProbed_step hp 1
  obtain ⟨hbus, hfree, hreg, hwc⟩ := attachProbed_frees hown 1
  obtain ⟨hlog, -⟩ := attachProbed_record s.sel 1 s
  refine ⟨_, exec_attach_bus hph hb, hbus, hfree, fun v h0 hv => ?_, fun h0 hv => ?_, fun h0 => ?_, hreg,
    hops, hoth, hcfg, hset, sameEeprom_of_eq he, hwc, sameHost_of_eq hh⟩
  · rw [recvResult, if_pos h0, hv] at hlog
    refine ⟨?_, ?_, ?_, ?_, hlog⟩ <;> rw [attachProbed, if_pos ⟨h0, by rw [hv]; rfl⟩]
    · rfl
    · rfl
    · rw [setPhase_port, if_pos ⟨rfl, hp⟩]
    · rw [sameQueues, setPhase_port, if_pos ⟨rfl, hp⟩]
      exact ⟨rfl, rfl⟩
  · rw [recvResult, if_pos h0, hv] at hlog
    obtain ⟨hresp, hatt, hrm⟩ := attachProbed_fails hp (by simp [hv]) 1
    exact ⟨hresp, hatt, hrm, hlog⟩
  · rw [recvResult, if_neg h0] at hlog
    obtain ⟨hresp, hatt, hrm⟩ := attachProbed_fails hp (fun h => h0 h.1) 1
    exact ⟨hresp, hatt, hrm, hlog⟩

/-- The registration's answer touches neither a lock that its context does not hold, nor the device. -/
theorem attachRegistered_keeps {s : State} {p : Nat} (h : s.ownedBy p = false) :
    sameLock s (attachRegistered p s) ∧ (attachRegistered p s).wc = s.wc ∧
      (attachRegistered p s).bus = s.bus := by
  unfold attachRegistered
  split_ifs
  · exact ⟨raise_sameLock h, raise_wc .., raise_bus ..⟩
  · exact ⟨raise_sameLock h, raise_wc .., raise_bus ..⟩

/-- Settles O15: by the collaborator's answer. -/
theorem attachCompletesOnRegistration : Obligations.AttachCompletesOnRegistration := by
  intro s hp hph hown
  obtain ⟨⟨hops, hoth, hcfg, ⟨he, hh⟩, hset⟩, -⟩ := attachRegistered_step hp
  obtain ⟨hlock, hwc, hbus⟩ := attachRegistered_keeps hown
  obtain ⟨hlog, -⟩ := attachRegistered_record s.sel s
  refine ⟨_, exec_attach_collab hph, fun h0 => ?_, fun h0 => ?_, hops, hoth, hcfg, hlock, hset,
    sameEeprom_of_eq he, hwc, sameHost_of_eq hh, hbus⟩
  · rw [plainResult, if_pos h0] at hlog
    refine ⟨?_, ?_, ?_, ?_, hlog⟩ <;> rw [attachRegistered, if_pos h0]
    · exact raise_responds hp rfl
    all_goals simp
  · rw [plainResult, if_neg h0] at hlog
    refine ⟨?_, ?_, ?_, ?_, hlog⟩ <;> rw [attachRegistered, if_neg h0]
    · exact raise_responds hp rfl
    all_goals simp

/-! DETACH. -/

/-- Settles O16: an end of the command, or the wait for the collaborator. -/
theorem detachBeginsUnderTheLock : Obligations.DetachBeginsUnderTheLock := by
  intro s hp hph hown
  obtain ⟨⟨hops, hoth, hcfg, ⟨he, hh⟩, hset⟩, -⟩ := detachBegin_step hp
  refine ⟨_, exec_detach_active hph, ?_, fun h => ?_, fun h => ?_, ?_, ?_, hops, hoth, hcfg, hset,
    sameEeprom_of_eq he, ?_, sameHost_of_eq hh, ?_, (detachBegin_record s.sel s).1⟩
  · unfold detachBegin
    split_ifs
    · exact raise_lockFree hown
    · exact ⟨rfl, rfl⟩
  · rw [detachBegin, if_pos h]
    exact ⟨raise_responds hp rfl, raise_attachState ..⟩
  · rw [detachBegin, if_neg (not_not.2 h), sameQueues, setPhase_port, if_pos ⟨rfl, hp⟩]
    exact ⟨rfl, ⟨rfl, rfl⟩, rfl⟩
  all_goals
    unfold detachBegin
    split_ifs <;> simp

/-- Settles O17: one `raise`, by a context without the lock. -/
theorem detachCompletesOnUnregister : Obligations.DetachCompletesOnUnregister := by
  intro s hp hph hown
  obtain ⟨⟨hops, hoth, hcfg, ⟨he, hh⟩, hset⟩, -⟩ := detachUnregistered_step hp
  obtain ⟨hlog, -⟩ := detachUnregistered_record s.sel s
  refine ⟨_, exec_detach_collab hph, ?_, ?_, ?_, ?_, hlog, hops, hoth, hcfg, ?_, hset,
    sameEeprom_of_eq he, ?_, sameHost_of_eq hh, ?_⟩ <;> unfold detachUnregistered
  · exact raise_responds hp rfl
  · exact raise_attachState ..
  · exact raise_rmValid ..
  · exact raise_registered ..
  · exact raise_sameLock hown
  · exact raise_wc ..
  · exact raise_bus ..

end Sys2Proof.Machine
end

section
/-! SUPPORT. An ATTACH or a DETACH that runs alone, step by step. -/

namespace Sys2Proof.Machine

theorem Aside.trans {p : Nat} {s u t : State} (h : Aside p s u) (h' : Aside p u t) : Aside p s t := by
  obtain ⟨⟨d, c, r, b, l, k⟩, ⟨n, o⟩, ⟨c1, c2, c3, c4⟩, ⟨e, m⟩, w⟩ := h
  obtain ⟨⟨d', c', r', b', l', k'⟩, ⟨n', o'⟩, ⟨c1', c2', c3', c4'⟩, ⟨e', m'⟩, w'⟩ := h'
  exact ⟨⟨d'.trans d, c'.trans c, r'.trans r, b'.trans b, l'.trans l, k'.trans k⟩,
    ⟨n'.trans n, fun q hq => (o' q hq).trans (o q hq)⟩,
    ⟨c1'.trans c1, c2'.trans c2, c3'.trans c3, c4'.trans c4⟩, ⟨e'.trans e, m'.trans m⟩, w'.trans w⟩

/-! One step. -/

/-- The state in which context p takes its step with the answers c, and the moves l are still to come. -/
abbrev State.given (p : Nat) (c : Choice) (l : List Move) (s : State) : State :=
  { s with agenda := l, sel := p, choice := c }

/-- Port p has latched ATTACH or DETACH, and the moves l are to come. -/
structure Running (p : Nat) (i : Instr) (l : List Move) (s : State) : Prop where
  command : i = .attach ∨ i = .detach
  port    : p < s.ports.length
  latched : (s.port p).d = latchOf i
  agenda  : s.agenda = l

/-- A step of the agenda that runs the latched command. -/
theorem Running.step {s t : State} {p : Nat} {i : Instr} {c : Choice} {l : List Move}
    (h : Running p i (.port p c :: l) s) (hi : (s.port p).ph ≠ .idle)
    (he : exec i (s.given p c l) = .next t) : goesTo 1 s t ∧ Aside p s t ∧ Running p i l t := by
  obtain ⟨hl, hp, hd, ha⟩ := h
  obtain ⟨⟨hops, hoth, hcfg, hmem, hset⟩, hag⟩ := exec_lifecycle_step hl hp hi he
  exact ⟨.one ((step_latched ha hp hi (hd ▸ latchOf_instr i)).trans he), ⟨hops, hoth, hcfg, hmem, hset⟩,
    hl, hoth.1 ▸ hp, hops.1.trans hd, hag⟩

/-! The start. -/

/-- An ATTACH or DETACH taken from the queue of its idle port is accepted. -/
theorem exec_afterTaking {s : State} {i : Instr} (hl : i = .attach ∨ i = .detach)
    (hp : s.sel < s.ports.length) (hi : (s.port s.sel).ph = .idle) (ds : List Desc) :
    exec i (afterTaking s.sel ds s) =
      .next (s.setPort s.sel { s.port s.sel with ph := .waitLock, d := latchOf i, reqs := ds }) := by
  have hself := port_setPort_self s { s.port s.sel with reqs := ds } hp
  rw [exec_idle_lifecycle hl (by simpa using hp) (by rw [setPort_sel, hself]; exact hi), setPort_sel,
    hself, setPort_setPort]

/-- An ATTACH or DETACH that waits on its idle port is accepted. -/
theorem step_acceptLifecycle {s : State} {p : Nat} {i : Instr} {c : Choice} {rest : List Move}
    (hl : i = .attach ∨ i = .detach) (hp : p < s.ports.length) (hi : (s.port p).ph = .idle)
    (hr : (s.port p).reqs = [encode i]) (ha : s.agenda = .port p c :: rest) :
    ∃ t, step s = .next t ∧ Start p s t ∧ sameLock s t ∧ t.agenda = rest ∧
      t.port p = { s.port p with ph := .waitLock, d := latchOf i, reqs := [] } := by
  have hrun := (step_cons ha).trans (contextStep_run (s := { s with agenda := rest }) (c := c)
    (fetch_descriptor hp hi hr (decode_encode i)))
  obtain ⟨hoth, hcfg, hlock, hlc, hset, -⟩ := setPort_leaves p
    { s.port p with ph := .waitLock, d := latchOf i, reqs := [] }
    { s with agenda := rest, sel := p, choice := c }
  exact ⟨_, hrun.trans (exec_afterTaking hl hp hi []),
    ⟨hcfg, hlc, hoth, ⟨rfl, rfl, rfl, hset⟩, ⟨rfl, rfl⟩⟩, hlock, rfl, port_setPort_self _ _ hp⟩

/-- The first three steps of an ATTACH or DETACH alone: presented, accepted, and given the lock. -/
theorem lifecycle_start {s : State} {p : Nat} {i : Instr} {c : Choice} {rest : List Move} (hq : Quiet s)
    (hl : i = .attach ∨ i = .detach) (hp : p < s.ports.length) (hr : (s.port p).reqs = [])
    (ha : s.agenda = .present p (encode i) :: .port p c :: .port p c :: rest) :
    ∃ t, goesTo 3 s t ∧ Start p s t ∧ Running p i rest t ∧ t.ownedBy p = true ∧ (t.port p).ph = .active ∧
      sameQueues p s t := by
  obtain ⟨u, hu, su, ⟨lu, -⟩, au, pu⟩ := step_present hp hr ha
  have nu := su.others.1
  obtain ⟨v, hv, sv, ⟨lv, -⟩, av, pv⟩ :=
    step_acceptLifecycle hl (nu.symm ▸ hp) (by rw [pu]; exact hq.idle p hp) (by rw [pu]) au
  have nv := sv.others.1
  obtain ⟨t, ht, st, ot, at', pt⟩ := step_takeLock (i := i) (nv.symm ▸ nu.symm ▸ hp) (by rw [pv])
    (by rw [pv]; exact latchOf_instr i) ((lv.trans lu).trans hq.free) av
  refine ⟨t, .step hu (.step hv (.one ht)), (su.trans sv).trans st, ⟨hl, ?_, ?_, at'⟩, ot, ?_, ?_⟩
  · exact st.others.1.symm ▸ nv.symm ▸ nu.symm ▸ hp
  · rw [pt, pv]
  · rw [pt]
  · rw [sameQueues, pt, pv, pu, hr]; exact ⟨rfl, rfl⟩

/-! The end. -/

/-- An ATTACH or DETACH alone leaves the machine quiet: what the end of its run has to say. -/
theorem lifecycle_ended {s u t : State} {p : Nat} (hq : Quiet s) (hs : Start p s u) (hu : Aside p u t)
    (hi : (t.port p).ph = .idle) (hl : t.locked = false) (hb : t.bus = none) (hw : t.wc = .idle) :
    Quiet t ∧ sameEeprom s t ∧ sameHost s t ∧ sameConfig s t ∧ sameOthers p s t := by
  obtain ⟨⟨c1, c2, c3, c4⟩, -, ⟨n, o⟩, ⟨e, -⟩, ⟨m, -⟩⟩ := hs
  obtain ⟨-, ⟨n', o'⟩, ⟨c1', c2', c3', c4'⟩, ⟨e', m'⟩, -⟩ := hu
  have hlen := n'.trans n
  have hoth : ∀ q, q ≠ p → t.port q = s.port q := fun q hne => (o' q hne).trans (o q hne)
  refine ⟨⟨fun q hlt => ?_, hl, hb, hw, c4'.trans (c4.trans hq.stable)⟩, sameEeprom_of_eq (e'.trans e),
    sameHost_of_eq (m'.trans m), ⟨c1'.trans c1, c2'.trans c2, c3'.trans c3, c4'.trans c4⟩, hlen, hoth⟩
  by_cases hqp : q = p
  · rw [hqp, hi]
  · rw [hoth q hqp]; exact hq.idle q (hlen ▸ hlt)

/-! The whole run. -/

/-- An ATTACH alone, with good answers, completes with OK (40_attach.md R141). -/
theorem attach_alone {s : State} {p : Nat} {v : Byte} {c : Choice} (hq : Quiet s) (hp : p < s.ports.length)
    (hr : (s.port p).reqs = []) (hdet : s.attachState = .detached) (hfull : s.busFullAddr = true)
    (h0 : c.err = 0) (hv : c.probe = some v)
    (ha : s.agenda = .present p (encode .attach) :: List.replicate 5 (.port p c)) :
    ∃ t, goesTo 6 s t ∧ responds p 0x0 0 s t ∧ Quiet t ∧
      t.attachState = .attached ∧ t.rmValid = true ∧ t.registered = true ∧
      t.log = s.log ++ [.recv p 1 (.ok [v]), .reg p 65536 1 (.ok [])] ∧
      sameEeprom s t ∧ sameHost s t ∧ sameConfig s t ∧ sameOthers p s t := by
  obtain ⟨s₁, run₁, start, live₁, own₁, ph₁, reqs₁, resps₁⟩ := lifecycle_start hq (.inl rfl) hp hr ha
  -- The probe is issued.
  obtain ⟨s₂, hs₂, -, -, probe, -, -, -, ⟨att₂, rm₂, reg₂⟩, -, -, -, log₂⟩ :=
    attachChecksThenProbes (s₁.given p c _) live₁.port ph₁ own₁
  obtain ⟨ph₂, ⟨reqs₂, resps₂⟩, ⟨locked₂, owner₂⟩, bus₂, wc₂⟩ :=
    probe (start.lifecycle.1.trans hdet) (start.config.2.1.trans hfull)
  obtain ⟨run₂, aside₂, live₂⟩ := live₁.step (by rw [ph₁]; decide) hs₂
  have own₂ : s₂.ownedBy p = true := by rw [State.ownedBy, locked₂, owner₂]; exact own₁
  -- It is answered with one byte.
  obtain ⟨s₃, hs₃, bus₃, ⟨locked₃, -⟩, byte, -, -, reg₃, -, -, -, -, -, wc₃, -⟩ :=
    attachNeedsOneProbeByte (s₂.given p c _) p _ _ live₂.port ph₂ own₂ bus₂
  obtain ⟨att₃, rm₃, ph₃, ⟨reqs₃, resps₃⟩, log₃⟩ := byte v h0 hv
  obtain ⟨run₃, aside₃, live₃⟩ := live₂.step (by rw [ph₂]; decide) hs₃
  -- The collaborator registers the device.
  obtain ⟨s₄, hs₄, ok, -, -, -, -, ⟨locked₄, -⟩, -, -, wc₄, -, bus₄⟩ :=
    attachCompletesOnRegistration (s₃.given p c _) live₃.port ph₃ (by rw [State.ownedBy, locked₃]; rfl)
  obtain ⟨⟨ph₄, reqs₄, resps₄⟩, att₄, rm₄, reg₄, log₄⟩ := ok h0
  obtain ⟨run₄, aside₄, -⟩ := live₃.step (by rw [ph₃]; decide) hs₄
  have wc : s₄.wc = .idle := wc₄.trans (wc₃.trans (wc₂.trans
    (congrArg WriteCycle.corrupt (start.device.2.1.trans hq.cycle))))
  obtain ⟨hquiet, hrest⟩ := lifecycle_ended hq start ((aside₂.trans aside₃).trans aside₄) ph₄
    (locked₄.trans locked₃) (bus₄.trans bus₃) wc
  refine ⟨s₄, run₁.trans (run₂.trans (run₃.trans run₄)), ⟨ph₄, reqs₄.trans (reqs₃.trans (reqs₂.trans reqs₁)), ?_⟩,
    hquiet, att₄, rm₄.trans rm₃, reg₄, ?_, hrest⟩
  · exact resps₄.trans (congrArg (· ++ _) (resps₃.trans (resps₂.trans resps₁)))
  · exact (log₄.trans (congrArg (· ++ _) (log₃.trans (congrArg (· ++ _) (log₂.trans start.record.2))))).trans
      (List.append_assoc ..)

/-- A DETACH alone completes with OK (40_attach.md R145). -/
theorem detach_alone {s : State} {p : Nat} {c : Choice} (hq : Quiet s) (hp : p < s.ports.length)
    (hr : (s.port p).reqs = []) (hatt : s.attachState = .attached)
    (ha : s.agenda = .present p (encode .detach) :: List.replicate 4 (.port p c)) :
    ∃ t, goesTo 5 s t ∧ responds p 0x0 0 s t ∧ Quiet t ∧
      t.attachState = .detached ∧ t.rmValid = false ∧ t.registered = false ∧
      t.log = s.log ++ [.unreg p] ∧ sameEeprom s t ∧ sameHost s t ∧ sameConfig s t ∧
      sameOthers p s t := by
  obtain ⟨s₁, run₁, start, live₁, own₁, ph₁, reqs₁, resps₁⟩ := lifecycle_start hq (.inr rfl) hp hr ha
  -- `Unregister` is called, without the lock.
  obtain ⟨s₂, hs₂, ⟨locked₂, -⟩, -, call, -, -, -, -, -, -, -, wc₂, -, bus₂, log₂⟩ :=
    detachBeginsUnderTheLock (s₁.given p c _) live₁.port ph₁ own₁
  obtain ⟨ph₂, ⟨reqs₂, resps₂⟩, -⟩ := call (start.lifecycle.1.trans hatt)
  obtain ⟨run₂, aside₂, live₂⟩ := live₁.step (by rw [ph₁]; decide) hs₂
  -- It returns.
  obtain ⟨s₃, hs₃, ⟨ph₃, reqs₃, resps₃⟩, att₃, rm₃, reg₃, log₃, -, -, -, ⟨locked₃, -⟩, -, -, wc₃, -, bus₃⟩ :=
    detachCompletesOnUnregister (s₂.given p c _) live₂.port ph₂ (by rw [State.ownedBy, locked₂]; rfl)
  obtain ⟨run₃, aside₃, -⟩ := live₂.step (by rw [ph₂]; decide) hs₃
  obtain ⟨hquiet, hrest⟩ := lifecycle_ended hq start (aside₂.trans aside₃) ph₃ (locked₃.trans locked₂)
    (bus₃.trans (bus₂.trans (start.device.2.2.1.trans hq.noBus)))
    (wc₃.trans (wc₂.trans (start.device.2.1.trans hq.cycle)))
  refine ⟨s₃, run₁.trans (run₂.trans run₃), ⟨ph₃, reqs₃.trans (reqs₂.trans reqs₁), ?_⟩, hquiet, att₃, rm₃,
    reg₃, ?_, hrest⟩
  · exact resps₃.trans (congrArg (· ++ _) (resps₂.trans resps₁))
  · exact log₃.trans (congrArg (· ++ _) (log₂.trans start.record.2))

/-- Settles O29: `attach_alone` and `detach_alone`, with the answers of the schedule. -/
theorem lifecycleRunsComplete : Obligations.LifecycleRunsComplete := by
  intro s p v hinv hq hp hr
  exact ⟨fun hdet hfull ha => attach_alone hq hp hr hdet hfull rfl rfl ha,
    fun hatt ha => detach_alone hq hp hr hatt ha⟩

end Sys2Proof.Machine
end

section
/-! SUPPORT. Which steps change ATTACH_STATE (40_attach.md R146). -/

namespace Sys2Proof.Machine

/-! READ and WRITE leave the lifecycle alone. -/

theorem awaitLock_lifecycle {s t : State} {p : Nat} (h : awaitLock p s = .next t) : sameLifecycle s t := by
  unfold awaitLock at h
  split at h <;> cases h <;> exact ⟨rfl, rfl, rfl⟩

theorem acceptTransfer_lifecycle (p : Nat) (d : Latch) (s : State) :
    sameLifecycle s (acceptTransfer p d s) := by
  unfold acceptTransfer
  split <;> simp [sameLifecycle]

theorem readNext_lifecycle {s t : State} {p : Nat} (h : readNext p s = .next t) : sameLifecycle s t := by
  unfold readNext at h
  (repeat' split at h) <;> cases h <;> simp [sameLifecycle]

theorem writeNext_lifecycle {s t : State} {p : Nat} (h : writeNext p s = .next t) :
    sameLifecycle s t := by
  unfold writeNext at h
  (repeat' split at h) <;> cases h <;> simp [sameLifecycle]

theorem readBegin_lifecycle {s t : State} {p : Nat} (h : readBegin p s = .next t) :
    sameLifecycle s t := by
  unfold readBegin at h
  split at h
  · cases h; simp [sameLifecycle]
  · exact (readNext_lifecycle h : sameLifecycle (initCursor p s) t)

theorem writeBegin_lifecycle {s t : State} {p : Nat} (h : writeBegin p s = .next t) :
    sameLifecycle s t := by
  unfold writeBegin at h
  split at h
  · cases h; simp [sameLifecycle]
  · exact (writeNext_lifecycle h : sameLifecycle (initCursor p s) t)

theorem writeSettled_lifecycle {s t : State} {p : Nat} (h : writeSettled p s = .next t) :
    sameLifecycle s t := by
  unfold writeSettled at h
  split at h
  · cases h; exact ⟨rfl, rfl, rfl⟩
  · exact (writeNext_lifecycle h : sameLifecycle (advance p s) t)

theorem readAnswered_lifecycle {s t : State} {p a n : Nat} {hit : Bool}
    (h : readAnswered p hit a n s = .next t) : sameLifecycle s t := by
  unfold readAnswered at h
  split at h
  · cases h
  split at h
  · simpa [sameLifecycle] using readNext_lifecycle h
  · cases h; simp [sameLifecycle, readFailed]

theorem writeAnswered_lifecycle (p : Nat) (hit : Bool) (a : Nat) (b : List Byte) (s : State) :
    sameLifecycle s (writeAnswered p hit a b s) := by
  unfold writeAnswered
  split <;> simp [sameLifecycle, writeTaken, writeFailed]

theorem execRead_lifecycle {s t : State} {o n b : Word} (h : execRead o n b s = .next t) :
    sameLifecycle s t := by
  unfold execRead at h
  split at h
  · cases h; exact acceptTransfer_lifecycle ..
  · exact awaitLock_lifecycle h
  · exact readBegin_lifecycle h
  · split at h
    · exact readAnswered_lifecycle h
    · cases h
  · cases h
  · cases h

theorem execWrite_lifecycle {s t : State} {o n b : Word} (h : execWrite o n b s = .next t) :
    sameLifecycle s t := by
  unfold execWrite at h
  split at h
  · cases h; exact acceptTransfer_lifecycle ..
  · exact awaitLock_lifecycle h
  · exact writeBegin_lifecycle h
  · split at h
    · cases h; exact writeAnswered_lifecycle ..
    · cases h
  · exact writeSettled_lifecycle h
  · cases h

/-! ATTACH and DETACH. -/

/-- What a step of command i makes of ATTACH_STATE: it is the same, or one of the transitions of 40_attach.md
R146, with the phase and the answer that make it. -/
inductive Transition (i : Instr) (s t : State) : Prop
  | same (h : t.attachState = s.attachState)
  | probed (hi : i = .attach) (hph : (s.port s.sel).ph = .bus) (h0 : s.choice.err = 0)
      (hb : s.choice.probe.isSome = true) (h : t.attachState = .attaching)
  | registered (hi : i = .attach) (hph : (s.port s.sel).ph = .collab) (h0 : s.choice.err = 0)
      (h : t.attachState = .attached)
  | rejected (hi : i = .attach) (hph : (s.port s.sel).ph = .collab) (h0 : s.choice.err ≠ 0)
      (h : t.attachState = .detached)
  | begun (hi : i = .detach) (hph : (s.port s.sel).ph = .active) (hs : s.attachState = .attached)
      (h : t.attachState = .detaching)
  | unregistered (hi : i = .detach) (hph : (s.port s.sel).ph = .collab) (h : t.attachState = .detached)

/-- Acceptance makes no transition. -/
theorem Transition.of_idle {i : Instr} {s t : State} (h : Transition i s t)
    (hi : (s.port s.sel).ph = .idle) : t.attachState = s.attachState := by
  cases h with
  | same h => exact h
  | probed _ hph => cases hi.symm.trans hph
  | registered _ hph => cases hi.symm.trans hph
  | rejected _ hph => cases hi.symm.trans hph
  | begun _ hph => cases hi.symm.trans hph
  | unregistered _ hph => cases hi.symm.trans hph

theorem execAttach_transition {s t : State} (h : execAttach s = .next t) : Transition .attach s t := by
  unfold execAttach at h
  split at h
  case h_1 => cases h; exact .same rfl
  case h_2 => exact .same (awaitLock_lifecycle h).1
  case h_3 =>
    cases h
    refine .same ?_
    unfold attachChecks
    split_ifs <;> simp
  case h_4 hph =>
    split at h
    · cases h
      unfold attachProbed
      split_ifs with ha
      · exact .probed rfl hph ha.1 ha.2 rfl
      · exact .same (raise_attachState ..)
    · cases h
  case h_5 hph =>
    cases h
    unfold attachRegistered
    split_ifs with h0
    · exact .registered rfl hph h0 (raise_attachState ..)
    · exact .rejected rfl hph h0 (raise_attachState ..)
  case h_6 => cases h

theorem execDetach_transition {s t : State} (h : execDetach s = .next t) : Transition .detach s t := by
  unfold execDetach at h
  split at h
  case h_1 => cases h; exact .same rfl
  case h_2 => exact .same (awaitLock_lifecycle h).1
  case h_3 hph =>
    cases h
    unfold detachBegin
    split_ifs with hs
    · exact .same (raise_attachState ..)
    · exact .begun rfl hph (not_not.1 hs) rfl
  case h_4 hph => cases h; exact .unregistered rfl hph (raise_attachState ..)
  case h_5 => cases h
  case h_6 => cases h

theorem exec_transition {i : Instr} {s t : State} (h : exec i s = .next t) : Transition i s t := by
  cases i with
  | attach => exact execAttach_transition h
  | detach => exact execDetach_transition h
  | read o n b => exact .same (execRead_lifecycle h).1
  | write o n b => exact .same (execWrite_lifecycle h).1

/-! Every move. -/

/-- A step of context p that changes ATTACH_STATE is one of its latched command, in flight. -/
theorem contextStep_transition {s t : State} {p : Nat} {c : Choice} (h : contextStep p c s = .next t)
    (hne : t.attachState ≠ s.attachState) : p < s.ports.length ∧
      ∃ i, (s.port p).d.instr? = some i ∧ Transition i { s with sel := p, choice := c } t := by
  unfold contextStep at h
  have hf := fetch_finds p { s with sel := p, choice := c }
  generalize fetch p { s with sel := p, choice := c } = f at hf h
  cases hf with
  | nothing => cases h; exact absurd rfl hne
  | illegal => cases h; exact absurd (raise_attachState ..) hne
  | descriptor hp hi =>
    refine absurd ((exec_transition h).of_idle ?_) hne
    rw [setPort_sel, port_setPort_self _ _ hp]
    exact hi
  | @latched i hp hi hd => exact ⟨hp, i, hd, exec_transition h⟩
  | stray => cases h

/-- A move that changes ATTACH_STATE is a block reset or a step of a context. -/
theorem runMove_attachState {m : Move} {s t : State} (h : runMove m s = .next t)
    (hne : t.attachState ≠ s.attachState) :
    (∃ c, m = .reset c ∧ t.attachState = .detached) ∨ ∃ p c, m = .port p c ∧ contextStep p c s = .next t := by
  cases m with
  | port p c => exact .inr ⟨p, c, rfl, h⟩
  | reset c => cases h; exact .inl ⟨c, rfl, rfl⟩
  | tick => cases h; exact absurd (tick_attachState s) hne
  | present p d => cases h; exact absurd rfl hne
  | hostWrite a v => cases h; exact absurd (hostWrite_frame a v s).2.1 hne
  | hostRead a n =>
    cases h
    obtain ⟨v, d, m, ps, e, -⟩ := hostRead_frame a n s
    exact absurd (by rw [e]) hne
  | collab k =>
    cases h
    obtain ⟨r, l, e⟩ := lateCollab_frame k s
    exact absurd (by rw [e]) hne
  | discard => cases h; exact absurd rfl hne
  | powerLoss c =>
    cases h
    obtain ⟨e, w, d, hf⟩ := powerLoss_frame c s
    exact absurd (by rw [hf]) hne
  | inputs full dev => cases h; exact absurd rfl hne

/-! The lifecycle state that a phase implies. -/

theorem attach_bus_state {s : State} (h : Inv s) {p : Nat} (hp : p < s.ports.length)
    (hph : (s.port p).ph = .bus) (hop : (s.port p).d.op = 1) : s.attachState = .detached := by
  have hk := h.phases p hp
  rw [portOk, hph] at hk
  obtain ⟨-, -, hdet⟩ | ⟨ht, -⟩ := hk
  · exact hdet
  · rw [Latch.isTransfer, hop] at ht; cases ht

theorem collab_states {s : State} (h : Inv s) {p : Nat} (hp : p < s.ports.length)
    (hph : (s.port p).ph = .collab) : ((s.port p).d.op = 1 → s.attachState = .attaching) ∧
      ((s.port p).d.op = 2 → s.attachState = .detaching) := by
  have hk := h.phases p hp
  rw [portOk, hph] at hk
  obtain ⟨-, ⟨hop, ha⟩ | ⟨hop, ha⟩⟩ := hk
  · exact ⟨fun _ => ha, fun h => absurd (hop.symm.trans h) (by decide)⟩
  · exact ⟨fun h => absurd (hop.symm.trans h) (by decide), fun _ => ha⟩

/-- Settles O52: a block reset, or a transition of the latched command. Its phase says who has the lock and,
where the command does not check it, the state before. -/
theorem attachStateTransitions : Obligations.AttachStateTransitions := by
  intro s t hinv h hne
  cases ha : s.agenda with
  | nil =>
    rw [step_nil ha] at h
    cases h
    exact absurd (tick_attachState s) hne
  | cons m rest =>
    rw [step_cons ha] at h
    obtain ⟨c, rfl, hdet⟩ | ⟨p, c, rfl, h⟩ := runMove_attachState h hne
    · exact .inl ⟨c, rest, rfl, hdet⟩
    · obtain ⟨hp, i, hd, htr⟩ := contextStep_transition h hne
      refine .inr ⟨p, c, rest, rfl, hp, ?_⟩
      rw [owned_iff hinv hp]
      cases htr with
      | same h => exact absurd h hne
      | probed hi hph h0 hb h =>
        have hop := instr_attach (hi ▸ hd)
        exact .inl ⟨attach_bus_state hinv hp hph hop, h, hop, hph, congrArg holdsLock hph, h0, hb⟩
      | registered hi hph h0 h =>
        have hop := instr_attach (hi ▸ hd)
        exact .inr (.inl ⟨(collab_states hinv hp hph).1 hop, h, hop, hph, congrArg holdsLock hph, h0⟩)
      | rejected hi hph h0 h =>
        have hop := instr_attach (hi ▸ hd)
        exact .inr (.inr (.inl
          ⟨(collab_states hinv hp hph).1 hop, h, hop, hph, congrArg holdsLock hph, h0⟩))
      | begun hi hph hs h =>
        exact .inr (.inr (.inr (.inl ⟨hs, h, instr_detach (hi ▸ hd), hph, congrArg holdsLock hph⟩)))
      | unregistered hi hph h =>
        have hop := instr_detach (hi ▸ hd)
        exact .inr (.inr (.inr (.inr
          ⟨(collab_states hinv hp hph).2 hop, h, hop, hph, congrArg holdsLock hph⟩)))

end Sys2Proof.Machine
end

section
/-! SUPPORT. The chunks of a request: their number, their places and their pages; and the whole transfers. -/

namespace Sys2Proof.Machine

/-! One chunk. -/

/-- Under ALIGNED a chunk lies in one page (41_transfer.md R184). -/
theorem chunkLen_aligned_page {cur rem : Nat} (h : 0 < rem) :
    cur / 128 = (cur + chunkLen .aligned cur rem - 1) / 128 := by
  simp only [chunkLen, page]
  omega

/-- Under ALIGNED a chunk that leaves bytes over ends at a page boundary (41_transfer.md R166). -/
theorem chunkLen_aligned_end {cur rem : Nat} (h : chunkLen .aligned cur rem < rem) :
    (cur + chunkLen .aligned cur rem) % 128 = 0 := by
  simp only [chunkLen, page] at h ⊢
  omega

/-- Under STRIDE a chunk that leaves bytes over has the length of a page (41_transfer.md R166). -/
theorem chunkLen_stride_full {cur rem : Nat} (h : chunkLen .stride cur rem < rem) :
    chunkLen .stride cur rem = 128 := by
  simp only [chunkLen, page] at h ⊢
  omega

/-- Settles O30: the bounds hold under both policies, the rest is the policy's own. -/
theorem chunksFitThePage : Obligations.ChunksFitThePage := by
  intro pol cur rem h
  refine ⟨chunkLen_pos h, chunkLen_le, chunkLen_page, ?_, ?_⟩
  · rintro rfl
    exact ⟨chunkLen_aligned_page h, chunkLen_aligned_end⟩
  · rintro rfl
    exact chunkLen_stride_full

/-- Settles O54: the outstanding write is the chunk in hand of the context that waits for it. -/
theorem alignedWritesStayInOnePage : Obligations.AlignedWritesStayInOnePage := by
  intro s q a dev v hit hinv hpol hb
  obtain ⟨hq, hph⟩ : q < s.ports.length ∧ (s.port q).ph = .bus := hinv.busIssuer _ hb
  obtain ⟨op, hb', hcmd⟩ := bus_cmd hinv hq hph
  obtain rfl := Option.some.inj (hb.symm.trans hb')
  obtain ⟨hop, rfl, hlen⟩ := hcmd
  obtain ⟨-, -, -, -, hrem, hclen, -⟩ := chunk_cursor hinv hq (.inr hop) (.inl hph)
  rw [hlen, hclen, hpol]
  exact chunkLen_aligned_page hrem

/-! The chunk list. -/

/-- Induction over the chunks of a request, the first one taken off. -/
theorem chunk_induction {pol : Policy} {P : Nat → Nat → Prop} (done : ∀ o, P o 0)
    (chunk : ∀ o n, 0 < n → P (o + chunkLen pol o n) (n - chunkLen pol o n) → P o n) (o n : Nat) :
    P o n := by
  induction n using Nat.strong_induction_on generalizing o with
  | _ n ih =>
    obtain rfl | hn := Nat.eq_zero_or_pos n
    · exact done o
    · have hpos := chunkLen_pos (pol := pol) (cur := o) hn
      exact chunk o n hn (ih _ (by omega) _)

/-- The chunks cover the request exactly (41_transfer.md R167). -/
theorem chunks_sum (pol : Policy) (o n : Nat) : ((chunks pol o n).map Prod.snd).sum = n := by
  induction o, n using chunk_induction (pol := pol) with
  | done o => rfl
  | chunk o n hn ih =>
    have hle := chunkLen_le (pol := pol) (cur := o) (rem := n)
    rw [chunks_cons hn, List.map_cons, List.sum_cons, ih]
    omega

/-- A chunk of a request has 1 to 128 bytes. -/
theorem chunks_size {pol : Policy} {o n : Nat} : ∀ c ∈ chunks pol o n, 0 < c.2 ∧ c.2 ≤ 128 := by
  induction o, n using chunk_induction (pol := pol) with
  | done o => exact nofun
  | chunk o n hn ih =>
    rw [chunks_cons hn]
    exact List.forall_mem_cons.2 ⟨⟨chunkLen_pos hn, chunkLen_page⟩, ih⟩

/-- A chunk starts where those before it end. -/
theorem chunks_start {pol : Policy} {o n : Nat} : ∀ i (h : i < (chunks pol o n).length),
    (chunks pol o n)[i].1 = o + (((chunks pol o n).take i).map Prod.snd).sum := by
  induction o, n using chunk_induction (pol := pol) with
  | done o => exact nofun
  | chunk o n hn ih =>
    rw [chunks_cons hn]
    rintro (_ | i) h
    · rfl
    · rw [List.getElem_cons_succ, ih, List.take_succ_cons, List.map_cons, List.sum_cons, Nat.add_assoc]

/-- A request of one chunk. -/
theorem chunkCount_last {pol : Policy} {o n : Nat} (hn : 0 < n) (h : chunkLen pol o n = n) :
    chunkCount pol o n = 1 := by
  cases pol <;> simp only [chunkCount, chunkLen, page] at h ⊢ <;> omega

/-- A request of more chunks than one: the first ends at a page boundary, or has the length of a page. -/
theorem chunkCount_more {pol : Policy} {o n : Nat} (h : chunkLen pol o n < n) :
    chunkCount pol o n = chunkCount pol (o + chunkLen pol o n) (n - chunkLen pol o n) + 1 := by
  cases pol <;> simp only [chunkCount, chunkLen, page] at h ⊢ <;> omega

/-- The count of 41_transfer.md R187. -/
theorem chunks_length {pol : Policy} {o n : Nat} : 0 < n → (chunks pol o n).length = chunkCount pol o n := by
  induction o, n using chunk_induction (pol := pol) with
  | done o => exact nofun
  | chunk o n hn ih =>
    intro _
    rw [chunks_cons hn, List.length_cons]
    obtain h | h := chunkLen_le.eq_or_lt (a := chunkLen pol o n)
    · rw [h, Nat.sub_self, chunks_zero, chunkCount_last hn h, List.length_nil]
    · rw [ih (Nat.sub_pos_of_lt h), chunkCount_more h]

/-- A request inside the device has no more chunks than the device has pages. -/
theorem chunkCount_le {pol : Policy} {o n : Nat} (hn : 0 < n) (h : o + n ≤ 65536) :
    chunkCount pol o n ≤ 512 := by
  cases pol <;> simp only [chunkCount, page] <;> omega

/-- Settles O31: the chunk list by induction over its chunks. -/
theorem chunkListCoversTheRequest : Obligations.ChunkListCoversTheRequest := by
  intro pol o n hn
  refine ⟨chunks_length hn, chunks_sum pol o n, fun i h => ⟨chunks_start i h, ?_⟩, fun h => ?_⟩
  · exact chunks_size _ (List.getElem_mem h)
  · rw [chunks_length hn]
    exact chunkCount_le hn h

/-! Whole transfers. -/

/-- Settles O26: `read_alone`, with answers that are all Ok. -/
theorem readRunMirrorsTheDevice : Obligations.ReadRunMirrorsTheDevice :=
  fun _ _ _ _ _ hinv hq hp hatt hreqs hn hr hb ha => read_alone hinv hq hp hatt hreqs hn hr hb rfl ha

/-- Settles O27: `write_alone`, with the answers of the schedule. -/
theorem writeRunStoresTheSource : Obligations.WriteRunStoresTheSource :=
  fun _ _ _ _ _ _ hinv hq hp hatt hreqs hn hr hb hch hpage ha =>
    write_alone hinv hq hp hatt hreqs hn hr hb hch hpage ha

end Sys2Proof.Machine
end

section
/-! SUPPORT. READ and WRITE at acceptance: the checks and the marks of a race (41_transfer.md R161 to R164,
R174). -/

namespace Sys2Proof.Machine

section
variable {s : State} {p : Nat} {d : Latch}

/-- A transfer that a check applies to ends in the step of its acceptance. -/
theorem acceptTransfer_raises {st : Status} (h : acceptStatus s d = some st) :
    acceptTransfer p d s = raise p st 0 (latch p d s) := by
  rw [acceptTransfer, h]

theorem acceptTransfer_responds {st : Status} (h : acceptStatus s d = some st) (hp : p < s.ports.length) :
    responds p (st.code.setWidth 32) 0 s (acceptTransfer p d s) := by
  rw [responds, acceptTransfer_raises h, raise_self (by simpa using hp), latch_self hp]
  exact ⟨rfl, rfl, rfl⟩

theorem acceptTransfer_length : (acceptTransfer p d s).ports.length = s.ports.length := by
  unfold acceptTransfer
  split <;> simp

/-- The descriptor is latched, whatever its checks say (10_state.md R33). -/
theorem acceptTransfer_latches (hp : p < s.ports.length) : ((acceptTransfer p d s).port p).d = d := by
  unfold acceptTransfer
  split
  · rw [raise_self (by simpa using hp), latch_self hp]
  · obtain ⟨r, hr⟩ := markRaces_port (latch p d s) p p
    rw [setPhase_port, if_pos ⟨rfl, by simpa using hp⟩, hr, latch_self hp]

/-- Another port gets marks at most. -/
theorem acceptTransfer_other {q : Nat} (hq : q ≠ p) :
    ∃ r, (acceptTransfer p d s).port q = { s.port q with raced := r } := by
  unfold acceptTransfer
  split
  · exact ⟨(s.port q).raced, by rw [raise_other hq, latch_other hq]⟩
  · obtain ⟨r, hr⟩ := markRaces_port (latch p d s) p q
    exact ⟨r, by rw [setPhase_port, if_neg fun e => hq e.1, hr, latch_other hq]⟩

/-- Acceptance takes no lock, loads no settle and issues no operation. -/
theorem acceptTransfer_leaves (h : s.ownedBy p = false) :
    sameConfig s (acceptTransfer p d s) ∧ sameLock s (acceptTransfer p d s) ∧
      (acceptTransfer p d s).settleCnt = s.settleCnt ∧ (acceptTransfer p d s).wc = s.wc ∧
      (acceptTransfer p d s).bus = s.bus := by
  have hl : (latch p d s).ownedBy p = false := h
  unfold acceptTransfer
  split
  · simp [sameConfig, sameLock, hl]
  · simp [sameConfig, sameLock]

/-- The marks on the port of a transfer that waits: where a transfer of the other kind uses its buffer. -/
theorem acceptTransfer_races (hatt : s.attachState = .attached) (hacc : acceptedOk s.params d)
    (hp : p < s.ports.length) (hop : d.op = 3 ∨ d.op = 4) {x : Nat} (h : d.bufaddr.toNat ≤ x)
    (h' : x < d.bufaddr.toNat + d.length.toNat) :
    racedAt ((acceptTransfer p d s).port p) x ↔ ∃ q, q ≠ p ∧ q < s.ports.length ∧
      usesHost (s.port q) x ∧ (s.port q).d.op = if d.op = 3 then 4 else 3 := by
  have marks := markRaces_self (s := latch p d s) (p := p) (x := x) (by simpa using hp)
  rw [latch_self hp] at marks
  rw [acceptTransfer_waits hatt hacc, setPhase_port, if_pos ⟨rfl, by simpa using hp⟩]
  refine (marks hop h h').trans (exists_congr fun q => and_congr_right fun hq => ?_)
  rw [latch_other hq, latch_ports, List.length_set]

/-- The marks on another port that uses the address. -/
theorem acceptTransfer_races_other (hatt : s.attachState = .attached) (hacc : acceptedOk s.params d)
    (hp : p < s.ports.length) (hop : d.op = 3 ∨ d.op = 4) {q x : Nat} (hne : q ≠ p)
    (hq : q < s.ports.length) (hu : usesHost (s.port q) x) :
    racedAt ((acceptTransfer p d s).port q) x ↔ racedAt (s.port q) x ∨
      d.bufaddr.toNat ≤ x ∧ x < d.bufaddr.toNat + d.length.toNat ∧
        (s.port q).d.op = if d.op = 3 then 4 else 3 := by
  have marks := markRaces_other (s := latch p d s) (p := p) (q := q) (x := x) (by simpa using hq) hne
  rw [latch_self hp, latch_other hne] at marks
  rw [acceptTransfer_waits hatt hacc, setPhase_port, if_neg fun e => hne e.1]
  exact marks hop hu

theorem acceptTransfer_waiting (hatt : s.attachState = .attached) (hacc : acceptedOk s.params d)
    (hp : p < s.ports.length) : ((acceptTransfer p d s).port p).ph = .waitLock ∧
      sameQueues p s (acceptTransfer p d s) := by
  obtain ⟨r, hr⟩ := markRaces_port (latch p d s) p p
  rw [sameQueues, acceptTransfer_waits hatt hacc, setPhase_port, if_pos ⟨rfl, by simpa using hp⟩, hr,
    latch_self hp]
  exact ⟨rfl, rfl, rfl⟩

end

/-- Settles O10: each check by `acceptTransfer_responds`, and a transfer that passes them all waits. -/
theorem transfersAreCheckedAtAcceptance : Obligations.TransfersAreCheckedAtAcceptance := by
  intro s o n b i hi hp hph hown
  have hd : latchOf i = ⟨if i = .read o n b then 3 else 4, o, n, b⟩ := by
    obtain rfl | rfl := hi <;> simp [latchOf, encode]
  have hop : (latchOf i).op = 3 ∨ (latchOf i).op = 4 := by
    obtain rfl | rfl := hi
    · exact .inl rfl
    · exact .inr rfl
  obtain ⟨kind, hkind⟩ : ∃ k : BitVec 4, k = if i = .read o n b then 4 else 3 := ⟨_, rfl⟩
  have hother : (if (latchOf i).op = 3 then 4 else 3) = kind := by
    obtain rfl | rfl := hi <;> simp [hkind, latchOf, encode]
  obtain ⟨hcfg, hlock, hset, hwc, hbus⟩ := acceptTransfer_leaves (d := latchOf i) hown
  obtain ⟨hlog, he⟩ := acceptTransfer_record s.sel (latchOf i) s
  obtain ⟨-, -, hh⟩ := acceptTransfer_hostSide s.sel (latchOf i) s
  refine ⟨_, exec_idle_transfer (isTransfer_iff.2 hop) hph, (acceptTransfer_latches hp).trans hd, ?_,
    acceptTransfer_length, fun q => acceptTransfer_other, hcfg, hlock, acceptTransfer_lifecycle .., hset,
    sameEeprom_of_eq he, hwc, sameHost_of_eq hh, hbus, hlog⟩
  have checks : acceptStatus s (latchOf i) =
      if s.attachState ≠ .attached then some .notAttached
      else if n = 0 then some .ok
      else if o.toNat + n.toNat > 65536 then some .outOfRange
      else if b.toNat + n.toNat > 2 ^ s.params.hostAw then some .bufferRange
      else none := by
    simp [acceptStatus, hd, Latch.inRange, Latch.inHost, capacity, hostSize]
  rw [← hkind]
  split_ifs at checks ⊢ with hatt hn hr hb
  · exact acceptTransfer_responds checks hp
  · exact acceptTransfer_responds checks hp
  · exact acceptTransfer_responds checks hp
  · exact acceptTransfer_responds checks hp
  · have hatt := not_not.1 hatt
    have hacc : acceptedOk s.params (latchOf i) := by
      rw [hd]
      exact acceptedOk_of (Nat.pos_of_ne_zero fun e => hn (BitVec.eq_of_toNat_eq e)) (not_lt.1 hr)
        (not_lt.1 hb)
    obtain ⟨hwait, hqueues⟩ := acceptTransfer_waiting hatt hacc hp
    rw [← hother]
    refine ⟨hwait, hqueues, fun x h h' => ?_, fun q x hne hq hu => ?_⟩
    · exact acceptTransfer_races hatt hacc hp hop (by rwa [hd]) (by rwa [hd])
    · have marks := acceptTransfer_races_other hatt hacc hp hop hne hq hu
      rwa [show (latchOf i).bufaddr = b by rw [hd], show (latchOf i).length = n by rw [hd]] at marks

end Sys2Proof.Machine
end

section
/-! SUPPORT. READ and WRITE with the lock: the issue of a chunk and the end of the command. -/

namespace Sys2Proof.Machine

/-! The bytes of a `MemRead`. -/

/-- v is what `MemRead(a, n)` takes for port p: the stored bytes, and drawn ones where the port is marked for
a race (10_state.md R36; 20_memory.md R86). -/
structure Taken (p a n : Nat) (s : State) (v : List Byte) : Prop where
  length : v.length = n
  stored : ∀ j (h : j < v.length), ¬ racedAt (s.port p) (a + j) → v[j] = s.hostByte (a + j)
  drawn  : drawnApart s.draws (fun j => j < v.length ∧ racedAt (s.port p) (a + j)) fun j => v.getD j 0

theorem memReadBytes_taken (p a n : Nat) (s : State) : Taken p a n s (memReadBytes p a n s) := by
  obtain ⟨hstored, hdrawn⟩ := memReadBytes_spec s p a n
  exact ⟨length_memReadBytes p a n s, hstored, by rwa [length_memReadBytes]⟩

/-- A `MemRead` reads the host memory, the supply and the marks of its port, and nothing else. -/
theorem Taken.congr {p a n : Nat} {s u : State} {v : List Byte} (h : Taken p a n u v)
    (hr : (u.port p).raced = (s.port p).raced) (hh : u.host = s.host) (hd : u.draws = s.draws) :
    Taken p a n s v := by
  obtain ⟨hl, hstored, hdrawn⟩ := h
  simp only [racedAt, hr, hd, sameHost_of_eq hh _] at hstored hdrawn
  exact ⟨hl, hstored, hdrawn⟩

/-! The issue of a chunk. -/

/-- Context p has issued the next chunk of its transfer from u, the head of its loop (41_transfer.md R171,
R181). -/
structure Issued (p : Nat) (u t : State) : Prop where
  port   : t.port p =
    { u.port p with ph := .bus, clen := chunkLen u.params.policy (u.port p).cur (u.port p).rem }
  kept   : Kept p u t
  lock   : sameLock u t
  settle : t.settleCnt = u.settleCnt
  memory : t.eeprom = u.eeprom ∧ t.host = u.host
  log    : t.log = u.log
  cycle  : t.wc = u.wc.corrupt

/-- The mark of an operation that is issued now (20_memory.md R74). -/
abbrev issuedBy (p : Nat) (u : State) (cmd : BusCmd) : BusOp := ⟨p, u.devAddr, cmd, decide (u.wc ≠ .idle)⟩

section
variable {p : Nat} {u : State}

/-- With bytes left inside the array, READ issues its next chunk. -/
theorem readNext_issues (hp : p < u.ports.length) (hr : (u.port p).rem ≠ 0)
    (hc : (u.port p).cur + (u.port p).rem ≤ 65536) : ∃ t, readNext p u = .next t ∧ Issued p u t ∧
      t.bus = some (issuedBy p u (.read (t.port p).cur (t.port p).clen)) := by
  obtain ⟨t, ht, hport, hoth, hcfg, hlock, hlc, hset, he, hh, hlog, hwc, -, -, hbus⟩ :=
    readNext_more hp hr hc
  refine ⟨t, ht, ⟨hport, ⟨hcfg, hlc, hoth, ?_⟩, hlock, hset, ⟨he, hh⟩, hlog, hwc⟩, ?_⟩
  · rw [sameQueues, hport]; exact ⟨rfl, rfl⟩
  · rw [hport]; exact hbus

/-- With bytes left inside the array and the host space, WRITE takes and issues its next chunk. -/
theorem writeNext_issues (hp : p < u.ports.length) (hr : (u.port p).rem ≠ 0)
    (hc : (u.port p).cur + (u.port p).rem ≤ 65536)
    (hb : (u.port p).buf + (u.port p).rem ≤ 2 ^ u.params.hostAw) :
    ∃ t v, writeNext p u = .next t ∧ Issued p u t ∧ Taken p (t.port p).buf (t.port p).clen u v ∧
      t.bus = some (issuedBy p u (.write (t.port p).cur v)) := by
  obtain ⟨t, ht, hport, hoth, hcfg, hlock, hlc, hset, he, hh, hlog, hwc, -, hbus⟩ :=
    writeNext_more hp hr hc hb
  refine ⟨t, memReadBytes p (t.port p).buf (t.port p).clen u, ht,
    ⟨hport, ⟨hcfg, hlc, hoth, ?_⟩, hlock, hset, ⟨he, hh⟩, hlog, hwc⟩, memReadBytes_taken .., ?_⟩
  · rw [sameQueues, hport]; exact ⟨rfl, rfl⟩
  · rw [hport]; exact hbus

end

/-! What is kept. -/

/-- A step that writes no port. -/
theorem Kept.of_ports {p : Nat} {s u : State} (h : u.ports = s.ports) (hc : sameConfig s u)
    (hl : sameLifecycle s u) : Kept p s u :=
  ⟨hc, hl, ⟨by rw [h], fun q _ => port_congr h q⟩, by rw [sameQueues, port_congr h]; exact ⟨rfl, rfl⟩⟩

/-- A write of the cursor and the phase of a port keeps the rest. -/
theorem Kept.setPort {p : Nat} {c : Port} {s : State} (hp : p < s.ports.length)
    (hq : c.reqs = (s.port p).reqs ∧ c.resps = (s.port p).resps) : Kept p s (s.setPort p c) := by
  obtain ⟨hoth, hcfg, -, hlc, -⟩ := setPort_leaves p c s
  exact ⟨hcfg, hlc, hoth, by rw [sameQueues, port_setPort_self _ _ hp]; exact hq⟩

theorem initCursor_kept {p : Nat} {s : State} (hp : p < s.ports.length) : Kept p s (initCursor p s) :=
  .setPort hp ⟨rfl, rfl⟩

theorem advance_kept {p : Nat} {s : State} (hp : p < s.ports.length) : Kept p s (advance p s) :=
  .setPort hp ⟨rfl, rfl⟩

/-! The end of a command. -/

section
variable {p : Nat} {s u : State} {st : Status} {e : Word}

/-- The end of a command, from a state that steps of its context have led to. -/
theorem Kept.raise (h : Kept p s u) (hp : p < s.ports.length) :
    responds p (st.code.setWidth 32) e s (raise p st e u) ∧ sameOthers p s (raise p st e u) ∧
      sameConfig s (raise p st e u) ∧ sameLifecycle s (raise p st e u) := by
  obtain ⟨hcfg, hlc, ⟨hlen, hoth⟩, ⟨hreqs, hresps⟩⟩ := h
  refine ⟨?_, ⟨by simpa using hlen, fun q hq => (raise_other hq).trans (hoth q hq)⟩,
    by simpa [sameConfig] using hcfg, by simpa [sameLifecycle] using hlc⟩
  rw [responds, raise_self (hlen ▸ hp), hreqs, hresps]
  exact ⟨rfl, rfl, rfl⟩

theorem raise_operands (hp : p < s.ports.length) (h : u.ports = s.ports) :
    sameOperands p s (raise p st e u) := by
  rw [sameOperands, raise_self (h ▸ hp), port_congr h]
  exact ⟨rfl, rfl, rfl, rfl, rfl, rfl⟩

/-- The lock goes with its owner's command (60_exceptions.md R216). -/
theorem raise_frees (h : s.ownedBy p = true) (hl : sameLock s u) : lockFree (raise p st e u) :=
  raise_lockFree (by rw [State.ownedBy, hl.1, hl.2]; exact h)

end

/-! The first step with the lock. -/

section
variable {s : State} {o n b : Word} {i : Instr}

/-- A DETACH that got the lock before a transfer leaves it NOT_ATTACHED (41_transfer.md R165). -/
theorem exec_active_rejected (hi : i = .read o n b ∨ i = .write o n b) (hph : (s.port s.sel).ph = .active)
    (h : s.attachState ≠ .attached) : exec i s = .next (raise s.sel .notAttached 0 s) := by
  obtain rfl | rfl := hi
  · rw [exec, execRead, hph]; exact if_pos h
  · rw [exec, execWrite, hph]; exact if_pos h

/-- A transfer with the lock issues its first chunk. -/
theorem exec_active_issues (hi : i = .read o n b ∨ i = .write o n b) (hp : s.sel < s.ports.length)
    (hph : (s.port s.sel).ph = .active) (hatt : s.attachState = .attached)
    (hacc : acceptedOk s.params (s.port s.sel).d) :
    ∃ t, exec i s = .next t ∧ Issued s.sel (initCursor s.sel s) t ∧
      (i = .read o n b →
        t.bus = some (issuedBy s.sel s (.read (t.port s.sel).cur (t.port s.sel).clen))) ∧
      (i = .write o n b → ∃ v, Taken s.sel (t.port s.sel).buf (t.port s.sel).clen s v ∧
        t.bus = some (issuedBy s.sel s (.write (t.port s.sel).cur v))) := by
  obtain ⟨hn, hr, hb⟩ := hacc
  have hself := initCursor_self hp
  have hp' : s.sel < (initCursor s.sel s).ports.length := by simpa using hp
  have hrem : ((initCursor s.sel s).port s.sel).rem ≠ 0 := by rw [hself]; exact hn.ne'
  have hcur : ((initCursor s.sel s).port s.sel).cur + ((initCursor s.sel s).port s.sel).rem ≤ 65536 := by
    rw [hself]; exact inRange_le hr
  obtain rfl | rfl := hi
  · obtain ⟨t, ht, hiss, hbus⟩ := readNext_issues hp' hrem hcur
    exact ⟨t, (exec_read_active hph hatt).trans ht, hiss, fun _ => hbus, nofun⟩
  · obtain ⟨t, v, ht, hiss, htaken, hbus⟩ := writeNext_issues hp' hrem hcur
      (by rw [hself]; exact inHost_le hb)
    exact ⟨t, (exec_write_active hph hatt).trans ht, hiss, nofun,
      fun _ => ⟨v, htaken.congr (by rw [hself]) rfl rfl, hbus⟩⟩

end

/-- Settles O18: an end of the command, or the issue of its first chunk. -/
theorem transferBeginsWithTheRecheck : Obligations.TransferBeginsWithTheRecheck := by
  intro s o n b i hi hp hph hown hn hr hb
  by_cases hatt : s.attachState = .attached
  · obtain ⟨t, ht, hiss, hread, hwrite⟩ :=
      exec_active_issues hi hp hph hatt (acceptedOk_of hn hr hb)
    obtain ⟨hcfg, hlc, hoth, hqueues⟩ := (initCursor_kept hp).trans hiss.kept
    have hport := hiss.port
    rw [initCursor_self hp] at hport
    refine ⟨t, ht, fun h => absurd hatt h, fun _ => ?_, hoth, hcfg, hlc, hiss.settle,
      sameEeprom_of_eq hiss.memory.1, sameHost_of_eq hiss.memory.2, hiss.log⟩
    refine ⟨by rw [hport], hqueues, hiss.lock, by rw [hport], by rw [hport], by rw [hport], by rw [hport],
      by rw [hport], by rw [hport], by rw [hport]; rfl, hiss.cycle, hread, fun h => ?_⟩
    obtain ⟨v, ⟨hlen, hstored, hdrawn⟩, hbus⟩ := hwrite h
    exact ⟨v, hlen, hstored, hdrawn, hbus⟩
  · obtain ⟨hresp, hoth, hcfg, hlc⟩ := (Kept.refl s.sel s).raise (st := .notAttached) (e := 0) hp
    exact ⟨_, exec_active_rejected hi hph hatt,
      fun _ => ⟨hresp, raise_lockFree hown, raise_bus .., raise_wc .., raise_operands hp rfl⟩,
      fun h => absurd h hatt, hoth, hcfg, hlc, raise_settleCnt .., sameEeprom_of_eq (raise_eeprom ..),
      sameHost_of_eq (raise_host ..), raise_log ..⟩

/-! The settle after the last chunk. -/

/-- Settles O25: the cursor moves on, no byte is left, and the command ends. -/
theorem writeCompletesAfterTheLastSettle : Obligations.WriteCompletesAfterTheLastSettle := by
  intro s o n b hp hph hown hcnt hlast
  have hself := advance_self hp
  have hrem : ((advance s.sel s).port s.sel).rem = 0 := by rw [hself, hlast]; exact Nat.sub_self _
  obtain ⟨hresp, hoth, hcfg, hlc⟩ := (advance_kept hp).raise (st := .ok) (e := 0) hp
  have hend := raise_self (s := advance s.sel s) (p := s.sel) (st := .ok) (d := 0) (by simpa using hp)
  refine ⟨_, (exec_write_settled hph hcnt).trans (writeNext_done hrem), hresp, raise_lockFree hown, ?_, ?_,
    ?_, ?_, ?_, hoth, hcfg, hlc, raise_settleCnt .., sameEeprom_of_eq (raise_eeprom ..), raise_wc ..,
    sameHost_of_eq (raise_host ..), raise_bus .., raise_log ..⟩
  · rw [hend, hself]
  · rw [hend]; exact hrem
  all_goals rw [hend, hself]

end Sys2Proof.Machine
end

section
/-! SUPPORT. READ on the answer of its chunk (41_transfer.md R171, R173). -/

namespace Sys2Proof.Machine

/-! The answered bytes. -/

/-- v is what a `BusRead` of n bytes at a answers: the stored bytes, or drawn ones where it was issued during
a write cycle or the inputs changed, after the draws of the device's effect (20_memory.md R68, R74). -/
structure Answered (hit : Bool) (a n : Nat) (s : State) (v : List Byte) : Prop where
  length : v.length = n
  stored : hit = false → s.disturbed = false → ∀ j (h : j < v.length), v[j] = s.eepromByte (a + j)
  drawn  : hit = true ∨ s.disturbed = true → v = (Draws.bytes n (readEffect a n s).draws).1

theorem readBytes_answered (hit : Bool) (a n : Nat) (s : State) :
    Answered hit a n s (readBytes hit a n (readEffect a n s)) := by
  refine ⟨length_readBytes .., fun hh hd j h => ?_, fun h => if_pos (by simpa using h)⟩
  simp only [readEffect_clean hd, readBytes_clean hh hd]
  exact getElem_eepromBytes ..

/-! The slice of the host buffer. -/

/-- The bytes v are in the slice of the host buffer that port p's cursor is at, drawn ones where the port is
marked for a race, and no other host byte has changed (20_memory.md R86). -/
structure SliceFilled (p : Nat) (v : List Byte) (s t : State) : Prop where
  stored : ∀ j (h : j < v.length), ¬ racedAt (s.port p) ((s.port p).buf + j) →
    t.hostByte ((s.port p).buf + j) = v[j]
  drawn  : drawnApart s.draws (fun x => (s.port p).buf ≤ x ∧ x < (s.port p).buf + v.length ∧
    racedAt (s.port p) x) t.hostByte
  kept   : ∀ a, (a < (s.port p).buf ∨ (s.port p).buf + v.length ≤ a) → t.hostByte a = s.hostByte a

theorem SliceFilled.congr {p : Nat} {v : List Byte} {s u t : State} (h : SliceFilled p v s u)
    (hh : t.host = u.host) : SliceFilled p v s t := by
  have hb : t.hostByte = u.hostByte := funext (sameHost_of_eq hh)
  obtain ⟨hstored, hdrawn, hkept⟩ := h
  exact ⟨by rwa [hb], by rwa [hb], by rwa [hb]⟩

/-- A `MemWrite` at the cursor, from a state in which only draws and other parts have gone on. -/
theorem memWrite_fills {p : Nat} {v : List Byte} {s u : State} (hp : u.ports = s.ports)
    (hh : u.host = s.host) (hd : drawnOn s.draws u.draws) :
    SliceFilled p v s (memWrite p (s.port p).buf v u) := by
  obtain ⟨hstored, hdrawn⟩ := memWrite_spec u p (s.port p).buf v
  rw [port_congr hp] at hstored hdrawn
  refine ⟨hstored, hdrawn.later hd, fun a ha => (hostByte_fillHost_ne fun c hc => ?_).trans
    (sameHost_of_eq hh a)⟩
  have := mem_raceCells hc
  omega

/-! The chunk's arrival. -/

/-- The state in which the bytes of a chunk have arrived and the cursor is still at it. -/
abbrev chunkArrived (p : Nat) (hit : Bool) (a n : Nat) (s : State) : State :=
  memWrite p (s.port p).buf (readBytes hit a n (readEffect a n s))
    ((readDraw hit n (readEffect a n s)).answered.addLog
      (.rd p a n (.ok (readBytes hit a n (readEffect a n s)))))

/-- A chunk answered Ok: the arrival, the cursor, the head of the loop. -/
theorem readAnswered_ok {p a n : Nat} {hit : Bool} {s : State} (he : s.choice.err = 0)
    (hf : (s.port p).buf + max n (s.port p).clen ≤ hostSize s.params) :
    readAnswered p hit a n s = readNext p (advance p (chunkArrived p hit a n s)) := by
  rw [readAnswered, if_neg (by simp [hostFits_true hf]), if_pos he]
  rfl

/-- The bytes v of a chunk have arrived at port p, and nothing else has changed (41_transfer.md R171). -/
structure Arrived (p a n : Nat) (v : List Byte) (s u : State) : Prop where
  slice  : SliceFilled p v s u
  log    : u.log = s.log ++ [.rd p a n (.ok v)]
  ports  : u.ports = s.ports
  config : sameConfig s u
  lock   : sameLock s u
  life   : sameLifecycle s u
  settle : u.settleCnt = s.settleCnt
  device : u.wc = s.wc ∧ u.bus = none
  array  : s.disturbed = false → u.eeprom = s.eeprom

theorem chunkArrived_arrived (p : Nat) (hit : Bool) (a n : Nat) (s : State) :
    Arrived p a n (readBytes hit a n (readEffect a n s)) s (chunkArrived p hit a n s) where
  slice := memWrite_fills (by simp) (by simp) ((readEffect_draws a n s).trans (readDraw_draws hit n _))
  log := by simp
  ports := by simp
  config := by simp [sameConfig]
  lock := by simp [sameLock]
  life := by simp [sameLifecycle]
  settle := by simp
  device := by simp
  array hd := by simp [readEffect_clean hd]

section
variable {p a n : Nat} {v : List Byte} {s u : State}

theorem Arrived.kept (h : Arrived p a n v s u) : Kept p s u := .of_ports h.ports h.config h.life

theorem Arrived.port_lt (h : Arrived p a n v s u) (hp : p < s.ports.length) : p < u.ports.length := by
  rwa [h.ports]

/-- The cursor moves on from the chunk. -/
theorem Arrived.advance_port (h : Arrived p a n v s u) (hp : p < s.ports.length) :
    (advance p u).port p = { s.port p with
      ph := .active, cur := (s.port p).cur + (s.port p).clen, rem := (s.port p).rem - (s.port p).clen,
      buf := (s.port p).buf + (s.port p).clen, k := (s.port p).k + 1 } := by
  rw [advance_self (h.port_lt hp), port_congr h.ports]

theorem Arrived.advance_kept (h : Arrived p a n v s u) (hp : p < s.ports.length) :
    Kept p s (advance p u) := h.kept.trans (Machine.advance_kept (h.port_lt hp))

end

/-- READ takes the answer Ok to its chunk. -/
theorem exec_read_arrives {s : State} {o n b : Word} {q : Nat} {dev : BitVec 16} {hit : Bool}
    (hph : (s.port s.sel).ph = .bus)
    (hb : s.bus = some ⟨q, dev, .read (s.port s.sel).cur (s.port s.sel).clen, hit⟩)
    (he : s.choice.err = 0) (hf : (s.port s.sel).buf + (s.port s.sel).clen ≤ 2 ^ s.params.hostAw) :
    ∃ u v, exec (.read o n b) s = readNext s.sel (advance s.sel u) ∧
      Answered hit (s.port s.sel).cur (s.port s.sel).clen s v ∧
      Arrived s.sel (s.port s.sel).cur (s.port s.sel).clen v s u :=
  ⟨_, _, (exec_read_bus hph hb).trans (readAnswered_ok he (by rwa [max_self])), readBytes_answered ..,
    chunkArrived_arrived ..⟩

/-- Settles O19: the arrival, and the issue of the next chunk. -/
theorem readChunkArrives : Obligations.ReadChunkArrives := by
  intro s o n b q dev hit hp hph hb he hlt hcur hbuf
  obtain ⟨u, v, hexec, ⟨hlen, hstored, hdrawn⟩, harr⟩ :=
    exec_read_arrives (o := o) (n := n) (b := b) hph hb he (by omega)
  have hself := harr.advance_port hp
  obtain ⟨t, ht, hiss, hbus⟩ := readNext_issues (u := advance s.sel u)
    (by simpa using harr.port_lt hp) (by rw [hself]; exact (Nat.sub_pos_of_lt hlt).ne')
    (by rw [hself]; dsimp only; omega)
  have hport := hiss.port
  rw [hself, advance_params, harr.config.1] at hport
  obtain ⟨hcfg, hlc, hoth, hqueues⟩ := (harr.advance_kept hp).trans hiss.kept
  obtain ⟨hin, hrace, hout⟩ := harr.slice.congr (t := t) hiss.memory.2
  rw [hlen] at hrace hout
  have hlock : sameLock s t := ⟨hiss.lock.1.trans harr.lock.1, hiss.lock.2.trans harr.lock.2⟩
  have hwc : t.wc = s.wc.corrupt := hiss.cycle.trans (congrArg _ harr.device.1)
  rw [issuedBy, advance_wc, harr.device.1, advance_devAddr, harr.config.2.2.1] at hbus
  refine ⟨t, v, hexec.trans ht, hlen, hstored, hdrawn, hin, hrace, hout, hiss.log.trans harr.log,
    ?_, ?_, ?_, ?_, ?_, ?_, ?_, ?_, hqueues, hbus, hoth, hcfg, hlock, hlc, hiss.settle.trans harr.settle,
    fun hd => sameEeprom_of_eq (hiss.memory.1.trans (harr.array hd)), hwc⟩
  all_goals rw [hport]

/-- Settles O20: the arrival, and the end of the command. -/
theorem readCompletesOnTheLastChunk : Obligations.ReadCompletesOnTheLastChunk := by
  intro s o n b q dev hit hp hph hown hb he hlast hbuf
  obtain ⟨u, v, hexec, ⟨hlen, hstored, hdrawn⟩, harr⟩ :=
    exec_read_arrives (o := o) (n := n) (b := b) hph hb he (by omega)
  have hself := harr.advance_port hp
  have hrem : ((advance s.sel u).port s.sel).rem = 0 := by rw [hself, hlast]; exact Nat.sub_self _
  have hend := raise_self (s := advance s.sel u) (p := s.sel) (st := .ok) (d := 0)
    (by simpa using harr.port_lt hp)
  obtain ⟨hresp, hoth, hcfg, hlc⟩ := (harr.advance_kept hp).raise (st := .ok) (e := 0) hp
  obtain ⟨hin, hrace, hout⟩ := harr.slice.congr (t := raise s.sel .ok 0 (advance s.sel u)) (by simp)
  rw [hlen] at hrace hout
  refine ⟨_, v, hexec.trans (readNext_done hrem), hlen, hstored, hdrawn, hin, hrace, hout,
    (raise_log ..).trans harr.log, hresp, raise_frees hown harr.lock, (raise_bus ..).trans harr.device.2,
    ?_, ?_, ?_, ?_, ?_, hoth, hcfg, hlc, (raise_settleCnt ..).trans harr.settle,
    fun hd => sameEeprom_of_eq ((raise_eeprom ..).trans (harr.array hd)),
    (raise_wc ..).trans harr.device.1⟩
  · rw [hend, hself]
  · rw [hend]; exact hrem
  all_goals rw [hend, hself]

/-! The chunk's failure. -/

/-- The state of a chunk answered with an error, before the end of the command: its slice holds drawn bytes. -/
abbrev chunkLost (p a n : Nat) (s : State) : State :=
  ((readEffect a n s).answered.addLog (.rd p a n (.err s.choice.err))).fillHost
    (anyCells (s.port p).buf (s.port p).clen)

/-- A chunk answered with an error ends the command. -/
theorem readAnswered_err {p a n : Nat} {hit : Bool} {s : State} (he : s.choice.err ≠ 0)
    (hf : (s.port p).buf + max n (s.port p).clen ≤ hostSize s.params) :
    readAnswered p hit a n s = .next (raise p .transferFailed s.choice.err (chunkLost p a n s)) := by
  rw [readAnswered, if_neg (by simp [hostFits_true hf]), if_neg he]
  rfl

theorem chunkLost_hostByte (p a n : Nat) (s : State) :
    (∀ x, (x < (s.port p).buf ∨ (s.port p).buf + (s.port p).clen ≤ x) →
      (chunkLost p a n s).hostByte x = s.hostByte x) ∧
    drawnApart s.draws (fun x => (s.port p).buf ≤ x ∧ x < (s.port p).buf + (s.port p).clen)
      (chunkLost p a n s).hostByte := by
  refine ⟨fun x hx => (hostByte_fillHost_ne (anyCells_ne (r := (_, _)) hx)).trans
    (sameHost_of_eq (by simp) x), ?_⟩
  exact (fillHost_drawn.of (fun x hx => anyAt_anyCells hx.1 hx.2) fun _ _ => rfl).later
    (readEffect_draws a n s)

/-- Settles O21: the slice by `chunkLost_hostByte`, and the end of the command. -/
theorem readFailsWithTheBusError : Obligations.ReadFailsWithTheBusError := by
  intro s o n b q dev hit hp hph hown hb he hbuf
  have hexec := (exec_read_bus (o := o) (n := n) (b := b) hph hb).trans
    (readAnswered_err he (by rwa [max_self]))
  obtain ⟨hout, hdrawn⟩ := chunkLost_hostByte s.sel (s.port s.sel).cur (s.port s.sel).clen s
  generalize hu : chunkLost s.sel (s.port s.sel).cur (s.port s.sel).clen s = u at hout hdrawn hexec
  have hports : u.ports = s.ports := by simp [← hu]
  have hkept : Kept s.sel s u :=
    .of_ports hports (by simp [← hu, sameConfig]) (by simp [← hu, sameLifecycle])
  have hhost : (raise s.sel .transferFailed s.choice.err u).hostByte = u.hostByte :=
    funext (sameHost_of_eq (raise_host ..))
  obtain ⟨hresp, hoth, hcfg, hlc⟩ := hkept.raise (st := .transferFailed) (e := s.choice.err) hp
  refine ⟨_, hexec, hresp, raise_frees hown (by simp [← hu, sameLock]), by simp [← hu],
    raise_operands hp hports, by rwa [hhost], by rwa [hhost], by simp [← hu], hoth, hcfg, hlc,
    by simp [← hu], fun hd => sameEeprom_of_eq (by simp [← hu, readEffect_clean hd]), by simp [← hu]⟩

end Sys2Proof.Machine
end

section
/-! SUPPORT. WRITE on the answer of its chunk (41_transfer.md R181 to R183). -/

namespace Sys2Proof.Machine

section
variable {p a : Nat} {b : List Byte} {s : State} {hit : Bool}

/-! An answer Ok. -/

theorem writeAnswered_ok (he : s.choice.err = 0) :
    writeAnswered p hit a b s =
      loadSettle p ((okWrite hit a b s).answered.addLog (.wr p a b (.ok []))) := by
  rw [writeAnswered, if_pos he, writeTaken, plainResult, if_pos he]

/-- What the device does is that of `okWrite`. -/
theorem writeAnswered_ok_device (he : s.choice.err = 0) :
    (writeAnswered p hit a b s).wc = (okWrite hit a b s).wc ∧
      (writeAnswered p hit a b s).eepromByte = (okWrite hit a b s).eepromByte := by
  rw [writeAnswered_ok he]
  exact ⟨rfl, rfl⟩

/-- The drawn settle count lies in its window (60_exceptions.md R231). -/
theorem settleDraw_window {P : Params} (h : settleMin P ≤ settleMax P) (c : Choice) :
    settleMin P ≤ settleDraw P c ∧ settleDraw P c ≤ settleMax P := by
  unfold settleDraw
  omega

/-- What a chunk answered Ok leaves of the block (41_transfer.md R181). -/
theorem writeAnswered_ok_block (hp : p < s.ports.length) (he : s.choice.err = 0) :
    (writeAnswered p hit a b s).port p = { s.port p with ph := .settle } ∧
      sameOthers p s (writeAnswered p hit a b s) ∧ sameConfig s (writeAnswered p hit a b s) ∧
      sameLock s (writeAnswered p hit a b s) ∧ sameLifecycle s (writeAnswered p hit a b s) ∧
      (writeAnswered p hit a b s).host = s.host ∧ (writeAnswered p hit a b s).bus = none ∧
      (writeAnswered p hit a b s).settleCnt = settleDraw s.params s.choice ∧
      (writeAnswered p hit a b s).log =
        s.log ++ [.wr p a b (.ok []), .settle p (settleDraw s.params s.choice)] := by
  rw [writeAnswered_ok he]
  refine ⟨?_, ⟨by simp, fun q hq => ?_⟩, by simp [sameConfig], by simp [sameLock],
    by simp [sameLifecycle], by simp, by simp, by simp, by simp⟩
  · rw [loadSettle_port, if_pos ⟨rfl, by simpa using hp⟩, addLog_port, answered_port, okWrite_port]
  · rw [loadSettle_port, if_neg fun e => hq e.1, addLog_port, answered_port, okWrite_port]

/-! What the device does with a write that is answered Ok. -/

/-- A cycle of T_WC ticks, where there are any, leaves the array until it ends. -/
theorem startCycle_runs {t : Nat} {cells : List (Nat × Option Byte)} (ht : 0 < t) :
    (startCycle t cells s).wc = .busy t cells ∧ sameEeprom s (startCycle t cells s) := by
  rw [startCycle, if_neg ht.ne']
  exact ⟨rfl, fun _ => rfl⟩

/-- With the inputs stable and no cycle at the issue, a cycle of T_WC ticks starts (20_memory.md R70 to
R72). -/
theorem okWrite_starts (hd : s.disturbed = false) (ht : 0 < s.params.tWc) :
    sameEeprom s (okWrite false a b s) ∧
      (a / 128 = (a + b.length - 1) / 128 →
        (okWrite false a b s).wc = .busy s.params.tWc (byteCells a b)) ∧
      (a / 128 ≠ (a + b.length - 1) / 128 →
        ∃ cells, (okWrite false a b s).wc = .busy s.params.tWc cells ∧ anyOver a b.length cells) := by
  by_cases hpage : a / 128 = (a + b.length - 1) / 128
  · rw [okWrite_inPage hd hpage]
    exact ⟨(startCycle_runs ht).2, fun _ => (startCycle_runs ht).1, fun h => absurd hpage h⟩
  · rw [okWrite_crossing hd hpage]
    exact ⟨(startCycle_runs ht).2, fun h => absurd h hpage,
      fun _ => ⟨_, (startCycle_runs ht).1, anyOver_anyCells a b.length⟩⟩

/-- Where T_WC is 0 the write is over in the step of its answer (20_memory.md R71). -/
theorem okWrite_over (hd : s.disturbed = false) (ht : s.params.tWc = 0) :
    (okWrite false a b s).wc = .idle ∧
      (a / 128 = (a + b.length - 1) / 128 →
        ∀ j (h : j < b.length), (okWrite false a b s).eepromByte (a + j) = b[j]) ∧
      (a / 128 ≠ (a + b.length - 1) / 128 →
        drawnApart s.draws (inWriteRange a b.length) (okWrite false a b s).eepromByte) := by
  by_cases hpage : a / 128 = (a + b.length - 1) / 128
  · rw [okWrite_inPage hd hpage, ht]
    exact ⟨rfl, fun _ => (eepromByte_filled (s := s) rfl).1, fun h => absurd hpage h⟩
  · rw [okWrite_crossing hd hpage, ht]
    exact ⟨rfl, fun h => absurd h hpage, fun _ => havoc_range_drawn⟩

/-- After a change of the inputs, the cycle is left as by a failed write (log 10). -/
theorem okWrite_disturbed_cycle (hd : s.disturbed = true) :
    mayLeaveCycle a b.length s.choice s (okWrite hit a b s) := by
  rw [okWrite, if_pos hd]
  exact failedWrite_leaves ..

/-! An answer with an error. -/

theorem writeAnswered_err (he : s.choice.err ≠ 0) :
    writeAnswered p hit a b s = raise p .transferFailed s.choice.err
      ((failedWrite a b.length s.choice s).answered.addLog (.wr p a b (.err s.choice.err))) := by
  rw [writeAnswered, if_neg he, writeFailed, plainResult, if_neg he]

end

/-- Settles O22: the block by `writeAnswered_ok_block`, the device by the cases of `okWrite`. -/
theorem writeChunkStartsCycleAndSettle : Obligations.WriteChunkStartsCycleAndSettle := by
  intro s o n b q a dev v hit hp hph hb he hv hwin
  obtain ⟨hport, hoth, hcfg, hlock, hlc, hhost, hbus, hset, hlog⟩ :=
    writeAnswered_ok_block (hit := hit) (a := a) (b := v) hp he
  obtain ⟨hwc, hE⟩ := writeAnswered_ok_device (p := s.sel) (hit := hit) (a := a) (b := v) he
  obtain ⟨hmin, hmax⟩ := settleDraw_window hwin s.choice
  refine ⟨_, exec_write_bus hph hb, hport, hbus, hset ▸ hmin, hset ▸ hmax, hset ▸ hlog, ?_⟩
  rw [mayLeaveCycle, sameEeprom, hwc, hE]
  refine ⟨?_, ?_, ?_, ?_, okWrite_drawn, okWrite_disturbed_cycle, fun x => eepromByte_okWrite, hoth, hcfg,
    hlock, hlc, sameHost_of_eq hhost⟩
  · rintro hd rfl ht hpage
    obtain ⟨hsame, hin, -⟩ := okWrite_starts (a := a) (b := v) hd ht
    exact ⟨hin hpage, hsame⟩
  · rintro hd rfl ht hpage
    obtain ⟨hsame, -, hcross⟩ := okWrite_starts (a := a) (b := v) hd ht
    exact ⟨hcross hpage, hsame⟩
  · rintro hd rfl ht
    exact okWrite_over hd ht
  · rintro hd rfl
    rw [okWrite_hit hd]
    rfl

/-- Settles O23: a failed write, and the end of the command. -/
theorem writeFailsWithTheBusError : Obligations.WriteFailsWithTheBusError := by
  intro s o n b q a dev v hit hp hph hown hb he
  have hexec := exec_write_bus (o := o) (n := n) (b := b) hph hb
  rw [writeAnswered_err he] at hexec
  have hleaves := failedWrite_leaves a v.length s.choice s
  have hin := failedWrite_drawn (s := s) (a := a) (n := v.length) (c := s.choice)
  have hout (x : Nat) (hx : ¬ inWriteRange a v.length x) :=
    eepromByte_failedWrite (s := s) (c := s.choice) (out_of_not_inWriteRange hx)
  generalize hu : (failedWrite a v.length s.choice s).answered.addLog (.wr s.sel a v (.err s.choice.err)) = u
    at hexec
  have hports : u.ports = s.ports := by simp [← hu]
  have hE : (raise s.sel .transferFailed s.choice.err u).eepromByte =
      (failedWrite a v.length s.choice s).eepromByte := funext (sameEeprom_of_eq (by simp [← hu]))
  have hwc : (raise s.sel .transferFailed s.choice.err u).wc = (failedWrite a v.length s.choice s).wc := by
    simp [← hu]
  obtain ⟨hresp, hoth, hcfg, hlc⟩ := (Kept.of_ports (p := s.sel) hports (by simp [← hu, sameConfig])
    (by simp [← hu, sameLifecycle])).raise (st := .transferFailed) (e := s.choice.err) hp
  refine ⟨_, hexec, hresp, raise_frees hown (by simp [← hu, sameLock]), by simp [← hu],
    raise_operands hp hports, by rwa [hE], by rwa [hE], by rwa [mayLeaveCycle, hwc], by simp [← hu],
    by simp [← hu], hoth, hcfg, hlc, sameHost_of_eq (by simp [← hu])⟩

end Sys2Proof.Machine
end

section
/-! SUPPORT. A step seen from a context that does not take it: the commands of the other contexts and the moves
of the environment (60_exceptions.md R236). -/

namespace Sys2Proof.Machine

/-- The fields and the responses of context q are as they were (60_exceptions.md R236). -/
abbrev sameContext (q : Nat) (s t : State) : Prop :=
  (t.port q).ph = (s.port q).ph ∧ sameOperands q s t ∧ (t.port q).resps = (s.port q).resps

/-- The queue and the race marks of a port are no part of its context. -/
theorem sameContext.of_port {q : Nat} {s t : State} {ds : List Desc} {r : List (Nat × Nat)}
    (h : t.port q = { s.port q with reqs := ds, raced := r }) : sameContext q s t := by
  rw [sameContext, sameOperands, h]
  exact ⟨rfl, ⟨rfl, rfl, rfl, rfl, rfl, rfl⟩, rfl⟩

theorem sameContext.of_eq {q : Nat} {s t : State} (h : t.port q = s.port q) : sameContext q s t :=
  .of_port (ds := (s.port q).reqs) (r := (s.port q).raced) h

/-! The commands of another context. -/

section
variable {p q : Nat} {s t : State}

theorem issue_other (hq : q ≠ p) (cmd : BusCmd) : (issue p cmd s).port q = s.port q := by
  rw [issue_port, if_neg fun e => hq e.1]

theorem initCursor_other (hq : q ≠ p) : (initCursor p s).port q = s.port q := port_setPort_ne _ _ hq

theorem advance_other (hq : q ≠ p) : (advance p s).port q = s.port q := port_setPort_ne _ _ hq

theorem awaitLock_other (hq : q ≠ p) (h : awaitLock p s = .next t) : t.port q = s.port q := by
  unfold awaitLock at h
  split at h <;> cases h
  · rfl
  · rw [takeLock_port, if_neg fun e => hq e.1]

theorem readNext_other (hq : q ≠ p) (h : readNext p s = .next t) : t.port q = s.port q := by
  unfold readNext at h
  split_ifs at h <;> cases h
  · exact raise_other hq
  · rw [issue_other hq, port_setPort_ne _ _ hq]

theorem writeNext_other (hq : q ≠ p) (h : writeNext p s = .next t) : t.port q = s.port q := by
  unfold writeNext at h
  split_ifs at h <;> cases h
  · exact raise_other hq
  · rw [issue_other hq, port_setPort_ne _ _ hq, memRead_port]

theorem readBegin_other (hq : q ≠ p) (h : readBegin p s = .next t) : t.port q = s.port q := by
  unfold readBegin at h
  split_ifs at h
  · cases h; exact raise_other hq
  · exact (readNext_other hq h).trans (initCursor_other hq)

theorem writeBegin_other (hq : q ≠ p) (h : writeBegin p s = .next t) : t.port q = s.port q := by
  unfold writeBegin at h
  split_ifs at h
  · cases h; exact raise_other hq
  · exact (writeNext_other hq h).trans (initCursor_other hq)

theorem readAnswered_other {a n : Nat} {hit : Bool} (hq : q ≠ p)
    (h : readAnswered p hit a n s = .next t) : t.port q = s.port q := by
  unfold readAnswered at h
  split_ifs at h
  · rw [readNext_other hq h, advance_other hq]; simp
  · cases h; rw [readFailed, raise_other hq]; simp

theorem writeAnswered_other (hq : q ≠ p) (hit : Bool) (a : Nat) (b : List Byte) :
    (writeAnswered p hit a b s).port q = s.port q := by
  unfold writeAnswered
  split_ifs
  · rw [writeTaken, loadSettle_port, if_neg fun e => hq e.1]; simp
  · rw [writeFailed, raise_other hq]; simp

theorem writeSettled_other (hq : q ≠ p) (h : writeSettled p s = .next t) : t.port q = s.port q := by
  unfold writeSettled at h
  split_ifs at h
  · cases h; rfl
  · exact (writeNext_other hq h).trans (advance_other hq)

end

section
variable {q : Nat} {i : Instr} {s t : State}

theorem exec_lifecycle_other (hl : i = .attach ∨ i = .detach) (hp : s.sel < s.ports.length)
    (hq : q ≠ s.sel) (h : exec i s = .next t) : t.port q = s.port q := by
  by_cases hi : (s.port s.sel).ph = .idle
  · rw [exec_idle_lifecycle hl hp hi] at h
    cases h
    exact port_setPort_ne _ _ hq
  · exact (exec_lifecycle_step hl hp hi h).others.2 q hq

theorem execRead_other {o n b : Word} (hq : q ≠ s.sel) (h : execRead o n b s = .next t) :
    ∃ r, t.port q = { s.port q with raced := r } := by
  unfold execRead at h
  split at h
  case h_1 => cases h; exact acceptTransfer_other hq
  case h_2 => exact ⟨_, awaitLock_other hq h⟩
  case h_3 => exact ⟨_, readBegin_other hq h⟩
  case h_4 =>
    split at h
    · exact ⟨_, readAnswered_other hq h⟩
    · cases h
  case h_5 => cases h
  case h_6 => cases h

theorem execWrite_other {o n b : Word} (hq : q ≠ s.sel) (h : execWrite o n b s = .next t) :
    ∃ r, t.port q = { s.port q with raced := r } := by
  unfold execWrite at h
  split at h
  case h_1 => cases h; exact acceptTransfer_other hq
  case h_2 => exact ⟨_, awaitLock_other hq h⟩
  case h_3 => exact ⟨_, writeBegin_other hq h⟩
  case h_4 =>
    split at h
    · cases h; exact ⟨_, writeAnswered_other hq ..⟩
    · cases h
  case h_5 => exact ⟨_, writeSettled_other hq h⟩
  case h_6 => cases h

/-- A step of a command gives the other ports race marks at most (20_memory.md R86). -/
theorem exec_other (hp : s.sel < s.ports.length) (hq : q ≠ s.sel) (h : exec i s = .next t) :
    ∃ r, t.port q = { s.port q with raced := r } := by
  cases i with
  | attach => exact ⟨_, exec_lifecycle_other (.inl rfl) hp hq h⟩
  | detach => exact ⟨_, exec_lifecycle_other (.inr rfl) hp hq h⟩
  | read o n b => exact execRead_other hq h
  | write o n b => exact execWrite_other hq h

/-- A step of context p leaves every other context. -/
theorem contextStep_other {p : Nat} {c : Choice} (hq : q ≠ p) (h : contextStep p c s = .next t) :
    sameContext q s t := by
  unfold contextStep at h
  have hf := fetch_finds p { s with sel := p, choice := c }
  generalize fetch p { s with sel := p, choice := c } = f at hf h
  cases hf with
  | nothing => cases h; exact .of_eq rfl
  | illegal => cases h; exact .of_eq ((raise_other hq).trans (port_setPort_ne _ _ hq))
  | descriptor hp =>
    obtain ⟨r, hr⟩ := exec_other (by simpa using hp) hq h
    rw [port_setPort_ne _ _ hq] at hr
    exact .of_port hr
  | latched hp =>
    obtain ⟨r, hr⟩ := exec_other hp hq h
    exact .of_port hr
  | stray => cases h

end

/-! The environment. -/

theorem present_context (p : Nat) (d : Desc) (s : State) (q : Nat) : sameContext q s (present p d s) := by
  by_cases hq : q = p ∧ p < s.ports.length
  · obtain ⟨rfl, hp⟩ := hq
    exact .of_port (port_setPort_self _ _ hp)
  · exact .of_eq (by rw [present, port_setPort, if_neg hq])

/-- A move that is neither a step of a context nor a block reset leaves the lock and every context; the
clock alone touches the settle count. -/
theorem runMove_environment {m : Move} {s t : State} (h : runMove m s = .next t)
    (hp : ∀ p c, m ≠ .port p c) (hr : ∀ c, m ≠ .reset c) :
    sameLock s t ∧ (m ≠ .tick → t.settleCnt = s.settleCnt) ∧ ∀ q, sameContext q s t := by
  cases m with
  | port p c => exact absurd rfl (hp p c)
  | reset c => exact absurd rfl (hr c)
  | tick =>
    cases h
    exact ⟨⟨tick_locked s, tick_lockOwner s⟩, fun hne => absurd rfl hne, fun q => .of_eq (tick_port s q)⟩
  | present p d =>
    cases h
    exact ⟨⟨rfl, rfl⟩, fun _ => rfl, present_context p d s⟩
  | hostWrite a v =>
    cases h
    obtain ⟨-, -, hl, ho, -, hset, -, hport, -⟩ := hostWrite_frame a v s
    exact ⟨⟨hl, ho⟩, fun _ => hset, fun q => .of_port (hport q).choose_spec⟩
  | hostRead a n =>
    cases h
    obtain ⟨v, d, m, ps, e, -, hport⟩ := hostRead_frame a n s
    refine ⟨?_, fun _ => ?_, fun q => .of_port (hport q).choose_spec⟩
    · rw [e]; exact ⟨rfl, rfl⟩
    · rw [e]
  | collab k =>
    cases h
    obtain ⟨r, l, e⟩ := lateCollab_frame k s
    rw [e]
    exact ⟨⟨rfl, rfl⟩, fun _ => rfl, fun q => .of_eq rfl⟩
  | discard => cases h; exact ⟨⟨rfl, rfl⟩, fun _ => rfl, fun q => .of_eq rfl⟩
  | powerLoss c =>
    cases h
    obtain ⟨e, w, d, hf⟩ := powerLoss_frame c s
    rw [hf]
    exact ⟨⟨rfl, rfl⟩, fun _ => rfl, fun q => .of_eq rfl⟩
  | inputs full dev => cases h; exact ⟨⟨rfl, rfl⟩, fun _ => rfl, fun q => .of_eq rfl⟩

/-- Settles O58: the clock, a step of another context, or a move of the environment. -/
theorem contextsAreIndependent : Obligations.ContextsAreIndependent := by
  intro s t p h hport hreset
  cases ha : s.agenda with
  | nil =>
    rw [step_nil ha] at h
    cases h
    exact sameContext.of_eq (tick_port s p)
  | cons m rest =>
    rw [step_cons ha] at h
    by_cases hm : ∃ q c, m = .port q c
    · obtain ⟨q, c, rfl⟩ := hm
      have hq : p ≠ q := fun e => hport c rest (by rw [ha, e])
      exact contextStep_other (s := { s with agenda := rest }) hq h
    · obtain ⟨-, -, hctx⟩ := runMove_environment h (fun q c e => hm ⟨q, c, e⟩)
        fun c e => hreset c rest (by rw [ha, e])
      exact hctx p

end Sys2Proof.Machine
end

section
/-! SUPPORT. The end of a command in one step (60_exceptions.md R216). -/

namespace Sys2Proof.Machine

/-- Settles O12: `raise` writes its port and frees the lock of its owner. -/
theorem raiseStatusEndsTheCommand : Obligations.RaiseStatusEndsTheCommand := by
  intro s p st e hp
  obtain ⟨hresp, hoth, hcfg, hlc⟩ := (Kept.refl p s).raise (st := st) (e := e) hp
  exact ⟨hresp, raise_lockFree, raise_sameLock, raise_operands hp rfl, hoth, hcfg, hlc, raise_settleCnt ..,
    sameEeprom_of_eq (raise_eeprom ..), raise_wc .., sameHost_of_eq (raise_host ..), raise_bus ..,
    raise_log ..⟩

end Sys2Proof.Machine
end

section
/-! SUPPORT. The settle: its window, the clock, what ends it, and the chunk after it (60_exceptions.md R230 to
R232). -/

namespace Sys2Proof.Machine

/-- Settles O35: the window by `settleDraw_window`, and a count of it by the choice of that count. -/
theorem settleIsDrawnFromItsWindow : Obligations.SettleIsDrawnFromItsWindow := by
  refine fun P h => ⟨settleDraw_window h, fun n hmin hmax => ⟨{ settle := n }, ?_⟩⟩
  rw [settleDraw, min_eq_right hmax, max_eq_right hmin]

/-- Settles O39: the write cycle by its ticks left, its last tick by the cells it fills. -/
theorem tickCountsDown : Obligations.TickCountsDown := by
  intro s
  refine ⟨tick_settleCnt s, fun hw => ?_, fun n cells hw hn => ?_, fun a v hw => ?_, fun cells hw => ?_,
    tick_ports s, by simp [sameConfig], by simp [sameLock], by simp [sameLifecycle],
    sameHost_of_eq (tick_host s), tick_bus s, tick_log s⟩
  · exact (tick_idle hw).imp_right sameEeprom_of_eq
  · exact (tick_down hw hn).imp_right sameEeprom_of_eq
  · exact (tick_last hw).imp_right eepromByte_filled
  · obtain ⟨hidle, he⟩ := tick_last hw
    have hE : sameEeprom (s.fillEeprom cells) (tick s) := sameEeprom_of_eq he
    refine ⟨hidle, fun x hx => ?_, fun x b hx hall => ?_, ?_⟩
    · rw [hE, eepromByte_fillEeprom_ne hx]
    · rw [hE, State.eepromByte, fillEeprom_eeprom, fill_some cells _ _ hx hall]; rfl
    · exact fillEeprom_drawn.of (fun _ hx => hx) fun x _ => hE x

/-! The chunk after the settle. -/

/-- While the count is nonzero a WRITE in SETTLE has no step (60_exceptions.md R230). -/
theorem exec_write_settling {s : State} {o n b : Word} (hph : (s.port s.sel).ph = .settle)
    (hcnt : s.settleCnt ≠ 0) : exec (.write o n b) s = .next s := by
  rw [exec, execWrite, hph]
  exact if_pos hcnt

/-- Settles O24: no step while the count runs, and then the cursor and the issue of the next chunk. -/
theorem writeGoesOnAfterTheSettle : Obligations.WriteGoesOnAfterTheSettle := by
  intro s o n b hp hph
  refine ⟨exec_write_settling hph, fun hcnt hmore hcur hbuf => ?_⟩
  have hself := advance_self hp
  obtain ⟨t, v, ht, hiss, htaken, hbus⟩ := writeNext_issues (p := s.sel) (u := advance s.sel s)
    (by simpa using hp) (by rw [hself]; dsimp only; omega) (by rw [hself]; dsimp only; omega)
    (by rw [hself]; dsimp only [advance_params]; omega)
  obtain ⟨hcfg, hlc, hoth, hqueues⟩ := (advance_kept hp).trans hiss.kept
  obtain ⟨hlen, hstored, hdrawn⟩ := htaken.congr (s := s) (by rw [hself]) rfl rfl
  have hport := hiss.port
  rw [hself] at hport
  exact ⟨t, v, (exec_write_settled hph hcnt).trans ht, by rw [hport], by rw [hport], by rw [hport],
    by rw [hport], by rw [hport], by rw [hport]; rfl, by rw [hport], by rw [hport], hqueues, hlen, hstored,
    hdrawn, hbus, hoth, hcfg, hiss.lock, hlc, hiss.settle, sameEeprom_of_eq hiss.memory.1,
    sameHost_of_eq hiss.memory.2, hiss.log, hiss.cycle⟩

/-! No cancellation. -/

/-- A command that waits, or whose call is at the collaborator, touches neither a held lock nor the settle
count. -/
theorem exec_without_lock {i : Instr} {s t : State} (hl : s.locked = true) (ho : s.ownedBy s.sel = false)
    (hph : holdsLock (s.port s.sel).ph = false) (h : exec i s = .next t) :
    sameLock s t ∧ t.settleCnt = s.settleCnt := by
  cases hs : (s.port s.sel).ph with
  | idle =>
    by_cases ht : (latchOf i).isTransfer = true
    · rw [exec_idle_transfer ht hs] at h
      cases h
      obtain ⟨-, hlock, hset, -⟩ := acceptTransfer_leaves (d := latchOf i) ho
      exact ⟨hlock, hset⟩
    · cases i with
      | attach => rw [exec, execAttach, hs] at h; cases h; exact ⟨⟨rfl, rfl⟩, rfl⟩
      | detach => rw [exec, execDetach, hs] at h; cases h; exact ⟨⟨rfl, rfl⟩, rfl⟩
      | read o n b => exact absurd rfl ht
      | write o n b => exact absurd rfl ht
  | waitLock =>
    rw [exec_waitLock hs, awaitLock, if_pos hl] at h
    cases h
    exact ⟨⟨rfl, rfl⟩, rfl⟩
  | collab =>
    cases i with
    | attach =>
      rw [exec_attach_collab hs] at h
      cases h
      refine ⟨(attachRegistered_keeps ho).1, ?_⟩
      unfold attachRegistered
      split_ifs <;> simp
    | detach =>
      rw [exec_detach_collab hs] at h
      cases h
      exact ⟨raise_sameLock ho, raise_settleCnt ..⟩
    | read o n b => rw [exec, execRead, hs] at h; cases h
    | write o n b => rw [exec, execWrite, hs] at h; cases h
  | active => rw [hs] at hph; cases hph
  | bus => rw [hs] at hph; cases hph
  | settle => rw [hs] at hph; cases hph

section
variable {s t : State} {p : Nat} {c : Choice}

/-- A step of a context that does not hold the lock touches neither a held lock nor the settle count. -/
theorem contextStep_without_lock (hinv : Inv s) (hl : s.locked = true)
    (hph : holdsLock (s.port p).ph = false) (h : contextStep p c s = .next t) :
    sameLock s t ∧ t.settleCnt = s.settleCnt := by
  have ho (hp : p < s.ports.length) : s.ownedBy p = false := (owned_iff hinv hp).trans hph
  unfold contextStep at h
  have hf := fetch_finds p { s with sel := p, choice := c }
  generalize fetch p { s with sel := p, choice := c } = f at hf h
  cases hf with
  | nothing => cases h; exact ⟨⟨rfl, rfl⟩, rfl⟩
  | illegal hp => cases h; exact ⟨raise_sameLock (ho hp), raise_settleCnt ..⟩
  | @descriptor d ds i hp =>
    refine exec_without_lock (s := afterTaking p ds { s with sel := p, choice := c }) hl (ho hp) ?_ h
    rw [setPort_sel, port_setPort_self _ _ hp]
    exact hph
  | latched hp => exact exec_without_lock (s := { s with sel := p, choice := c }) hl (ho hp) hph h
  | stray => cases h

/-- A step of the context that settles is passed over. -/
theorem contextStep_settling (hinv : Inv s) (hp : p < s.ports.length) (hph : (s.port p).ph = .settle)
    (hcnt : s.settleCnt ≠ 0) : contextStep p c s = .next { s with sel := p, choice := c } := by
  have hne : (s.port p).ph ≠ .idle := by rw [hph]; decide
  have hop := settle_op hinv hp hph
  obtain ⟨i, hi⟩ := inFlight_instr hinv hp hne
  rw [contextStep_run (fetch_latched (s := { s with sel := p, choice := c }) hp hne hi)]
  cases i with
  | attach => exact absurd ((instr_attach hi).symm.trans hop) (by decide)
  | detach => exact absurd ((instr_detach hi).symm.trans hop) (by decide)
  | read o n b => exact absurd ((instr_read hi).symm.trans hop) (by decide)
  | write o n b => exact exec_write_settling hph hcnt

/-- While a settle runs, no step of a context touches it, the lock or the context that settles. -/
theorem contextStep_keeps_settle (hinv : Inv s) (hcnt : s.settleCnt ≠ 0)
    (h : contextStep p c s = .next t) :
    sameLock s t ∧ t.settleCnt = s.settleCnt ∧ sameContext s.lockOwner.toNat s t := by
  obtain ⟨hl, hph⟩ := hinv.settleOwner hcnt
  obtain ⟨hown, hholds⟩ := hinv.lockOwned hl
  by_cases hp : p = s.lockOwner.toNat
  · subst hp
    rw [contextStep_settling hinv hown hph hcnt] at h
    cases h
    exact ⟨⟨rfl, rfl⟩, rfl, .of_eq rfl⟩
  · have hout : holdsLock (s.port p).ph = false := by
      by_contra hc
      rw [Bool.not_eq_false] at hc
      have hlt := port_lt_of_ne_idle fun e => by rw [e] at hc; cases hc
      exact hp (hinv.lockHeld p hlt hc).2.symm
    obtain ⟨hlock, hset⟩ := contextStep_without_lock hinv hl hout h
    exact ⟨hlock, hset, contextStep_other (Ne.symm hp) h⟩

/-- While a settle runs, every move but a block reset keeps the lock and the context that settles, and every
move but the clock's keeps the count too. -/
theorem runMove_keeps_settle {m : Move} (hinv : Inv s) (hcnt : s.settleCnt ≠ 0)
    (h : runMove m s = .next t) (hr : ∀ c, m ≠ .reset c) : sameLock s t ∧
      (m ≠ .tick → t.settleCnt = s.settleCnt) ∧ sameContext s.lockOwner.toNat s t := by
  by_cases hm : ∃ p c, m = .port p c
  · obtain ⟨p, c, rfl⟩ := hm
    obtain ⟨hlock, hset, hctx⟩ := contextStep_keeps_settle hinv hcnt h
    exact ⟨hlock, fun _ => hset, hctx⟩
  · obtain ⟨hlock, hset, hctx⟩ := runMove_environment h (fun p c e => hm ⟨p, c, e⟩) hr
    exact ⟨hlock, hset, hctx _⟩

/-- The lock owner is in SETTLE, as before. -/
theorem still_settles (hinv : Inv s) (hcnt : s.settleCnt ≠ 0) (hlock : sameLock s t)
    (hctx : sameContext s.lockOwner.toNat s t) : t.locked = true ∧ t.lockOwner = s.lockOwner ∧
      (t.port s.lockOwner.toNat).ph = .settle ∧ sameOperands s.lockOwner.toNat s t ∧
      (t.port s.lockOwner.toNat).resps = (s.port s.lockOwner.toNat).resps := by
  obtain ⟨hl, hph⟩ := hinv.settleOwner hcnt
  obtain ⟨hph', hops, hresps⟩ := hctx
  exact ⟨hlock.1.trans hl, hlock.2, hph'.trans hph, hops, hresps⟩

end

/-- Settles O37: the clock and a block reset set the count, and `runMove_keeps_settle` says the rest. -/
theorem settleIsNotCancelled : Obligations.SettleIsNotCancelled := by
  intro s t hinv hcnt h
  cases ha : s.agenda with
  | nil =>
    rw [step_nil ha] at h
    obtain ⟨hlock, -, hctx⟩ := runMove_keeps_settle (m := .tick) hinv hcnt h nofun
    cases h
    exact ⟨fun _ => tick_settleCnt s, nofun, fun hne => absurd rfl hne,
      fun _ => still_settles hinv hcnt hlock hctx⟩
  | cons m rest =>
    rw [step_cons ha] at h
    have hkeep := runMove_keeps_settle (hinv.withAgenda rest) hcnt h
    refine ⟨?_, ?_, fun _ htick hreset => ?_, fun hreset => ?_⟩
    · rintro (e | ⟨_, e⟩)
      · cases e
      · cases e; cases h; exact tick_settleCnt _
    · rintro ⟨c, _, e⟩
      cases e; cases h; rfl
    · obtain ⟨-, hset, -⟩ := hkeep fun c e => hreset c rest (by rw [e])
      exact hset fun e => htick rest (by rw [e])
    · obtain ⟨hlock, -, hctx⟩ := hkeep fun c e => hreset c rest (by rw [e])
      exact still_settles hinv hcnt hlock hctx

end Sys2Proof.Machine
end

section
/-! SUPPORT. The state after reset (70_reset_and_hazards.md R251): its values, and the invariants in it. -/

namespace Sys2Proof.Machine

/-- Every port of the state after reset is a port at reset. -/
theorem reset_port (p : Nat) : State.reset.port p = Port.reset :=
  match p with
  | 0 => rfl
  | 1 => rfl
  | _ + 2 => rfl

/-- Settles O46: the values of the default parameters. -/
theorem resetStateHasTheResetValues : Obligations.ResetStateHasTheResetValues := by
  refine ⟨rfl, rfl, rfl, rfl, rfl, rfl, rfl, fun c hc => ?_⟩
  obtain rfl | rfl := List.mem_pair.1 hc <;> exact ⟨rfl, rfl, rfl, rfl, rfl, rfl, rfl⟩

/-- Settles O48: every context is IDLE, the lock is free, and nothing is outstanding. -/
theorem resetMeetsTheInvariants : Obligations.ResetMeetsTheInvariants where
  params := by decide
  nPorts := rfl
  ownerClear _ := rfl
  settleOwner h := absurd rfl h
  rmValid := by decide
  busIssuer := nofun
  busWait p _ h := by rw [reset_port] at h; cases h
  lockHeld p _ h := by rw [reset_port] at h; cases h
  lockOwned := nofun
  phases p _ := by rw [reset_port]; trivial
  widths p _ := by rw [reset_port]; simp [Port.reset]
  oneCollab p _ _ _ h := by rw [reset_port] at h; cases h
  settleBound := Nat.zero_le _
  eepromWf := .nil
  eepromIn := nofun
  hostWf := .nil
  hostIn := nofun
  cycle := trivial
  settleLong p _ h := by rw [reset_port] at h; cases h

end Sys2Proof.Machine
end

section
/-! SUPPORT. The bus after a change of the inputs (70_reset_and_hazards.md R262). -/

namespace Sys2Proof.Machine

/-- Filling n cells that all say `ANY` takes n draws. -/
theorem fill_anyCells_draws (n a : Nat) (m : Memory) (d : Draws) :
    (fill (anyCells a n) m d).2 = (Draws.bytes n d).2 := by
  induction n generalizing a m d with
  | zero => rfl
  | succ n ih => exact ih (a + 1) (m.put a d.byte.1) d.byte.2

/-- The mark is set by a change while not DETACHED, and never cleared. -/
theorem setInputs_disturbed (full : Bool) (dev : BitVec 16) (s : State) :
    (setInputs full dev s).disturbed = true ↔ s.disturbed = true ∨
      (s.attachState ≠ .detached ∧ (full ≠ s.busFullAddr ∨ dev ≠ s.devAddr)) := by
  simp [setInputs]

section
variable {s : State} {a n : Nat}

/-- Under the mark a read leaves the first draws in the array. -/
theorem readEffect_bytes (hd : s.disturbed = true) {j : Nat} (hj : j < n) :
    (Draws.bytes n s.draws).1[j]? = some ((readEffect a n s).eepromByte (a + j)) := by
  rw [bytes_get _ hj, readEffect, if_pos hd, State.eepromByte]
  exact congrArg (fun o => some (Option.getD o _)) (fill_anyCells_get? hj a s.eeprom s.draws).symm

/-- Under the mark a read answers the draws after those. -/
theorem readBytes_after_effect (hit : Bool) (hd : s.disturbed = true) :
    readBytes hit a n (readEffect a n s) = (Draws.bytes n (Draws.bytes n s.draws).2).1 := by
  rw [readBytes, if_pos (by simp [hd]), readEffect, if_pos hd]
  exact congrArg (fun d => (Draws.bytes n d).1) (fill_anyCells_draws n a s.eeprom s.draws)

end

/-- With the cursor inside the array, the head of READ's loop has a step. -/
theorem readNext_next {u : State} {p : Nat} (hp : p < u.ports.length)
    (hc : (u.port p).cur + (u.port p).rem ≤ 65536) : ∃ t, readNext p u = .next t := by
  by_cases hr : (u.port p).rem = 0
  · exact ⟨_, readNext_done hr⟩
  · obtain ⟨t, ht, -⟩ := readNext_issues hp hr hc
    exact ⟨t, ht⟩

/-- READ takes the answer Ok to its chunk: the device's effect, and the answered bytes in the log. -/
theorem exec_read_answered {s : State} {o n b : Word} {q : Nat} {dev : BitVec 16} {hit : Bool}
    (hp : s.sel < s.ports.length) (hph : (s.port s.sel).ph = .bus)
    (hb : s.bus = some ⟨q, dev, .read (s.port s.sel).cur (s.port s.sel).clen, hit⟩)
    (he : s.choice.err = 0) (hle : (s.port s.sel).clen ≤ (s.port s.sel).rem)
    (hcur : (s.port s.sel).cur + (s.port s.sel).rem ≤ 65536)
    (hbuf : (s.port s.sel).buf + (s.port s.sel).rem ≤ 2 ^ s.params.hostAw) :
    ∃ t, exec (.read o n b) s = .next t ∧
      t.eeprom = (readEffect (s.port s.sel).cur (s.port s.sel).clen s).eeprom ∧
      t.log = s.log ++ [.rd s.sel (s.port s.sel).cur (s.port s.sel).clen (.ok
        (readBytes hit (s.port s.sel).cur (s.port s.sel).clen
          (readEffect (s.port s.sel).cur (s.port s.sel).clen s)))] := by
  have hexec := (exec_read_bus (o := o) (n := n) (b := b) hph hb).trans
    (readAnswered_ok he (by rw [max_self]; exact (Nat.add_le_add_left hle _).trans hbuf))
  have harr := chunkArrived_arrived s.sel hit (s.port s.sel).cur (s.port s.sel).clen s
  have hself := harr.advance_port hp
  obtain ⟨t, ht⟩ := readNext_next
    (u := advance s.sel (chunkArrived s.sel hit (s.port s.sel).cur (s.port s.sel).clen s))
    (by simpa using hp) (by rw [hself]; dsimp only; omega)
  obtain ⟨hlog, heep⟩ := readNext_record ht
  exact ⟨t, hexec.trans ht, heep.trans (by simp), hlog.trans harr.log⟩

/-- Settles O40: the mark, the effects of R262 on each operation, and READ's answer, whose draws come after
those of the array. -/
theorem changedInputsDisturbTheBus : Obligations.ChangedInputsDisturbTheBus := by
  intro s full dev
  refine ⟨setInputs_disturbed full dev s, rfl, rfl, fun hd hit a n b => ?_,
    fun hd o n b q dv hit hp hph hb he hle hcur hbuf => ?_⟩
  · exact ⟨if_pos (by simp [hd]), fun x => eepromByte_readEffect, readEffect_drawn hd,
      fun x => eepromByte_okWrite, okWrite_drawn (.inr hd)⟩
  · obtain ⟨t, ht, heep, hlog⟩ :=
      exec_read_answered (o := o) (n := n) (b := b) hp hph hb he hle hcur hbuf
    refine ⟨t, ht, fun j hj => ?_, by rw [hlog, readBytes_after_effect hit hd]⟩
    rw [readEffect_bytes hd hj]
    exact congrArg some (sameEeprom_of_eq heep _).symm

end Sys2Proof.Machine
end

section
/-! SUPPORT. What the steps do to the collaborator: `REGISTERED` and the calls that a block reset left there
(10_state.md R38; 70_reset_and_hazards.md R252, R253). -/

namespace Sys2Proof.Machine

/-- A call left at the collaborator takes effect there. -/
theorem lateCollab_some {s : State} {k : Nat} {x : CollabCall} (h : s.lingering[k]? = some x) :
    lateCollab k s = { s with registered := x.registers, lingering := s.lingering.eraseIdx k } := by
  rw [lateCollab, h]; rfl

theorem registers_iff {x : CollabCall} : x.registers = true ↔ x = .register := by
  cases x <;> simp [CollabCall.registers]

/-! The commands. -/

theorem awaitLock_lingering {s t : State} {p : Nat} (h : awaitLock p s = .next t) :
    t.lingering = s.lingering := by
  unfold awaitLock at h
  split at h <;> cases h <;> rfl

theorem acceptTransfer_lingering (p : Nat) (d : Latch) (s : State) :
    (acceptTransfer p d s).lingering = s.lingering := by
  unfold acceptTransfer
  split <;> simp

theorem readNext_lingering {s t : State} {p : Nat} (h : readNext p s = .next t) :
    t.lingering = s.lingering := by
  unfold readNext at h
  split_ifs at h <;> cases h <;> simp

theorem writeNext_lingering {s t : State} {p : Nat} (h : writeNext p s = .next t) :
    t.lingering = s.lingering := by
  unfold writeNext at h
  split_ifs at h <;> cases h <;> simp

theorem readBegin_lingering {s t : State} {p : Nat} (h : readBegin p s = .next t) :
    t.lingering = s.lingering := by
  unfold readBegin at h
  split_ifs at h
  · cases h; simp
  · exact (readNext_lingering h : t.lingering = (initCursor p s).lingering)

theorem writeBegin_lingering {s t : State} {p : Nat} (h : writeBegin p s = .next t) :
    t.lingering = s.lingering := by
  unfold writeBegin at h
  split_ifs at h
  · cases h; simp
  · exact (writeNext_lingering h : t.lingering = (initCursor p s).lingering)

theorem readAnswered_lingering {s t : State} {p a n : Nat} {hit : Bool}
    (h : readAnswered p hit a n s = .next t) : t.lingering = s.lingering := by
  unfold readAnswered at h
  split_ifs at h
  · exact (readNext_lingering h).trans (by simp)
  · cases h; simp [readFailed]

theorem writeAnswered_lingering (p : Nat) (hit : Bool) (a : Nat) (b : List Byte) (s : State) :
    (writeAnswered p hit a b s).lingering = s.lingering := by
  unfold writeAnswered
  split_ifs <;> simp [writeTaken, writeFailed]

theorem writeSettled_lingering {s t : State} {p : Nat} (h : writeSettled p s = .next t) :
    t.lingering = s.lingering := by
  unfold writeSettled at h
  split_ifs at h
  · cases h; rfl
  · exact (writeNext_lingering h : t.lingering = (advance p s).lingering)

theorem execRead_lingering {s t : State} {o n b : Word} (h : execRead o n b s = .next t) :
    t.lingering = s.lingering := by
  unfold execRead at h
  split at h
  case h_1 => cases h; exact acceptTransfer_lingering ..
  case h_2 => exact awaitLock_lingering h
  case h_3 => exact readBegin_lingering h
  case h_4 =>
    split at h
    · exact readAnswered_lingering h
    · cases h
  case h_5 => cases h
  case h_6 => cases h

theorem execWrite_lingering {s t : State} {o n b : Word} (h : execWrite o n b s = .next t) :
    t.lingering = s.lingering := by
  unfold execWrite at h
  split at h
  case h_1 => cases h; exact acceptTransfer_lingering ..
  case h_2 => exact awaitLock_lingering h
  case h_3 => exact writeBegin_lingering h
  case h_4 =>
    split at h
    · cases h; exact writeAnswered_lingering ..
    · cases h
  case h_5 => exact writeSettled_lingering h
  case h_6 => cases h

/-- What a step of context p does to the collaborator: no call that waits there is touched, and only an
answer to the context in COLLAB writes `REGISTERED`. -/
abbrev collabStep (p : Nat) (s t : State) : Prop :=
  t.lingering = s.lingering ∧ (t.registered = s.registered ∨ (s.port p).ph = .collab)

theorem execAttach_collab {s t : State} (h : execAttach s = .next t) : collabStep s.sel s t := by
  unfold execAttach at h
  split at h
  case h_1 => cases h; exact ⟨rfl, .inl rfl⟩
  case h_2 =>
    obtain ⟨-, -, hreg⟩ := awaitLock_lifecycle h
    exact ⟨awaitLock_lingering h, .inl hreg⟩
  case h_3 =>
    cases h
    unfold attachChecks
    split_ifs <;> simp [collabStep]
  case h_4 =>
    split at h
    · cases h
      unfold attachProbed
      split_ifs <;> simp [collabStep]
    · cases h
  case h_5 hph =>
    cases h
    refine ⟨?_, .inr hph⟩
    unfold attachRegistered
    split_ifs <;> simp
  case h_6 => cases h

theorem execDetach_collab {s t : State} (h : execDetach s = .next t) : collabStep s.sel s t := by
  unfold execDetach at h
  split at h
  case h_1 => cases h; exact ⟨rfl, .inl rfl⟩
  case h_2 =>
    obtain ⟨-, -, hreg⟩ := awaitLock_lifecycle h
    exact ⟨awaitLock_lingering h, .inl hreg⟩
  case h_3 =>
    cases h
    unfold detachBegin
    split_ifs <;> simp [collabStep]
  case h_4 hph => cases h; exact ⟨by simp [detachUnregistered], .inr hph⟩
  case h_5 => cases h
  case h_6 => cases h

theorem exec_collab {i : Instr} {s t : State} (h : exec i s = .next t) : collabStep s.sel s t := by
  cases i with
  | attach => exact execAttach_collab h
  | detach => exact execDetach_collab h
  | read o n b =>
    obtain ⟨-, -, hreg⟩ := execRead_lifecycle h
    exact ⟨execRead_lingering h, .inl hreg⟩
  | write o n b =>
    obtain ⟨-, -, hreg⟩ := execWrite_lifecycle h
    exact ⟨execWrite_lingering h, .inl hreg⟩

theorem contextStep_collab {s t : State} {p : Nat} {c : Choice} (h : contextStep p c s = .next t) :
    collabStep p s t := by
  unfold contextStep at h
  have hf := fetch_finds p { s with sel := p, choice := c }
  generalize fetch p { s with sel := p, choice := c } = f at hf h
  cases hf with
  | nothing => cases h; exact ⟨rfl, .inl rfl⟩
  | illegal => cases h; exact ⟨raise_lingering .., .inl (raise_registered ..)⟩
  | descriptor hp hi =>
    obtain ⟨hling, hreg⟩ := exec_collab h
    refine ⟨hling, .inl (hreg.resolve_right fun hph => ?_)⟩
    rw [setPort_sel, port_setPort_self _ _ hp] at hph
    cases hi.symm.trans hph
  | latched => exact exec_collab h
  | stray => cases h

/-! Every move. -/

/-- What a move does to the collaborator: a late call, a block reset and the discard may change what it
holds, and so may, of the steps of contexts, the answer to one in COLLAB. -/
inductive CollabMove (s t : State) : Move → Prop
  | late (k : Nat) : CollabMove s t (.collab k)
  | reset (c : Choice) : CollabMove s t (.reset c)
  | discard (hl : t.lingering = s.lingering) : CollabMove s t .discard
  | answer {p : Nat} {c : Choice} (hl : t.lingering = s.lingering) (hph : (s.port p).ph = .collab) :
      CollabMove s t (.port p c)
  | still {m : Move} (hl : t.lingering = s.lingering) (hr : t.registered = s.registered) :
      CollabMove s t m

theorem runMove_collab {m : Move} {s t : State} (h : runMove m s = .next t) : CollabMove s t m := by
  cases m with
  | collab k => exact .late k
  | reset c => exact .reset c
  | discard => cases h; exact .discard rfl
  | port p c =>
    obtain ⟨hling, hreg | hph⟩ := contextStep_collab h
    · exact .still hling hreg
    · exact .answer hling hph
  | tick => cases h; exact .still (tick_lingering s) (tick_registered s)
  | present p d => cases h; exact .still rfl rfl
  | hostWrite a v =>
    cases h
    obtain ⟨-, -, -, -, -, -, -, -, -, -, -, hreg, hling, -⟩ := hostWrite_frame a v s
    exact .still hling hreg
  | hostRead a n =>
    cases h
    obtain ⟨v, d, m, ps, e, -⟩ := hostRead_frame a n s
    exact .still (by rw [e]) (by rw [e])
  | powerLoss c =>
    cases h
    obtain ⟨e, w, d, hf⟩ := powerLoss_frame c s
    exact .still (by rw [hf]) (by rw [hf])
  | inputs full dev => cases h; exact .still rfl rfl

/-- Settles O45: a late call by `lateCollab_some`, and the moves of `runMove_collab`. -/
theorem lateCallsTakeEffect : Obligations.LateCallsTakeEffect := by
  refine ⟨fun s k rest x ha hx => ?_, fun s rest ha => ?_, fun s t h => ?_⟩
  · have hlate := lateCollab_some (s := { s with agenda := rest }) hx
    exact ⟨_, (step_cons ha).trans (congrArg Host.Outcome.next hlate), registers_iff, rfl, rfl, rfl, rfl,
      ⟨rfl, rfl, rfl, rfl⟩, ⟨rfl, rfl⟩, rfl, fun _ => rfl, rfl, fun _ => rfl, rfl, rfl⟩
  · exact ⟨_, step_cons ha, rfl, rfl, rfl, rfl, rfl, ⟨rfl, rfl, rfl, rfl⟩, ⟨rfl, rfl⟩, rfl, fun _ => rfl,
      rfl, fun _ => rfl, rfl, rfl⟩
  · cases ha : s.agenda with
    | nil =>
      rw [step_nil ha] at h
      cases h
      exact ⟨fun hne => absurd (tick_lingering s) hne, fun hne => absurd (tick_registered s) hne⟩
    | cons m rest =>
      rw [step_cons ha] at h
      cases runMove_collab h with
      | late k => exact ⟨fun _ => .inl ⟨k, rest, rfl⟩, fun _ => .inl ⟨k, rest, rfl⟩⟩
      | reset c => exact ⟨fun _ => .inr ⟨c, rest, rfl⟩, fun _ => .inr (.inl ⟨c, rest, rfl⟩)⟩
      | discard hl => exact ⟨fun hne => absurd hl hne, fun _ => .inr (.inr (.inl ⟨rest, rfl⟩))⟩
      | @answer p c hl hph =>
        have hp : p < s.ports.length := port_lt_of_ne_idle fun e => by cases hph.symm.trans e
        exact ⟨fun hne => absurd hl hne, fun _ => .inr (.inr (.inr ⟨p, c, rest, rfl, hp, hph⟩))⟩
      | still hl hr => exact ⟨fun hne => absurd hl hne, fun hne => absurd hr hne⟩

end Sys2Proof.Machine
end

section
/-! SUPPORT. What a block reset does to the block, to the device and to the collaborator
(70_reset_and_hazards.md R251 to R253). -/

namespace Sys2Proof.Machine

/-! The outstanding operation. -/

section
variable {s : State} {c : Choice} {q a n : Nat} {dev : BitVec 16} {v : List Byte} {hit : Bool}

/-- A dropped operation leaves the inputs and the collaborator. -/
theorem dropBus_leaves (c : Choice) (s : State) : sameConfig s (dropBus c s) ∧
    (dropBus c s).registered = s.registered ∧ (dropBus c s).lingering = s.lingering := by
  unfold dropBus
  split <;> simp [sameConfig]

/-- Only a dropped write touches the write cycle. -/
theorem dropBus_wc (h : ∀ q dev a v hit, s.bus ≠ some ⟨q, dev, .write a v, hit⟩) :
    (dropBus c s).wc = s.wc := by
  unfold dropBus
  split
  · rfl
  · rfl
  · simp
  · exact absurd ‹_› (h _ _ _ _ _)

/-- With the inputs stable, only a dropped write touches the array. -/
theorem dropBus_sameEeprom (hd : s.disturbed = false)
    (h : ∀ q dev a v hit, s.bus ≠ some ⟨q, dev, .write a v, hit⟩) : sameEeprom s (dropBus c s) := by
  intro x
  by_contra hne
  obtain ⟨q, dev, a, v, hit, hb, -⟩ := dropBus_eepromByte hd hne
  exact h q dev a v hit hb

/-- A dropped read has the effect of a read that is answered (R262). -/
theorem dropBus_read (hb : s.bus = some ⟨q, dev, .read a n, hit⟩) :
    (dropBus c s).eepromByte = (readEffect a n s).eepromByte := by
  rw [dropBus, hb]; rfl

/-- A dropped write has the effect of a failed one (R252; 20_memory.md R73). -/
theorem dropBus_write (hb : s.bus = some ⟨q, dev, .write a v, hit⟩) :
    (dropBus c s).eepromByte = (failedWrite a v.length c s).eepromByte ∧
      (dropBus c s).wc = (failedWrite a v.length c s).wc := by
  rw [dropBus, hb]; exact ⟨rfl, rfl⟩

end

/-! The outstanding call. -/

section
variable {s : State} {c : Choice} {p : Nat}

theorem collabPort_eq_none (h : ∀ p, p < s.ports.length → (s.port p).ph ≠ .collab) :
    collabPort s = none := by
  refine List.findIdx?_eq_none_iff.2 fun x hx => ?_
  obtain ⟨p, hp, rfl⟩ := List.mem_iff_getElem.1 hx
  have hph := h p hp
  rw [State.port, List.getD_eq_getElem _ _ hp] at hph
  exact beq_eq_false_iff_ne.2 hph

theorem collabPort_eq_some (hp : p < s.ports.length) (hph : (s.port p).ph = .collab)
    (huniq : ∀ q, q < s.ports.length → (s.port q).ph = .collab → q = p) : collabPort s = some p := by
  have hport {q : Nat} (hq : q < s.ports.length) : s.port q = s.ports[q] := List.getD_eq_getElem _ _ hq
  refine List.findIdx?_eq_some_iff_getElem.2 ⟨hp, beq_iff_eq.2 (hport hp ▸ hph), fun q hq hc => ?_⟩
  have hq' : q < s.ports.length := hq.trans hp
  exact hq.ne (huniq q hq' (hport hq' ▸ beq_iff_eq.1 hc))

/-- The call that context p waits for (10_state.md R38). -/
abbrev callOf (p : Nat) (s : State) : CollabCall := if (s.port p).d.op = 1 then .register else .unregister

/-- An outstanding call is cut off, with its entry in the log. -/
theorem dropCollab_some (h : collabPort s = some p) :
    ∃ e, dropCollab c s = cutOff c (callOf p s) (s.addLog e) := by
  rw [dropCollab, h]
  by_cases hop : (s.port p).d.op = 1
  · exact ⟨_, by simp only [callOf, if_pos hop]; rfl⟩
  · exact ⟨_, by simp only [callOf, if_neg hop]; rfl⟩

theorem dropCollab_config (c : Choice) (s : State) : sameConfig s (dropCollab c s) := by
  cases h : collabPort s with
  | none => rw [dropCollab, h]; exact ⟨rfl, rfl, rfl, rfl⟩
  | some p =>
    obtain ⟨e, he⟩ := dropCollab_some (c := c) h
    obtain ⟨hpar, -, -, -, -, -, -, -, -, hfull, hdev, hdist, -⟩ :=
      cutOff_frame c (callOf p s) (s.addLog e)
    rw [he]
    exact ⟨hpar, hfull, hdev, hdist⟩

/-- What becomes of `REGISTERED` and of an outstanding call. -/
theorem dropCollab_call (h : collabPort s = some p) :
    (dropCollab c s).registered = (if c.effect then (callOf p s).registers else s.registered) ∧
      (dropCollab c s).lingering = if c.effect then s.lingering else s.lingering ++ [callOf p s] := by
  obtain ⟨e, he⟩ := dropCollab_some (c := c) h
  obtain ⟨-, -, -, -, -, -, -, hreg, hling, -⟩ := cutOff_frame c (callOf p s) (s.addLog e)
  rw [he]
  exact ⟨hreg, hling⟩

theorem callOf_registers : (callOf p s).registers = decide ((s.port p).d.op = 1) := by
  by_cases hop : (s.port p).d.op = 1
  · rw [callOf, if_pos hop, decide_eq_true hop]; rfl
  · rw [callOf, if_neg hop, decide_eq_false hop]; rfl

end

/-! The block. -/

/-- The environment after a block reset: the inputs, the bus, the write cycle, the host memory. -/
theorem blockReset_leaves (c : Choice) (s : State) : sameConfig s (blockReset c s) ∧
    (blockReset c s).bus = none ∧ (blockReset c s).wc = (dropBus c s).wc ∧
    (blockReset c s).host = s.host ∧ (blockReset c s).ports = s.ports.map Port.resetContext := by
  obtain ⟨-, hports, hbus, hhost⟩ := dropBus_frame c s
  obtain ⟨-, hports', hbus', hhost', -, hwc⟩ := dropCollab_frame c (dropBus c s)
  obtain ⟨⟨h1, h2, h3, h4⟩, -⟩ := dropBus_leaves c s
  obtain ⟨g1, g2, g3, g4⟩ := dropCollab_config c (dropBus c s)
  exact ⟨⟨g1.trans h1, g2.trans h2, g3.trans h3, g4.trans h4⟩, hbus'.trans hbus, hwc, hhost'.trans hhost,
    congrArg (List.map Port.resetContext) (hports'.trans hports)⟩

/-- Every context is as at reset, and the host's side of its port is left (10_state.md R32; log 8). -/
theorem blockReset_port {c : Choice} {s : State} {p : Nat} (hp : p < s.ports.length) :
    (blockReset c s).port p = (s.port p).resetContext := by
  obtain ⟨-, -, -, -, hports⟩ := blockReset_leaves c s
  rw [← port_map s Port.resetContext p hp]
  exact port_congr hports p

/-- Every context is as at reset, and the descriptors and responses on its port stay. -/
theorem blockReset_context {c : Choice} {s : State} {p : Nat} (hp : p < s.ports.length) :
    ((blockReset c s).port p).ph = .idle ∧ ((blockReset c s).port p).d = ⟨0, 0, 0, 0⟩ ∧
      ((blockReset c s).port p).cur = 0 ∧ ((blockReset c s).port p).rem = 0 ∧
      ((blockReset c s).port p).buf = 0 ∧ ((blockReset c s).port p).clen = 0 ∧
      ((blockReset c s).port p).k = 0 ∧ sameQueues p s (blockReset c s) := by
  rw [sameQueues, blockReset_port hp]
  exact ⟨rfl, rfl, rfl, rfl, rfl, rfl, rfl, rfl, rfl⟩

/-- With the shared state at its reset values, STAT shows the policy alone (10_state.md R25). -/
theorem blockReset_stat (c : Choice) (s : State) :
    (blockReset c s).stat = if s.params.policy = .aligned then 0x00000000 else 0x00000020 := by
  obtain ⟨⟨hparams, -⟩, -⟩ := blockReset_leaves c s
  have hstat : (blockReset c s).stat =
      0#16 ++ 0#8 ++ 0#2 ++ policyBit (blockReset c s).params.policy ++ 0#1 ++ 0#1 ++ 0#1 ++ 0#2 := rfl
  rw [hstat, hparams]
  cases s.params.policy <;> rfl

/-! The collaborator. -/

/-- With no context in COLLAB a block reset leaves the collaborator. -/
theorem blockReset_no_call {c : Choice} {s : State}
    (h : ∀ p, p < s.ports.length → (s.port p).ph ≠ .collab) :
    (blockReset c s).registered = s.registered ∧ (blockReset c s).lingering = s.lingering := by
  obtain ⟨-, hports, -, -⟩ := dropBus_frame c s
  obtain ⟨-, hreg, hling⟩ := dropBus_leaves c s
  have hnone : collabPort (dropBus c s) = none := by
    rw [collabPort, hports]; exact collabPort_eq_none h
  rw [blockReset, dropCollab, hnone]
  exact ⟨hreg, hling⟩

/-- The call of the context in COLLAB takes effect in the block reset, or is left at the collaborator. -/
theorem blockReset_call {c : Choice} {s : State} {p : Nat} (hp : p < s.ports.length)
    (hph : (s.port p).ph = .collab)
    (huniq : ∀ q, q < s.ports.length → (s.port q).ph = .collab → q = p) :
    (c.effect = true → (blockReset c s).registered = decide ((s.port p).d.op = 1) ∧
      (blockReset c s).lingering = s.lingering) ∧
    (c.effect = false → (blockReset c s).registered = s.registered ∧
      (blockReset c s).lingering = s.lingering ++ [callOf p s]) := by
  obtain ⟨-, hports, -, -⟩ := dropBus_frame c s
  obtain ⟨-, hreg, hling⟩ := dropBus_leaves c s
  have hsome : collabPort (dropBus c s) = some p := by
    rw [collabPort, hports]; exact collabPort_eq_some hp hph huniq
  obtain ⟨hreg', hling'⟩ := dropCollab_call (c := c) hsome
  have hcall : callOf p (dropBus c s) = callOf p s := by rw [callOf, port_congr hports]
  rw [hcall, hreg, callOf_registers] at hreg'
  rw [hcall, hling] at hling'
  exact ⟨fun he => ⟨hreg'.trans (if_pos he), hling'.trans (if_pos he)⟩,
    fun he => ⟨hreg'.trans (if_neg (by simp [he])), hling'.trans (if_neg (by simp [he]))⟩⟩

/-! The device. -/

section
variable {s : State} {c : Choice} {q a n : Nat} {dev : BitVec 16} {v : List Byte} {hit : Bool}

/-- The bytes after a block reset are those after the drop of the outstanding operation. -/
theorem blockReset_eepromByte : (blockReset c s).eepromByte = (dropBus c s).eepromByte :=
  funext (sameEeprom_of_eq (blockReset_eeprom c s))

/-- With the inputs stable and no write outstanding, a block reset leaves the array. -/
theorem blockReset_sameEeprom (hd : s.disturbed = false)
    (h : ∀ q dev a v hit, s.bus ≠ some ⟨q, dev, .write a v, hit⟩) : sameEeprom s (blockReset c s) := by
  rw [sameEeprom, blockReset_eepromByte]
  exact dropBus_sameEeprom hd h

/-- With no write outstanding, a block reset leaves the write cycle. -/
theorem blockReset_wc (h : ∀ q dev a v hit, s.bus ≠ some ⟨q, dev, .write a v, hit⟩) :
    (blockReset c s).wc = s.wc := by
  obtain ⟨-, -, hwc, -⟩ := blockReset_leaves c s
  exact hwc.trans (dropBus_wc h)

/-- A read that a block reset drops. -/
theorem blockReset_read (hb : s.bus = some ⟨q, dev, .read a n, hit⟩) :
    (∀ x, (x < a ∨ a + n ≤ x) → (blockReset c s).eepromByte x = s.eepromByte x) ∧
      (s.disturbed = true →
        drawnApart s.draws (fun x => a ≤ x ∧ x < a + n) (blockReset c s).eepromByte) := by
  rw [blockReset_eepromByte, dropBus_read hb]
  exact ⟨fun x => eepromByte_readEffect, readEffect_drawn⟩

/-- A write that a block reset drops. -/
theorem blockReset_write (hb : s.bus = some ⟨q, dev, .write a v, hit⟩) :
    (∀ x, ¬ inWriteRange a v.length x → (blockReset c s).eepromByte x = s.eepromByte x) ∧
      drawnApart s.draws (inWriteRange a v.length) (blockReset c s).eepromByte ∧
      mayLeaveCycle a v.length c s (blockReset c s) := by
  obtain ⟨heep, hcyc⟩ := dropBus_write (c := c) hb
  obtain ⟨-, -, hwc, -⟩ := blockReset_leaves c s
  rw [blockReset_eepromByte, heep, mayLeaveCycle, hwc, hcyc]
  exact ⟨fun x hx => eepromByte_failedWrite (out_of_not_inWriteRange hx), failedWrite_drawn,
    failedWrite_leaves a v.length c s⟩

end

/-- Settles O47: the block is at its reset values; a dropped write is a failed one, a dropped read a read,
and an outstanding call is cut off. -/
theorem blockResetClearsTheBlock : Obligations.BlockResetClearsTheBlock := by
  intro s c rest ha
  obtain ⟨hcfg, hbus, -, hhost, hports⟩ := blockReset_leaves c { s with agenda := rest }
  exact ⟨_, step_cons ha, rfl, rfl, rfl, rfl, rfl, hbus, blockReset_stat c { s with agenda := rest },
    by rw [hports, List.length_map], fun p => blockReset_context (s := { s with agenda := rest }), hcfg,
    sameHost_of_eq hhost, blockReset_sameEeprom (s := { s with agenda := rest }),
    blockReset_wc (s := { s with agenda := rest }),
    fun q dev a n hit => blockReset_read (s := { s with agenda := rest }),
    fun q dev a v hit => blockReset_write (s := { s with agenda := rest }),
    blockReset_no_call (s := { s with agenda := rest }),
    fun p => blockReset_call (s := { s with agenda := rest })⟩

end Sys2Proof.Machine
end
